-- ==== Sys2Proof/Word.lean ====
section
/-! DEFINITION. The word types and the operand widths (00_scope.md R7, R8). -/

namespace Sys2Proof

/-- One 8-bit byte of memory or of the instruction stream (20_memory.md R70). -/
abbrev Byte := BitVec 8

/-- A 16-bit value: an IDTR limit, a port number (00_scope.md R7). -/
abbrev Half := BitVec 16

/-- A 32-bit value: a general register, an address (00_scope.md R7). -/
abbrev Word := BitVec 32

/-- The operand widths W, in bytes: 1, 2 and 4 and no other (00_scope.md R7, R15). -/
inductive Width
  | w1
  | w2
  | w4
deriving DecidableEq, Repr

/-- W, the width in bytes (R16). -/
abbrev Width.bytes : Width → Nat
  | .w1 => 1
  | .w2 => 2
  | .w4 => 4

/-- n = 8 W, the width in bits (R16). -/
abbrev Width.bits : Width → Nat
  | .w1 => 8
  | .w2 => 16
  | .w4 => 32

end Sys2Proof
end

