-- ==== Sys2Proof/Syntax.lean ====
section
/-! DEFINITION. The instructions as syntax: registers, addressing forms, immediates and `Instr`,
one constructor for each of the 168 rows of spec/opcode_table.json (30_encoding.md R140 to R142).

A term keeps everything its encoding holds, also what the instruction ignores: a prefix on a row
that ignores it, the scale of a SIB byte without index, the `reg` field of `setcc` (DESIGN CHOICE,
safe: log entry 21). So the length of an instruction is a function of its term, and decoding loses no bit. -/

namespace Sys2Proof

/-- A register number, 0 to 7, named by its 32-bit name (10_state.md R31). At width 1 the numbers
4 to 7 (`esp`, `ebp`, `esi`, `edi` here) name AH, CH, DH and BH (R31, 30_encoding.md R105). -/
inductive Reg
  | eax
  | ecx
  | edx
  | ebx
  | esp
  | ebp
  | esi
  | edi
deriving DecidableEq, Repr

/-- The SIB `scale` field: the index multiplier 1, 2, 4 or 8 (30_encoding.md R103). -/
inductive Scale
  | s1
  | s2
  | s4
  | s8
deriving DecidableEq, Repr

/-- The displacement that the ModR/M `mod` field calls for: none at 00, 1 byte at 01, 4 bytes at 10
(30_encoding.md R121). -/
inductive Disp
  | none
  | d8 (d : Byte)
  | d32 (d : Word)
deriving DecidableEq, Repr

/-- The addressing forms of ModR/M and SIB (30_encoding.md R121, R122). -/
inductive MemOp
  /-- mod = 00, rm = 101: an absolute address. -/
  | abs (addr : Word)
  /-- [base + disp], without a SIB byte. -/
  | base (b : Reg) (disp : Disp)
  /-- [base + index * scale + disp] with a SIB byte; the index number 4 (`esp`) means no index. -/
  | sib (scale : Scale) (index : Reg) (b : Reg) (disp : Disp)
  /-- SIB base = 101 with mod = 00: [index * scale + disp32], no base. -/
  | sibNoBase (scale : Scale) (index : Reg) (disp : Word)
deriving DecidableEq, Repr

/-- The E operand of a ModR/M byte: a register (mod = 11) or memory (30_encoding.md R104). -/
inductive RM
  | reg (r : Reg)
  | mem (m : MemOp)
deriving DecidableEq, Repr

/-- The operand size `osz` of a row that uses the prefix: 2 bytes under prefix 0x66, else 4
(00_scope.md R16, 30_encoding.md R131, R135). -/
inductive OSize
  | o16
  | o32
deriving DecidableEq, Repr

/-- The width of an operand of size `osz`. -/
abbrev OSize.width : OSize → Width
  | .o16 => .w2
  | .o32 => .w4

/-- An `Iv` immediate: 2 bytes under prefix 0x66, else 4 (30_encoding.md R104). -/
inductive ImmV
  | i16 (v : Half)
  | i32 (v : Word)
deriving DecidableEq, Repr

/-- The operand size that goes with an `Iv` immediate. -/
abbrev ImmV.osz : ImmV → OSize
  | .i16 _ => .o16
  | .i32 _ => .o32

/-- The immediate's value at its operand size. -/
abbrev ImmV.value : (i : ImmV) → BitVec i.osz.width.bits
  | .i16 v => v
  | .i32 v => v

/-- The fourteen condition codes the model holds flags for (45_control_gk.md R430); the two that
test parity, cc = 0xA and 0xB, are refused at decode. -/
inductive Cond
  | o
  | no
  | b
  | ae
  | e
  | ne
  | be
  | a
  | s
  | ns
  | l
  | ge
  | le
  | g
deriving DecidableEq, Repr

/-- The mnemonics that `Unimplemented` names (60_exceptions.md R500, R502). -/
inductive Placeholder
  | movCr
  | int
  | iret
  | pusha
  | popa
deriving DecidableEq, Repr

/-- The forms that `UnsupportedForm` names (60_exceptions.md R500). -/
inductive RefusedForm
  /-- A prefix byte other than 0x66 (30_encoding.md R131). -/
  | prefixByte (b : Byte)
  /-- A prefix of any kind after 0x66 (R131). -/
  | secondPrefix (b : Byte)
  /-- 0x66 on a row that refuses it (R135). -/
  | osizePrefix
  /-- cc = 0xA or 0xB (45_control_gk.md R430). -/
  | parityCond
  /-- An extension row with `EXT_GK` false (00_scope.md R5). -/
  | extGkOff
  /-- `pop` to memory with ESP in its address (R138, 42_datamove.md R308). -/
  | popMemEsp
  /-- An instruction byte in `MMIO_REGION` (R130). -/
  | fetchMmio
deriving DecidableEq, Repr

/-- One constructor per row of spec/opcode_table.json. Fields: `p` says that the prefix 0x66 stands
before a row that ignores it; `o` is the operand size of a row that uses the prefix; a row with an
`ImmV` takes its operand size from it; a row that refuses the prefix has none of these (R135).
The destination stands before the source, as in the table. -/
inductive Instr
  -- add (40_arith.md R210)
  /-- `00 /r` -/
  | addEbGb (p : Bool) (rm : RM) (r : Reg)
  /-- `01 /r` -/
  | addEvGv (o : OSize) (rm : RM) (r : Reg)
  /-- `02 /r` -/
  | addGbEb (p : Bool) (r : Reg) (rm : RM)
  /-- `03 /r` -/
  | addGvEv (o : OSize) (r : Reg) (rm : RM)
  /-- `04 ib` -/
  | addALIb (p : Bool) (imm : Byte)
  /-- `05 iv` -/
  | addEAXIv (imm : ImmV)
  /-- `80 /0 ib` -/
  | addEbIb (p : Bool) (rm : RM) (imm : Byte)
  /-- `81 /0 iv` -/
  | addEvIv (rm : RM) (imm : ImmV)
  /-- `83 /0 ib` -/
  | addEvSIb (o : OSize) (rm : RM) (imm : Byte)
  -- or (44_logic_gk.md R403)
  /-- `08 /r` -/
  | orEbGb (p : Bool) (rm : RM) (r : Reg)
  /-- `09 /r` -/
  | orEvGv (o : OSize) (rm : RM) (r : Reg)
  /-- `0A /r` -/
  | orGbEb (p : Bool) (r : Reg) (rm : RM)
  /-- `0B /r` -/
  | orGvEv (o : OSize) (r : Reg) (rm : RM)
  /-- `0C ib` -/
  | orALIb (p : Bool) (imm : Byte)
  /-- `0D iv` -/
  | orEAXIv (imm : ImmV)
  /-- `80 /1 ib` -/
  | orEbIb (p : Bool) (rm : RM) (imm : Byte)
  /-- `81 /1 iv` -/
  | orEvIv (rm : RM) (imm : ImmV)
  /-- `83 /1 ib` -/
  | orEvSIb (o : OSize) (rm : RM) (imm : Byte)
  -- adc (40_arith.md R212)
  /-- `10 /r` -/
  | adcEbGb (p : Bool) (rm : RM) (r : Reg)
  /-- `11 /r` -/
  | adcEvGv (o : OSize) (rm : RM) (r : Reg)
  /-- `12 /r` -/
  | adcGbEb (p : Bool) (r : Reg) (rm : RM)
  /-- `13 /r` -/
  | adcGvEv (o : OSize) (r : Reg) (rm : RM)
  /-- `14 ib` -/
  | adcALIb (p : Bool) (imm : Byte)
  /-- `15 iv` -/
  | adcEAXIv (imm : ImmV)
  /-- `80 /2 ib` -/
  | adcEbIb (p : Bool) (rm : RM) (imm : Byte)
  /-- `81 /2 iv` -/
  | adcEvIv (rm : RM) (imm : ImmV)
  /-- `83 /2 ib` -/
  | adcEvSIb (o : OSize) (rm : RM) (imm : Byte)
  -- sbb (40_arith.md R215)
  /-- `18 /r` -/
  | sbbEbGb (p : Bool) (rm : RM) (r : Reg)
  /-- `19 /r` -/
  | sbbEvGv (o : OSize) (rm : RM) (r : Reg)
  /-- `1A /r` -/
  | sbbGbEb (p : Bool) (r : Reg) (rm : RM)
  /-- `1B /r` -/
  | sbbGvEv (o : OSize) (r : Reg) (rm : RM)
  /-- `1C ib` -/
  | sbbALIb (p : Bool) (imm : Byte)
  /-- `1D iv` -/
  | sbbEAXIv (imm : ImmV)
  /-- `80 /3 ib` -/
  | sbbEbIb (p : Bool) (rm : RM) (imm : Byte)
  /-- `81 /3 iv` -/
  | sbbEvIv (rm : RM) (imm : ImmV)
  /-- `83 /3 ib` -/
  | sbbEvSIb (o : OSize) (rm : RM) (imm : Byte)
  -- and (44_logic_gk.md R402)
  /-- `20 /r` -/
  | andEbGb (p : Bool) (rm : RM) (r : Reg)
  /-- `21 /r` -/
  | andEvGv (o : OSize) (rm : RM) (r : Reg)
  /-- `22 /r` -/
  | andGbEb (p : Bool) (r : Reg) (rm : RM)
  /-- `23 /r` -/
  | andGvEv (o : OSize) (r : Reg) (rm : RM)
  /-- `24 ib` -/
  | andALIb (p : Bool) (imm : Byte)
  /-- `25 iv` -/
  | andEAXIv (imm : ImmV)
  /-- `80 /4 ib` -/
  | andEbIb (p : Bool) (rm : RM) (imm : Byte)
  /-- `81 /4 iv` -/
  | andEvIv (rm : RM) (imm : ImmV)
  /-- `83 /4 ib` -/
  | andEvSIb (o : OSize) (rm : RM) (imm : Byte)
  -- sub (40_arith.md R214)
  /-- `28 /r` -/
  | subEbGb (p : Bool) (rm : RM) (r : Reg)
  /-- `29 /r` -/
  | subEvGv (o : OSize) (rm : RM) (r : Reg)
  /-- `2A /r` -/
  | subGbEb (p : Bool) (r : Reg) (rm : RM)
  /-- `2B /r` -/
  | subGvEv (o : OSize) (r : Reg) (rm : RM)
  /-- `2C ib` -/
  | subALIb (p : Bool) (imm : Byte)
  /-- `2D iv` -/
  | subEAXIv (imm : ImmV)
  /-- `80 /5 ib` -/
  | subEbIb (p : Bool) (rm : RM) (imm : Byte)
  /-- `81 /5 iv` -/
  | subEvIv (rm : RM) (imm : ImmV)
  /-- `83 /5 ib` -/
  | subEvSIb (o : OSize) (rm : RM) (imm : Byte)
  -- xor (44_logic_gk.md R404)
  /-- `30 /r` -/
  | xorEbGb (p : Bool) (rm : RM) (r : Reg)
  /-- `31 /r` -/
  | xorEvGv (o : OSize) (rm : RM) (r : Reg)
  /-- `32 /r` -/
  | xorGbEb (p : Bool) (r : Reg) (rm : RM)
  /-- `33 /r` -/
  | xorGvEv (o : OSize) (r : Reg) (rm : RM)
  /-- `34 ib` -/
  | xorALIb (p : Bool) (imm : Byte)
  /-- `35 iv` -/
  | xorEAXIv (imm : ImmV)
  /-- `80 /6 ib` -/
  | xorEbIb (p : Bool) (rm : RM) (imm : Byte)
  /-- `81 /6 iv` -/
  | xorEvIv (rm : RM) (imm : ImmV)
  /-- `83 /6 ib` -/
  | xorEvSIb (o : OSize) (rm : RM) (imm : Byte)
  -- cmp (40_arith.md R216)
  /-- `38 /r` -/
  | cmpEbGb (p : Bool) (rm : RM) (r : Reg)
  /-- `39 /r` -/
  | cmpEvGv (o : OSize) (rm : RM) (r : Reg)
  /-- `3A /r` -/
  | cmpGbEb (p : Bool) (r : Reg) (rm : RM)
  /-- `3B /r` -/
  | cmpGvEv (o : OSize) (r : Reg) (rm : RM)
  /-- `3C ib` -/
  | cmpALIb (p : Bool) (imm : Byte)
  /-- `3D iv` -/
  | cmpEAXIv (imm : ImmV)
  /-- `80 /7 ib` -/
  | cmpEbIb (p : Bool) (rm : RM) (imm : Byte)
  /-- `81 /7 iv` -/
  | cmpEvIv (rm : RM) (imm : ImmV)
  /-- `83 /7 ib` -/
  | cmpEvSIb (o : OSize) (rm : RM) (imm : Byte)
  -- test (44_logic_gk.md R405)
  /-- `84 /r` -/
  | testEbGb (p : Bool) (rm : RM) (r : Reg)
  /-- `85 /r` -/
  | testEvGv (o : OSize) (rm : RM) (r : Reg)
  /-- `A8 ib` -/
  | testALIb (p : Bool) (imm : Byte)
  /-- `A9 iv` -/
  | testEAXIv (imm : ImmV)
  /-- `F6 /0 ib` -/
  | testEbIb (p : Bool) (rm : RM) (imm : Byte)
  /-- `F7 /0 iv` -/
  | testEvIv (rm : RM) (imm : ImmV)
  -- inc, dec, neg (40_arith.md R218 to R220), not (44_logic_gk.md R407)
  /-- `40+r` -/
  | incRv (o : OSize) (r : Reg)
  /-- `FE /0` -/
  | incEb (p : Bool) (rm : RM)
  /-- `FF /0` -/
  | incEv (o : OSize) (rm : RM)
  /-- `48+r` -/
  | decRv (o : OSize) (r : Reg)
  /-- `FE /1` -/
  | decEb (p : Bool) (rm : RM)
  /-- `FF /1` -/
  | decEv (o : OSize) (rm : RM)
  /-- `F6 /3` -/
  | negEb (p : Bool) (rm : RM)
  /-- `F7 /3` -/
  | negEv (o : OSize) (rm : RM)
  /-- `F6 /2` -/
  | notEb (p : Bool) (rm : RM)
  /-- `F7 /2` -/
  | notEv (o : OSize) (rm : RM)
  -- shl, shr, sar (44_logic_gk.md R406 to R410)
  /-- `C0 /4 ib` -/
  | shlEbIb (p : Bool) (rm : RM) (imm : Byte)
  /-- `C1 /4 ib` -/
  | shlEvIb (o : OSize) (rm : RM) (imm : Byte)
  /-- `D0 /4` -/
  | shlEb1 (p : Bool) (rm : RM)
  /-- `D1 /4` -/
  | shlEv1 (o : OSize) (rm : RM)
  /-- `D2 /4` -/
  | shlEbCL (p : Bool) (rm : RM)
  /-- `D3 /4` -/
  | shlEvCL (o : OSize) (rm : RM)
  /-- `C0 /5 ib` -/
  | shrEbIb (p : Bool) (rm : RM) (imm : Byte)
  /-- `C1 /5 ib` -/
  | shrEvIb (o : OSize) (rm : RM) (imm : Byte)
  /-- `D0 /5` -/
  | shrEb1 (p : Bool) (rm : RM)
  /-- `D1 /5` -/
  | shrEv1 (o : OSize) (rm : RM)
  /-- `D2 /5` -/
  | shrEbCL (p : Bool) (rm : RM)
  /-- `D3 /5` -/
  | shrEvCL (o : OSize) (rm : RM)
  /-- `C0 /7 ib` -/
  | sarEbIb (p : Bool) (rm : RM) (imm : Byte)
  /-- `C1 /7 ib` -/
  | sarEvIb (o : OSize) (rm : RM) (imm : Byte)
  /-- `D0 /7` -/
  | sarEb1 (p : Bool) (rm : RM)
  /-- `D1 /7` -/
  | sarEv1 (o : OSize) (rm : RM)
  /-- `D2 /7` -/
  | sarEbCL (p : Bool) (rm : RM)
  /-- `D3 /7` -/
  | sarEvCL (o : OSize) (rm : RM)
  -- mul, imul, div, idiv (41_muldiv.md R252 to R258)
  /-- `F6 /4` -/
  | mulEb (p : Bool) (rm : RM)
  /-- `F7 /4` -/
  | mulEv (o : OSize) (rm : RM)
  /-- `F6 /5` -/
  | imulEb (p : Bool) (rm : RM)
  /-- `F7 /5` -/
  | imulEv (o : OSize) (rm : RM)
  /-- `0F AF /r` -/
  | imulGvEv (o : OSize) (r : Reg) (rm : RM)
  /-- `69 /r iv` -/
  | imulGvEvIv (r : Reg) (rm : RM) (imm : ImmV)
  /-- `6B /r ib` -/
  | imulGvEvSIb (o : OSize) (r : Reg) (rm : RM) (imm : Byte)
  /-- `F6 /6` -/
  | divEb (p : Bool) (rm : RM)
  /-- `F7 /6` -/
  | divEv (o : OSize) (rm : RM)
  /-- `F6 /7` -/
  | idivEb (p : Bool) (rm : RM)
  /-- `F7 /7` -/
  | idivEv (o : OSize) (rm : RM)
  -- mov (42_datamove.md R300)
  /-- `88 /r` -/
  | movEbGb (p : Bool) (rm : RM) (r : Reg)
  /-- `89 /r` -/
  | movEvGv (o : OSize) (rm : RM) (r : Reg)
  /-- `8A /r` -/
  | movGbEb (p : Bool) (r : Reg) (rm : RM)
  /-- `8B /r` -/
  | movGvEv (o : OSize) (r : Reg) (rm : RM)
  /-- `A0 od` -/
  | movALOb (p : Bool) (addr : Word)
  /-- `A1 od` -/
  | movEAXOv (o : OSize) (addr : Word)
  /-- `A2 od` -/
  | movObAL (p : Bool) (addr : Word)
  /-- `A3 od` -/
  | movOvEAX (o : OSize) (addr : Word)
  /-- `B0+r ib` -/
  | movRbIb (p : Bool) (r : Reg) (imm : Byte)
  /-- `B8+r iv` -/
  | movRvIv (r : Reg) (imm : ImmV)
  /-- `C6 /0 ib` -/
  | movEbIb (p : Bool) (rm : RM) (imm : Byte)
  /-- `C7 /0 iv` -/
  | movEvIv (rm : RM) (imm : ImmV)
  -- lea, movsx, movzx, cwtl, cltd (42_datamove.md R301 to R303, R311, R312)
  /-- `8D /r` -/
  | leaGvM (o : OSize) (r : Reg) (m : MemOp)
  /-- `0F BE /r` -/
  | movsxGvEb (o : OSize) (r : Reg) (rm : RM)
  /-- `0F BF /r` -/
  | movsxGvEw (o : OSize) (r : Reg) (rm : RM)
  /-- `0F B6 /r` -/
  | movzxGvEb (o : OSize) (r : Reg) (rm : RM)
  /-- `0F B7 /r` -/
  | movzxGvEw (o : OSize) (r : Reg) (rm : RM)
  /-- `98`: cwtl at osz 4, cbtw at osz 2 -/
  | cwtl (o : OSize)
  /-- `99`: cltd at osz 4, cwtd at osz 2 -/
  | cltd (o : OSize)
  -- push, pop, leave (42_datamove.md R306, R308, R310)
  /-- `50+r` -/
  | pushRv (o : OSize) (r : Reg)
  /-- `68 iv` -/
  | pushIv (imm : ImmV)
  /-- `6A ib` -/
  | pushSIb (o : OSize) (imm : Byte)
  /-- `FF /6` -/
  | pushEv (o : OSize) (rm : RM)
  /-- `58+r` -/
  | popRv (o : OSize) (r : Reg)
  /-- `8F /0` -/
  | popEv (o : OSize) (rm : RM)
  /-- `C9` -/
  | leave
  -- in, out, lidt (43_system.md R344, R345, R340)
  /-- `E4 ib` -/
  | inALIb (p : Bool) (port : Byte)
  /-- `E5 ib` -/
  | inEAXIb (o : OSize) (port : Byte)
  /-- `EC` -/
  | inALDX (p : Bool)
  /-- `ED` -/
  | inEAXDX (o : OSize)
  /-- `E6 ib` -/
  | outIbAL (p : Bool) (port : Byte)
  /-- `E7 ib` -/
  | outIbEAX (o : OSize) (port : Byte)
  /-- `EE` -/
  | outDXAL (p : Bool)
  /-- `EF` -/
  | outDXEAX (o : OSize)
  /-- `0F 01 /3` -/
  | lidtM (p : Bool) (m : MemOp)
  -- the unimplemented placeholders (42_datamove.md R313; 43_system.md R342, R343, R346)
  /-- `60` -/
  | pusha (p : Bool)
  /-- `61` -/
  | popa (p : Bool)
  /-- `CD ib` -/
  | intIb (p : Bool) (vector : Byte)
  /-- `CF` -/
  | iret (p : Bool)
  /-- `0F 20 /r` (mod, CR number and register are not used: R342) -/
  | movFromCr (p : Bool) (modrm : Byte)
  /-- `0F 22 /r` (mod, CR number and register are not used: R342) -/
  | movToCr (p : Bool) (modrm : Byte)
  -- control transfer, setcc, nop (45_control_gk.md R432 to R441)
  /-- `70+cc jb` -/
  | jccJb (cc : Cond) (disp : Byte)
  /-- `0F 80+cc jd` -/
  | jccJd (cc : Cond) (disp : Word)
  /-- `EB jb` -/
  | jmpJb (disp : Byte)
  /-- `E9 jd` -/
  | jmpJd (disp : Word)
  /-- `FF /4` -/
  | jmpEd (rm : RM)
  /-- `E8 jd` -/
  | callJd (disp : Word)
  /-- `FF /2` -/
  | callEd (rm : RM)
  /-- `C3` -/
  | ret
  /-- `0F 90+cc /any` (the reg field is ignored: R141) -/
  | setccEb (p : Bool) (cc : Cond) (reg : Reg) (rm : RM)
  /-- `90` -/
  | nop (p : Bool)
deriving DecidableEq, Repr

end Sys2Proof
end

