-- ==== Sys2Proof/WellFormed.lean ====
section
/-! DEFINITION. Which terms of `Instr` some bytes encode: the addressing forms of 30_encoding.md R121
and R122 have three gaps, and R138 refuses `pop` to memory through ESP. Everything else that R138 and
R152 refuse (a register where the row needs memory, an undefined group digit, a parity condition) has
no term. -/

namespace Sys2Proof

/-- A displacement form stands for mod = 00 with base EBP, which the encoding uses for something else
(30_encoding.md R121, R122). -/
def Disp.fitsBase : Disp → Reg → Bool
  | .none, .ebp => false
  | _, _ => true

/-- An addressing form that ModR/M and SIB can encode: without SIB the base is not ESP (rm = 100 calls
for a SIB byte), and mod = 00 with base EBP is [disp32] without base (R121, R122). -/
def MemOp.wellFormed : MemOp → Bool
  | .abs _ => true
  | .base b disp => b != .esp && disp.fitsBase b
  | .sib _ _ b disp => disp.fitsBase b
  | .sibNoBase _ _ _ => true

/-- The address uses ESP: as SIB base, since index 4 means no index (30_encoding.md R122). -/
def MemOp.usesEsp : MemOp → Bool
  | .abs _ => false
  | .base b _ => b == .esp
  | .sib _ _ b _ => b == .esp
  | .sibNoBase _ _ _ => false

def RM.wellFormed : RM → Bool
  | .reg _ => true
  | .mem m => m.wellFormed

def RM.usesEsp : RM → Bool
  | .reg _ => false
  | .mem m => m.usesEsp

/-- Some bytes encode the instruction, and decode does not refuse them. -/
def Instr.wellFormed : Instr → Bool
  | .popEv _ rm => rm.wellFormed && !rm.usesEsp
  | .addEbGb _ rm _ | .addEvGv _ rm _ | .addGbEb _ _ rm | .addGvEv _ _ rm | .addEbIb _ rm _
  | .addEvIv rm _ | .addEvSIb _ rm _ | .orEbGb _ rm _ | .orEvGv _ rm _ | .orGbEb _ _ rm
  | .orGvEv _ _ rm | .orEbIb _ rm _ | .orEvIv rm _ | .orEvSIb _ rm _ | .adcEbGb _ rm _
  | .adcEvGv _ rm _ | .adcGbEb _ _ rm | .adcGvEv _ _ rm | .adcEbIb _ rm _ | .adcEvIv rm _
  | .adcEvSIb _ rm _ | .sbbEbGb _ rm _ | .sbbEvGv _ rm _ | .sbbGbEb _ _ rm | .sbbGvEv _ _ rm
  | .sbbEbIb _ rm _ | .sbbEvIv rm _ | .sbbEvSIb _ rm _ | .andEbGb _ rm _ | .andEvGv _ rm _
  | .andGbEb _ _ rm | .andGvEv _ _ rm | .andEbIb _ rm _ | .andEvIv rm _ | .andEvSIb _ rm _
  | .subEbGb _ rm _ | .subEvGv _ rm _ | .subGbEb _ _ rm | .subGvEv _ _ rm | .subEbIb _ rm _
  | .subEvIv rm _ | .subEvSIb _ rm _ | .xorEbGb _ rm _ | .xorEvGv _ rm _ | .xorGbEb _ _ rm
  | .xorGvEv _ _ rm | .xorEbIb _ rm _ | .xorEvIv rm _ | .xorEvSIb _ rm _ | .cmpEbGb _ rm _
  | .cmpEvGv _ rm _ | .cmpGbEb _ _ rm | .cmpGvEv _ _ rm | .cmpEbIb _ rm _ | .cmpEvIv rm _
  | .cmpEvSIb _ rm _ | .testEbGb _ rm _ | .testEvGv _ rm _ | .testEbIb _ rm _ | .testEvIv rm _
  | .incEb _ rm | .incEv _ rm | .decEb _ rm | .decEv _ rm | .negEb _ rm | .negEv _ rm | .notEb _ rm
  | .notEv _ rm | .shlEbIb _ rm _ | .shlEvIb _ rm _ | .shlEb1 _ rm | .shlEv1 _ rm | .shlEbCL _ rm
  | .shlEvCL _ rm | .shrEbIb _ rm _ | .shrEvIb _ rm _ | .shrEb1 _ rm | .shrEv1 _ rm | .shrEbCL _ rm
  | .shrEvCL _ rm | .sarEbIb _ rm _ | .sarEvIb _ rm _ | .sarEb1 _ rm | .sarEv1 _ rm | .sarEbCL _ rm
  | .sarEvCL _ rm | .mulEb _ rm | .mulEv _ rm | .imulEb _ rm | .imulEv _ rm | .imulGvEv _ _ rm
  | .imulGvEvIv _ rm _ | .imulGvEvSIb _ _ rm _ | .divEb _ rm | .divEv _ rm | .idivEb _ rm
  | .idivEv _ rm | .movEbGb _ rm _ | .movEvGv _ rm _ | .movGbEb _ _ rm | .movGvEv _ _ rm
  | .movEbIb _ rm _ | .movEvIv rm _ | .movsxGvEb _ _ rm | .movsxGvEw _ _ rm | .movzxGvEb _ _ rm
  | .movzxGvEw _ _ rm | .pushEv _ rm | .jmpEd rm | .callEd rm | .setccEb _ _ _ rm => rm.wellFormed
  | .leaGvM _ _ m | .lidtM _ m => m.wellFormed
  | .addALIb _ _ | .addEAXIv _ | .orALIb _ _ | .orEAXIv _ | .adcALIb _ _ | .adcEAXIv _ | .sbbALIb _ _
  | .sbbEAXIv _ | .andALIb _ _ | .andEAXIv _ | .subALIb _ _ | .subEAXIv _ | .xorALIb _ _ | .xorEAXIv _
  | .cmpALIb _ _ | .cmpEAXIv _ | .testALIb _ _ | .testEAXIv _ | .incRv _ _ | .decRv _ _ | .movALOb _ _
  | .movEAXOv _ _ | .movObAL _ _ | .movOvEAX _ _ | .movRbIb _ _ _ | .movRvIv _ _ | .cwtl _ | .cltd _
  | .pushRv _ _ | .pushIv _ | .pushSIb _ _ | .popRv _ _ | .leave | .inALIb _ _ | .inEAXIb _ _
  | .inALDX _ | .inEAXDX _ | .outIbAL _ _ | .outIbEAX _ _ | .outDXAL _ | .outDXEAX _ | .pusha _
  | .popa _ | .intIb _ _ | .iret _ | .movFromCr _ _ | .movToCr _ _ | .jccJb _ _ | .jccJd _ _ | .jmpJb _
  | .jmpJd _ | .callJd _ | .ret | .nop _ => true

end Sys2Proof
end

