-- ==== Sys2Proof/Decode.lean ====
section
/-! DEFINITION. The decoder, total on any byte string (30_encoding.md R130 to R142, R150 to R154), the
encoder, and the length of an instruction.

The decoder takes the bytes at `pc` that can be fetched and answers the instruction with the bytes
after it, or a named error. It looks at a byte only when the instruction has it, and makes each check
as soon as the bytes the check needs are there (60_exceptions.md R508), so `needMore` says that the
instruction has a byte beyond those given. -/

namespace Sys2Proof

/-- Why decode gives no instruction (30_encoding.md R137). -/
inductive DecodeError
  /-- The instruction has a byte beyond those given (R130). -/
  | needMore
  /-- No row, an undefined group digit, or a register where the row needs memory; with the bytes
  read, the prefix among them (R133, R138, R142, R150; DEDUCED, safe: log entry 9). -/
  | invalidOpcode (bytes : List Byte)
  /-- A refused form (R131, R135, R138). -/
  | unsupportedForm (what : RefusedForm)
  /-- A placeholder whose operand byte is not there: the fault is raised as soon as the opcode has
  been read (R154; DEDUCED, safe: log entry 13). -/
  | unimplemented (m : Placeholder)
deriving DecidableEq, Repr

/-! ### Fields -/

/-- The register of a 3-bit field (10_state.md R31). -/
def Reg.ofNum : Nat → Reg
  | 0 => .eax
  | 1 => .ecx
  | 2 => .edx
  | 3 => .ebx
  | 4 => .esp
  | 5 => .ebp
  | 6 => .esi
  | _ => .edi

/-- The number of a register (10_state.md R31). -/
def Reg.num : Reg → Nat
  | .eax => 0
  | .ecx => 1
  | .edx => 2
  | .ebx => 3
  | .esp => 4
  | .ebp => 5
  | .esi => 6
  | .edi => 7

/-- The SIB scale of a 2-bit field (30_encoding.md R103). -/
def Scale.ofNum : Nat → Scale
  | 0 => .s1
  | 1 => .s2
  | 2 => .s4
  | _ => .s8

def Scale.num : Scale → Nat
  | .s1 => 0
  | .s2 => 1
  | .s4 => 2
  | .s8 => 3

/-- The condition of a cc field; none for the parity conditions 0xA and 0xB (45_control_gk.md R430). -/
def Cond.ofNum : Nat → Option Cond
  | 0x0 => some .o
  | 0x1 => some .no
  | 0x2 => some .b
  | 0x3 => some .ae
  | 0x4 => some .e
  | 0x5 => some .ne
  | 0x6 => some .be
  | 0x7 => some .a
  | 0x8 => some .s
  | 0x9 => some .ns
  | 0xC => some .l
  | 0xD => some .ge
  | 0xE => some .le
  | 0xF => some .g
  | _ => none

def Cond.num : Cond → Nat
  | .o => 0x0
  | .no => 0x1
  | .b => 0x2
  | .ae => 0x3
  | .e => 0x4
  | .ne => 0x5
  | .be => 0x6
  | .a => 0x7
  | .s => 0x8
  | .ns => 0x9
  | .l => 0xC
  | .ge => 0xD
  | .le => 0xE
  | .g => 0xF

/-- Bits 7:6 of a ModR/M or SIB byte: `mod`, `scale` (30_encoding.md R102, R103). -/
def highField (b : Byte) : Nat := b.toNat / 64

/-- Bits 5:3: `reg`, `index`. -/
def midField (b : Byte) : Nat := b.toNat / 8 % 8

/-- Bits 2:0: `rm`, `base`. -/
def lowField (b : Byte) : Nat := b.toNat % 8

/-- The operand size under the prefix 0x66 or without it (30_encoding.md R131). -/
def OSize.ofPrefix (p : Bool) : OSize := if p then .o16 else .o32

/-- The prefix bytes other than 0x66 (30_encoding.md R131). -/
def isRefusedPrefix (b : Byte) : Bool :=
  [0xF0, 0xF2, 0xF3, 0x26, 0x2E, 0x36, 0x3E, 0x64, 0x65, 0x67].contains b

/-- A prefix of any kind (R131). -/
def isPrefix (b : Byte) : Bool := b == 0x66 || isRefusedPrefix b

/-! ### Bytes of the instruction stream, little-endian (30_encoding.md R125) -/

def takeByte : List Byte → Except DecodeError (Byte × List Byte)
  | b :: bs => .ok (b, bs)
  | [] => .error .needMore

def takeHalf : List Byte → Except DecodeError (Half × List Byte)
  | b0 :: b1 :: bs => .ok (b1 ++ b0, bs)
  | _ => .error .needMore

def takeWord : List Byte → Except DecodeError (Word × List Byte)
  | b0 :: b1 :: b2 :: b3 :: bs => .ok (b3 ++ b2 ++ b1 ++ b0, bs)
  | _ => .error .needMore

/-- An `Iv` immediate at the operand size the prefix selects (30_encoding.md R104, R126). -/
def takeImmV (p : Bool) (bs : List Byte) : Except DecodeError (ImmV × List Byte) :=
  if p then do
    let (v, bs) ← takeHalf bs
    return (.i16 v, bs)
  else do
    let (v, bs) ← takeWord bs
    return (.i32 v, bs)

/-- The displacement that `mod` = 0, 1, 2 calls for (30_encoding.md R121). -/
def takeDisp (mod : Nat) (bs : List Byte) : Except DecodeError (Disp × List Byte) :=
  match mod with
  | 0 => .ok (.none, bs)
  | 1 => do
    let (d, bs) ← takeByte bs
    return (.d8 d, bs)
  | _ => do
    let (d, bs) ← takeWord bs
    return (.d32 d, bs)

/-- The addressing form of a ModR/M byte whose `mod` is not 11 (30_encoding.md R121, R122). With
`noEsp` a SIB base ESP is refused as soon as the SIB byte is read (R138, 60_exceptions.md R508). -/
def takeMem (noEsp : Bool) (modrm : Byte) (bs : List Byte) : Except DecodeError (MemOp × List Byte) := do
  let mod := highField modrm
  let rm := Reg.ofNum (lowField modrm)
  if rm = .esp then
    let (sib, bs) ← takeByte bs
    let scale := Scale.ofNum (highField sib)
    let index := Reg.ofNum (midField sib)
    let b := Reg.ofNum (lowField sib)
    if noEsp ∧ b = .esp then
      throw (.unsupportedForm .popMemEsp)
    else if mod = 0 ∧ b = .ebp then
      let (d, bs) ← takeWord bs
      return (.sibNoBase scale index d, bs)
    else
      let (disp, bs) ← takeDisp mod bs
      return (.sib scale index b disp, bs)
  else if mod = 0 ∧ rm = .ebp then
    let (a, bs) ← takeWord bs
    return (.abs a, bs)
  else
    let (disp, bs) ← takeDisp mod bs
    return (.base rm disp, bs)

/-- The E operand of a ModR/M byte (30_encoding.md R102, R121). -/
def takeRM (noEsp : Bool) (modrm : Byte) (bs : List Byte) : Except DecodeError (RM × List Byte) :=
  if highField modrm = 3 then
    .ok (.reg (Reg.ofNum (lowField modrm)), bs)
  else do
    let (m, bs) ← takeMem noEsp modrm bs
    return (.mem m, bs)

/-! ### The opcode map -/

/-- What follows the ModR/M byte of a row, and the instruction made of it. -/
inductive ModLayout
  | plain (mk : RM → Instr)
  | imm8 (mk : RM → Byte → Instr)
  | immV (mk : RM → ImmV → Instr)
  /-- The row needs memory: mod = 11 has no row (30_encoding.md R138). -/
  | memOnly (mk : MemOp → Instr)
  /-- `pop`: memory through ESP is refused (R138). -/
  | noEsp (mk : RM → Instr)

/-- A row selected by the ModR/M `reg` field: whether it is an extension row (`set`), whether it
refuses the prefix (column `66`), and its layout (30_encoding.md R142). -/
structure ModRow where
  ext : Bool := false
  ref : Bool := false
  layout : ModLayout

/-- What follows the opcode of a row. -/
inductive Layout
  | noRow
  /-- cc = 0xA or 0xB (45_control_gk.md R430). -/
  | parity
  | bare (i : Instr)
  | imm8 (mk : Byte → Instr)
  | imm32 (mk : Word → Instr)
  | immV (mk : ImmV → Instr)
  /-- A ModR/M byte, whose `reg` field selects a row, a G register, or neither. -/
  | modrm (row : Reg → Option ModRow)
  /-- A placeholder with one more byte, which it does not use (30_encoding.md R154). -/
  | stub (m : Placeholder) (mk : Byte → Instr)

/-- A row of the opcode map: extension row, refuses the prefix, layout (30_encoding.md R140). -/
structure OpRow where
  ext : Bool := false
  ref : Bool := false
  layout : Layout

/-- A `/r` row. -/
def slashR (mk : RM → Reg → Instr) : Layout :=
  .modrm fun r => some { layout := .plain fun rm => mk rm r }

/-- The nine forms that one two-operand mnemonic has (40_arith.md R206, 44_logic_gk.md R401). -/
structure AluRows where
  ebGb : Bool → RM → Reg → Instr
  evGv : OSize → RM → Reg → Instr
  gbEb : Bool → Reg → RM → Instr
  gvEv : OSize → Reg → RM → Instr
  alIb : Bool → Byte → Instr
  eaxIv : ImmV → Instr
  ebIb : Bool → RM → Byte → Instr
  evIv : RM → ImmV → Instr
  evSIb : OSize → RM → Byte → Instr

/-- The eight mnemonics by group-1 digit; the base opcode of digit k is 8 k (R206, R401). -/
def aluRows : Nat → AluRows
  | 0 =>
    ⟨.addEbGb, .addEvGv, .addGbEb, .addGvEv, .addALIb, .addEAXIv, .addEbIb, .addEvIv, .addEvSIb⟩
  | 1 =>
    ⟨.orEbGb, .orEvGv, .orGbEb, .orGvEv, .orALIb, .orEAXIv, .orEbIb, .orEvIv, .orEvSIb⟩
  | 2 =>
    ⟨.adcEbGb, .adcEvGv, .adcGbEb, .adcGvEv, .adcALIb, .adcEAXIv, .adcEbIb, .adcEvIv, .adcEvSIb⟩
  | 3 =>
    ⟨.sbbEbGb, .sbbEvGv, .sbbGbEb, .sbbGvEv, .sbbALIb, .sbbEAXIv, .sbbEbIb, .sbbEvIv, .sbbEvSIb⟩
  | 4 =>
    ⟨.andEbGb, .andEvGv, .andGbEb, .andGvEv, .andALIb, .andEAXIv, .andEbIb, .andEvIv, .andEvSIb⟩
  | 5 =>
    ⟨.subEbGb, .subEvGv, .subGbEb, .subGvEv, .subALIb, .subEAXIv, .subEbIb, .subEvIv, .subEvSIb⟩
  | 6 =>
    ⟨.xorEbGb, .xorEvGv, .xorGbEb, .xorGvEv, .xorALIb, .xorEAXIv, .xorEbIb, .xorEvIv, .xorEvSIb⟩
  | _ =>
    ⟨.cmpEbGb, .cmpEvGv, .cmpGbEb, .cmpGvEv, .cmpALIb, .cmpEAXIv, .cmpEbIb, .cmpEvIv, .cmpEvSIb⟩

/-- `or`, `and` and `xor` are extension rows (00_scope.md R5). -/
def aluExt (k : Nat) : Bool := k == 1 || k == 4 || k == 6

/-- The opcodes 00 to 3F: digit op / 8, form op mod 8 (30_encoding.md R140). -/
def aluRow (p : Bool) (op : Nat) : OpRow :=
  let c := aluRows (op / 8)
  let o := OSize.ofPrefix p
  match op % 8 with
  | 0 => { ext := aluExt (op / 8), layout := slashR (c.ebGb p) }
  | 1 => { ext := aluExt (op / 8), layout := slashR (c.evGv o) }
  | 2 => { ext := aluExt (op / 8), layout := slashR fun rm r => c.gbEb p r rm }
  | 3 => { ext := aluExt (op / 8), layout := slashR fun rm r => c.gvEv o r rm }
  | 4 => { ext := aluExt (op / 8), layout := .imm8 (c.alIb p) }
  | 5 => { ext := aluExt (op / 8), layout := .immV c.eaxIv }
  | _ => { layout := .noRow }

/-- Group 1 (30_encoding.md R142): every digit has a row, `form` says which of the nine. -/
def group1 (form : AluRows → ModLayout) : Layout :=
  .modrm fun d => some { ext := aluExt d.num, layout := form (aluRows d.num) }

/-- Group 2, the shifts (R142): /4, /5 and /7; their opcodes are extension rows (R140). -/
def group2 (shl shr sar : ModLayout) : Layout :=
  .modrm fun d =>
    match d.num with
    | 4 => some { layout := shl }
    | 5 => some { layout := shr }
    | 7 => some { layout := sar }
    | _ => none

/-- Group 3 (R142): `test`, `not`, `neg`, `mul`, `imul`, `div`, `idiv`; /1 has no row. -/
def group3 (test : ModLayout) (not neg mul imul div idiv : RM → Instr) : Layout :=
  .modrm fun d =>
    match d.num with
    | 0 => some { ext := true, layout := test }
    | 2 => some { ext := true, layout := .plain not }
    | 3 => some { layout := .plain neg }
    | 4 => some { layout := .plain mul }
    | 5 => some { layout := .plain imul }
    | 6 => some { layout := .plain div }
    | 7 => some { layout := .plain idiv }
    | _ => none

/-- Group 4 (FE): `inc`, `dec` (R142). -/
def group4 (p : Bool) : Layout :=
  .modrm fun d =>
    match d.num with
    | 0 => some { layout := .plain (.incEb p) }
    | 1 => some { layout := .plain (.decEb p) }
    | _ => none

/-- Group 5 (FF): `inc`, `dec`, `call`, `jmp`, `push`; `call` and `jmp` refuse the prefix (R142, R140). -/
def group5 (o : OSize) : Layout :=
  .modrm fun d =>
    match d.num with
    | 0 => some { layout := .plain (.incEv o) }
    | 1 => some { layout := .plain (.decEv o) }
    | 2 => some { ext := true, ref := true, layout := .plain .callEd }
    | 4 => some { ext := true, ref := true, layout := .plain .jmpEd }
    | 6 => some { layout := .plain (.pushEv o) }
    | _ => none

/-- A group with a row at /0 alone (8F, C6, C7: R142). -/
def onlyZero (layout : ModLayout) : Layout :=
  .modrm fun d =>
    match d.num with
    | 0 => some { layout := layout }
    | _ => none

/-- A condition-code row: the low 4 bits of the opcode select it (45_control_gk.md R430). -/
def condRow (ref : Bool) (op : Nat) (layout : Cond → Layout) : OpRow :=
  match Cond.ofNum (op % 16) with
  | some cc => { ext := true, ref := ref, layout := layout cc }
  | none => { ext := true, ref := ref, layout := .parity }

/-- The one-byte opcode map (30_encoding.md R140); `p` says that the prefix 0x66 has been read. -/
def oneByte (p : Bool) (op : Nat) : OpRow :=
  let o := OSize.ofPrefix p
  let r := Reg.ofNum (op % 8)
  if op < 0x40 then aluRow p op
  else if op < 0x48 then { layout := .bare (.incRv o r) }
  else if op < 0x50 then { layout := .bare (.decRv o r) }
  else if op < 0x58 then { layout := .bare (.pushRv o r) }
  else if op < 0x60 then { layout := .bare (.popRv o r) }
  else if 0x70 ≤ op ∧ op < 0x80 then condRow true op fun cc => .imm8 (.jccJb cc)
  else if 0xB0 ≤ op ∧ op < 0xB8 then { layout := .imm8 (.movRbIb p r) }
  else if 0xB8 ≤ op ∧ op < 0xC0 then { layout := .immV (.movRvIv r) }
  else
    match op with
    | 0x60 => { layout := .bare (.pusha p) }
    | 0x61 => { layout := .bare (.popa p) }
    | 0x68 => { layout := .immV .pushIv }
    | 0x69 => { layout := .modrm fun r => some { layout := .immV (.imulGvEvIv r) } }
    | 0x6A => { layout := .imm8 (.pushSIb o) }
    | 0x6B => { layout := .modrm fun r => some { layout := .imm8 (.imulGvEvSIb o r) } }
    | 0x80 => { layout := group1 fun c => .imm8 (c.ebIb p) }
    | 0x81 => { layout := group1 fun c => .immV c.evIv }
    | 0x83 => { layout := group1 fun c => .imm8 (c.evSIb o) }
    | 0x84 => { ext := true, layout := slashR (.testEbGb p) }
    | 0x85 => { ext := true, layout := slashR (.testEvGv o) }
    | 0x88 => { layout := slashR (.movEbGb p) }
    | 0x89 => { layout := slashR (.movEvGv o) }
    | 0x8A => { layout := slashR fun rm r => .movGbEb p r rm }
    | 0x8B => { layout := slashR fun rm r => .movGvEv o r rm }
    | 0x8D => { layout := .modrm fun r => some { layout := .memOnly (.leaGvM o r) } }
    | 0x8F => { layout := onlyZero (.noEsp (.popEv o)) }
    | 0x90 => { ext := true, layout := .bare (.nop p) }
    | 0x98 => { layout := .bare (.cwtl o) }
    | 0x99 => { layout := .bare (.cltd o) }
    | 0xA0 => { layout := .imm32 (.movALOb p) }
    | 0xA1 => { layout := .imm32 (.movEAXOv o) }
    | 0xA2 => { layout := .imm32 (.movObAL p) }
    | 0xA3 => { layout := .imm32 (.movOvEAX o) }
    | 0xA8 => { ext := true, layout := .imm8 (.testALIb p) }
    | 0xA9 => { ext := true, layout := .immV .testEAXIv }
    | 0xC0 => { ext := true, layout := group2 (.imm8 (.shlEbIb p)) (.imm8 (.shrEbIb p)) (.imm8 (.sarEbIb p)) }
    | 0xC1 => { ext := true, layout := group2 (.imm8 (.shlEvIb o)) (.imm8 (.shrEvIb o)) (.imm8 (.sarEvIb o)) }
    | 0xC3 => { ext := true, ref := true, layout := .bare .ret }
    | 0xC6 => { layout := onlyZero (.imm8 (.movEbIb p)) }
    | 0xC7 => { layout := onlyZero (.immV .movEvIv) }
    | 0xC9 => { ref := true, layout := .bare .leave }
    | 0xCD => { layout := .stub .int (.intIb p) }
    | 0xCF => { layout := .bare (.iret p) }
    | 0xD0 => { ext := true, layout := group2 (.plain (.shlEb1 p)) (.plain (.shrEb1 p)) (.plain (.sarEb1 p)) }
    | 0xD1 => { ext := true, layout := group2 (.plain (.shlEv1 o)) (.plain (.shrEv1 o)) (.plain (.sarEv1 o)) }
    | 0xD2 => { ext := true, layout := group2 (.plain (.shlEbCL p)) (.plain (.shrEbCL p)) (.plain (.sarEbCL p)) }
    | 0xD3 => { ext := true, layout := group2 (.plain (.shlEvCL o)) (.plain (.shrEvCL o)) (.plain (.sarEvCL o)) }
    | 0xE4 => { layout := .imm8 (.inALIb p) }
    | 0xE5 => { layout := .imm8 (.inEAXIb o) }
    | 0xE6 => { layout := .imm8 (.outIbAL p) }
    | 0xE7 => { layout := .imm8 (.outIbEAX o) }
    | 0xE8 => { ext := true, ref := true, layout := .imm32 .callJd }
    | 0xE9 => { ext := true, ref := true, layout := .imm32 .jmpJd }
    | 0xEB => { ext := true, ref := true, layout := .imm8 .jmpJb }
    | 0xEC => { layout := .bare (.inALDX p) }
    | 0xED => { layout := .bare (.inEAXDX o) }
    | 0xEE => { layout := .bare (.outDXAL p) }
    | 0xEF => { layout := .bare (.outDXEAX o) }
    | 0xF6 =>
      { layout := group3 (.imm8 (.testEbIb p)) (.notEb p) (.negEb p) (.mulEb p) (.imulEb p) (.divEb p) (.idivEb p) }
    | 0xF7 =>
      { layout := group3 (.immV .testEvIv) (.notEv o) (.negEv o) (.mulEv o) (.imulEv o) (.divEv o) (.idivEv o) }
    | 0xFE => { layout := group4 p }
    | 0xFF => { layout := group5 o }
    | _ => { layout := .noRow }

/-- The two-byte opcode map, after 0x0F (30_encoding.md R141). -/
def twoByte (p : Bool) (op : Nat) : OpRow :=
  let o := OSize.ofPrefix p
  if 0x80 ≤ op ∧ op < 0x90 then condRow true op fun cc => .imm32 (.jccJd cc)
  else if 0x90 ≤ op ∧ op < 0xA0 then condRow false op fun cc => slashR fun rm r => .setccEb p cc r rm
  else
    match op with
    | 0x01 =>
      { layout := .modrm fun d =>
          match d.num with
          | 3 => some { layout := .memOnly (.lidtM p) }
          | _ => none }
    | 0x20 => { layout := .stub .movCr (.movFromCr p) }
    | 0x22 => { layout := .stub .movCr (.movToCr p) }
    | 0xAF => { layout := slashR fun rm r => .imulGvEv o r rm }
    | 0xB6 => { layout := slashR fun rm r => .movzxGvEb o r rm }
    | 0xB7 => { layout := slashR fun rm r => .movzxGvEw o r rm }
    | 0xBE => { layout := slashR fun rm r => .movsxGvEb o r rm }
    | 0xBF => { layout := slashR fun rm r => .movsxGvEw o r rm }
    | _ => { layout := .noRow }

/-! ### Decode -/

/-- The ModR/M byte and what follows it (30_encoding.md R130, R138; order of the checks: 60_exceptions.md
R508). `seen` are the bytes read before it. -/
def decodeModRM (extGk p : Bool) (seen : List Byte) (row : Reg → Option ModRow) (bs : List Byte) :
    Except DecodeError (Instr × List Byte) := do
  let (modrm, bs) ← takeByte bs
  match row (Reg.ofNum (midField modrm)) with
  | none => throw (.invalidOpcode (seen ++ [modrm]))
  | some r =>
    if r.ext ∧ ¬ extGk then throw (.unsupportedForm .extGkOff)
    else if r.ref ∧ p then throw (.unsupportedForm .osizePrefix)
    else
      match r.layout with
      | .plain mk =>
        let (rm, bs) ← takeRM false modrm bs
        return (mk rm, bs)
      | .imm8 mk =>
        let (rm, bs) ← takeRM false modrm bs
        let (imm, bs) ← takeByte bs
        return (mk rm imm, bs)
      | .immV mk =>
        let (rm, bs) ← takeRM false modrm bs
        let (imm, bs) ← takeImmV p bs
        return (mk rm imm, bs)
      | .memOnly mk =>
        if highField modrm = 3 then throw (.invalidOpcode (seen ++ [modrm]))
        else
          let (m, bs) ← takeMem false modrm bs
          return (mk m, bs)
      | .noEsp mk =>
        let (rm, bs) ← takeRM true modrm bs
        return (mk rm, bs)

/-- A row of the opcode map and what follows the opcode (30_encoding.md R133, R135, R154). The order of the checks
that one byte decides is the model's (DEDUCED, safe: log entry 7). -/
def decodeRow (extGk p : Bool) (seen : List Byte) (row : OpRow) (bs : List Byte) :
    Except DecodeError (Instr × List Byte) := do
  match row.layout with
  | .noRow => throw (.invalidOpcode seen)
  | layout =>
    if row.ext ∧ ¬ extGk then throw (.unsupportedForm .extGkOff)
    else if row.ref ∧ p then throw (.unsupportedForm .osizePrefix)
    else
      match layout with
      | .noRow => throw (.invalidOpcode seen)
      | .parity => throw (.unsupportedForm .parityCond)
      | .bare i => return (i, bs)
      | .imm8 mk =>
        let (imm, bs) ← takeByte bs
        return (mk imm, bs)
      | .imm32 mk =>
        let (imm, bs) ← takeWord bs
        return (mk imm, bs)
      | .immV mk =>
        let (imm, bs) ← takeImmV p bs
        return (mk imm, bs)
      | .modrm f => decodeModRM extGk p seen f bs
      | .stub m mk =>
        match bs with
        | [] => throw (.unimplemented m)
        | b :: bs => return (mk b, bs)

/-- The opcode byte or bytes; 0x0F is the escape to the two-byte map (30_encoding.md R133). -/
def decodeOpcode (extGk p : Bool) (seen : List Byte) (op : Byte) (bs : List Byte) :
    Except DecodeError (Instr × List Byte) :=
  if op = 0x0F then do
    let (op2, bs) ← takeByte bs
    decodeRow extGk p (seen ++ [op, op2]) (twoByte p op2.toNat) bs
  else decodeRow extGk p (seen ++ [op]) (oneByte p op.toNat) bs

/-- Decode one instruction from the bytes at `pc` (30_encoding.md R130 to R137). -/
def decode (extGk : Bool) (bs : List Byte) : Except DecodeError (Instr × List Byte) := do
  let (b, bs) ← takeByte bs
  if b = 0x66 then
    let (c, bs) ← takeByte bs
    if isPrefix c then throw (.unsupportedForm (.secondPrefix c))
    else decodeOpcode extGk true [b] c bs
  else if isRefusedPrefix b then throw (.unsupportedForm (.prefixByte b))
  else decodeOpcode extGk false [] b bs

/-! ### Encode -/

/-- The prefix of a row that ignores it. -/
def pfx (p : Bool) : List Byte := if p then [0x66] else []

/-- The prefix that selects an operand size (30_encoding.md R131). -/
def OSize.pfx : OSize → List Byte
  | .o16 => [0x66]
  | .o32 => []

/-- The two bytes of a 16-bit field, the low one first (30_encoding.md R125). -/
def halfBytes (v : Half) : List Byte := [v.extractLsb' 0 8, v.extractLsb' 8 8]

/-- The four bytes of a 32-bit field, the low one first (R125). -/
def wordBytes (v : Word) : List Byte :=
  [v.extractLsb' 0 8, v.extractLsb' 8 8, v.extractLsb' 16 8, v.extractLsb' 24 8]

def ImmV.bytes : ImmV → List Byte
  | .i16 v => halfBytes v
  | .i32 v => wordBytes v

/-- A ModR/M or SIB byte from its three fields (30_encoding.md R102, R103). -/
def fieldsByte (high mid low : Nat) : Byte := BitVec.ofNat 8 (high * 64 + mid * 8 + low)

/-- The `mod` field that a displacement form goes with (30_encoding.md R121). -/
def Disp.mod : Disp → Nat
  | .none => 0
  | .d8 _ => 1
  | .d32 _ => 2

def Disp.bytes : Disp → List Byte
  | .none => []
  | .d8 d => [d]
  | .d32 d => wordBytes d

/-- ModR/M, SIB and displacement of a memory operand, with `reg` in the ModR/M byte (R121, R122). -/
def MemOp.bytes (reg : Nat) : MemOp → List Byte
  | .abs addr => fieldsByte 0 reg 5 :: wordBytes addr
  | .base b disp => fieldsByte disp.mod reg b.num :: disp.bytes
  | .sib scale index b disp => fieldsByte disp.mod reg 4 :: fieldsByte scale.num index.num b.num :: disp.bytes
  | .sibNoBase scale index disp => fieldsByte 0 reg 4 :: fieldsByte scale.num index.num 5 :: wordBytes disp

/-- ModR/M and what follows it of an E operand. -/
def RM.bytes (reg : Nat) : RM → List Byte
  | .reg r => [fieldsByte 3 reg r.num]
  | .mem m => m.bytes reg

/-- An opcode with a register in its low 3 bits (30_encoding.md R104). -/
def opReg (op : Nat) (r : Reg) : Byte := BitVec.ofNat 8 (op + r.num)

/-- An opcode with a condition in its low 4 bits (45_control_gk.md R430). -/
def opCond (op : Nat) (cc : Cond) : Byte := BitVec.ofNat 8 (op + cc.num)

/-- The bytes of an instruction, from the encodings of the instruction rules and of 30_encoding.md
R140 to R142. -/
def encode : Instr → List Byte
  | .addEbGb p rm r => pfx p ++ 0x00 :: rm.bytes r.num
  | .addEvGv o rm r => o.pfx ++ 0x01 :: rm.bytes r.num
  | .addGbEb p r rm => pfx p ++ 0x02 :: rm.bytes r.num
  | .addGvEv o r rm => o.pfx ++ 0x03 :: rm.bytes r.num
  | .addALIb p imm => pfx p ++ [0x04, imm]
  | .addEAXIv imm => imm.osz.pfx ++ 0x05 :: imm.bytes
  | .addEbIb p rm imm => pfx p ++ 0x80 :: rm.bytes 0 ++ [imm]
  | .addEvIv rm imm => imm.osz.pfx ++ 0x81 :: rm.bytes 0 ++ imm.bytes
  | .addEvSIb o rm imm => o.pfx ++ 0x83 :: rm.bytes 0 ++ [imm]
  | .orEbGb p rm r => pfx p ++ 0x08 :: rm.bytes r.num
  | .orEvGv o rm r => o.pfx ++ 0x09 :: rm.bytes r.num
  | .orGbEb p r rm => pfx p ++ 0x0A :: rm.bytes r.num
  | .orGvEv o r rm => o.pfx ++ 0x0B :: rm.bytes r.num
  | .orALIb p imm => pfx p ++ [0x0C, imm]
  | .orEAXIv imm => imm.osz.pfx ++ 0x0D :: imm.bytes
  | .orEbIb p rm imm => pfx p ++ 0x80 :: rm.bytes 1 ++ [imm]
  | .orEvIv rm imm => imm.osz.pfx ++ 0x81 :: rm.bytes 1 ++ imm.bytes
  | .orEvSIb o rm imm => o.pfx ++ 0x83 :: rm.bytes 1 ++ [imm]
  | .adcEbGb p rm r => pfx p ++ 0x10 :: rm.bytes r.num
  | .adcEvGv o rm r => o.pfx ++ 0x11 :: rm.bytes r.num
  | .adcGbEb p r rm => pfx p ++ 0x12 :: rm.bytes r.num
  | .adcGvEv o r rm => o.pfx ++ 0x13 :: rm.bytes r.num
  | .adcALIb p imm => pfx p ++ [0x14, imm]
  | .adcEAXIv imm => imm.osz.pfx ++ 0x15 :: imm.bytes
  | .adcEbIb p rm imm => pfx p ++ 0x80 :: rm.bytes 2 ++ [imm]
  | .adcEvIv rm imm => imm.osz.pfx ++ 0x81 :: rm.bytes 2 ++ imm.bytes
  | .adcEvSIb o rm imm => o.pfx ++ 0x83 :: rm.bytes 2 ++ [imm]
  | .sbbEbGb p rm r => pfx p ++ 0x18 :: rm.bytes r.num
  | .sbbEvGv o rm r => o.pfx ++ 0x19 :: rm.bytes r.num
  | .sbbGbEb p r rm => pfx p ++ 0x1A :: rm.bytes r.num
  | .sbbGvEv o r rm => o.pfx ++ 0x1B :: rm.bytes r.num
  | .sbbALIb p imm => pfx p ++ [0x1C, imm]
  | .sbbEAXIv imm => imm.osz.pfx ++ 0x1D :: imm.bytes
  | .sbbEbIb p rm imm => pfx p ++ 0x80 :: rm.bytes 3 ++ [imm]
  | .sbbEvIv rm imm => imm.osz.pfx ++ 0x81 :: rm.bytes 3 ++ imm.bytes
  | .sbbEvSIb o rm imm => o.pfx ++ 0x83 :: rm.bytes 3 ++ [imm]
  | .andEbGb p rm r => pfx p ++ 0x20 :: rm.bytes r.num
  | .andEvGv o rm r => o.pfx ++ 0x21 :: rm.bytes r.num
  | .andGbEb p r rm => pfx p ++ 0x22 :: rm.bytes r.num
  | .andGvEv o r rm => o.pfx ++ 0x23 :: rm.bytes r.num
  | .andALIb p imm => pfx p ++ [0x24, imm]
  | .andEAXIv imm => imm.osz.pfx ++ 0x25 :: imm.bytes
  | .andEbIb p rm imm => pfx p ++ 0x80 :: rm.bytes 4 ++ [imm]
  | .andEvIv rm imm => imm.osz.pfx ++ 0x81 :: rm.bytes 4 ++ imm.bytes
  | .andEvSIb o rm imm => o.pfx ++ 0x83 :: rm.bytes 4 ++ [imm]
  | .subEbGb p rm r => pfx p ++ 0x28 :: rm.bytes r.num
  | .subEvGv o rm r => o.pfx ++ 0x29 :: rm.bytes r.num
  | .subGbEb p r rm => pfx p ++ 0x2A :: rm.bytes r.num
  | .subGvEv o r rm => o.pfx ++ 0x2B :: rm.bytes r.num
  | .subALIb p imm => pfx p ++ [0x2C, imm]
  | .subEAXIv imm => imm.osz.pfx ++ 0x2D :: imm.bytes
  | .subEbIb p rm imm => pfx p ++ 0x80 :: rm.bytes 5 ++ [imm]
  | .subEvIv rm imm => imm.osz.pfx ++ 0x81 :: rm.bytes 5 ++ imm.bytes
  | .subEvSIb o rm imm => o.pfx ++ 0x83 :: rm.bytes 5 ++ [imm]
  | .xorEbGb p rm r => pfx p ++ 0x30 :: rm.bytes r.num
  | .xorEvGv o rm r => o.pfx ++ 0x31 :: rm.bytes r.num
  | .xorGbEb p r rm => pfx p ++ 0x32 :: rm.bytes r.num
  | .xorGvEv o r rm => o.pfx ++ 0x33 :: rm.bytes r.num
  | .xorALIb p imm => pfx p ++ [0x34, imm]
  | .xorEAXIv imm => imm.osz.pfx ++ 0x35 :: imm.bytes
  | .xorEbIb p rm imm => pfx p ++ 0x80 :: rm.bytes 6 ++ [imm]
  | .xorEvIv rm imm => imm.osz.pfx ++ 0x81 :: rm.bytes 6 ++ imm.bytes
  | .xorEvSIb o rm imm => o.pfx ++ 0x83 :: rm.bytes 6 ++ [imm]
  | .cmpEbGb p rm r => pfx p ++ 0x38 :: rm.bytes r.num
  | .cmpEvGv o rm r => o.pfx ++ 0x39 :: rm.bytes r.num
  | .cmpGbEb p r rm => pfx p ++ 0x3A :: rm.bytes r.num
  | .cmpGvEv o r rm => o.pfx ++ 0x3B :: rm.bytes r.num
  | .cmpALIb p imm => pfx p ++ [0x3C, imm]
  | .cmpEAXIv imm => imm.osz.pfx ++ 0x3D :: imm.bytes
  | .cmpEbIb p rm imm => pfx p ++ 0x80 :: rm.bytes 7 ++ [imm]
  | .cmpEvIv rm imm => imm.osz.pfx ++ 0x81 :: rm.bytes 7 ++ imm.bytes
  | .cmpEvSIb o rm imm => o.pfx ++ 0x83 :: rm.bytes 7 ++ [imm]
  | .testEbGb p rm r => pfx p ++ 0x84 :: rm.bytes r.num
  | .testEvGv o rm r => o.pfx ++ 0x85 :: rm.bytes r.num
  | .testALIb p imm => pfx p ++ [0xA8, imm]
  | .testEAXIv imm => imm.osz.pfx ++ 0xA9 :: imm.bytes
  | .testEbIb p rm imm => pfx p ++ 0xF6 :: rm.bytes 0 ++ [imm]
  | .testEvIv rm imm => imm.osz.pfx ++ 0xF7 :: rm.bytes 0 ++ imm.bytes
  | .incRv o r => o.pfx ++ [opReg 0x40 r]
  | .incEb p rm => pfx p ++ 0xFE :: rm.bytes 0
  | .incEv o rm => o.pfx ++ 0xFF :: rm.bytes 0
  | .decRv o r => o.pfx ++ [opReg 0x48 r]
  | .decEb p rm => pfx p ++ 0xFE :: rm.bytes 1
  | .decEv o rm => o.pfx ++ 0xFF :: rm.bytes 1
  | .negEb p rm => pfx p ++ 0xF6 :: rm.bytes 3
  | .negEv o rm => o.pfx ++ 0xF7 :: rm.bytes 3
  | .notEb p rm => pfx p ++ 0xF6 :: rm.bytes 2
  | .notEv o rm => o.pfx ++ 0xF7 :: rm.bytes 2
  | .shlEbIb p rm imm => pfx p ++ 0xC0 :: rm.bytes 4 ++ [imm]
  | .shlEvIb o rm imm => o.pfx ++ 0xC1 :: rm.bytes 4 ++ [imm]
  | .shlEb1 p rm => pfx p ++ 0xD0 :: rm.bytes 4
  | .shlEv1 o rm => o.pfx ++ 0xD1 :: rm.bytes 4
  | .shlEbCL p rm => pfx p ++ 0xD2 :: rm.bytes 4
  | .shlEvCL o rm => o.pfx ++ 0xD3 :: rm.bytes 4
  | .shrEbIb p rm imm => pfx p ++ 0xC0 :: rm.bytes 5 ++ [imm]
  | .shrEvIb o rm imm => o.pfx ++ 0xC1 :: rm.bytes 5 ++ [imm]
  | .shrEb1 p rm => pfx p ++ 0xD0 :: rm.bytes 5
  | .shrEv1 o rm => o.pfx ++ 0xD1 :: rm.bytes 5
  | .shrEbCL p rm => pfx p ++ 0xD2 :: rm.bytes 5
  | .shrEvCL o rm => o.pfx ++ 0xD3 :: rm.bytes 5
  | .sarEbIb p rm imm => pfx p ++ 0xC0 :: rm.bytes 7 ++ [imm]
  | .sarEvIb o rm imm => o.pfx ++ 0xC1 :: rm.bytes 7 ++ [imm]
  | .sarEb1 p rm => pfx p ++ 0xD0 :: rm.bytes 7
  | .sarEv1 o rm => o.pfx ++ 0xD1 :: rm.bytes 7
  | .sarEbCL p rm => pfx p ++ 0xD2 :: rm.bytes 7
  | .sarEvCL o rm => o.pfx ++ 0xD3 :: rm.bytes 7
  | .mulEb p rm => pfx p ++ 0xF6 :: rm.bytes 4
  | .mulEv o rm => o.pfx ++ 0xF7 :: rm.bytes 4
  | .imulEb p rm => pfx p ++ 0xF6 :: rm.bytes 5
  | .imulEv o rm => o.pfx ++ 0xF7 :: rm.bytes 5
  | .imulGvEv o r rm => o.pfx ++ 0x0F :: 0xAF :: rm.bytes r.num
  | .imulGvEvIv r rm imm => imm.osz.pfx ++ 0x69 :: rm.bytes r.num ++ imm.bytes
  | .imulGvEvSIb o r rm imm => o.pfx ++ 0x6B :: rm.bytes r.num ++ [imm]
  | .divEb p rm => pfx p ++ 0xF6 :: rm.bytes 6
  | .divEv o rm => o.pfx ++ 0xF7 :: rm.bytes 6
  | .idivEb p rm => pfx p ++ 0xF6 :: rm.bytes 7
  | .idivEv o rm => o.pfx ++ 0xF7 :: rm.bytes 7
  | .movEbGb p rm r => pfx p ++ 0x88 :: rm.bytes r.num
  | .movEvGv o rm r => o.pfx ++ 0x89 :: rm.bytes r.num
  | .movGbEb p r rm => pfx p ++ 0x8A :: rm.bytes r.num
  | .movGvEv o r rm => o.pfx ++ 0x8B :: rm.bytes r.num
  | .movALOb p addr => pfx p ++ 0xA0 :: wordBytes addr
  | .movEAXOv o addr => o.pfx ++ 0xA1 :: wordBytes addr
  | .movObAL p addr => pfx p ++ 0xA2 :: wordBytes addr
  | .movOvEAX o addr => o.pfx ++ 0xA3 :: wordBytes addr
  | .movRbIb p r imm => pfx p ++ [opReg 0xB0 r, imm]
  | .movRvIv r imm => imm.osz.pfx ++ opReg 0xB8 r :: imm.bytes
  | .movEbIb p rm imm => pfx p ++ 0xC6 :: rm.bytes 0 ++ [imm]
  | .movEvIv rm imm => imm.osz.pfx ++ 0xC7 :: rm.bytes 0 ++ imm.bytes
  | .leaGvM o r m => o.pfx ++ 0x8D :: m.bytes r.num
  | .movsxGvEb o r rm => o.pfx ++ 0x0F :: 0xBE :: rm.bytes r.num
  | .movsxGvEw o r rm => o.pfx ++ 0x0F :: 0xBF :: rm.bytes r.num
  | .movzxGvEb o r rm => o.pfx ++ 0x0F :: 0xB6 :: rm.bytes r.num
  | .movzxGvEw o r rm => o.pfx ++ 0x0F :: 0xB7 :: rm.bytes r.num
  | .cwtl o => o.pfx ++ [0x98]
  | .cltd o => o.pfx ++ [0x99]
  | .pushRv o r => o.pfx ++ [opReg 0x50 r]
  | .pushIv imm => imm.osz.pfx ++ 0x68 :: imm.bytes
  | .pushSIb o imm => o.pfx ++ [0x6A, imm]
  | .pushEv o rm => o.pfx ++ 0xFF :: rm.bytes 6
  | .popRv o r => o.pfx ++ [opReg 0x58 r]
  | .popEv o rm => o.pfx ++ 0x8F :: rm.bytes 0
  | .leave => [0xC9]
  | .inALIb p port => pfx p ++ [0xE4, port]
  | .inEAXIb o port => o.pfx ++ [0xE5, port]
  | .inALDX p => pfx p ++ [0xEC]
  | .inEAXDX o => o.pfx ++ [0xED]
  | .outIbAL p port => pfx p ++ [0xE6, port]
  | .outIbEAX o port => o.pfx ++ [0xE7, port]
  | .outDXAL p => pfx p ++ [0xEE]
  | .outDXEAX o => o.pfx ++ [0xEF]
  | .lidtM p m => pfx p ++ 0x0F :: 0x01 :: m.bytes 3
  | .pusha p => pfx p ++ [0x60]
  | .popa p => pfx p ++ [0x61]
  | .intIb p vector => pfx p ++ [0xCD, vector]
  | .iret p => pfx p ++ [0xCF]
  | .movFromCr p modrm => pfx p ++ [0x0F, 0x20, modrm]
  | .movToCr p modrm => pfx p ++ [0x0F, 0x22, modrm]
  | .jccJb cc disp => [opCond 0x70 cc, disp]
  | .jccJd cc disp => 0x0F :: opCond 0x80 cc :: wordBytes disp
  | .jmpJb disp => [0xEB, disp]
  | .jmpJd disp => 0xE9 :: wordBytes disp
  | .jmpEd rm => 0xFF :: rm.bytes 4
  | .callJd disp => 0xE8 :: wordBytes disp
  | .callEd rm => 0xFF :: rm.bytes 2
  | .ret => [0xC3]
  | .setccEb p cc reg rm => pfx p ++ 0x0F :: opCond 0x90 cc :: rm.bytes reg.num
  | .nop p => pfx p ++ [0x90]

/-- `len`, the length of an instruction in bytes (00_scope.md R16, 30_encoding.md R132). -/
def Instr.len (i : Instr) : Nat := (encode i).length

/-- The extension rows: every row of 44_logic_gk.md and 45_control_gk.md (00_scope.md R5). -/
def Instr.isExt : Instr → Bool
  | .orEbGb .. | .orEvGv .. | .orGbEb .. | .orGvEv .. | .orALIb .. | .orEAXIv .. | .orEbIb ..
  | .orEvIv .. | .orEvSIb .. | .andEbGb .. | .andEvGv .. | .andGbEb .. | .andGvEv .. | .andALIb ..
  | .andEAXIv .. | .andEbIb .. | .andEvIv .. | .andEvSIb .. | .xorEbGb .. | .xorEvGv ..
  | .xorGbEb .. | .xorGvEv .. | .xorALIb .. | .xorEAXIv .. | .xorEbIb .. | .xorEvIv ..
  | .xorEvSIb .. | .testEbGb .. | .testEvGv .. | .testALIb .. | .testEAXIv .. | .testEbIb ..
  | .testEvIv .. | .notEb .. | .notEv .. | .shlEbIb .. | .shlEvIb .. | .shlEb1 .. | .shlEv1 ..
  | .shlEbCL .. | .shlEvCL .. | .shrEbIb .. | .shrEvIb .. | .shrEb1 .. | .shrEv1 .. | .shrEbCL ..
  | .shrEvCL .. | .sarEbIb .. | .sarEvIb .. | .sarEb1 .. | .sarEv1 .. | .sarEbCL .. | .sarEvCL ..
  | .jccJb .. | .jccJd .. | .jmpJb .. | .jmpJd .. | .jmpEd .. | .callJd .. | .callEd .. | .ret
  | .setccEb .. | .nop .. => true
  | .addEbGb .. | .addEvGv .. | .addGbEb .. | .addGvEv .. | .addALIb .. | .addEAXIv ..
  | .addEbIb .. | .addEvIv .. | .addEvSIb .. | .adcEbGb .. | .adcEvGv .. | .adcGbEb ..
  | .adcGvEv .. | .adcALIb .. | .adcEAXIv .. | .adcEbIb .. | .adcEvIv .. | .adcEvSIb ..
  | .sbbEbGb .. | .sbbEvGv .. | .sbbGbEb .. | .sbbGvEv .. | .sbbALIb .. | .sbbEAXIv ..
  | .sbbEbIb .. | .sbbEvIv .. | .sbbEvSIb .. | .subEbGb .. | .subEvGv .. | .subGbEb ..
  | .subGvEv .. | .subALIb .. | .subEAXIv .. | .subEbIb .. | .subEvIv .. | .subEvSIb ..
  | .cmpEbGb .. | .cmpEvGv .. | .cmpGbEb .. | .cmpGvEv .. | .cmpALIb .. | .cmpEAXIv ..
  | .cmpEbIb .. | .cmpEvIv .. | .cmpEvSIb .. | .incRv .. | .incEb .. | .incEv .. | .decRv ..
  | .decEb .. | .decEv .. | .negEb .. | .negEv .. | .mulEb .. | .mulEv .. | .imulEb .. | .imulEv ..
  | .imulGvEv .. | .imulGvEvIv .. | .imulGvEvSIb .. | .divEb .. | .divEv .. | .idivEb ..
  | .idivEv .. | .movEbGb .. | .movEvGv .. | .movGbEb .. | .movGvEv .. | .movALOb .. | .movEAXOv ..
  | .movObAL .. | .movOvEAX .. | .movRbIb .. | .movRvIv .. | .movEbIb .. | .movEvIv .. | .leaGvM ..
  | .movsxGvEb .. | .movsxGvEw .. | .movzxGvEb .. | .movzxGvEw .. | .cwtl .. | .cltd ..
  | .pushRv .. | .pushIv .. | .pushSIb .. | .pushEv .. | .popRv .. | .popEv .. | .leave
  | .inALIb .. | .inEAXIb .. | .inALDX .. | .inEAXDX .. | .outIbAL .. | .outIbEAX .. | .outDXAL ..
  | .outDXEAX .. | .lidtM .. | .pusha .. | .popa .. | .intIb .. | .iret .. | .movFromCr ..
  | .movToCr .. => false

/-! ### The opcode table's numbering of an instruction's bits -/

/-- The longest instruction has 11 bytes (30_encoding.md R101). -/
def maxLen : Nat := 11

/-- `nbits` bits of `w`, bit 0 the least significant bit of the first byte, then bytes of zeros up to
the longest instruction. -/
def tableBytes (nbits w : Nat) : List Byte :=
  (List.range maxLen).map fun k => BitVec.ofNat 8 (w % 2 ^ nbits / 256 ^ k)

/-- The instruction the decoder reads from bits numbered as the opcode table numbers them, with every
extension row admitted (log entry 18). -/
def decodeTableWord (nbits w : Nat) : Option Instr :=
  match decode true (tableBytes nbits w) with
  | .ok (i, _) => some i
  | .error _ => none

end Sys2Proof
end

