-- ==== Sys2Proof/Config.lean ====
section
/-! DEFINITION. What one implementation of the block fixes (the parameters of 00_scope.md R7)
and the values the spec leaves free (the draws of R14). -/

namespace Sys2Proof

/-- `MUL_FLAG_MODE` (00_scope.md R7, 41_muldiv.md R250). -/
inductive MulFlagMode
  | ia32
  | draw
deriving DecidableEq, Repr

/-- `IMUL_TRUNC_FLAG_MODE` (00_scope.md R7, 41_muldiv.md R251). -/
inductive ImulTruncFlagMode
  | unchanged
  | ia32
deriving DecidableEq, Repr

/-- `INCDEC_CF_MODE` (00_scope.md R7, 40_arith.md R217). -/
inductive IncDecCfMode
  | wraparound
  | preserve
deriving DecidableEq, Repr

/-- `OUT_WIDTH_MODE` (00_scope.md R7, 43_system.md R345). -/
inductive OutWidthMode
  | widthAware
  | narrow
deriving DecidableEq, Repr

/-- A range of `size` byte addresses from `base`; a list of them gives `MMIO_REGION`, which R7
calls a predicate on addresses (DESIGN CHOICE, safe: log entry 17). -/
structure Region where
  base : Nat
  size : Nat
deriving DecidableEq, Repr

/-- The implementation parameters of 00_scope.md R7 that a step reads. They are held in `State`
as plain data, so that a statement about every state holds for every value of them
(DESIGN CHOICE, safe: log entry 1). -/
structure Config where
  /-- `PMEM_BASE` (20_memory.md R72). -/
  pmemBase : Nat
  /-- `PMEM_SIZE` (20_memory.md R72). -/
  pmemSize : Nat
  /-- `MMIO_REGION` (20_memory.md R72), as a finite union of ranges. -/
  mmio : List Region
  /-- `EXT_GK` (00_scope.md R5). -/
  extGk : Bool
  /-- `MUL_FLAG_MODE`. -/
  mulFlags : MulFlagMode
  /-- `IMUL_TRUNC_FLAG_MODE`. -/
  imulTrunc : ImulTruncFlagMode
  /-- `INCDEC_CF_MODE`. -/
  incDecCf : IncDecCfMode
  /-- `OUT_WIDTH_MODE`. -/
  outWidth : OutWidthMode
deriving DecidableEq, Repr

/-- The parameters in the state after reset: the spec's default where R7 gives one; the RAM
range, which R7 leaves open, is the whole address space (DESIGN CHOICE, unsafe: log entry 2). -/
def Config.default : Config where
  pmemBase := 0
  pmemSize := 0x100000000
  mmio := []
  extGk := true
  mulFlags := .ia32
  imulTrunc := .unchanged
  incDecCf := .wraparound
  outWidth := .widthAware

/-- The draws of 00_scope.md R14: "a free n-bit input of the step". The k-th draw of a run takes
its bits from `drawWord k`, which has no body, so that nothing can be proved of its value (log entry 6). -/
opaque Config.drawWord : Nat → BitVec 32

end Sys2Proof
end

