-- ==== Sys2Proof/Machine/State.lean ====
section
/-! DEFINITION. The architectural state (10_state.md R30), the fault record (60_exceptions.md R500, R503),
the reasons a step of the model can stop, and reset (70_reset_and_hazards.md R600). -/

namespace Sys2Proof.Machine

/-- The eight general registers x[0..7] (10_state.md R31), each stored once; the 16- and 8-bit names are
read and written through `Regs.read` and `Regs.write`. -/
structure Regs where
  eax : Word
  ecx : Word
  edx : Word
  ebx : Word
  esp : Word
  ebp : Word
  esi : Word
  edi : Word
deriving DecidableEq, Repr

/-- The four condition flags, and no other (10_state.md R46). -/
structure Flags where
  cf : Bool
  zf : Bool
  sf : Bool
  of : Bool
deriving DecidableEq, Repr

/-- None of the four. -/
def Flags.clear : Flags := ⟨false, false, false, false⟩

/-- The interrupt-descriptor-table register (10_state.md R51). -/
structure Idtr where
  limit : Half
  base : Word
deriving DecidableEq, Repr

/-- Memory (20_memory.md R70): the listed bytes, by rising address, none of them equal to what an
unlisted address reads as (`Memory.wf`, `Memory.unlisted`). -/
abbrev Memory := List Host.Cell

/-- Where a memory access goes (20_memory.md R73). -/
inductive Space
  | ram
  | mmio
deriving DecidableEq, Repr

/-- The kind of a refused memory access (20_memory.md R73). -/
inductive AccessKind
  | fetch
  | read
  | write
deriving DecidableEq, Repr

/-- Why a divide faults (41_muldiv.md R256). -/
inductive DivideCause
  | zero
  | overflow
deriving DecidableEq, Repr

/-- What broke the decode contract (60_exceptions.md R500). -/
inductive Violation
  | writeToImmediate
  | widthNotAdmitted
deriving DecidableEq, Repr

/-- The closed set of fault and refusal reasons of the hardware (60_exceptions.md R500), with their info;
the pc stands beside the reason in `FaultRecord`. -/
inductive Reason
  | divideError (cause : DivideCause)
  | invalidOpcode (bytes : List Byte)
  | unimplemented (mnemonic : Placeholder)
  | memOutOfBounds (addr : Word) (width : Width) (kind : AccessKind)
  | decodeContractViolation (what : Violation)
  | unsupportedForm (what : RefusedForm)
deriving DecidableEq, Repr

/-- The category of a reason (R500): a fault stops an instruction the hardware admits, a refusal gives the
instruction no meaning. -/
inductive Category
  | fault
  | refusal
deriving DecidableEq, Repr

/-- The fault record: the reason with its info and the address of the faulting instruction (10_state.md R54). -/
structure FaultRecord where
  reason : Reason
  pc : Word
deriving DecidableEq, Repr

/-- `Running` or `Halted(reason, pc, info)` (10_state.md R54). -/
inductive Status
  | running
  | halted (record : FaultRecord)
deriving DecidableEq, Repr

/-- One record of the event log (20_memory.md R82): kind, address or port, width, value. The value stands
in 32 bits, zero-extended from its width (DESIGN CHOICE, safe: log entry 16). -/
inductive Event
  | portRead (port : Half) (width : Width) (value : Word)
  | portWrite (port : Half) (width : Width) (value : Word)
  | mmioRead (addr : Word) (width : Width) (value : Word)
  | mmioWrite (addr : Word) (width : Width) (value : Word)
deriving DecidableEq, Repr

/-- The state: the record of 10_state.md R30, and three fields of the model's own, `cfg`, `drawn` and `draws`. -/
structure State where
  /-- The parameters of 00_scope.md R7: the model's own field, written by no step (log entry 1). -/
  cfg : Config
  /-- x[0..7] (R31). -/
  regs : Regs
  /-- The program counter: the address of the instruction's first byte (R40). -/
  pc : Word
  /-- CF, ZF, SF and OF (R46). -/
  flags : Flags
  /-- The flags whose last write was a draw, which 45_control_gk.md R430 asks for: the model's own field (log entry
  24). -/
  drawn : Flags
  /-- IDTR (R51). -/
  idtr : Idtr
  /-- RAM (20_memory.md R70). -/
  mem : Memory
  /-- Running or halted (R54). -/
  status : Status
  /-- The accesses to ports and MMIO, oldest first (20_memory.md R82). -/
  events : List Event
  /-- How many draws have been taken: the model's own field (log entry 6). -/
  draws : Nat
deriving DecidableEq, Repr

/-- Why a step of the model ends in a fault. Raised by `step` alone, never by an instruction: the
hardware's own faults are a NEXT state with status `Halted` (60_exceptions.md R503; log entry 8). -/
inductive Fault
  /-- The core was halted before the step by a reason of category fault, and takes no step (60_exceptions.md
  R505). Safe: it is the spec's own stop. -/
  | halted (record : FaultRecord)
deriving DecidableEq, Repr

/-- Why a step of the model ends in a refusal. -/
inductive Refusal
  /-- An instruction without a meaning, rejected by its mnemonic in `exec`. Raised by no arm now. Safe. -/
  | notModelled (mnemonic : String)
  /-- The core was halted before the step by a reason of category refusal (`UnsupportedForm`), and takes no
  step (60_exceptions.md R505). Raised by `step` alone. Safe: it is the spec's own stop. -/
  | halted (record : FaultRecord)
deriving DecidableEq, Repr

/-- The launch parameters of reset (10_state.md R58, 70_reset_and_hazards.md R600, R601). -/
structure Launch where
  cfg : Config
  regs : Regs
  /-- `RESET_PC` (10_state.md R45). -/
  pc : Word
  flags : Flags
  idtr : Idtr
  /-- The loaded image (R601). -/
  image : Memory
deriving DecidableEq, Repr

/-- Reset, for any launch parameters (70_reset_and_hazards.md R600): status Running and no events are the
spec's values, the rest is launched; a launched flag is no draw (DESIGN CHOICE, unsafe: log entry 24). -/
def State.resetWith (l : Launch) : State where
  cfg := l.cfg
  regs := l.regs
  pc := l.pc
  flags := l.flags
  drawn := .clear
  idtr := l.idtr
  mem := l.image
  status := .running
  events := []
  draws := 0

/-- The launch parameters of `State.reset`, which the spec leaves open: all zero, no image byte listed
(DESIGN CHOICE, unsafe: log entries 2 to 6). -/
def Launch.default : Launch where
  cfg := .default
  regs := ⟨0, 0, 0, 0, 0, 0, 0, 0⟩
  pc := 0
  flags := .clear
  idtr := ⟨0, 0⟩
  image := []

/-- The machine right after reset, with the model's launch parameters. -/
def State.reset : State := State.resetWith .default

end Sys2Proof.Machine
end

