-- ==== Sys2Proof/Machine/Ops.lean ====
section
/-! DEFINITION. The named operations over registers, memory, ports, draws and the stack, and the one
operation by which an instruction raises a fault or a refusal. -/

namespace Sys2Proof.Machine

/-! ### Registers -/

/-- x[i] (10_state.md R31). -/
def Regs.get (x : Regs) : Reg → Word
  | .eax => x.eax
  | .ecx => x.ecx
  | .edx => x.edx
  | .ebx => x.ebx
  | .esp => x.esp
  | .ebp => x.ebp
  | .esi => x.esi
  | .edi => x.edi

/-- x[i] <- v, all 32 bits. -/
def Regs.set (x : Regs) (i : Reg) (v : Word) : Regs :=
  match i with
  | .eax => { x with eax := v }
  | .ecx => { x with ecx := v }
  | .edx => { x with edx := v }
  | .ebx => { x with ebx := v }
  | .esp => { x with esp := v }
  | .ebp => { x with ebp := v }
  | .esi => { x with esi := v }
  | .edi => { x with edi := v }

/-- The register that stores the byte register number i: x[i] for i < 4, x[i-4] above (10_state.md R31). -/
def byteHome : Reg → Reg
  | .eax | .esp => .eax
  | .ecx | .ebp => .ecx
  | .edx | .esi => .edx
  | .ebx | .edi => .ebx

/-- The byte register numbers 4 to 7 (AH, CH, DH, BH) are bits 15:8 (10_state.md R31). -/
def isHighByte : Reg → Bool
  | .eax | .ecx | .edx | .ebx => false
  | .esp | .ebp | .esi | .edi => true

/-- reg(W, i) (10_state.md R32). -/
def Regs.read (x : Regs) : (w : Width) → Reg → BitVec w.bits
  | .w4, i => x.get i
  | .w2, i => (x.get i).extractLsb' 0 16
  | .w1, i =>
    if isHighByte i then (x.get (byteHome i)).extractLsb' 8 8
    else (x.get (byteHome i)).extractLsb' 0 8

/-- reg(W, i) <- v: only the aliased bits change (10_state.md R33). -/
def Regs.write (x : Regs) : (w : Width) → Reg → BitVec w.bits → Regs
  | .w4, i, v => x.set i v
  | .w2, i, v =>
    let old := x.get i
    x.set i (old.extractLsb' 16 16 ++ v)
  | .w1, i, v =>
    let old := x.get (byteHome i)
    if isHighByte i then x.set (byteHome i) (old.extractLsb' 16 16 ++ v ++ old.extractLsb' 0 8)
    else x.set (byteHome i) (old.extractLsb' 8 24 ++ v)

/-- reg(W, i) <- v in a state. -/
def State.setReg (s : State) (w : Width) (i : Reg) (v : BitVec w.bits) : State :=
  { s with regs := s.regs.write w i v }

/-- All four flags at once; those of `drawn` were draws (45_control_gk.md R430). -/
def State.setFlagsDrawn (s : State) (f drawn : Flags) : State := { s with flags := f, drawn := drawn }

/-- All four flags at once, none of them a draw. -/
def State.setFlags (s : State) (f : Flags) : State := s.setFlagsDrawn f .clear

/-- pc <- target (10_state.md R40 to R42). -/
def State.setPc (s : State) (target : Word) : State := { s with pc := target }

/-- IDTR <- (limit, base) (10_state.md R51). -/
def State.setIdtr (s : State) (limit : Half) (base : Word) : State := { s with idtr := ⟨limit, base⟩ }

/-! ### Draws and events -/

/-- `draw_n()` (00_scope.md R14): the next free value, at n ≤ 32 bits. -/
def State.draw (n : Nat) (s : State) : BitVec n × State :=
  ((Config.drawWord s.draws).setWidth n, { s with draws := s.draws + 1 })

/-- `draw_1()` as a flag. -/
def State.drawBit (s : State) : Bool × State :=
  ((Config.drawWord s.draws).getLsbD 0, { s with draws := s.draws + 1 })

/-- Append one record to `events` (20_memory.md R82). -/
def State.log (s : State) (e : Event) : State := { s with events := s.events ++ [e] }

/-! ### Memory bytes -/

/-- What an unlisted address reads as: the byte of the loaded image, which is a launch parameter
(70_reset_and_hazards.md R601); 0 here (DESIGN CHOICE, unsafe: log entry 5). -/
def Memory.unlisted : Byte := 0

/-- The byte at an address. -/
def Memory.byte : Memory → Nat → Byte
  | [], _ => Memory.unlisted
  | (k, b) :: m, a => if k = a then b else Memory.byte m a

/-- Store one byte, keeping the canonical form. -/
def Memory.setByte : Memory → Nat → Byte → Memory
  | [], a, b => if b = Memory.unlisted then [] else [(a, b)]
  | (k, c) :: m, a, b =>
    if a < k then
      if b = Memory.unlisted then (k, c) :: m else (a, b) :: (k, c) :: m
    else if a = k then
      if b = Memory.unlisted then m else (a, b) :: m
    else (k, c) :: Memory.setByte m a b

/-- The listed addresses rise strictly from `lo`, lie in the 32-bit space, and list no byte that an
unlisted address reads as. -/
def Memory.wfFrom : Nat → Memory → Bool
  | _, [] => true
  | lo, (a, b) :: m => decide (lo ≤ a) && decide (a < 2 ^ 32) && b != Memory.unlisted && Memory.wfFrom (a + 1) m

/-- The canonical form of memory: equal memories are equal lists. -/
def Memory.wf (m : Memory) : Bool := Memory.wfFrom 0 m

/-- Store bytes at rising addresses, modulo 2^32. -/
def Memory.setBytes : Memory → Word → List Byte → Memory
  | m, _, [] => m
  | m, a, b :: bs => Memory.setBytes (Memory.setByte m a.toNat b) (a + 1) bs

/-! ### The address map -/

/-- `MMIO_REGION(addr)` (20_memory.md R72). -/
def isMmio (c : Config) (a : Word) : Bool :=
  c.mmio.any fun r => decide (r.base ≤ a.toNat) && decide (a.toNat < r.base + r.size)

/-- PMEM_BASE ≤ u(addr) < PMEM_BASE + PMEM_SIZE (R72). -/
def inPmem (c : Config) (a : Word) : Bool :=
  decide (c.pmemBase ≤ a.toNat) && decide (a.toNat < c.pmemBase + c.pmemSize)

/-- RAM: the backed addresses outside `MMIO_REGION` (20_memory.md R79; where the two overlap, DEDUCED, safe: log
entry 14). -/
def isRam (c : Config) (a : Word) : Bool := inPmem c a && !isMmio c a

/-- The byte addresses of an access, each modulo 2^32 (20_memory.md R73; DEDUCED, safe: log entry 25). -/
def touched (w : Width) (a : Word) : List Word :=
  match w with
  | .w1 => [a]
  | .w2 => [a, a + 1]
  | .w4 => [a, a + 1, a + 2, a + 3]

/-- Where an access goes; none when it is not admitted: every touched byte is RAM, or every one is MMIO
(R73). -/
def admission (c : Config) (w : Width) (a : Word) : Option Space :=
  if (touched w a).all (isRam c) then some .ram
  else if (touched w a).all (isMmio c) then some .mmio
  else none

/-! ### Memory accesses -/

/-- The bytes at `a` and up, little-endian (20_memory.md R74). -/
def readRam (m : Memory) (w : Width) (a : Word) : BitVec w.bits :=
  match w with
  | .w1 => m.byte a.toNat
  | .w2 => m.byte (a + 1).toNat ++ m.byte a.toNat
  | .w4 => m.byte (a + 3).toNat ++ m.byte (a + 2).toNat ++ m.byte (a + 1).toNat ++ m.byte a.toNat

/-- Store the bytes of `v` at `a` and up, little-endian (R74). -/
def writeRam (m : Memory) (w : Width) (a : Word) (v : BitVec w.bits) : Memory :=
  match w, v with
  | .w1, v => m.setByte a.toNat v
  | .w2, v => (m.setByte a.toNat (v.extractLsb' 0 8)).setByte (a + 1).toNat (v.extractLsb' 8 8)
  | .w4, v =>
    (((m.setByte a.toNat (v.extractLsb' 0 8)).setByte (a + 1).toNat (v.extractLsb' 8 8)).setByte
      (a + 2).toNat (v.extractLsb' 16 8)).setByte (a + 3).toNat (v.extractLsb' 24 8)

/-- `MemRead(addr, W)` (00_scope.md R12): RAM gives its bytes; MMIO gives a draw and appends an event
(20_memory.md R80); an access that is not admitted raises `MemOutOfBounds` (R73). -/
def memRead (w : Width) (a : Word) (s : State) : Except Reason (BitVec w.bits × State) :=
  match admission s.cfg w a with
  | some .ram => .ok (readRam s.mem w a, s)
  | some .mmio =>
    let (v, s) := s.draw w.bits
    .ok (v, s.log (.mmioRead a w (v.setWidth 32)))
  | none => .error (.memOutOfBounds a w .read)

/-- `MemWrite(addr, W, v)` (00_scope.md R12): RAM takes the bytes; MMIO takes an event and changes no byte
(20_memory.md R80); an access that is not admitted raises `MemOutOfBounds` (R73). -/
def memWrite (w : Width) (a : Word) (v : BitVec w.bits) (s : State) : Except Reason State :=
  match admission s.cfg w a with
  | some .ram => .ok { s with mem := writeRam s.mem w a v }
  | some .mmio => .ok (s.log (.mmioWrite a w (v.setWidth 32)))
  | none => .error (.memOutOfBounds a w .write)

/-! ### Ports -/

/-- `PortRead(port, W)`: a draw and an event (00_scope.md R13, 20_memory.md R81). -/
def portRead (port : Half) (w : Width) (s : State) : BitVec w.bits × State :=
  let (v, s) := s.draw w.bits
  (v, s.log (.portRead port w (v.setWidth 32)))

/-- `PortWrite(port, W, v)`: an event (00_scope.md R13, 20_memory.md R81). -/
def portWrite (port : Half) (w : Width) (v : BitVec w.bits) (s : State) : State :=
  s.log (.portWrite port w (v.setWidth 32))

/-! ### The stack (42_datamove.md R304) -/

/-- `Push32(w)`: store a 4-byte slot at x[4] - 4, then x[4] <- x[4] - 4. -/
def push32 (v : Word) (s : State) : Except Reason State := do
  let t := s.regs.get .esp - 4
  let s ← memWrite .w4 t v s
  return s.setReg .w4 .esp t

/-- `Pop32()`: read the 4-byte slot at x[4], then x[4] <- x[4] + 4. -/
def pop32 (s : State) : Except Reason (Word × State) := do
  let t := s.regs.get .esp
  let (v, s) ← memRead .w4 t s
  return (v, s.setReg .w4 .esp (t + 4))

/-! ### Faults and refusals, and the end of an instruction -/

/-- The category of a reason (60_exceptions.md R500). -/
def Reason.category : Reason → Category
  | .divideError _ => .fault
  | .invalidOpcode _ => .fault
  | .unimplemented _ => .fault
  | .memOutOfBounds _ _ _ => .fault
  | .decodeContractViolation _ => .fault
  | .unsupportedForm _ => .refusal

/-- The numeric code of a reason (R500). -/
def Reason.code : Reason → Nat
  | .divideError _ => 0
  | .invalidOpcode _ => 1
  | .unimplemented _ => 2
  | .memOutOfBounds _ _ _ => 3
  | .decodeContractViolation _ => 4
  | .unsupportedForm _ => 5

/-- Taking a fault or a refusal, the whole of trap entry: status <- Halted(reason, pc, info), and nothing
else changes (60_exceptions.md R503, R504, R506). Nothing returns from it (R505, R507). -/
def State.halt (s : State) (r : Reason) : State := { s with status := .halted ⟨r, s.pc⟩ }

/-- The end of a step in a fault or refusal: the state before the instruction, halted (R504). -/
def raise (r : Reason) (s : State) : Host.Outcome State Fault Refusal := .next (s.halt r)

/-- `next_pc`, the address of the following instruction (00_scope.md R16). -/
def nextPc (i : Instr) (s : State) : Word := s.pc + BitVec.ofNat 32 i.len

/-- The end of an instruction that is not a control transfer, started in `s`: commit its writes and
pc <- next_pc, or raise its reason from `s` (30_encoding.md R170, 10_state.md R41). -/
def retire (i : Instr) (s : State) (result : Except Reason State) : Host.Outcome State Fault Refusal :=
  match result with
  | .ok t => .next (t.setPc (nextPc i s))
  | .error r => raise r s

/-- The end of a control transfer, started in `s`: `result` has written pc itself (10_state.md R42). -/
def transfer (s : State) (result : Except Reason State) : Host.Outcome State Fault Refusal :=
  match result with
  | .ok t => .next t
  | .error r => raise r s

end Sys2Proof.Machine
end

