-- ==== Sys2Proof/Machine/Flags.lean ====
section
/-! DEFINITION. The flag computations: 40_arith.md R200 to R204 and R217, 41_muldiv.md R250 and R251,
44_logic_gk.md R400 and R408 to R410, 45_control_gk.md R430. -/

namespace Sys2Proof.Machine

/-- zext_n of a carry bit (40_arith.md R211). -/
def carryValue (n : Nat) (c : Bool) : BitVec n := BitVec.ofNat n c.toNat

/-- `SetZFSF(r)` on given CF and OF (40_arith.md R200). -/
def resultFlags {n : Nat} (r : BitVec n) (cf of : Bool) : Flags where
  cf := cf
  zf := r == 0
  sf := r.msb
  of := of

/-- `CarryAdd(d, s, c)`: u(d) + u(s) + c ≥ 2^n (R201). -/
def carryAdd {n : Nat} (d s : BitVec n) (c : Bool) : Bool := decide (2 ^ n ≤ d.toNat + s.toNat + c.toNat)

/-- `BorrowSub(d, s, c)`: u(d) < u(s) + c (R202). -/
def borrowSub {n : Nat} (d s : BitVec n) (c : Bool) : Bool := decide (d.toNat < s.toNat + c.toNat)

/-- `OverflowAdd(r, d, s)`: d and s have one sign and r the other (R203). -/
def overflowAdd {n : Nat} (r d s : BitVec n) : Bool := d.msb == s.msb && r.msb != d.msb

/-- `OverflowSub(r, d, s)`: d and s differ in sign, and so do r and d (R204). -/
def overflowSub {n : Nat} (r d s : BitVec n) : Bool := d.msb != s.msb && r.msb != d.msb

/-- `LogicFlags(r)` (44_logic_gk.md R400). -/
def logicFlags {n : Nat} (r : BitVec n) : Flags := resultFlags r false false

/-- The CF of `inc` and `dec`: the wraparound, or the old CF (40_arith.md R217). -/
def incDecCf (mode : IncDecCfMode) (wrapped old : Bool) : Bool :=
  match mode with
  | .wraparound => wrapped
  | .preserve => old

/-- The flags `inc` and `dec` leave as draws: a CF that was one and is kept (R217). -/
def incDecDrawn (mode : IncDecCfMode) (old : Bool) : Flags := ⟨incDecCf mode false old, false, false, false⟩

/-- A flag that a rule gives, or leaves to a draw; draws are taken in the order CF, ZF, SF, OF (DESIGN CHOICE, safe:
log entry 23). -/
def flagOrDraw (given : Option Bool) (s : State) : Bool × State :=
  match given with
  | some b => (b, s)
  | none => s.drawBit

/-- The flags after a shift whose masked count is not 0: ZF and SF from the result, CF and OF given or
drawn; OF may need CF (44_logic_gk.md R408 to R410). -/
def shiftFlags {n : Nat} (r : BitVec n) (cf : Option Bool) (of : Bool → Option Bool) (s : State) : State :=
  let (c, s) := flagOrDraw cf s
  let (o, s) := flagOrDraw (of c) s
  s.setFlagsDrawn (resultFlags r c o) ⟨cf.isNone, false, false, (of c).isNone⟩

/-- CF = OF = `significant`, ZF and SF draws: IA-32's multiply flags (41_muldiv.md R250, R251). -/
def significantFlags (significant : Bool) (s : State) : State :=
  let (zf, s) := s.drawBit
  let (sf, s) := s.drawBit
  s.setFlagsDrawn ⟨significant, zf, sf, significant⟩ ⟨false, true, true, false⟩

/-- All four flags are draws (41_muldiv.md R250, R257, R258). -/
def drawnFlags (s : State) : State :=
  let (cf, s) := s.drawBit
  let (zf, s) := s.drawBit
  let (sf, s) := s.drawBit
  let (of, s) := s.drawBit
  s.setFlagsDrawn ⟨cf, zf, sf, of⟩ ⟨true, true, true, true⟩

/-- The flags of `mul` and one-operand `imul` (41_muldiv.md R250). -/
def mulFlags (significant : Bool) (s : State) : State :=
  match s.cfg.mulFlags with
  | .ia32 => significantFlags significant s
  | .draw => drawnFlags s

/-- The flags of two- and three-operand `imul` (41_muldiv.md R251). -/
def imulTruncFlags (significant : Bool) (s : State) : State :=
  match s.cfg.imulTrunc with
  | .unchanged => s
  | .ia32 => significantFlags significant s

/-! ### Conditions (45_control_gk.md R430) -/

/-- `Cond(cc)`, by the table of R430. -/
def condHolds (cc : Cond) (f : Flags) : Bool :=
  match cc with
  | .o => f.of
  | .no => !f.of
  | .b => f.cf
  | .ae => !f.cf
  | .e => f.zf
  | .ne => !f.zf
  | .be => f.cf || f.zf
  | .a => !f.cf && !f.zf
  | .s => f.sf
  | .ns => !f.sf
  | .l => f.sf != f.of
  | .ge => f.sf == f.of
  | .le => f.zf || f.sf != f.of
  | .g => !f.zf && f.sf == f.of

/-- `Cond(cc)` reads a flag of `drawn`; it reads those its line of R430's table names, whatever their values
(DEDUCED, safe: log entry 26). -/
def condDrawn (cc : Cond) (drawn : Flags) : Bool :=
  match cc with
  | .o | .no => drawn.of
  | .b | .ae => drawn.cf
  | .e | .ne => drawn.zf
  | .be | .a => drawn.cf || drawn.zf
  | .s | .ns => drawn.sf
  | .l | .ge => drawn.sf || drawn.of
  | .le | .g => drawn.zf || drawn.sf || drawn.of

/-- Whether `Cond(cc)` holds: "A `Cond` that reads a flag whose last write was a draw is itself a draw" (R430), taken
anew at every read (log entry 24). -/
def evalCond (cc : Cond) (s : State) : Bool × State :=
  if condDrawn cc s.drawn then s.drawBit else (condHolds cc s.flags, s)

end Sys2Proof.Machine
end

