-- ==== Sys2Proof/Machine/Operands.lean ====
section
/-! DEFINITION. Operand descriptors (00_scope.md R15), the effective address (30_encoding.md R120) and
operand access (30_encoding.md R160, R161). -/

namespace Sys2Proof.Machine

/-- An operand descriptor `Reg(W, i)`, `Mem(W, addr)` or `Imm(W, v)` (00_scope.md R15). The width is part
of the type, so a width outside 1, 2, 4 cannot be formed (log entry 19). -/
inductive Operand (w : Width)
  | reg (i : Reg)
  | mem (addr : Word)
  | imm (v : BitVec w.bits)
deriving DecidableEq, Repr

/-- The displacement, sign-extended to 32 bits; 0 when there is none (30_encoding.md R120, R121). -/
def dispValue : Disp → Word
  | .none => 0
  | .d8 d => d.signExtend 32
  | .d32 d => d

/-- The index multiplier (30_encoding.md R103). -/
def scaleValue : Scale → Word
  | .s1 => 1
  | .s2 => 2
  | .s4 => 4
  | .s8 => 8

/-- x[index] * scale; 0 when the index number is 4, which means no index (30_encoding.md R122). -/
def indexValue (x : Regs) (index : Reg) (scale : Scale) : Word :=
  match index with
  | .esp => 0
  | i => x.get i * scaleValue scale

/-- The effective address, modulo 2^32, from the registers as they are before the instruction
(30_encoding.md R120 to R123). -/
def effAddr (x : Regs) : MemOp → Word
  | .abs addr => addr
  | .base b disp => x.get b + dispValue disp
  | .sib scale index b disp => x.get b + indexValue x index scale + dispValue disp
  | .sibNoBase scale index disp => indexValue x index scale + disp

/-- The descriptor of an E operand (30_encoding.md R104), its address resolved in `s` (20_memory.md R91). -/
def rmOperand (w : Width) (rm : RM) (s : State) : Operand w :=
  match rm with
  | .reg r => .reg r
  | .mem m => .mem (effAddr s.regs m)

/-- An `sIb` immediate at operand size `osz` (30_encoding.md R126). -/
def signImm (o : OSize) (imm : Byte) : BitVec o.width.bits := imm.signExtend o.width.bits

/-- `Read(op)` (30_encoding.md R160). -/
def Operand.read {w : Width} (op : Operand w) (s : State) : Except Reason (BitVec w.bits × State) :=
  match op with
  | .reg i => .ok (s.regs.read w i, s)
  | .mem addr => memRead w addr s
  | .imm v => .ok (v, s)

/-- `Write(op, v)` (30_encoding.md R161): an immediate destination is a violation of the decode contract. -/
def Operand.write {w : Width} (op : Operand w) (v : BitVec w.bits) (s : State) : Except Reason State :=
  match op with
  | .reg i => .ok (s.setReg w i v)
  | .mem addr => memWrite w addr v s
  | .imm _ => .error (.decodeContractViolation .writeToImmediate)

/-- The register that holds the high half of a product or dividend and takes the remainder: AH (byte
register number 4) at width 1, DX at 2, EDX at 4 (41_muldiv.md R252, R257). -/
def pairHigh : Width → Reg
  | .w1 => .esp
  | .w2 => .edx
  | .w4 => .edx

/-- The pair's high half, read. -/
def State.highHalf (s : State) (w : Width) : BitVec w.bits := s.regs.read w (pairHigh w)

/-- The pair's low half, the accumulator: AL, AX or EAX. -/
def State.lowHalf (s : State) (w : Width) : BitVec w.bits := s.regs.read w .eax

/-- Write both halves: low to the accumulator, high to `pairHigh`. -/
def State.setPair (s : State) (w : Width) (high low : BitVec w.bits) : State :=
  (s.setReg w .eax low).setReg w (pairHigh w) high

/-- A width in bytes, checked: a value outside 1, 2, 4 is a violation of the decode contract
(60_exceptions.md R500); no decoded instruction holds one. -/
def Width.ofBytes : Nat → Except Reason Width
  | 1 => .ok .w1
  | 2 => .ok .w2
  | 4 => .ok .w4
  | _ => .error (.decodeContractViolation .widthNotAdmitted)

end Sys2Proof.Machine
end

