-- ==== Sys2Proof/Machine/Arith.lean ====
section
/-! DEFINITION. Integer add, subtract, compare, increment, decrement and negate (40_arith.md): one handler per
mnemonic over operand descriptors, and one meaning per row of the opcode table. -/

namespace Sys2Proof.Machine

open Host (Outcome)

/-! ### add (R210) -/

/-- `add` (R210): dest <- dest + src. -/
def handleAdd {w : Width} (dst src : Operand w) (s : State) : Except Reason State := do
  let (d, s) ← dst.read s
  let (x, s) ← src.read s
  let r := d + x
  let s ← dst.write r s
  return s.setFlags (resultFlags r (carryAdd d x false) (overflowAdd r d x))

/-- `00 /r`: Eb, Gb. -/
def execAddEbGb (p : Bool) (rm : RM) (r : Reg) (s : State) : Outcome State Fault Refusal :=
  retire (.addEbGb p rm r) s (handleAdd (rmOperand .w1 rm s) (.reg r) s)

/-- `01 /r`: Ev, Gv. -/
def execAddEvGv (o : OSize) (rm : RM) (r : Reg) (s : State) : Outcome State Fault Refusal :=
  retire (.addEvGv o rm r) s (handleAdd (rmOperand o.width rm s) (.reg r) s)

/-- `02 /r`: Gb, Eb. -/
def execAddGbEb (p : Bool) (r : Reg) (rm : RM) (s : State) : Outcome State Fault Refusal :=
  retire (.addGbEb p r rm) s (handleAdd (.reg r) (rmOperand .w1 rm s) s)

/-- `03 /r`: Gv, Ev. -/
def execAddGvEv (o : OSize) (r : Reg) (rm : RM) (s : State) : Outcome State Fault Refusal :=
  retire (.addGvEv o r rm) s (handleAdd (.reg r) (rmOperand o.width rm s) s)

/-- `04 ib`: AL, Ib. -/
def execAddALIb (p : Bool) (imm : Byte) (s : State) : Outcome State Fault Refusal :=
  retire (.addALIb p imm) s (handleAdd (w := .w1) (.reg .eax) (.imm imm) s)

/-- `05 iv`: eAX, Iv. -/
def execAddEAXIv (imm : ImmV) (s : State) : Outcome State Fault Refusal :=
  retire (.addEAXIv imm) s (handleAdd (.reg .eax) (.imm imm.value) s)

/-- `80 /0 ib`: Eb, Ib. -/
def execAddEbIb (p : Bool) (rm : RM) (imm : Byte) (s : State) : Outcome State Fault Refusal :=
  retire (.addEbIb p rm imm) s (handleAdd (rmOperand .w1 rm s) (.imm imm) s)

/-- `81 /0 iv`: Ev, Iv. -/
def execAddEvIv (rm : RM) (imm : ImmV) (s : State) : Outcome State Fault Refusal :=
  retire (.addEvIv rm imm) s (handleAdd (rmOperand imm.osz.width rm s) (.imm imm.value) s)

/-- `83 /0 ib`: Ev, sIb. -/
def execAddEvSIb (o : OSize) (rm : RM) (imm : Byte) (s : State) : Outcome State Fault Refusal :=
  retire (.addEvSIb o rm imm) s (handleAdd (rmOperand o.width rm s) (.imm (signImm o imm)) s)

/-! ### adc (R212) -/

/-- `adc` (R212): dest <- dest + src + CF; OF is computed once, on the final result (R213). -/
def handleAdc {w : Width} (dst src : Operand w) (s : State) : Except Reason State := do
  let (d, s) ← dst.read s
  let (x, s) ← src.read s
  let c := s.flags.cf
  let r := d + x + carryValue w.bits c
  let s ← dst.write r s
  return s.setFlags (resultFlags r (carryAdd d x c) (overflowAdd r d x))

/-- `10 /r`: Eb, Gb. -/
def execAdcEbGb (p : Bool) (rm : RM) (r : Reg) (s : State) : Outcome State Fault Refusal :=
  retire (.adcEbGb p rm r) s (handleAdc (rmOperand .w1 rm s) (.reg r) s)

/-- `11 /r`: Ev, Gv. -/
def execAdcEvGv (o : OSize) (rm : RM) (r : Reg) (s : State) : Outcome State Fault Refusal :=
  retire (.adcEvGv o rm r) s (handleAdc (rmOperand o.width rm s) (.reg r) s)

/-- `12 /r`: Gb, Eb. -/
def execAdcGbEb (p : Bool) (r : Reg) (rm : RM) (s : State) : Outcome State Fault Refusal :=
  retire (.adcGbEb p r rm) s (handleAdc (.reg r) (rmOperand .w1 rm s) s)

/-- `13 /r`: Gv, Ev. -/
def execAdcGvEv (o : OSize) (r : Reg) (rm : RM) (s : State) : Outcome State Fault Refusal :=
  retire (.adcGvEv o r rm) s (handleAdc (.reg r) (rmOperand o.width rm s) s)

/-- `14 ib`: AL, Ib. -/
def execAdcALIb (p : Bool) (imm : Byte) (s : State) : Outcome State Fault Refusal :=
  retire (.adcALIb p imm) s (handleAdc (w := .w1) (.reg .eax) (.imm imm) s)

/-- `15 iv`: eAX, Iv. -/
def execAdcEAXIv (imm : ImmV) (s : State) : Outcome State Fault Refusal :=
  retire (.adcEAXIv imm) s (handleAdc (.reg .eax) (.imm imm.value) s)

/-- `80 /2 ib`: Eb, Ib. -/
def execAdcEbIb (p : Bool) (rm : RM) (imm : Byte) (s : State) : Outcome State Fault Refusal :=
  retire (.adcEbIb p rm imm) s (handleAdc (rmOperand .w1 rm s) (.imm imm) s)

/-- `81 /2 iv`: Ev, Iv. -/
def execAdcEvIv (rm : RM) (imm : ImmV) (s : State) : Outcome State Fault Refusal :=
  retire (.adcEvIv rm imm) s (handleAdc (rmOperand imm.osz.width rm s) (.imm imm.value) s)

/-- `83 /2 ib`: Ev, sIb. -/
def execAdcEvSIb (o : OSize) (rm : RM) (imm : Byte) (s : State) : Outcome State Fault Refusal :=
  retire (.adcEvSIb o rm imm) s (handleAdc (rmOperand o.width rm s) (.imm (signImm o imm)) s)

/-! ### sub (R214) -/

/-- `sub` (R214): dest <- dest - src. -/
def handleSub {w : Width} (dst src : Operand w) (s : State) : Except Reason State := do
  let (d, s) ← dst.read s
  let (x, s) ← src.read s
  let r := d - x
  let s ← dst.write r s
  return s.setFlags (resultFlags r (borrowSub d x false) (overflowSub r d x))

/-- `28 /r`: Eb, Gb. -/
def execSubEbGb (p : Bool) (rm : RM) (r : Reg) (s : State) : Outcome State Fault Refusal :=
  retire (.subEbGb p rm r) s (handleSub (rmOperand .w1 rm s) (.reg r) s)

/-- `29 /r`: Ev, Gv. -/
def execSubEvGv (o : OSize) (rm : RM) (r : Reg) (s : State) : Outcome State Fault Refusal :=
  retire (.subEvGv o rm r) s (handleSub (rmOperand o.width rm s) (.reg r) s)

/-- `2A /r`: Gb, Eb. -/
def execSubGbEb (p : Bool) (r : Reg) (rm : RM) (s : State) : Outcome State Fault Refusal :=
  retire (.subGbEb p r rm) s (handleSub (.reg r) (rmOperand .w1 rm s) s)

/-- `2B /r`: Gv, Ev. -/
def execSubGvEv (o : OSize) (r : Reg) (rm : RM) (s : State) : Outcome State Fault Refusal :=
  retire (.subGvEv o r rm) s (handleSub (.reg r) (rmOperand o.width rm s) s)

/-- `2C ib`: AL, Ib. -/
def execSubALIb (p : Bool) (imm : Byte) (s : State) : Outcome State Fault Refusal :=
  retire (.subALIb p imm) s (handleSub (w := .w1) (.reg .eax) (.imm imm) s)

/-- `2D iv`: eAX, Iv. -/
def execSubEAXIv (imm : ImmV) (s : State) : Outcome State Fault Refusal :=
  retire (.subEAXIv imm) s (handleSub (.reg .eax) (.imm imm.value) s)

/-- `80 /5 ib`: Eb, Ib. -/
def execSubEbIb (p : Bool) (rm : RM) (imm : Byte) (s : State) : Outcome State Fault Refusal :=
  retire (.subEbIb p rm imm) s (handleSub (rmOperand .w1 rm s) (.imm imm) s)

/-- `81 /5 iv`: Ev, Iv. -/
def execSubEvIv (rm : RM) (imm : ImmV) (s : State) : Outcome State Fault Refusal :=
  retire (.subEvIv rm imm) s (handleSub (rmOperand imm.osz.width rm s) (.imm imm.value) s)

/-- `83 /5 ib`: Ev, sIb. -/
def execSubEvSIb (o : OSize) (rm : RM) (imm : Byte) (s : State) : Outcome State Fault Refusal :=
  retire (.subEvSIb o rm imm) s (handleSub (rmOperand o.width rm s) (.imm (signImm o imm)) s)

/-! ### sbb (R215) -/

/-- `sbb` (R215): dest <- dest - src - CF. -/
def handleSbb {w : Width} (dst src : Operand w) (s : State) : Except Reason State := do
  let (d, s) ← dst.read s
  let (x, s) ← src.read s
  let c := s.flags.cf
  let r := d - x - carryValue w.bits c
  let s ← dst.write r s
  return s.setFlags (resultFlags r (borrowSub d x c) (overflowSub r d x))

/-- `18 /r`: Eb, Gb. -/
def execSbbEbGb (p : Bool) (rm : RM) (r : Reg) (s : State) : Outcome State Fault Refusal :=
  retire (.sbbEbGb p rm r) s (handleSbb (rmOperand .w1 rm s) (.reg r) s)

/-- `19 /r`: Ev, Gv. -/
def execSbbEvGv (o : OSize) (rm : RM) (r : Reg) (s : State) : Outcome State Fault Refusal :=
  retire (.sbbEvGv o rm r) s (handleSbb (rmOperand o.width rm s) (.reg r) s)

/-- `1A /r`: Gb, Eb. -/
def execSbbGbEb (p : Bool) (r : Reg) (rm : RM) (s : State) : Outcome State Fault Refusal :=
  retire (.sbbGbEb p r rm) s (handleSbb (.reg r) (rmOperand .w1 rm s) s)

/-- `1B /r`: Gv, Ev. -/
def execSbbGvEv (o : OSize) (r : Reg) (rm : RM) (s : State) : Outcome State Fault Refusal :=
  retire (.sbbGvEv o r rm) s (handleSbb (.reg r) (rmOperand o.width rm s) s)

/-- `1C ib`: AL, Ib. -/
def execSbbALIb (p : Bool) (imm : Byte) (s : State) : Outcome State Fault Refusal :=
  retire (.sbbALIb p imm) s (handleSbb (w := .w1) (.reg .eax) (.imm imm) s)

/-- `1D iv`: eAX, Iv. -/
def execSbbEAXIv (imm : ImmV) (s : State) : Outcome State Fault Refusal :=
  retire (.sbbEAXIv imm) s (handleSbb (.reg .eax) (.imm imm.value) s)

/-- `80 /3 ib`: Eb, Ib. -/
def execSbbEbIb (p : Bool) (rm : RM) (imm : Byte) (s : State) : Outcome State Fault Refusal :=
  retire (.sbbEbIb p rm imm) s (handleSbb (rmOperand .w1 rm s) (.imm imm) s)

/-- `81 /3 iv`: Ev, Iv. -/
def execSbbEvIv (rm : RM) (imm : ImmV) (s : State) : Outcome State Fault Refusal :=
  retire (.sbbEvIv rm imm) s (handleSbb (rmOperand imm.osz.width rm s) (.imm imm.value) s)

/-- `83 /3 ib`: Ev, sIb. -/
def execSbbEvSIb (o : OSize) (rm : RM) (imm : Byte) (s : State) : Outcome State Fault Refusal :=
  retire (.sbbEvSIb o rm imm) s (handleSbb (rmOperand o.width rm s) (.imm (signImm o imm)) s)

/-! ### cmp (R216) -/

/-- `cmp` (R216): the flags of dest - src; nothing is written back. -/
def handleCmp {w : Width} (dst src : Operand w) (s : State) : Except Reason State := do
  let (d, s) ← dst.read s
  let (x, s) ← src.read s
  let r := d - x
  return s.setFlags (resultFlags r (borrowSub d x false) (overflowSub r d x))

/-- `38 /r`: Eb, Gb. -/
def execCmpEbGb (p : Bool) (rm : RM) (r : Reg) (s : State) : Outcome State Fault Refusal :=
  retire (.cmpEbGb p rm r) s (handleCmp (rmOperand .w1 rm s) (.reg r) s)

/-- `39 /r`: Ev, Gv. -/
def execCmpEvGv (o : OSize) (rm : RM) (r : Reg) (s : State) : Outcome State Fault Refusal :=
  retire (.cmpEvGv o rm r) s (handleCmp (rmOperand o.width rm s) (.reg r) s)

/-- `3A /r`: Gb, Eb. -/
def execCmpGbEb (p : Bool) (r : Reg) (rm : RM) (s : State) : Outcome State Fault Refusal :=
  retire (.cmpGbEb p r rm) s (handleCmp (.reg r) (rmOperand .w1 rm s) s)

/-- `3B /r`: Gv, Ev. -/
def execCmpGvEv (o : OSize) (r : Reg) (rm : RM) (s : State) : Outcome State Fault Refusal :=
  retire (.cmpGvEv o r rm) s (handleCmp (.reg r) (rmOperand o.width rm s) s)

/-- `3C ib`: AL, Ib. -/
def execCmpALIb (p : Bool) (imm : Byte) (s : State) : Outcome State Fault Refusal :=
  retire (.cmpALIb p imm) s (handleCmp (w := .w1) (.reg .eax) (.imm imm) s)

/-- `3D iv`: eAX, Iv. -/
def execCmpEAXIv (imm : ImmV) (s : State) : Outcome State Fault Refusal :=
  retire (.cmpEAXIv imm) s (handleCmp (.reg .eax) (.imm imm.value) s)

/-- `80 /7 ib`: Eb, Ib. -/
def execCmpEbIb (p : Bool) (rm : RM) (imm : Byte) (s : State) : Outcome State Fault Refusal :=
  retire (.cmpEbIb p rm imm) s (handleCmp (rmOperand .w1 rm s) (.imm imm) s)

/-- `81 /7 iv`: Ev, Iv. -/
def execCmpEvIv (rm : RM) (imm : ImmV) (s : State) : Outcome State Fault Refusal :=
  retire (.cmpEvIv rm imm) s (handleCmp (rmOperand imm.osz.width rm s) (.imm imm.value) s)

/-- `83 /7 ib`: Ev, sIb. -/
def execCmpEvSIb (o : OSize) (rm : RM) (imm : Byte) (s : State) : Outcome State Fault Refusal :=
  retire (.cmpEvSIb o rm imm) s (handleCmp (rmOperand o.width rm s) (.imm (signImm o imm)) s)

/-! ### inc (R218) -/

/-- `inc` (R218): dest <- dest + 1; CF by `INCDEC_CF_MODE` (R217). -/
def handleInc {w : Width} (dst : Operand w) (s : State) : Except Reason State := do
  let (d, s) ← dst.read s
  let r := d + 1
  let s ← dst.write r s
  return s.setFlagsDrawn (resultFlags r (incDecCf s.cfg.incDecCf (r == 0) s.flags.cf) (overflowAdd r d 1))
    (incDecDrawn s.cfg.incDecCf s.drawn.cf)

/-- `40+r`: +rv. -/
def execIncRv (o : OSize) (r : Reg) (s : State) : Outcome State Fault Refusal :=
  retire (.incRv o r) s (handleInc (w := o.width) (.reg r) s)

/-- `FE /0`: Eb. -/
def execIncEb (p : Bool) (rm : RM) (s : State) : Outcome State Fault Refusal :=
  retire (.incEb p rm) s (handleInc (rmOperand .w1 rm s) s)

/-- `FF /0`: Ev. -/
def execIncEv (o : OSize) (rm : RM) (s : State) : Outcome State Fault Refusal :=
  retire (.incEv o rm) s (handleInc (rmOperand o.width rm s) s)

/-! ### dec (R219) -/

/-- `dec` (R219): dest <- dest - 1; CF by `INCDEC_CF_MODE` (R217). -/
def handleDec {w : Width} (dst : Operand w) (s : State) : Except Reason State := do
  let (d, s) ← dst.read s
  let r := d - 1
  let s ← dst.write r s
  return s.setFlagsDrawn (resultFlags r (incDecCf s.cfg.incDecCf (d == 0) s.flags.cf) (overflowSub r d 1))
    (incDecDrawn s.cfg.incDecCf s.drawn.cf)

/-- `48+r`: +rv. -/
def execDecRv (o : OSize) (r : Reg) (s : State) : Outcome State Fault Refusal :=
  retire (.decRv o r) s (handleDec (w := o.width) (.reg r) s)

/-- `FE /1`: Eb. -/
def execDecEb (p : Bool) (rm : RM) (s : State) : Outcome State Fault Refusal :=
  retire (.decEb p rm) s (handleDec (rmOperand .w1 rm s) s)

/-- `FF /1`: Ev. -/
def execDecEv (o : OSize) (rm : RM) (s : State) : Outcome State Fault Refusal :=
  retire (.decEv o rm) s (handleDec (rmOperand o.width rm s) s)

/-! ### neg (R220) -/

/-- `neg` (R220): dest <- 0 - dest; CF is set iff the operand is not 0. -/
def handleNeg {w : Width} (dst : Operand w) (s : State) : Except Reason State := do
  let (d, s) ← dst.read s
  let r := 0 - d
  let s ← dst.write r s
  return s.setFlags (resultFlags r (d != 0) (overflowSub r 0 d))

/-- `F6 /3`: Eb. -/
def execNegEb (p : Bool) (rm : RM) (s : State) : Outcome State Fault Refusal :=
  retire (.negEb p rm) s (handleNeg (rmOperand .w1 rm s) s)

/-- `F7 /3`: Ev. -/
def execNegEv (o : OSize) (rm : RM) (s : State) : Outcome State Fault Refusal :=
  retire (.negEv o rm) s (handleNeg (rmOperand o.width rm s) s)

end Sys2Proof.Machine
end

