-- ==== Sys2Proof/Machine/Control.lean ====
section
/-! DEFINITION. Control transfer, setcc and nop (45_control_gk.md). No instruction of this file writes a flag. -/

namespace Sys2Proof.Machine

open Host (Outcome)

/-! ### jcc (R432), jmp (R433, R434) -/

/-- `jcc` (R432): to the target when the condition holds, else to the next instruction. -/
def handleJcc (cc : Cond) (next target : Word) (s : State) : State :=
  let (holds, s) := evalCond cc s
  s.setPc (if holds then target else next)

/-- `jmp` with an indirect operand (R434): pc <- Read(src). -/
def handleJmp (src : Operand .w4) (s : State) : Except Reason State := do
  let (t, s) ← src.read s
  return s.setPc t

/-- `70+cc jb`. -/
def execJccJb (cc : Cond) (disp : Byte) (s : State) : Outcome State Fault Refusal :=
  transfer s (.ok (handleJcc cc (nextPc (.jccJb cc disp) s) (nextPc (.jccJb cc disp) s + disp.signExtend 32) s))

/-- `0F 80+cc jd`. -/
def execJccJd (cc : Cond) (disp : Word) (s : State) : Outcome State Fault Refusal :=
  transfer s (.ok (handleJcc cc (nextPc (.jccJd cc disp) s) (nextPc (.jccJd cc disp) s + disp) s))

/-- `EB jb`. -/
def execJmpJb (disp : Byte) (s : State) : Outcome State Fault Refusal :=
  transfer s (.ok (s.setPc (nextPc (.jmpJb disp) s + disp.signExtend 32)))

/-- `E9 jd`. -/
def execJmpJd (disp : Word) (s : State) : Outcome State Fault Refusal :=
  transfer s (.ok (s.setPc (nextPc (.jmpJd disp) s + disp)))

/-- `FF /4`: Ed. -/
def execJmpEd (rm : RM) (s : State) : Outcome State Fault Refusal :=
  transfer s (handleJmp (rmOperand .w4 rm s) s)

/-! ### call (R435, R436), ret (R437) -/

/-- `call` (R435, R436): the target is read before the push; Push32(next_pc), then pc <- target. -/
def handleCall (next : Word) (target : Operand .w4) (s : State) : Except Reason State := do
  let (t, s) ← target.read s
  let s ← push32 next s
  return s.setPc t

/-- `ret` (R437): pc <- Pop32(). -/
def handleRet (s : State) : Except Reason State := do
  let (t, s) ← pop32 s
  return s.setPc t

/-- `E8 jd`. -/
def execCallJd (disp : Word) (s : State) : Outcome State Fault Refusal :=
  transfer s (handleCall (nextPc (.callJd disp) s) (.imm (nextPc (.callJd disp) s + disp)) s)

/-- `FF /2`: Ed. -/
def execCallEd (rm : RM) (s : State) : Outcome State Fault Refusal :=
  transfer s (handleCall (nextPc (.callEd rm) s) (rmOperand .w4 rm s) s)

/-- `C3`. -/
def execRet (s : State) : Outcome State Fault Refusal :=
  transfer s (handleRet s)

/-! ### setcc (R440), nop (R441) -/

/-- `setcc` (R440): dest <- 1 when the condition holds, else 0. -/
def handleSetcc (cc : Cond) (dst : Operand .w1) (s : State) : Except Reason State :=
  let (holds, s) := evalCond cc s
  dst.write (if holds then 1 else 0) s

/-- `0F 90+cc /any`: Eb. -/
def execSetccEb (p : Bool) (cc : Cond) (reg : Reg) (rm : RM) (s : State) : Outcome State Fault Refusal :=
  retire (.setccEb p cc reg rm) s (handleSetcc cc (rmOperand .w1 rm s) s)

/-- `90`: only pc advances. -/
def execNop (p : Bool) (s : State) : Outcome State Fault Refusal :=
  retire (.nop p) s (.ok s)

end Sys2Proof.Machine
end

