-- ==== Sys2Proof/Machine/DataMove.lean ====
section
/-! DEFINITION. Data movement and stack (42_datamove.md): one handler per mnemonic, and one meaning per row of the opcode
table. No instruction of this file reads or writes a flag. -/

namespace Sys2Proof.Machine

open Host (Outcome)

/-! ### mov (R300) -/

/-- `mov` (R300): dest <- src. -/
def handleMov {w : Width} (dst src : Operand w) (s : State) : Except Reason State := do
  let (v, s) ← src.read s
  dst.write v s

/-- `88 /r`: Eb, Gb. -/
def execMovEbGb (p : Bool) (rm : RM) (r : Reg) (s : State) : Outcome State Fault Refusal :=
  retire (.movEbGb p rm r) s (handleMov (rmOperand .w1 rm s) (.reg r) s)

/-- `89 /r`: Ev, Gv. -/
def execMovEvGv (o : OSize) (rm : RM) (r : Reg) (s : State) : Outcome State Fault Refusal :=
  retire (.movEvGv o rm r) s (handleMov (rmOperand o.width rm s) (.reg r) s)

/-- `8A /r`: Gb, Eb. -/
def execMovGbEb (p : Bool) (r : Reg) (rm : RM) (s : State) : Outcome State Fault Refusal :=
  retire (.movGbEb p r rm) s (handleMov (.reg r) (rmOperand .w1 rm s) s)

/-- `8B /r`: Gv, Ev. -/
def execMovGvEv (o : OSize) (r : Reg) (rm : RM) (s : State) : Outcome State Fault Refusal :=
  retire (.movGvEv o r rm) s (handleMov (.reg r) (rmOperand o.width rm s) s)

/-- `A0 od`: AL, Mem(1, Od). -/
def execMovALOb (p : Bool) (addr : Word) (s : State) : Outcome State Fault Refusal :=
  retire (.movALOb p addr) s (handleMov (w := .w1) (.reg .eax) (.mem addr) s)

/-- `A1 od`: eAX, Mem(osz, Od). -/
def execMovEAXOv (o : OSize) (addr : Word) (s : State) : Outcome State Fault Refusal :=
  retire (.movEAXOv o addr) s (handleMov (w := o.width) (.reg .eax) (.mem addr) s)

/-- `A2 od`: Mem(1, Od), AL. -/
def execMovObAL (p : Bool) (addr : Word) (s : State) : Outcome State Fault Refusal :=
  retire (.movObAL p addr) s (handleMov (w := .w1) (.mem addr) (.reg .eax) s)

/-- `A3 od`: Mem(osz, Od), eAX. -/
def execMovOvEAX (o : OSize) (addr : Word) (s : State) : Outcome State Fault Refusal :=
  retire (.movOvEAX o addr) s (handleMov (w := o.width) (.mem addr) (.reg .eax) s)

/-- `B0+r ib`: +rb, Ib. -/
def execMovRbIb (p : Bool) (r : Reg) (imm : Byte) (s : State) : Outcome State Fault Refusal :=
  retire (.movRbIb p r imm) s (handleMov (w := .w1) (.reg r) (.imm imm) s)

/-- `B8+r iv`: +rv, Iv. -/
def execMovRvIv (r : Reg) (imm : ImmV) (s : State) : Outcome State Fault Refusal :=
  retire (.movRvIv r imm) s (handleMov (.reg r) (.imm imm.value) s)

/-- `C6 /0 ib`: Eb, Ib. -/
def execMovEbIb (p : Bool) (rm : RM) (imm : Byte) (s : State) : Outcome State Fault Refusal :=
  retire (.movEbIb p rm imm) s (handleMov (rmOperand .w1 rm s) (.imm imm) s)

/-- `C7 /0 iv`: Ev, Iv. -/
def execMovEvIv (rm : RM) (imm : ImmV) (s : State) : Outcome State Fault Refusal :=
  retire (.movEvIv rm imm) s (handleMov (rmOperand imm.osz.width rm s) (.imm imm.value) s)

/-! ### lea (R301), movsx (R302), movzx (R303) -/

/-- `lea` (R301): dest <- the low bits of the address; memory is not accessed. -/
def handleLea (o : OSize) (r : Reg) (m : MemOp) (s : State) : State :=
  s.setReg o.width r ((effAddr s.regs m).setWidth o.width.bits)

/-- `movsx` (R302): dest <- src, sign-extended. -/
def handleMovsx {v w : Width} (dst : Operand v) (src : Operand w) (s : State) : Except Reason State := do
  let (x, s) ← src.read s
  dst.write (x.signExtend v.bits) s

/-- `movzx` (R303): dest <- src, zero-extended. -/
def handleMovzx {v w : Width} (dst : Operand v) (src : Operand w) (s : State) : Except Reason State := do
  let (x, s) ← src.read s
  dst.write (x.zeroExtend v.bits) s

/-- `8D /r`: Gv, M. -/
def execLeaGvM (o : OSize) (r : Reg) (m : MemOp) (s : State) : Outcome State Fault Refusal :=
  retire (.leaGvM o r m) s (.ok (handleLea o r m s))

/-- `0F BE /r`: Gv, Eb. -/
def execMovsxGvEb (o : OSize) (r : Reg) (rm : RM) (s : State) : Outcome State Fault Refusal :=
  retire (.movsxGvEb o r rm) s (handleMovsx (v := o.width) (.reg r) (rmOperand .w1 rm s) s)

/-- `0F BF /r`: Gv, Ew. -/
def execMovsxGvEw (o : OSize) (r : Reg) (rm : RM) (s : State) : Outcome State Fault Refusal :=
  retire (.movsxGvEw o r rm) s (handleMovsx (v := o.width) (.reg r) (rmOperand .w2 rm s) s)

/-- `0F B6 /r`: Gv, Eb. -/
def execMovzxGvEb (o : OSize) (r : Reg) (rm : RM) (s : State) : Outcome State Fault Refusal :=
  retire (.movzxGvEb o r rm) s (handleMovzx (v := o.width) (.reg r) (rmOperand .w1 rm s) s)

/-- `0F B7 /r`: Gv, Ew. -/
def execMovzxGvEw (o : OSize) (r : Reg) (rm : RM) (s : State) : Outcome State Fault Refusal :=
  retire (.movzxGvEw o r rm) s (handleMovzx (v := o.width) (.reg r) (rmOperand .w2 rm s) s)

/-! ### cltd / cwtd (R311), cwtl / cbtw (R312) -/

/-- `cltd`, `cwtd` (R311): every bit of the secondary register at osz <- the accumulator's sign bit. -/
def handleCltd (o : OSize) (s : State) : State :=
  s.setReg o.width .edx (if (s.regs.read o.width .eax).msb then BitVec.allOnes o.width.bits else 0)

/-- `cwtl`, `cbtw` (R312): the accumulator at osz <- its low half, sign-extended. -/
def handleCwtl (o : OSize) (s : State) : State :=
  match o with
  | .o32 => s.setReg .w4 .eax ((s.regs.read .w2 .eax).signExtend 32)
  | .o16 => s.setReg .w2 .eax ((s.regs.read .w1 .eax).signExtend 16)

/-- `99`. -/
def execCltd (o : OSize) (s : State) : Outcome State Fault Refusal :=
  retire (.cltd o) s (.ok (handleCltd o s))

/-- `98`. -/
def execCwtl (o : OSize) (s : State) : Outcome State Fault Refusal :=
  retire (.cwtl o) s (.ok (handleCwtl o s))

/-! ### push (R306), pop (R308), leave (R310) -/

/-- The word a push stores: the operand; of a 2-byte operand, with a draw in the high half (R305). -/
def slotWord (o : OSize) (v : BitVec o.width.bits) (s : State) : Word × State :=
  match o, v with
  | .o32, v => (v, s)
  | .o16, v =>
    let (high, s) := s.draw 16
    (high ++ v, s)

/-- `push` (R306): the operand is read before ESP moves (R307). -/
def handlePush (o : OSize) (src : Operand o.width) (s : State) : Except Reason State := do
  let (v, s) ← src.read s
  let (word, s) := slotWord o v s
  push32 word s

/-- `pop` (R308): the low bytes of the slot go to dest, after ESP has moved (R309). -/
def handlePop (o : OSize) (dst : Operand o.width) (s : State) : Except Reason State := do
  let (word, s) ← pop32 s
  dst.write (word.setWidth o.width.bits) s

/-- `leave` (R310): x[4] <- x[5], then x[5] <- Pop32(). -/
def handleLeave (s : State) : Except Reason State := do
  let t := s.regs.get .ebp
  let (word, s) ← memRead .w4 t s
  return (s.setReg .w4 .esp (t + 4)).setReg .w4 .ebp word

/-- `50+r`: +rv. -/
def execPushRv (o : OSize) (r : Reg) (s : State) : Outcome State Fault Refusal :=
  retire (.pushRv o r) s (handlePush o (.reg r) s)

/-- `68 iv`: Iv. -/
def execPushIv (imm : ImmV) (s : State) : Outcome State Fault Refusal :=
  retire (.pushIv imm) s (handlePush imm.osz (.imm imm.value) s)

/-- `6A ib`: sIb. -/
def execPushSIb (o : OSize) (imm : Byte) (s : State) : Outcome State Fault Refusal :=
  retire (.pushSIb o imm) s (handlePush o (.imm (signImm o imm)) s)

/-- `FF /6`: Ev. -/
def execPushEv (o : OSize) (rm : RM) (s : State) : Outcome State Fault Refusal :=
  retire (.pushEv o rm) s (handlePush o (rmOperand o.width rm s) s)

/-- `58+r`: +rv. -/
def execPopRv (o : OSize) (r : Reg) (s : State) : Outcome State Fault Refusal :=
  retire (.popRv o r) s (handlePop o (.reg r) s)

/-- `8F /0`: Ev; memory through ESP is refused, by decode and here (30_encoding.md R138; log entry 20). -/
def execPopEv (o : OSize) (rm : RM) (s : State) : Outcome State Fault Refusal :=
  if rm.usesEsp then raise (.unsupportedForm .popMemEsp) s
  else retire (.popEv o rm) s (handlePop o (rmOperand o.width rm s) s)

/-- `C9`. -/
def execLeave (s : State) : Outcome State Fault Refusal :=
  retire .leave s (handleLeave s)

/-! ### The placeholders pusha and popa (R313) -/

/-- `60`: raises `Unimplemented("pusha")`. -/
def execPusha (_p : Bool) (s : State) : Outcome State Fault Refusal :=
  raise (.unimplemented .pusha) s

/-- `61`: raises `Unimplemented("popa")`. -/
def execPopa (_p : Bool) (s : State) : Outcome State Fault Refusal :=
  raise (.unimplemented .popa) s

end Sys2Proof.Machine
end

