-- ==== Sys2Proof/Machine/Logic.lean ====
section
/-! DEFINITION. Logic and shift instructions (44_logic_gk.md): one handler per mnemonic over operand descriptors, and
one meaning per row of the opcode table. -/

namespace Sys2Proof.Machine

open Host (Outcome)

/-! ### and (R402) -/

/-- `and` (R402): dest <- the bitwise AND of dest and src. -/
def handleAnd {w : Width} (dst src : Operand w) (s : State) : Except Reason State := do
  let (d, s) ← dst.read s
  let (x, s) ← src.read s
  let r := d &&& x
  let s ← dst.write r s
  return s.setFlags (logicFlags r)

/-- `20 /r`: Eb, Gb. -/
def execAndEbGb (p : Bool) (rm : RM) (r : Reg) (s : State) : Outcome State Fault Refusal :=
  retire (.andEbGb p rm r) s (handleAnd (rmOperand .w1 rm s) (.reg r) s)

/-- `21 /r`: Ev, Gv. -/
def execAndEvGv (o : OSize) (rm : RM) (r : Reg) (s : State) : Outcome State Fault Refusal :=
  retire (.andEvGv o rm r) s (handleAnd (rmOperand o.width rm s) (.reg r) s)

/-- `22 /r`: Gb, Eb. -/
def execAndGbEb (p : Bool) (r : Reg) (rm : RM) (s : State) : Outcome State Fault Refusal :=
  retire (.andGbEb p r rm) s (handleAnd (.reg r) (rmOperand .w1 rm s) s)

/-- `23 /r`: Gv, Ev. -/
def execAndGvEv (o : OSize) (r : Reg) (rm : RM) (s : State) : Outcome State Fault Refusal :=
  retire (.andGvEv o r rm) s (handleAnd (.reg r) (rmOperand o.width rm s) s)

/-- `24 ib`: AL, Ib. -/
def execAndALIb (p : Bool) (imm : Byte) (s : State) : Outcome State Fault Refusal :=
  retire (.andALIb p imm) s (handleAnd (w := .w1) (.reg .eax) (.imm imm) s)

/-- `25 iv`: eAX, Iv. -/
def execAndEAXIv (imm : ImmV) (s : State) : Outcome State Fault Refusal :=
  retire (.andEAXIv imm) s (handleAnd (.reg .eax) (.imm imm.value) s)

/-- `80 /4 ib`: Eb, Ib. -/
def execAndEbIb (p : Bool) (rm : RM) (imm : Byte) (s : State) : Outcome State Fault Refusal :=
  retire (.andEbIb p rm imm) s (handleAnd (rmOperand .w1 rm s) (.imm imm) s)

/-- `81 /4 iv`: Ev, Iv. -/
def execAndEvIv (rm : RM) (imm : ImmV) (s : State) : Outcome State Fault Refusal :=
  retire (.andEvIv rm imm) s (handleAnd (rmOperand imm.osz.width rm s) (.imm imm.value) s)

/-- `83 /4 ib`: Ev, sIb. -/
def execAndEvSIb (o : OSize) (rm : RM) (imm : Byte) (s : State) : Outcome State Fault Refusal :=
  retire (.andEvSIb o rm imm) s (handleAnd (rmOperand o.width rm s) (.imm (signImm o imm)) s)

/-! ### or (R403) -/

/-- `or` (R403): dest <- the bitwise OR of dest and src. -/
def handleOr {w : Width} (dst src : Operand w) (s : State) : Except Reason State := do
  let (d, s) ← dst.read s
  let (x, s) ← src.read s
  let r := d ||| x
  let s ← dst.write r s
  return s.setFlags (logicFlags r)

/-- `08 /r`: Eb, Gb. -/
def execOrEbGb (p : Bool) (rm : RM) (r : Reg) (s : State) : Outcome State Fault Refusal :=
  retire (.orEbGb p rm r) s (handleOr (rmOperand .w1 rm s) (.reg r) s)

/-- `09 /r`: Ev, Gv. -/
def execOrEvGv (o : OSize) (rm : RM) (r : Reg) (s : State) : Outcome State Fault Refusal :=
  retire (.orEvGv o rm r) s (handleOr (rmOperand o.width rm s) (.reg r) s)

/-- `0A /r`: Gb, Eb. -/
def execOrGbEb (p : Bool) (r : Reg) (rm : RM) (s : State) : Outcome State Fault Refusal :=
  retire (.orGbEb p r rm) s (handleOr (.reg r) (rmOperand .w1 rm s) s)

/-- `0B /r`: Gv, Ev. -/
def execOrGvEv (o : OSize) (r : Reg) (rm : RM) (s : State) : Outcome State Fault Refusal :=
  retire (.orGvEv o r rm) s (handleOr (.reg r) (rmOperand o.width rm s) s)

/-- `0C ib`: AL, Ib. -/
def execOrALIb (p : Bool) (imm : Byte) (s : State) : Outcome State Fault Refusal :=
  retire (.orALIb p imm) s (handleOr (w := .w1) (.reg .eax) (.imm imm) s)

/-- `0D iv`: eAX, Iv. -/
def execOrEAXIv (imm : ImmV) (s : State) : Outcome State Fault Refusal :=
  retire (.orEAXIv imm) s (handleOr (.reg .eax) (.imm imm.value) s)

/-- `80 /1 ib`: Eb, Ib. -/
def execOrEbIb (p : Bool) (rm : RM) (imm : Byte) (s : State) : Outcome State Fault Refusal :=
  retire (.orEbIb p rm imm) s (handleOr (rmOperand .w1 rm s) (.imm imm) s)

/-- `81 /1 iv`: Ev, Iv. -/
def execOrEvIv (rm : RM) (imm : ImmV) (s : State) : Outcome State Fault Refusal :=
  retire (.orEvIv rm imm) s (handleOr (rmOperand imm.osz.width rm s) (.imm imm.value) s)

/-- `83 /1 ib`: Ev, sIb. -/
def execOrEvSIb (o : OSize) (rm : RM) (imm : Byte) (s : State) : Outcome State Fault Refusal :=
  retire (.orEvSIb o rm imm) s (handleOr (rmOperand o.width rm s) (.imm (signImm o imm)) s)

/-! ### xor (R404) -/

/-- `xor` (R404): dest <- the bitwise exclusive OR of dest and src. -/
def handleXor {w : Width} (dst src : Operand w) (s : State) : Except Reason State := do
  let (d, s) ← dst.read s
  let (x, s) ← src.read s
  let r := d ^^^ x
  let s ← dst.write r s
  return s.setFlags (logicFlags r)

/-- `30 /r`: Eb, Gb. -/
def execXorEbGb (p : Bool) (rm : RM) (r : Reg) (s : State) : Outcome State Fault Refusal :=
  retire (.xorEbGb p rm r) s (handleXor (rmOperand .w1 rm s) (.reg r) s)

/-- `31 /r`: Ev, Gv. -/
def execXorEvGv (o : OSize) (rm : RM) (r : Reg) (s : State) : Outcome State Fault Refusal :=
  retire (.xorEvGv o rm r) s (handleXor (rmOperand o.width rm s) (.reg r) s)

/-- `32 /r`: Gb, Eb. -/
def execXorGbEb (p : Bool) (r : Reg) (rm : RM) (s : State) : Outcome State Fault Refusal :=
  retire (.xorGbEb p r rm) s (handleXor (.reg r) (rmOperand .w1 rm s) s)

/-- `33 /r`: Gv, Ev. -/
def execXorGvEv (o : OSize) (r : Reg) (rm : RM) (s : State) : Outcome State Fault Refusal :=
  retire (.xorGvEv o r rm) s (handleXor (.reg r) (rmOperand o.width rm s) s)

/-- `34 ib`: AL, Ib. -/
def execXorALIb (p : Bool) (imm : Byte) (s : State) : Outcome State Fault Refusal :=
  retire (.xorALIb p imm) s (handleXor (w := .w1) (.reg .eax) (.imm imm) s)

/-- `35 iv`: eAX, Iv. -/
def execXorEAXIv (imm : ImmV) (s : State) : Outcome State Fault Refusal :=
  retire (.xorEAXIv imm) s (handleXor (.reg .eax) (.imm imm.value) s)

/-- `80 /6 ib`: Eb, Ib. -/
def execXorEbIb (p : Bool) (rm : RM) (imm : Byte) (s : State) : Outcome State Fault Refusal :=
  retire (.xorEbIb p rm imm) s (handleXor (rmOperand .w1 rm s) (.imm imm) s)

/-- `81 /6 iv`: Ev, Iv. -/
def execXorEvIv (rm : RM) (imm : ImmV) (s : State) : Outcome State Fault Refusal :=
  retire (.xorEvIv rm imm) s (handleXor (rmOperand imm.osz.width rm s) (.imm imm.value) s)

/-- `83 /6 ib`: Ev, sIb. -/
def execXorEvSIb (o : OSize) (rm : RM) (imm : Byte) (s : State) : Outcome State Fault Refusal :=
  retire (.xorEvSIb o rm imm) s (handleXor (rmOperand o.width rm s) (.imm (signImm o imm)) s)

/-! ### test (R405) -/

/-- `test` (R405): the flags of the bitwise AND; nothing is written back. -/
def handleTest {w : Width} (dst src : Operand w) (s : State) : Except Reason State := do
  let (d, s) ← dst.read s
  let (x, s) ← src.read s
  return s.setFlags (logicFlags (d &&& x))

/-- `84 /r`: Eb, Gb. -/
def execTestEbGb (p : Bool) (rm : RM) (r : Reg) (s : State) : Outcome State Fault Refusal :=
  retire (.testEbGb p rm r) s (handleTest (rmOperand .w1 rm s) (.reg r) s)

/-- `85 /r`: Ev, Gv. -/
def execTestEvGv (o : OSize) (rm : RM) (r : Reg) (s : State) : Outcome State Fault Refusal :=
  retire (.testEvGv o rm r) s (handleTest (rmOperand o.width rm s) (.reg r) s)

/-- `A8 ib`: AL, Ib. -/
def execTestALIb (p : Bool) (imm : Byte) (s : State) : Outcome State Fault Refusal :=
  retire (.testALIb p imm) s (handleTest (w := .w1) (.reg .eax) (.imm imm) s)

/-- `A9 iv`: eAX, Iv. -/
def execTestEAXIv (imm : ImmV) (s : State) : Outcome State Fault Refusal :=
  retire (.testEAXIv imm) s (handleTest (.reg .eax) (.imm imm.value) s)

/-- `F6 /0 ib`: Eb, Ib. -/
def execTestEbIb (p : Bool) (rm : RM) (imm : Byte) (s : State) : Outcome State Fault Refusal :=
  retire (.testEbIb p rm imm) s (handleTest (rmOperand .w1 rm s) (.imm imm) s)

/-- `F7 /0 iv`: Ev, Iv. -/
def execTestEvIv (rm : RM) (imm : ImmV) (s : State) : Outcome State Fault Refusal :=
  retire (.testEvIv rm imm) s (handleTest (rmOperand imm.osz.width rm s) (.imm imm.value) s)

/-! ### not (R407) -/

/-- `not` (R407): dest <- the bitwise complement of dest; no flag changes. -/
def handleNot {w : Width} (dst : Operand w) (s : State) : Except Reason State := do
  let (d, s) ← dst.read s
  dst.write (~~~d) s

/-- `F6 /2`: Eb. -/
def execNotEb (p : Bool) (rm : RM) (s : State) : Outcome State Fault Refusal :=
  retire (.notEb p rm) s (handleNot (rmOperand .w1 rm s) s)

/-- `F7 /2`: Ev. -/
def execNotEv (o : OSize) (rm : RM) (s : State) : Outcome State Fault Refusal :=
  retire (.notEv o rm) s (handleNot (rmOperand o.width rm s) s)

/-! ### shl, shr, sar (R406, R408 to R410)

The count operand is `Ib`, the constant 1 or CL; a masked count of 0 reads dest and changes nothing
(R406; of MMIO the read itself is an event: log entry 11). -/

/-- The masked count c (R406). -/
def maskedCount (count : Byte) : Nat := count.toNat % 32

/-- `shl` (R408). -/
def handleShl {w : Width} (dst : Operand w) (count : Operand .w1) (s : State) : Except Reason State := do
  let (d, s) ← dst.read s
  let (k, s) ← count.read s
  let c := maskedCount k
  if c = 0 then return s
  else
    let r := d <<< c
    let s ← dst.write r s
    let cf := if c ≤ w.bits - 1 then some (d.getLsbD (w.bits - c)) else none
    return shiftFlags r cf (fun f => if c = 1 then some (r.msb ^^ f) else none) s

/-- `shr` (R409). -/
def handleShr {w : Width} (dst : Operand w) (count : Operand .w1) (s : State) : Except Reason State := do
  let (d, s) ← dst.read s
  let (k, s) ← count.read s
  let c := maskedCount k
  if c = 0 then return s
  else
    let r := d >>> c
    let s ← dst.write r s
    let cf := if c ≤ w.bits - 1 then some (d.getLsbD (c - 1)) else none
    return shiftFlags r cf (fun _ => if c = 1 then some d.msb else none) s

/-- `sar` (R410). -/
def handleSar {w : Width} (dst : Operand w) (count : Operand .w1) (s : State) : Except Reason State := do
  let (d, s) ← dst.read s
  let (k, s) ← count.read s
  let c := maskedCount k
  if c = 0 then return s
  else
    let r := d.sshiftRight c
    let s ← dst.write r s
    let cf := if c ≤ w.bits - 1 then some (d.getLsbD (c - 1)) else none
    return shiftFlags r cf (fun _ => if c = 1 then some false else none) s

/-- `C0 /4 ib`: Eb, Ib. -/
def execShlEbIb (p : Bool) (rm : RM) (imm : Byte) (s : State) : Outcome State Fault Refusal :=
  retire (.shlEbIb p rm imm) s (handleShl (rmOperand .w1 rm s) (.imm imm) s)

/-- `C1 /4 ib`: Ev, Ib. -/
def execShlEvIb (o : OSize) (rm : RM) (imm : Byte) (s : State) : Outcome State Fault Refusal :=
  retire (.shlEvIb o rm imm) s (handleShl (rmOperand o.width rm s) (.imm imm) s)

/-- `D0 /4`: Eb, 1. -/
def execShlEb1 (p : Bool) (rm : RM) (s : State) : Outcome State Fault Refusal :=
  retire (.shlEb1 p rm) s (handleShl (rmOperand .w1 rm s) (.imm 1) s)

/-- `D1 /4`: Ev, 1. -/
def execShlEv1 (o : OSize) (rm : RM) (s : State) : Outcome State Fault Refusal :=
  retire (.shlEv1 o rm) s (handleShl (rmOperand o.width rm s) (.imm 1) s)

/-- `D2 /4`: Eb, CL. -/
def execShlEbCL (p : Bool) (rm : RM) (s : State) : Outcome State Fault Refusal :=
  retire (.shlEbCL p rm) s (handleShl (rmOperand .w1 rm s) (.reg .ecx) s)

/-- `D3 /4`: Ev, CL. -/
def execShlEvCL (o : OSize) (rm : RM) (s : State) : Outcome State Fault Refusal :=
  retire (.shlEvCL o rm) s (handleShl (rmOperand o.width rm s) (.reg .ecx) s)

/-- `C0 /5 ib`: Eb, Ib. -/
def execShrEbIb (p : Bool) (rm : RM) (imm : Byte) (s : State) : Outcome State Fault Refusal :=
  retire (.shrEbIb p rm imm) s (handleShr (rmOperand .w1 rm s) (.imm imm) s)

/-- `C1 /5 ib`: Ev, Ib. -/
def execShrEvIb (o : OSize) (rm : RM) (imm : Byte) (s : State) : Outcome State Fault Refusal :=
  retire (.shrEvIb o rm imm) s (handleShr (rmOperand o.width rm s) (.imm imm) s)

/-- `D0 /5`: Eb, 1. -/
def execShrEb1 (p : Bool) (rm : RM) (s : State) : Outcome State Fault Refusal :=
  retire (.shrEb1 p rm) s (handleShr (rmOperand .w1 rm s) (.imm 1) s)

/-- `D1 /5`: Ev, 1. -/
def execShrEv1 (o : OSize) (rm : RM) (s : State) : Outcome State Fault Refusal :=
  retire (.shrEv1 o rm) s (handleShr (rmOperand o.width rm s) (.imm 1) s)

/-- `D2 /5`: Eb, CL. -/
def execShrEbCL (p : Bool) (rm : RM) (s : State) : Outcome State Fault Refusal :=
  retire (.shrEbCL p rm) s (handleShr (rmOperand .w1 rm s) (.reg .ecx) s)

/-- `D3 /5`: Ev, CL. -/
def execShrEvCL (o : OSize) (rm : RM) (s : State) : Outcome State Fault Refusal :=
  retire (.shrEvCL o rm) s (handleShr (rmOperand o.width rm s) (.reg .ecx) s)

/-- `C0 /7 ib`: Eb, Ib. -/
def execSarEbIb (p : Bool) (rm : RM) (imm : Byte) (s : State) : Outcome State Fault Refusal :=
  retire (.sarEbIb p rm imm) s (handleSar (rmOperand .w1 rm s) (.imm imm) s)

/-- `C1 /7 ib`: Ev, Ib. -/
def execSarEvIb (o : OSize) (rm : RM) (imm : Byte) (s : State) : Outcome State Fault Refusal :=
  retire (.sarEvIb o rm imm) s (handleSar (rmOperand o.width rm s) (.imm imm) s)

/-- `D0 /7`: Eb, 1. -/
def execSarEb1 (p : Bool) (rm : RM) (s : State) : Outcome State Fault Refusal :=
  retire (.sarEb1 p rm) s (handleSar (rmOperand .w1 rm s) (.imm 1) s)

/-- `D1 /7`: Ev, 1. -/
def execSarEv1 (o : OSize) (rm : RM) (s : State) : Outcome State Fault Refusal :=
  retire (.sarEv1 o rm) s (handleSar (rmOperand o.width rm s) (.imm 1) s)

/-- `D2 /7`: Eb, CL. -/
def execSarEbCL (p : Bool) (rm : RM) (s : State) : Outcome State Fault Refusal :=
  retire (.sarEbCL p rm) s (handleSar (rmOperand .w1 rm s) (.reg .ecx) s)

/-- `D3 /7`: Ev, CL. -/
def execSarEvCL (o : OSize) (rm : RM) (s : State) : Outcome State Fault Refusal :=
  retire (.sarEvCL o rm) s (handleSar (rmOperand o.width rm s) (.reg .ecx) s)

end Sys2Proof.Machine
end

