-- ==== Sys2Proof/Machine/MulDiv.lean ====
section
/-! DEFINITION. Multiply and divide (41_muldiv.md): one handler per form over operand descriptors, and one meaning per
row of the opcode table. Products and quotients are computed exactly, in Nat or Int, and narrowed at the end. -/

namespace Sys2Proof.Machine

open Host (Outcome)

/-! ### mul (R252) and one-operand imul (R253) -/

/-- `mul` (R252): the unsigned double-width product of accumulator and src goes to the register pair. -/
def handleMul {w : Width} (src : Operand w) (s : State) : Except Reason State := do
  let (x, s) ← src.read s
  let p := (s.lowHalf w).toNat * x.toNat
  let low := BitVec.ofNat w.bits p
  let high := BitVec.ofNat w.bits (p / 2 ^ w.bits)
  return mulFlags (high != 0) (s.setPair w high low)

/-- One-operand `imul` (R253): the signed double-width product; its high half is significant iff the
product differs from the sign extension of its low half (R250). -/
def handleImul1 {w : Width} (src : Operand w) (s : State) : Except Reason State := do
  let (x, s) ← src.read s
  let p := (s.lowHalf w).toInt * x.toInt
  let low := BitVec.ofInt w.bits p
  let high := BitVec.ofInt w.bits (p / 2 ^ w.bits)
  return mulFlags (decide (p ≠ low.toInt)) (s.setPair w high low)

/-- `F6 /4`: Eb. -/
def execMulEb (p : Bool) (rm : RM) (s : State) : Outcome State Fault Refusal :=
  retire (.mulEb p rm) s (handleMul (rmOperand .w1 rm s) s)

/-- `F7 /4`: Ev. -/
def execMulEv (o : OSize) (rm : RM) (s : State) : Outcome State Fault Refusal :=
  retire (.mulEv o rm) s (handleMul (rmOperand o.width rm s) s)

/-- `F6 /5`: Eb. -/
def execImulEb (p : Bool) (rm : RM) (s : State) : Outcome State Fault Refusal :=
  retire (.imulEb p rm) s (handleImul1 (rmOperand .w1 rm s) s)

/-- `F7 /5`: Ev. -/
def execImulEv (o : OSize) (rm : RM) (s : State) : Outcome State Fault Refusal :=
  retire (.imulEv o rm) s (handleImul1 (rmOperand o.width rm s) s)

/-! ### Two- and three-operand imul (R254, R255) -/

/-- Two-operand `imul` (R254): dest <- the low half of the signed product of dest and src. -/
def handleImul2 {w : Width} (dst src : Operand w) (s : State) : Except Reason State := do
  let (d, s) ← dst.read s
  let (x, s) ← src.read s
  let p := d.toInt * x.toInt
  let low := BitVec.ofInt w.bits p
  let s ← dst.write low s
  return imulTruncFlags (decide (p ≠ low.toInt)) s

/-- Three-operand `imul` (R255): dest <- the low half of the signed product of src and src2; dest is not
read. -/
def handleImul3 {w : Width} (dst src src2 : Operand w) (s : State) : Except Reason State := do
  let (x, s) ← src.read s
  let (k, s) ← src2.read s
  let p := x.toInt * k.toInt
  let low := BitVec.ofInt w.bits p
  let s ← dst.write low s
  return imulTruncFlags (decide (p ≠ low.toInt)) s

/-- `0F AF /r`: Gv, Ev. -/
def execImulGvEv (o : OSize) (r : Reg) (rm : RM) (s : State) : Outcome State Fault Refusal :=
  retire (.imulGvEv o r rm) s (handleImul2 (.reg r) (rmOperand o.width rm s) s)

/-- `69 /r iv`: Gv, Ev, Iv. -/
def execImulGvEvIv (r : Reg) (rm : RM) (imm : ImmV) (s : State) : Outcome State Fault Refusal :=
  retire (.imulGvEvIv r rm imm) s (handleImul3 (.reg r) (rmOperand imm.osz.width rm s) (.imm imm.value) s)

/-- `6B /r ib`: Gv, Ev, sIb. -/
def execImulGvEvSIb (o : OSize) (r : Reg) (rm : RM) (imm : Byte) (s : State) : Outcome State Fault Refusal :=
  retire (.imulGvEvSIb o r rm imm) s (handleImul3 (.reg r) (rmOperand o.width rm s) (.imm (signImm o imm)) s)

/-! ### div (R257) and idiv (R258) -/

/-- `div` (R257): the unsigned double-width dividend of the register pair, divided by src; quotient to the
low half, remainder to the high half; `DivideError` by R256. -/
def handleDiv {w : Width} (src : Operand w) (s : State) : Except Reason State := do
  let (x, s) ← src.read s
  let n := (s.highHalf w ++ s.lowHalf w).toNat
  if x.toNat = 0 then throw (.divideError .zero)
  else
    let q := n / x.toNat
    let r := n % x.toNat
    if 2 ^ w.bits ≤ q then throw (.divideError .overflow)
    else return drawnFlags (s.setPair w (BitVec.ofNat w.bits r) (BitVec.ofNat w.bits q))

/-- `idiv` (R258): the signed divide, rounding toward zero; the remainder has the dividend's sign or is
zero. -/
def handleIdiv {w : Width} (src : Operand w) (s : State) : Except Reason State := do
  let (x, s) ← src.read s
  let n := (s.highHalf w ++ s.lowHalf w).toInt
  let v := x.toInt
  if v = 0 then throw (.divideError .zero)
  else
    let q := n.tdiv v
    let r := n - v * q
    if q < -(2 ^ (w.bits - 1)) ∨ 2 ^ (w.bits - 1) - 1 < q then throw (.divideError .overflow)
    else return drawnFlags (s.setPair w (BitVec.ofInt w.bits r) (BitVec.ofInt w.bits q))

/-- `F6 /6`: Eb. -/
def execDivEb (p : Bool) (rm : RM) (s : State) : Outcome State Fault Refusal :=
  retire (.divEb p rm) s (handleDiv (rmOperand .w1 rm s) s)

/-- `F7 /6`: Ev. -/
def execDivEv (o : OSize) (rm : RM) (s : State) : Outcome State Fault Refusal :=
  retire (.divEv o rm) s (handleDiv (rmOperand o.width rm s) s)

/-- `F6 /7`: Eb. -/
def execIdivEb (p : Bool) (rm : RM) (s : State) : Outcome State Fault Refusal :=
  retire (.idivEb p rm) s (handleIdiv (rmOperand .w1 rm s) s)

/-- `F7 /7`: Ev. -/
def execIdivEv (o : OSize) (rm : RM) (s : State) : Outcome State Fault Refusal :=
  retire (.idivEv o rm) s (handleIdiv (rmOperand o.width rm s) s)

end Sys2Proof.Machine
end

