-- ==== Sys2Proof/Machine/System.lean ====
section
/-! DEFINITION. System and port-I/O instructions (43_system.md). No instruction of this file reads or writes a flag, and
none checks a privilege (60_exceptions.md R520). -/

namespace Sys2Proof.Machine

open Host (Outcome)

/-! ### lidt (R340) -/

/-- `lidt` (R340): the limit at EA, the base at EA + 2; the prefix does not change the widths. -/
def handleLidt (m : MemOp) (s : State) : Except Reason State := do
  let a := effAddr s.regs m
  let (limit, s) ← memRead .w2 a s
  let (base, s) ← memRead .w4 (a + 2) s
  return s.setIdtr limit base

/-- `0F 01 /3`: M. -/
def execLidtM (p : Bool) (m : MemOp) (s : State) : Outcome State Fault Refusal :=
  retire (.lidtM p m) s (handleLidt m s)

/-! ### in (R344) and out (R345) -/

/-- `in` (R344): the accumulator at W <- PortRead(port, W). -/
def handleIn (w : Width) (port : Half) (s : State) : State :=
  let (v, s) := portRead port w s
  s.setReg w .eax v

/-- `out` (R345): PortWrite of the accumulator at W, or of its low byte in mode `narrow`. -/
def handleOut (w : Width) (port : Half) (s : State) : State :=
  match s.cfg.outWidth with
  | .widthAware => portWrite port w (s.regs.read w .eax) s
  | .narrow => portWrite port .w1 ((s.regs.read w .eax).setWidth 8) s

/-- The port number of an `Ib` operand, zero-extended (30_encoding.md R127). -/
def immPort (port : Byte) : Half := port.zeroExtend 16

/-- The port number in DX. -/
def dxPort (s : State) : Half := s.regs.read .w2 .edx

/-- `E4 ib`: AL, port Ib. -/
def execInALIb (p : Bool) (port : Byte) (s : State) : Outcome State Fault Refusal :=
  retire (.inALIb p port) s (.ok (handleIn .w1 (immPort port) s))

/-- `E5 ib`: eAX, port Ib. -/
def execInEAXIb (o : OSize) (port : Byte) (s : State) : Outcome State Fault Refusal :=
  retire (.inEAXIb o port) s (.ok (handleIn o.width (immPort port) s))

/-- `EC`: AL, port DX. -/
def execInALDX (p : Bool) (s : State) : Outcome State Fault Refusal :=
  retire (.inALDX p) s (.ok (handleIn .w1 (dxPort s) s))

/-- `ED`: eAX, port DX. -/
def execInEAXDX (o : OSize) (s : State) : Outcome State Fault Refusal :=
  retire (.inEAXDX o) s (.ok (handleIn o.width (dxPort s) s))

/-- `E6 ib`: port Ib, AL. -/
def execOutIbAL (p : Bool) (port : Byte) (s : State) : Outcome State Fault Refusal :=
  retire (.outIbAL p port) s (.ok (handleOut .w1 (immPort port) s))

/-- `E7 ib`: port Ib, eAX. -/
def execOutIbEAX (o : OSize) (port : Byte) (s : State) : Outcome State Fault Refusal :=
  retire (.outIbEAX o port) s (.ok (handleOut o.width (immPort port) s))

/-- `EE`: port DX, AL. -/
def execOutDXAL (p : Bool) (s : State) : Outcome State Fault Refusal :=
  retire (.outDXAL p) s (.ok (handleOut .w1 (dxPort s) s))

/-- `EF`: port DX, eAX. -/
def execOutDXEAX (o : OSize) (s : State) : Outcome State Fault Refusal :=
  retire (.outDXEAX o) s (.ok (handleOut o.width (dxPort s) s))

/-! ### The placeholders: control-register moves (R342), int (R343), iret (R346) -/

/-- `0F 20 /r`: raises `Unimplemented("mov-cr")`. -/
def execMovFromCr (_p : Bool) (_modrm : Byte) (s : State) : Outcome State Fault Refusal :=
  raise (.unimplemented .movCr) s

/-- `0F 22 /r`: raises `Unimplemented("mov-cr")`. -/
def execMovToCr (_p : Bool) (_modrm : Byte) (s : State) : Outcome State Fault Refusal :=
  raise (.unimplemented .movCr) s

/-- `CD ib`: raises `Unimplemented("int")`, whatever the vector is. -/
def execIntIb (_p : Bool) (_vector : Byte) (s : State) : Outcome State Fault Refusal :=
  raise (.unimplemented .int) s

/-- `CF`: raises `Unimplemented("iret")`. -/
def execIret (_p : Bool) (s : State) : Outcome State Fault Refusal :=
  raise (.unimplemented .iret) s

end Sys2Proof.Machine
end

