-- ==== Sys2Proof/Machine/Dispatch.lean ====
section
/-! DEFINITION. The dispatch: one arm per row of the opcode table, each one call of its meaning. -/

namespace Sys2Proof.Machine

def exec (i : Instr) (s : State) : Host.Outcome State Fault Refusal :=
  match i with
  | .addEbGb p rm r => Sys2Proof.Machine.execAddEbGb p rm r s
  | .addEvGv o rm r => Sys2Proof.Machine.execAddEvGv o rm r s
  | .addGbEb p r rm => Sys2Proof.Machine.execAddGbEb p r rm s
  | .addGvEv o r rm => Sys2Proof.Machine.execAddGvEv o r rm s
  | .addALIb p imm => Sys2Proof.Machine.execAddALIb p imm s
  | .addEAXIv imm => Sys2Proof.Machine.execAddEAXIv imm s
  | .addEbIb p rm imm => Sys2Proof.Machine.execAddEbIb p rm imm s
  | .addEvIv rm imm => Sys2Proof.Machine.execAddEvIv rm imm s
  | .addEvSIb o rm imm => Sys2Proof.Machine.execAddEvSIb o rm imm s
  | .orEbGb p rm r => Sys2Proof.Machine.execOrEbGb p rm r s
  | .orEvGv o rm r => Sys2Proof.Machine.execOrEvGv o rm r s
  | .orGbEb p r rm => Sys2Proof.Machine.execOrGbEb p r rm s
  | .orGvEv o r rm => Sys2Proof.Machine.execOrGvEv o r rm s
  | .orALIb p imm => Sys2Proof.Machine.execOrALIb p imm s
  | .orEAXIv imm => Sys2Proof.Machine.execOrEAXIv imm s
  | .orEbIb p rm imm => Sys2Proof.Machine.execOrEbIb p rm imm s
  | .orEvIv rm imm => Sys2Proof.Machine.execOrEvIv rm imm s
  | .orEvSIb o rm imm => Sys2Proof.Machine.execOrEvSIb o rm imm s
  | .adcEbGb p rm r => Sys2Proof.Machine.execAdcEbGb p rm r s
  | .adcEvGv o rm r => Sys2Proof.Machine.execAdcEvGv o rm r s
  | .adcGbEb p r rm => Sys2Proof.Machine.execAdcGbEb p r rm s
  | .adcGvEv o r rm => Sys2Proof.Machine.execAdcGvEv o r rm s
  | .adcALIb p imm => Sys2Proof.Machine.execAdcALIb p imm s
  | .adcEAXIv imm => Sys2Proof.Machine.execAdcEAXIv imm s
  | .adcEbIb p rm imm => Sys2Proof.Machine.execAdcEbIb p rm imm s
  | .adcEvIv rm imm => Sys2Proof.Machine.execAdcEvIv rm imm s
  | .adcEvSIb o rm imm => Sys2Proof.Machine.execAdcEvSIb o rm imm s
  | .sbbEbGb p rm r => Sys2Proof.Machine.execSbbEbGb p rm r s
  | .sbbEvGv o rm r => Sys2Proof.Machine.execSbbEvGv o rm r s
  | .sbbGbEb p r rm => Sys2Proof.Machine.execSbbGbEb p r rm s
  | .sbbGvEv o r rm => Sys2Proof.Machine.execSbbGvEv o r rm s
  | .sbbALIb p imm => Sys2Proof.Machine.execSbbALIb p imm s
  | .sbbEAXIv imm => Sys2Proof.Machine.execSbbEAXIv imm s
  | .sbbEbIb p rm imm => Sys2Proof.Machine.execSbbEbIb p rm imm s
  | .sbbEvIv rm imm => Sys2Proof.Machine.execSbbEvIv rm imm s
  | .sbbEvSIb o rm imm => Sys2Proof.Machine.execSbbEvSIb o rm imm s
  | .andEbGb p rm r => Sys2Proof.Machine.execAndEbGb p rm r s
  | .andEvGv o rm r => Sys2Proof.Machine.execAndEvGv o rm r s
  | .andGbEb p r rm => Sys2Proof.Machine.execAndGbEb p r rm s
  | .andGvEv o r rm => Sys2Proof.Machine.execAndGvEv o r rm s
  | .andALIb p imm => Sys2Proof.Machine.execAndALIb p imm s
  | .andEAXIv imm => Sys2Proof.Machine.execAndEAXIv imm s
  | .andEbIb p rm imm => Sys2Proof.Machine.execAndEbIb p rm imm s
  | .andEvIv rm imm => Sys2Proof.Machine.execAndEvIv rm imm s
  | .andEvSIb o rm imm => Sys2Proof.Machine.execAndEvSIb o rm imm s
  | .subEbGb p rm r => Sys2Proof.Machine.execSubEbGb p rm r s
  | .subEvGv o rm r => Sys2Proof.Machine.execSubEvGv o rm r s
  | .subGbEb p r rm => Sys2Proof.Machine.execSubGbEb p r rm s
  | .subGvEv o r rm => Sys2Proof.Machine.execSubGvEv o r rm s
  | .subALIb p imm => Sys2Proof.Machine.execSubALIb p imm s
  | .subEAXIv imm => Sys2Proof.Machine.execSubEAXIv imm s
  | .subEbIb p rm imm => Sys2Proof.Machine.execSubEbIb p rm imm s
  | .subEvIv rm imm => Sys2Proof.Machine.execSubEvIv rm imm s
  | .subEvSIb o rm imm => Sys2Proof.Machine.execSubEvSIb o rm imm s
  | .xorEbGb p rm r => Sys2Proof.Machine.execXorEbGb p rm r s
  | .xorEvGv o rm r => Sys2Proof.Machine.execXorEvGv o rm r s
  | .xorGbEb p r rm => Sys2Proof.Machine.execXorGbEb p r rm s
  | .xorGvEv o r rm => Sys2Proof.Machine.execXorGvEv o r rm s
  | .xorALIb p imm => Sys2Proof.Machine.execXorALIb p imm s
  | .xorEAXIv imm => Sys2Proof.Machine.execXorEAXIv imm s
  | .xorEbIb p rm imm => Sys2Proof.Machine.execXorEbIb p rm imm s
  | .xorEvIv rm imm => Sys2Proof.Machine.execXorEvIv rm imm s
  | .xorEvSIb o rm imm => Sys2Proof.Machine.execXorEvSIb o rm imm s
  | .cmpEbGb p rm r => Sys2Proof.Machine.execCmpEbGb p rm r s
  | .cmpEvGv o rm r => Sys2Proof.Machine.execCmpEvGv o rm r s
  | .cmpGbEb p r rm => Sys2Proof.Machine.execCmpGbEb p r rm s
  | .cmpGvEv o r rm => Sys2Proof.Machine.execCmpGvEv o r rm s
  | .cmpALIb p imm => Sys2Proof.Machine.execCmpALIb p imm s
  | .cmpEAXIv imm => Sys2Proof.Machine.execCmpEAXIv imm s
  | .cmpEbIb p rm imm => Sys2Proof.Machine.execCmpEbIb p rm imm s
  | .cmpEvIv rm imm => Sys2Proof.Machine.execCmpEvIv rm imm s
  | .cmpEvSIb o rm imm => Sys2Proof.Machine.execCmpEvSIb o rm imm s
  | .testEbGb p rm r => Sys2Proof.Machine.execTestEbGb p rm r s
  | .testEvGv o rm r => Sys2Proof.Machine.execTestEvGv o rm r s
  | .testALIb p imm => Sys2Proof.Machine.execTestALIb p imm s
  | .testEAXIv imm => Sys2Proof.Machine.execTestEAXIv imm s
  | .testEbIb p rm imm => Sys2Proof.Machine.execTestEbIb p rm imm s
  | .testEvIv rm imm => Sys2Proof.Machine.execTestEvIv rm imm s
  | .incRv o r => Sys2Proof.Machine.execIncRv o r s
  | .incEb p rm => Sys2Proof.Machine.execIncEb p rm s
  | .incEv o rm => Sys2Proof.Machine.execIncEv o rm s
  | .decRv o r => Sys2Proof.Machine.execDecRv o r s
  | .decEb p rm => Sys2Proof.Machine.execDecEb p rm s
  | .decEv o rm => Sys2Proof.Machine.execDecEv o rm s
  | .negEb p rm => Sys2Proof.Machine.execNegEb p rm s
  | .negEv o rm => Sys2Proof.Machine.execNegEv o rm s
  | .notEb p rm => Sys2Proof.Machine.execNotEb p rm s
  | .notEv o rm => Sys2Proof.Machine.execNotEv o rm s
  | .shlEbIb p rm imm => Sys2Proof.Machine.execShlEbIb p rm imm s
  | .shlEvIb o rm imm => Sys2Proof.Machine.execShlEvIb o rm imm s
  | .shlEb1 p rm => Sys2Proof.Machine.execShlEb1 p rm s
  | .shlEv1 o rm => Sys2Proof.Machine.execShlEv1 o rm s
  | .shlEbCL p rm => Sys2Proof.Machine.execShlEbCL p rm s
  | .shlEvCL o rm => Sys2Proof.Machine.execShlEvCL o rm s
  | .shrEbIb p rm imm => Sys2Proof.Machine.execShrEbIb p rm imm s
  | .shrEvIb o rm imm => Sys2Proof.Machine.execShrEvIb o rm imm s
  | .shrEb1 p rm => Sys2Proof.Machine.execShrEb1 p rm s
  | .shrEv1 o rm => Sys2Proof.Machine.execShrEv1 o rm s
  | .shrEbCL p rm => Sys2Proof.Machine.execShrEbCL p rm s
  | .shrEvCL o rm => Sys2Proof.Machine.execShrEvCL o rm s
  | .sarEbIb p rm imm => Sys2Proof.Machine.execSarEbIb p rm imm s
  | .sarEvIb o rm imm => Sys2Proof.Machine.execSarEvIb o rm imm s
  | .sarEb1 p rm => Sys2Proof.Machine.execSarEb1 p rm s
  | .sarEv1 o rm => Sys2Proof.Machine.execSarEv1 o rm s
  | .sarEbCL p rm => Sys2Proof.Machine.execSarEbCL p rm s
  | .sarEvCL o rm => Sys2Proof.Machine.execSarEvCL o rm s
  | .mulEb p rm => Sys2Proof.Machine.execMulEb p rm s
  | .mulEv o rm => Sys2Proof.Machine.execMulEv o rm s
  | .imulEb p rm => Sys2Proof.Machine.execImulEb p rm s
  | .imulEv o rm => Sys2Proof.Machine.execImulEv o rm s
  | .imulGvEv o r rm => Sys2Proof.Machine.execImulGvEv o r rm s
  | .imulGvEvIv r rm imm => Sys2Proof.Machine.execImulGvEvIv r rm imm s
  | .imulGvEvSIb o r rm imm => Sys2Proof.Machine.execImulGvEvSIb o r rm imm s
  | .divEb p rm => Sys2Proof.Machine.execDivEb p rm s
  | .divEv o rm => Sys2Proof.Machine.execDivEv o rm s
  | .idivEb p rm => Sys2Proof.Machine.execIdivEb p rm s
  | .idivEv o rm => Sys2Proof.Machine.execIdivEv o rm s
  | .movEbGb p rm r => Sys2Proof.Machine.execMovEbGb p rm r s
  | .movEvGv o rm r => Sys2Proof.Machine.execMovEvGv o rm r s
  | .movGbEb p r rm => Sys2Proof.Machine.execMovGbEb p r rm s
  | .movGvEv o r rm => Sys2Proof.Machine.execMovGvEv o r rm s
  | .movALOb p addr => Sys2Proof.Machine.execMovALOb p addr s
  | .movEAXOv o addr => Sys2Proof.Machine.execMovEAXOv o addr s
  | .movObAL p addr => Sys2Proof.Machine.execMovObAL p addr s
  | .movOvEAX o addr => Sys2Proof.Machine.execMovOvEAX o addr s
  | .movRbIb p r imm => Sys2Proof.Machine.execMovRbIb p r imm s
  | .movRvIv r imm => Sys2Proof.Machine.execMovRvIv r imm s
  | .movEbIb p rm imm => Sys2Proof.Machine.execMovEbIb p rm imm s
  | .movEvIv rm imm => Sys2Proof.Machine.execMovEvIv rm imm s
  | .leaGvM o r m => Sys2Proof.Machine.execLeaGvM o r m s
  | .movsxGvEb o r rm => Sys2Proof.Machine.execMovsxGvEb o r rm s
  | .movsxGvEw o r rm => Sys2Proof.Machine.execMovsxGvEw o r rm s
  | .movzxGvEb o r rm => Sys2Proof.Machine.execMovzxGvEb o r rm s
  | .movzxGvEw o r rm => Sys2Proof.Machine.execMovzxGvEw o r rm s
  | .cwtl o => Sys2Proof.Machine.execCwtl o s
  | .cltd o => Sys2Proof.Machine.execCltd o s
  | .pushRv o r => Sys2Proof.Machine.execPushRv o r s
  | .pushIv imm => Sys2Proof.Machine.execPushIv imm s
  | .pushSIb o imm => Sys2Proof.Machine.execPushSIb o imm s
  | .pushEv o rm => Sys2Proof.Machine.execPushEv o rm s
  | .popRv o r => Sys2Proof.Machine.execPopRv o r s
  | .popEv o rm => Sys2Proof.Machine.execPopEv o rm s
  | .leave => Sys2Proof.Machine.execLeave s
  | .inALIb p port => Sys2Proof.Machine.execInALIb p port s
  | .inEAXIb o port => Sys2Proof.Machine.execInEAXIb o port s
  | .inALDX p => Sys2Proof.Machine.execInALDX p s
  | .inEAXDX o => Sys2Proof.Machine.execInEAXDX o s
  | .outIbAL p port => Sys2Proof.Machine.execOutIbAL p port s
  | .outIbEAX o port => Sys2Proof.Machine.execOutIbEAX o port s
  | .outDXAL p => Sys2Proof.Machine.execOutDXAL p s
  | .outDXEAX o => Sys2Proof.Machine.execOutDXEAX o s
  | .lidtM p m => Sys2Proof.Machine.execLidtM p m s
  | .pusha p => Sys2Proof.Machine.execPusha p s
  | .popa p => Sys2Proof.Machine.execPopa p s
  | .intIb p vector => Sys2Proof.Machine.execIntIb p vector s
  | .iret p => Sys2Proof.Machine.execIret p s
  | .movFromCr p modrm => Sys2Proof.Machine.execMovFromCr p modrm s
  | .movToCr p modrm => Sys2Proof.Machine.execMovToCr p modrm s
  | .jccJb cc disp => Sys2Proof.Machine.execJccJb cc disp s
  | .jccJd cc disp => Sys2Proof.Machine.execJccJd cc disp s
  | .jmpJb disp => Sys2Proof.Machine.execJmpJb disp s
  | .jmpJd disp => Sys2Proof.Machine.execJmpJd disp s
  | .jmpEd rm => Sys2Proof.Machine.execJmpEd rm s
  | .callJd disp => Sys2Proof.Machine.execCallJd disp s
  | .callEd rm => Sys2Proof.Machine.execCallEd rm s
  | .ret => Sys2Proof.Machine.execRet s
  | .setccEb p cc reg rm => Sys2Proof.Machine.execSetccEb p cc reg rm s
  | .nop p => Sys2Proof.Machine.execNop p s

end Sys2Proof.Machine
end

