-- ==== Sys2Proof/Machine/Fetch.lean ====
section
/-! DEFINITION. Fetching an instruction's bytes and decoding them (30_encoding.md R130, R137).

Reading RAM has no effect (20_memory.md R79), so the bytes that can be fetched are collected first, up to
the longest instruction, and decode looks at those the instruction has (log entry 12). -/

namespace Sys2Proof.Machine

/-- The bytes at `a` and up that instruction fetch can read: it stops at the first byte that is not RAM. -/
def fetchBytes (c : Config) (m : Memory) : Nat → Word → List Byte
  | 0, _ => []
  | k + 1, a => if isRam c a then m.byte a.toNat :: fetchBytes c m k (a + 1) else []

/-- The reason when the instruction has a byte at `a` that fetch cannot read: MMIO is refused, anything
else is not backed (R130). -/
def fetchReason (c : Config) (a : Word) : Reason :=
  if isMmio c a then .unsupportedForm .fetchMmio else .memOutOfBounds a .w1 .fetch

/-- The reason of a decode error; `n` bytes from `pc` on could be fetched. -/
def decodeReason (s : State) (n : Nat) : DecodeError → Reason
  | .needMore => fetchReason s.cfg (s.pc + BitVec.ofNat 32 n)
  | .invalidOpcode bytes => .invalidOpcode bytes
  | .unsupportedForm what => .unsupportedForm what
  | .unimplemented m => .unimplemented m

/-- The bytes that can be fetched at `pc`, at most those of the longest instruction. -/
def fetchable (s : State) : List Byte := fetchBytes s.cfg s.mem maxLen s.pc

/-- `Decode(pc)` (30_encoding.md R170). -/
def fetchDecode (s : State) : Except Reason Instr :=
  match decode s.cfg.extGk (fetchable s) with
  | .ok (i, _) => .ok i
  | .error e => .error (decodeReason s (fetchable s).length e)

/-- The end of a step whose core was halted before it: by category of the reason (60_exceptions.md R505,
R503; log entry 8). -/
def haltedStep (record : FaultRecord) : Host.Outcome State Fault Refusal :=
  match record.reason.category with
  | .fault => .fault (.halted record)
  | .refusal => .refused (.halted record)

end Sys2Proof.Machine
end

