-- ==== Sys2Proof/Machine/Step.lean ====
section
/-! DEFINITION. One step of the block (30_encoding.md R170): a halted core takes no step; decode, and
execute the instruction or halt on decode's reason. -/

namespace Sys2Proof.Machine

/-- One step: one instruction (30_encoding.md R170, R171; 60_exceptions.md R505). -/
def step (s : State) : Host.Outcome State Fault Refusal :=
  match s.status with
  | .halted record => haltedStep record
  | .running =>
    match fetchDecode s with
    | .ok i => exec i s
    | .error r => raise r s

/-- The bytes of one instruction, then zeros up to the longest instruction, stored from `pc` on: a program
in the loaded image (70_reset_and_hazards.md R601; log entry 10). -/
def State.withFetchWord (s : State) (nbits w : Nat) : State :=
  { s with mem := s.mem.setBytes s.pc (tableBytes nbits w) }

end Sys2Proof.Machine
end

