-- ==== Sys2Proof/Machine/Run.lean ====
section
/-! DEFINITION. A run: a sequence of steps from reset, and how it ends (70_reset_and_hazards.md R612). -/

namespace Sys2Proof.Machine

/-- At most `budget` steps from `s`; the state is kept where no step is taken (R612, 60_exceptions.md R505). -/
def runSteps : Nat → State → State
  | 0, s => s
  | budget + 1, s =>
    match step s with
    | .next t => runSteps budget t
    | .fault _ => s
    | .refused _ => s

/-- The two ways a run ends (R612). -/
inductive RunEnd
  /-- A step raised a fault or a refusal, and the core halted. -/
  | halted (record : FaultRecord)
  /-- The step budget is used up: the driver's single-step count, and every stop from outside the block. -/
  | budgetUsed
deriving DecidableEq, Repr

/-- How a run that stopped in this state ended: by its status (10_state.md R54). -/
def State.runEnd (s : State) : RunEnd :=
  match s.status with
  | .running => .budgetUsed
  | .halted record => .halted record

/-- The run from reset with these launch parameters: its last state, and how it ended. The step budget is an
argument, since the spec makes it a parameter (93_implementation_defined.md U32; DESIGN CHOICE, safe: log entry 27). -/
def run (l : Launch) (budget : Nat) : State × RunEnd :=
  let last := runSteps budget (State.resetWith l)
  (last, last.runEnd)

end Sys2Proof.Machine
end

