-- ==== Sys2Proof/Safety.lean ====
section
/-! DEFINITION. The terms that statements are written in: what an access does, which accesses an instruction
makes (20_memory.md R77), which registers, flags and bytes it may change, when it can raise what (60_exceptions.md
R501), the operand forms of the instruction rules, and the invariant that every step keeps. Nothing here is used
by the machine. -/

namespace Sys2Proof.Machine

/-! ### What a completed access reads and leaves

These are written from 20_memory.md R79 to R81 for an access that is admitted. -/

/-- The value that `MemRead(addr, W)` gives: a draw for MMIO, else the bytes of RAM (R79, R80). -/
def loadValue (w : Width) (a : Word) (s : State) : BitVec w.bits :=
  if admission s.cfg w a = some .mmio then (Config.drawWord s.draws).setWidth w.bits else readRam s.mem w a

/-- The state that `MemRead(addr, W)` leaves: of MMIO one draw is taken and one event appended (R80). -/
def loadDone (w : Width) (a : Word) (s : State) : State :=
  if admission s.cfg w a = some .mmio then
    { s with draws := s.draws + 1, events := s.events ++ [.mmioRead a w ((loadValue w a s).setWidth 32)] }
  else s

/-- The state that `MemWrite(addr, W, v)` leaves: of MMIO one event is appended, RAM takes the bytes (R79, R80). -/
def storeDone (w : Width) (a : Word) (v : BitVec w.bits) (s : State) : State :=
  if admission s.cfg w a = some .mmio then { s with events := s.events ++ [.mmioWrite a w (v.setWidth 32)] }
  else { s with mem := writeRam s.mem w a v }

/-- The value of an operand (30_encoding.md R160). -/
def Operand.value {w : Width} (op : Operand w) (s : State) : BitVec w.bits :=
  match op with
  | .reg i => s.regs.read w i
  | .mem a => loadValue w a s
  | .imm v => v

/-- The state after an operand is read. -/
def Operand.readDone {w : Width} (op : Operand w) (s : State) : State :=
  match op with
  | .reg _ => s
  | .mem a => loadDone w a s
  | .imm _ => s

/-- The state after `v` is written to a register or memory operand (30_encoding.md R161). -/
def Operand.put {w : Width} (op : Operand w) (v : BitVec w.bits) (s : State) : State :=
  match op with
  | .reg i => s.setReg w i v
  | .mem a => storeDone w a v s
  | .imm _ => s

/-- An access to the operand is admitted (20_memory.md R73); a register or an immediate needs none. -/
def Operand.admitted {w : Width} (op : Operand w) (s : State) : Prop :=
  match op with
  | .reg _ => True
  | .mem a => admission s.cfg w a ≠ none
  | .imm _ => True

/-- The bytes `bs` lie at `pc` and up, all of them RAM. -/
def BytesAt (s : State) (bs : List Byte) : Prop :=
  ∀ k (h : k < bs.length),
    isRam s.cfg (s.pc + BitVec.ofNat 32 k) = true ∧ s.mem.byte (s.pc + BitVec.ofNat 32 k).toNat = bs[k]

/-- The register pair that takes a double-width product, low half first: AX at W = 1, DX:AX at 2, EDX:EAX at 4
(41_muldiv.md R252). -/
def Regs.setProduct (x : Regs) (w : Width) (p : Int) : Regs :=
  match w with
  | .w1 => x.write .w2 .eax (BitVec.ofInt 16 p)
  | .w2 => (x.write .w2 .eax (BitVec.ofInt 16 p)).write .w2 .edx (BitVec.ofInt 16 (p / 2 ^ 16))
  | .w4 => (x.write .w4 .eax (BitVec.ofInt 32 p)).write .w4 .edx (BitVec.ofInt 32 (p / 2 ^ 32))

/-- Quotient and remainder in their halves: AL and AH at W = 1, AX and DX at 2, EAX and EDX at 4 (R257). -/
def Regs.setQuotient (x : Regs) (w : Width) (q r : BitVec w.bits) : Regs :=
  match w, q, r with
  | .w1, q, r => (x.write .w1 .eax q).write .w1 .esp r
  | .w2, q, r => (x.write .w2 .eax q).write .w2 .edx r
  | .w4, q, r => (x.write .w4 .eax q).write .w4 .edx r

/-- No n-bit two's-complement number has this value. -/
def overflows (n : Nat) (v : Int) : Prop := v < -2 ^ (n - 1) ∨ 2 ^ (n - 1) ≤ v

/-! ### Operand forms -/

/-- The nine operand forms of the two-operand instructions (40_arith.md R206, 44_logic_gk.md R401). -/
inductive AluForm
  | ebGb (p : Bool) (rm : RM) (r : Reg)
  | evGv (o : OSize) (rm : RM) (r : Reg)
  | gbEb (p : Bool) (r : Reg) (rm : RM)
  | gvEv (o : OSize) (r : Reg) (rm : RM)
  | alIb (p : Bool) (imm : Byte)
  | eaxIv (imm : ImmV)
  | ebIb (p : Bool) (rm : RM) (imm : Byte)
  | evIv (rm : RM) (imm : ImmV)
  | evSIb (o : OSize) (rm : RM) (imm : Byte)
deriving DecidableEq, Repr

/-- The width W of both operands. -/
abbrev AluForm.width : AluForm → Width
  | .ebGb _ _ _ | .gbEb _ _ _ | .alIb _ _ | .ebIb _ _ _ => .w1
  | .evGv o _ _ | .gvEv o _ _ | .evSIb o _ _ => o.width
  | .eaxIv imm | .evIv _ imm => imm.osz.width

/-- The destination operand. -/
def AluForm.dst (f : AluForm) (s : State) : Operand f.width :=
  match f with
  | .ebGb _ rm _ => rmOperand .w1 rm s
  | .evGv o rm _ => rmOperand o.width rm s
  | .gbEb _ r _ => .reg r
  | .gvEv _ r _ => .reg r
  | .alIb _ _ => .reg .eax
  | .eaxIv _ => .reg .eax
  | .ebIb _ rm _ => rmOperand .w1 rm s
  | .evIv rm imm => rmOperand imm.osz.width rm s
  | .evSIb o rm _ => rmOperand o.width rm s

/-- The source operand. -/
def AluForm.src (f : AluForm) (s : State) : Operand f.width :=
  match f with
  | .ebGb _ _ r => .reg r
  | .evGv _ _ r => .reg r
  | .gbEb _ _ rm => rmOperand .w1 rm s
  | .gvEv o _ rm => rmOperand o.width rm s
  | .alIb _ imm => .imm imm
  | .eaxIv imm => .imm imm.value
  | .ebIb _ _ imm => .imm imm
  | .evIv _ imm => .imm imm.value
  | .evSIb o _ imm => .imm (imm.signExtend o.width.bits)

/-- The nine rows of `add`. -/
def AluForm.addInstr : AluForm → Instr
  | .ebGb p rm r => .addEbGb p rm r
  | .evGv o rm r => .addEvGv o rm r
  | .gbEb p r rm => .addGbEb p r rm
  | .gvEv o r rm => .addGvEv o r rm
  | .alIb p imm => .addALIb p imm
  | .eaxIv imm => .addEAXIv imm
  | .ebIb p rm imm => .addEbIb p rm imm
  | .evIv rm imm => .addEvIv rm imm
  | .evSIb o rm imm => .addEvSIb o rm imm

/-- The nine rows of `or`. -/
def AluForm.orInstr : AluForm → Instr
  | .ebGb p rm r => .orEbGb p rm r
  | .evGv o rm r => .orEvGv o rm r
  | .gbEb p r rm => .orGbEb p r rm
  | .gvEv o r rm => .orGvEv o r rm
  | .alIb p imm => .orALIb p imm
  | .eaxIv imm => .orEAXIv imm
  | .ebIb p rm imm => .orEbIb p rm imm
  | .evIv rm imm => .orEvIv rm imm
  | .evSIb o rm imm => .orEvSIb o rm imm

/-- The nine rows of `adc`. -/
def AluForm.adcInstr : AluForm → Instr
  | .ebGb p rm r => .adcEbGb p rm r
  | .evGv o rm r => .adcEvGv o rm r
  | .gbEb p r rm => .adcGbEb p r rm
  | .gvEv o r rm => .adcGvEv o r rm
  | .alIb p imm => .adcALIb p imm
  | .eaxIv imm => .adcEAXIv imm
  | .ebIb p rm imm => .adcEbIb p rm imm
  | .evIv rm imm => .adcEvIv rm imm
  | .evSIb o rm imm => .adcEvSIb o rm imm

/-- The nine rows of `sbb`. -/
def AluForm.sbbInstr : AluForm → Instr
  | .ebGb p rm r => .sbbEbGb p rm r
  | .evGv o rm r => .sbbEvGv o rm r
  | .gbEb p r rm => .sbbGbEb p r rm
  | .gvEv o r rm => .sbbGvEv o r rm
  | .alIb p imm => .sbbALIb p imm
  | .eaxIv imm => .sbbEAXIv imm
  | .ebIb p rm imm => .sbbEbIb p rm imm
  | .evIv rm imm => .sbbEvIv rm imm
  | .evSIb o rm imm => .sbbEvSIb o rm imm

/-- The nine rows of `and`. -/
def AluForm.andInstr : AluForm → Instr
  | .ebGb p rm r => .andEbGb p rm r
  | .evGv o rm r => .andEvGv o rm r
  | .gbEb p r rm => .andGbEb p r rm
  | .gvEv o r rm => .andGvEv o r rm
  | .alIb p imm => .andALIb p imm
  | .eaxIv imm => .andEAXIv imm
  | .ebIb p rm imm => .andEbIb p rm imm
  | .evIv rm imm => .andEvIv rm imm
  | .evSIb o rm imm => .andEvSIb o rm imm

/-- The nine rows of `sub`. -/
def AluForm.subInstr : AluForm → Instr
  | .ebGb p rm r => .subEbGb p rm r
  | .evGv o rm r => .subEvGv o rm r
  | .gbEb p r rm => .subGbEb p r rm
  | .gvEv o r rm => .subGvEv o r rm
  | .alIb p imm => .subALIb p imm
  | .eaxIv imm => .subEAXIv imm
  | .ebIb p rm imm => .subEbIb p rm imm
  | .evIv rm imm => .subEvIv rm imm
  | .evSIb o rm imm => .subEvSIb o rm imm

/-- The nine rows of `xor`. -/
def AluForm.xorInstr : AluForm → Instr
  | .ebGb p rm r => .xorEbGb p rm r
  | .evGv o rm r => .xorEvGv o rm r
  | .gbEb p r rm => .xorGbEb p r rm
  | .gvEv o r rm => .xorGvEv o r rm
  | .alIb p imm => .xorALIb p imm
  | .eaxIv imm => .xorEAXIv imm
  | .ebIb p rm imm => .xorEbIb p rm imm
  | .evIv rm imm => .xorEvIv rm imm
  | .evSIb o rm imm => .xorEvSIb o rm imm

/-- The nine rows of `cmp`. -/
def AluForm.cmpInstr : AluForm → Instr
  | .ebGb p rm r => .cmpEbGb p rm r
  | .evGv o rm r => .cmpEvGv o rm r
  | .gbEb p r rm => .cmpGbEb p r rm
  | .gvEv o r rm => .cmpGvEv o r rm
  | .alIb p imm => .cmpALIb p imm
  | .eaxIv imm => .cmpEAXIv imm
  | .ebIb p rm imm => .cmpEbIb p rm imm
  | .evIv rm imm => .cmpEvIv rm imm
  | .evSIb o rm imm => .cmpEvSIb o rm imm

/-- The six operand forms of `test` (44_logic_gk.md R401, R405). -/
inductive TestForm
  | ebGb (p : Bool) (rm : RM) (r : Reg)
  | evGv (o : OSize) (rm : RM) (r : Reg)
  | alIb (p : Bool) (imm : Byte)
  | eaxIv (imm : ImmV)
  | ebIb (p : Bool) (rm : RM) (imm : Byte)
  | evIv (rm : RM) (imm : ImmV)
deriving DecidableEq, Repr

abbrev TestForm.width : TestForm → Width
  | .ebGb _ _ _ | .alIb _ _ | .ebIb _ _ _ => .w1
  | .evGv o _ _ => o.width
  | .eaxIv imm | .evIv _ imm => imm.osz.width

def TestForm.dst (f : TestForm) (s : State) : Operand f.width :=
  match f with
  | .ebGb _ rm _ => rmOperand .w1 rm s
  | .evGv o rm _ => rmOperand o.width rm s
  | .alIb _ _ => .reg .eax
  | .eaxIv _ => .reg .eax
  | .ebIb _ rm _ => rmOperand .w1 rm s
  | .evIv rm imm => rmOperand imm.osz.width rm s

def TestForm.src (f : TestForm) : Operand f.width :=
  match f with
  | .ebGb _ _ r => .reg r
  | .evGv _ _ r => .reg r
  | .alIb _ imm => .imm imm
  | .eaxIv imm => .imm imm.value
  | .ebIb _ _ imm => .imm imm
  | .evIv _ imm => .imm imm.value

/-- The six rows of `test`. -/
def TestForm.instr : TestForm → Instr
  | .ebGb p rm r => .testEbGb p rm r
  | .evGv o rm r => .testEvGv o rm r
  | .alIb p imm => .testALIb p imm
  | .eaxIv imm => .testEAXIv imm
  | .ebIb p rm imm => .testEbIb p rm imm
  | .evIv rm imm => .testEvIv rm imm

/-- A single E operand: `Eb` or `Ev`, the forms of `neg`, `not`, `mul`, one-operand `imul`, `div`, `idiv`. -/
inductive EForm
  | eb (p : Bool) (rm : RM)
  | ev (o : OSize) (rm : RM)
deriving DecidableEq, Repr

abbrev EForm.width : EForm → Width
  | .eb _ _ => .w1
  | .ev o _ => o.width

def EForm.op (f : EForm) (s : State) : Operand f.width :=
  match f with
  | .eb _ rm => rmOperand .w1 rm s
  | .ev o rm => rmOperand o.width rm s

def EForm.negInstr : EForm → Instr
  | .eb p rm => .negEb p rm
  | .ev o rm => .negEv o rm

def EForm.notInstr : EForm → Instr
  | .eb p rm => .notEb p rm
  | .ev o rm => .notEv o rm

def EForm.mulInstr : EForm → Instr
  | .eb p rm => .mulEb p rm
  | .ev o rm => .mulEv o rm

def EForm.imulInstr : EForm → Instr
  | .eb p rm => .imulEb p rm
  | .ev o rm => .imulEv o rm

def EForm.divInstr : EForm → Instr
  | .eb p rm => .divEb p rm
  | .ev o rm => .divEv o rm

def EForm.idivInstr : EForm → Instr
  | .eb p rm => .idivEb p rm
  | .ev o rm => .idivEv o rm

/-- The three operand forms of `inc` and `dec` (40_arith.md R218, R219). -/
inductive IncForm
  | rv (o : OSize) (r : Reg)
  | eb (p : Bool) (rm : RM)
  | ev (o : OSize) (rm : RM)
deriving DecidableEq, Repr

abbrev IncForm.width : IncForm → Width
  | .rv o _ => o.width
  | .eb _ _ => .w1
  | .ev o _ => o.width

def IncForm.dst (f : IncForm) (s : State) : Operand f.width :=
  match f with
  | .rv _ r => .reg r
  | .eb _ rm => rmOperand .w1 rm s
  | .ev o rm => rmOperand o.width rm s

def IncForm.incInstr : IncForm → Instr
  | .rv o r => .incRv o r
  | .eb p rm => .incEb p rm
  | .ev o rm => .incEv o rm

def IncForm.decInstr : IncForm → Instr
  | .rv o r => .decRv o r
  | .eb p rm => .decEb p rm
  | .ev o rm => .decEv o rm

/-- The six forms of a shift: the count is `Ib`, the constant 1 or CL (44_logic_gk.md R406). -/
inductive ShiftForm
  | ebIb (p : Bool) (rm : RM) (imm : Byte)
  | evIb (o : OSize) (rm : RM) (imm : Byte)
  | eb1 (p : Bool) (rm : RM)
  | ev1 (o : OSize) (rm : RM)
  | ebCL (p : Bool) (rm : RM)
  | evCL (o : OSize) (rm : RM)
deriving DecidableEq, Repr

abbrev ShiftForm.width : ShiftForm → Width
  | .ebIb _ _ _ | .eb1 _ _ | .ebCL _ _ => .w1
  | .evIb o _ _ | .ev1 o _ | .evCL o _ => o.width

def ShiftForm.dst (f : ShiftForm) (s : State) : Operand f.width :=
  match f with
  | .ebIb _ rm _ | .eb1 _ rm | .ebCL _ rm => rmOperand .w1 rm s
  | .evIb o rm _ | .ev1 o rm | .evCL o rm => rmOperand o.width rm s

/-- The masked count c, u(count) mod 32 at every width (R406). -/
def ShiftForm.count (f : ShiftForm) (s : State) : Nat :=
  match f with
  | .ebIb _ _ imm | .evIb _ _ imm => imm.toNat % 32
  | .eb1 _ _ | .ev1 _ _ => 1
  | .ebCL _ _ | .evCL _ _ => s.regs.ecx.toNat % 256 % 32

def ShiftForm.shlInstr : ShiftForm → Instr
  | .ebIb p rm imm => .shlEbIb p rm imm
  | .evIb o rm imm => .shlEvIb o rm imm
  | .eb1 p rm => .shlEb1 p rm
  | .ev1 o rm => .shlEv1 o rm
  | .ebCL p rm => .shlEbCL p rm
  | .evCL o rm => .shlEvCL o rm

def ShiftForm.shrInstr : ShiftForm → Instr
  | .ebIb p rm imm => .shrEbIb p rm imm
  | .evIb o rm imm => .shrEvIb o rm imm
  | .eb1 p rm => .shrEb1 p rm
  | .ev1 o rm => .shrEv1 o rm
  | .ebCL p rm => .shrEbCL p rm
  | .evCL o rm => .shrEvCL o rm

def ShiftForm.sarInstr : ShiftForm → Instr
  | .ebIb p rm imm => .sarEbIb p rm imm
  | .evIb o rm imm => .sarEvIb o rm imm
  | .eb1 p rm => .sarEb1 p rm
  | .ev1 o rm => .sarEv1 o rm
  | .ebCL p rm => .sarEbCL p rm
  | .evCL o rm => .sarEvCL o rm

/-- The twelve forms of `mov` (42_datamove.md R300). -/
inductive MovForm
  | ebGb (p : Bool) (rm : RM) (r : Reg)
  | evGv (o : OSize) (rm : RM) (r : Reg)
  | gbEb (p : Bool) (r : Reg) (rm : RM)
  | gvEv (o : OSize) (r : Reg) (rm : RM)
  | alOb (p : Bool) (addr : Word)
  | eaxOv (o : OSize) (addr : Word)
  | obAL (p : Bool) (addr : Word)
  | ovEAX (o : OSize) (addr : Word)
  | rbIb (p : Bool) (r : Reg) (imm : Byte)
  | rvIv (r : Reg) (imm : ImmV)
  | ebIb (p : Bool) (rm : RM) (imm : Byte)
  | evIv (rm : RM) (imm : ImmV)
deriving DecidableEq, Repr

abbrev MovForm.width : MovForm → Width
  | .ebGb _ _ _ | .gbEb _ _ _ | .alOb _ _ | .obAL _ _ | .rbIb _ _ _ | .ebIb _ _ _ => .w1
  | .evGv o _ _ | .gvEv o _ _ | .eaxOv o _ | .ovEAX o _ => o.width
  | .rvIv _ imm | .evIv _ imm => imm.osz.width

def MovForm.dst (f : MovForm) (s : State) : Operand f.width :=
  match f with
  | .ebGb _ rm _ => rmOperand .w1 rm s
  | .evGv o rm _ => rmOperand o.width rm s
  | .gbEb _ r _ => .reg r
  | .gvEv _ r _ => .reg r
  | .alOb _ _ => .reg .eax
  | .eaxOv _ _ => .reg .eax
  | .obAL _ addr => .mem addr
  | .ovEAX _ addr => .mem addr
  | .rbIb _ r _ => .reg r
  | .rvIv r _ => .reg r
  | .ebIb _ rm _ => rmOperand .w1 rm s
  | .evIv rm imm => rmOperand imm.osz.width rm s

def MovForm.src (f : MovForm) (s : State) : Operand f.width :=
  match f with
  | .ebGb _ _ r => .reg r
  | .evGv _ _ r => .reg r
  | .gbEb _ _ rm => rmOperand .w1 rm s
  | .gvEv o _ rm => rmOperand o.width rm s
  | .alOb _ addr => .mem addr
  | .eaxOv _ addr => .mem addr
  | .obAL _ _ => .reg .eax
  | .ovEAX _ _ => .reg .eax
  | .rbIb _ _ imm => .imm imm
  | .rvIv _ imm => .imm imm.value
  | .ebIb _ _ imm => .imm imm
  | .evIv _ imm => .imm imm.value

/-- The twelve rows of `mov`. -/
def MovForm.instr : MovForm → Instr
  | .ebGb p rm r => .movEbGb p rm r
  | .evGv o rm r => .movEvGv o rm r
  | .gbEb p r rm => .movGbEb p r rm
  | .gvEv o r rm => .movGvEv o r rm
  | .alOb p addr => .movALOb p addr
  | .eaxOv o addr => .movEAXOv o addr
  | .obAL p addr => .movObAL p addr
  | .ovEAX o addr => .movOvEAX o addr
  | .rbIb p r imm => .movRbIb p r imm
  | .rvIv r imm => .movRvIv r imm
  | .ebIb p rm imm => .movEbIb p rm imm
  | .evIv rm imm => .movEvIv rm imm

/-- The four forms of `push` (42_datamove.md R306). -/
inductive PushForm
  | rv (o : OSize) (r : Reg)
  | iv (imm : ImmV)
  | sib (o : OSize) (imm : Byte)
  | ev (o : OSize) (rm : RM)
deriving DecidableEq, Repr

abbrev PushForm.osz : PushForm → OSize
  | .rv o _ | .sib o _ | .ev o _ => o
  | .iv imm => imm.osz

def PushForm.src (f : PushForm) (s : State) : Operand f.osz.width :=
  match f with
  | .rv _ r => .reg r
  | .iv imm => .imm imm.value
  | .sib o imm => .imm (imm.signExtend o.width.bits)
  | .ev o rm => rmOperand o.width rm s

def PushForm.instr : PushForm → Instr
  | .rv o r => .pushRv o r
  | .iv imm => .pushIv imm
  | .sib o imm => .pushSIb o imm
  | .ev o rm => .pushEv o rm

/-- The forms of `pop` (42_datamove.md R308). -/
inductive PopForm
  | rv (o : OSize) (r : Reg)
  | ev (o : OSize) (rm : RM)
deriving DecidableEq, Repr

abbrev PopForm.osz : PopForm → OSize
  | .rv o _ | .ev o _ => o

def PopForm.dst (f : PopForm) (s : State) : Operand f.osz.width :=
  match f with
  | .rv _ r => .reg r
  | .ev o rm => rmOperand o.width rm s

def PopForm.instr : PopForm → Instr
  | .rv o r => .popRv o r
  | .ev o rm => .popEv o rm

/-- The four forms of a port access: AL or eAX, port `Ib` or DX (43_system.md R344, R345). -/
inductive PortForm
  | alIb (p : Bool) (port : Byte)
  | eaxIb (o : OSize) (port : Byte)
  | alDX (p : Bool)
  | eaxDX (o : OSize)
deriving DecidableEq, Repr

abbrev PortForm.width : PortForm → Width
  | .alIb _ _ | .alDX _ => .w1
  | .eaxIb o _ | .eaxDX o => o.width

/-- The port number: the zero-extended immediate, or DX. -/
def PortForm.port (f : PortForm) (s : State) : Half :=
  match f with
  | .alIb _ port | .eaxIb _ port => port.zeroExtend 16
  | .alDX _ | .eaxDX _ => s.regs.edx.extractLsb' 0 16

def PortForm.inInstr : PortForm → Instr
  | .alIb p port => .inALIb p port
  | .eaxIb o port => .inEAXIb o port
  | .alDX p => .inALDX p
  | .eaxDX o => .inEAXDX o

def PortForm.outInstr : PortForm → Instr
  | .alIb p port => .outIbAL p port
  | .eaxIb o port => .outIbEAX o port
  | .alDX p => .outDXAL p
  | .eaxDX o => .outDXEAX o

/-! ### Classes of instructions -/

end Sys2Proof.Machine

namespace Sys2Proof

open Machine

/-- The placeholder that an instruction is (60_exceptions.md R502). -/
def Instr.placeholder : Instr → Option Placeholder
  | .movFromCr .. | .movToCr .. => some .movCr
  | .intIb .. => some .int
  | .iret .. => some .iret
  | .pusha .. => some .pusha
  | .popa .. => some .popa
  | .addEbGb .. | .addEvGv .. | .addGbEb .. | .addGvEv .. | .addALIb .. | .addEAXIv .. | .addEbIb ..
  | .addEvIv .. | .addEvSIb .. | .orEbGb .. | .orEvGv .. | .orGbEb .. | .orGvEv .. | .orALIb ..
  | .orEAXIv .. | .orEbIb .. | .orEvIv .. | .orEvSIb .. | .adcEbGb .. | .adcEvGv .. | .adcGbEb ..
  | .adcGvEv .. | .adcALIb .. | .adcEAXIv .. | .adcEbIb .. | .adcEvIv .. | .adcEvSIb .. | .sbbEbGb ..
  | .sbbEvGv .. | .sbbGbEb .. | .sbbGvEv .. | .sbbALIb .. | .sbbEAXIv .. | .sbbEbIb .. | .sbbEvIv ..
  | .sbbEvSIb .. | .andEbGb .. | .andEvGv .. | .andGbEb .. | .andGvEv .. | .andALIb .. | .andEAXIv ..
  | .andEbIb .. | .andEvIv .. | .andEvSIb .. | .subEbGb .. | .subEvGv .. | .subGbEb .. | .subGvEv ..
  | .subALIb .. | .subEAXIv .. | .subEbIb .. | .subEvIv .. | .subEvSIb .. | .xorEbGb .. | .xorEvGv ..
  | .xorGbEb .. | .xorGvEv .. | .xorALIb .. | .xorEAXIv .. | .xorEbIb .. | .xorEvIv .. | .xorEvSIb ..
  | .cmpEbGb .. | .cmpEvGv .. | .cmpGbEb .. | .cmpGvEv .. | .cmpALIb .. | .cmpEAXIv .. | .cmpEbIb ..
  | .cmpEvIv .. | .cmpEvSIb .. | .testEbGb .. | .testEvGv .. | .testALIb .. | .testEAXIv .. | .testEbIb ..
  | .testEvIv .. | .incRv .. | .incEb .. | .incEv .. | .decRv .. | .decEb .. | .decEv .. | .negEb ..
  | .negEv .. | .notEb .. | .notEv .. | .shlEbIb .. | .shlEvIb .. | .shlEb1 .. | .shlEv1 .. | .shlEbCL ..
  | .shlEvCL .. | .shrEbIb .. | .shrEvIb .. | .shrEb1 .. | .shrEv1 .. | .shrEbCL .. | .shrEvCL ..
  | .sarEbIb .. | .sarEvIb .. | .sarEb1 .. | .sarEv1 .. | .sarEbCL .. | .sarEvCL .. | .mulEb .. | .mulEv ..
  | .imulEb .. | .imulEv .. | .imulGvEv .. | .imulGvEvIv .. | .imulGvEvSIb .. | .divEb .. | .divEv ..
  | .idivEb .. | .idivEv .. | .movEbGb .. | .movEvGv .. | .movGbEb .. | .movGvEv .. | .movALOb ..
  | .movEAXOv .. | .movObAL .. | .movOvEAX .. | .movRbIb .. | .movRvIv .. | .movEbIb .. | .movEvIv ..
  | .leaGvM .. | .movsxGvEb .. | .movsxGvEw .. | .movzxGvEb .. | .movzxGvEw .. | .cwtl .. | .cltd ..
  | .pushRv .. | .pushIv .. | .pushSIb .. | .pushEv .. | .popRv .. | .popEv .. | .leave | .inALIb ..
  | .inEAXIb .. | .inALDX .. | .inEAXDX .. | .outIbAL .. | .outIbEAX .. | .outDXAL .. | .outDXEAX ..
  | .lidtM .. | .jccJb .. | .jccJd .. | .jmpJb .. | .jmpJd .. | .jmpEd .. | .callJd .. | .callEd .. | .ret
  | .setccEb .. | .nop .. => none

/-- The control transfers, which write pc themselves (10_state.md R42). -/
def Instr.isTransfer : Instr → Bool
  | .jccJb .. | .jccJd .. | .jmpJb .. | .jmpJd .. | .jmpEd .. | .callJd .. | .callEd .. | .ret => true
  | .addEbGb .. | .addEvGv .. | .addGbEb .. | .addGvEv .. | .addALIb .. | .addEAXIv .. | .addEbIb ..
  | .addEvIv .. | .addEvSIb .. | .orEbGb .. | .orEvGv .. | .orGbEb .. | .orGvEv .. | .orALIb ..
  | .orEAXIv .. | .orEbIb .. | .orEvIv .. | .orEvSIb .. | .adcEbGb .. | .adcEvGv .. | .adcGbEb ..
  | .adcGvEv .. | .adcALIb .. | .adcEAXIv .. | .adcEbIb .. | .adcEvIv .. | .adcEvSIb .. | .sbbEbGb ..
  | .sbbEvGv .. | .sbbGbEb .. | .sbbGvEv .. | .sbbALIb .. | .sbbEAXIv .. | .sbbEbIb .. | .sbbEvIv ..
  | .sbbEvSIb .. | .andEbGb .. | .andEvGv .. | .andGbEb .. | .andGvEv .. | .andALIb .. | .andEAXIv ..
  | .andEbIb .. | .andEvIv .. | .andEvSIb .. | .subEbGb .. | .subEvGv .. | .subGbEb .. | .subGvEv ..
  | .subALIb .. | .subEAXIv .. | .subEbIb .. | .subEvIv .. | .subEvSIb .. | .xorEbGb .. | .xorEvGv ..
  | .xorGbEb .. | .xorGvEv .. | .xorALIb .. | .xorEAXIv .. | .xorEbIb .. | .xorEvIv .. | .xorEvSIb ..
  | .cmpEbGb .. | .cmpEvGv .. | .cmpGbEb .. | .cmpGvEv .. | .cmpALIb .. | .cmpEAXIv .. | .cmpEbIb ..
  | .cmpEvIv .. | .cmpEvSIb .. | .testEbGb .. | .testEvGv .. | .testALIb .. | .testEAXIv .. | .testEbIb ..
  | .testEvIv .. | .incRv .. | .incEb .. | .incEv .. | .decRv .. | .decEb .. | .decEv .. | .negEb ..
  | .negEv .. | .notEb .. | .notEv .. | .shlEbIb .. | .shlEvIb .. | .shlEb1 .. | .shlEv1 .. | .shlEbCL ..
  | .shlEvCL .. | .shrEbIb .. | .shrEvIb .. | .shrEb1 .. | .shrEv1 .. | .shrEbCL .. | .shrEvCL ..
  | .sarEbIb .. | .sarEvIb .. | .sarEb1 .. | .sarEv1 .. | .sarEbCL .. | .sarEvCL .. | .mulEb .. | .mulEv ..
  | .imulEb .. | .imulEv .. | .imulGvEv .. | .imulGvEvIv .. | .imulGvEvSIb .. | .divEb .. | .divEv ..
  | .idivEb .. | .idivEv .. | .movEbGb .. | .movEvGv .. | .movGbEb .. | .movGvEv .. | .movALOb ..
  | .movEAXOv .. | .movObAL .. | .movOvEAX .. | .movRbIb .. | .movRvIv .. | .movEbIb .. | .movEvIv ..
  | .leaGvM .. | .movsxGvEb .. | .movsxGvEw .. | .movzxGvEb .. | .movzxGvEw .. | .cwtl .. | .cltd ..
  | .pushRv .. | .pushIv .. | .pushSIb .. | .pushEv .. | .popRv .. | .popEv .. | .leave | .inALIb ..
  | .inEAXIb .. | .inALDX .. | .inEAXDX .. | .outIbAL .. | .outIbEAX .. | .outDXAL .. | .outDXEAX ..
  | .lidtM .. | .pusha .. | .popa .. | .intIb .. | .iret .. | .movFromCr .. | .movToCr .. | .setccEb ..
  | .nop .. => false

/-- The rows that refuse the operand-size prefix (30_encoding.md R135). -/
def Instr.refusesPrefix : Instr → Bool
  | .leave | .jccJb .. | .jccJd .. | .jmpJb .. | .jmpJd .. | .jmpEd .. | .callJd .. | .callEd .. | .ret => true
  | .addEbGb .. | .addEvGv .. | .addGbEb .. | .addGvEv .. | .addALIb .. | .addEAXIv .. | .addEbIb ..
  | .addEvIv .. | .addEvSIb .. | .orEbGb .. | .orEvGv .. | .orGbEb .. | .orGvEv .. | .orALIb ..
  | .orEAXIv .. | .orEbIb .. | .orEvIv .. | .orEvSIb .. | .adcEbGb .. | .adcEvGv .. | .adcGbEb ..
  | .adcGvEv .. | .adcALIb .. | .adcEAXIv .. | .adcEbIb .. | .adcEvIv .. | .adcEvSIb .. | .sbbEbGb ..
  | .sbbEvGv .. | .sbbGbEb .. | .sbbGvEv .. | .sbbALIb .. | .sbbEAXIv .. | .sbbEbIb .. | .sbbEvIv ..
  | .sbbEvSIb .. | .andEbGb .. | .andEvGv .. | .andGbEb .. | .andGvEv .. | .andALIb .. | .andEAXIv ..
  | .andEbIb .. | .andEvIv .. | .andEvSIb .. | .subEbGb .. | .subEvGv .. | .subGbEb .. | .subGvEv ..
  | .subALIb .. | .subEAXIv .. | .subEbIb .. | .subEvIv .. | .subEvSIb .. | .xorEbGb .. | .xorEvGv ..
  | .xorGbEb .. | .xorGvEv .. | .xorALIb .. | .xorEAXIv .. | .xorEbIb .. | .xorEvIv .. | .xorEvSIb ..
  | .cmpEbGb .. | .cmpEvGv .. | .cmpGbEb .. | .cmpGvEv .. | .cmpALIb .. | .cmpEAXIv .. | .cmpEbIb ..
  | .cmpEvIv .. | .cmpEvSIb .. | .testEbGb .. | .testEvGv .. | .testALIb .. | .testEAXIv .. | .testEbIb ..
  | .testEvIv .. | .incRv .. | .incEb .. | .incEv .. | .decRv .. | .decEb .. | .decEv .. | .negEb ..
  | .negEv .. | .notEb .. | .notEv .. | .shlEbIb .. | .shlEvIb .. | .shlEb1 .. | .shlEv1 .. | .shlEbCL ..
  | .shlEvCL .. | .shrEbIb .. | .shrEvIb .. | .shrEb1 .. | .shrEv1 .. | .shrEbCL .. | .shrEvCL ..
  | .sarEbIb .. | .sarEvIb .. | .sarEb1 .. | .sarEv1 .. | .sarEbCL .. | .sarEvCL .. | .mulEb .. | .mulEv ..
  | .imulEb .. | .imulEv .. | .imulGvEv .. | .imulGvEvIv .. | .imulGvEvSIb .. | .divEb .. | .divEv ..
  | .idivEb .. | .idivEv .. | .movEbGb .. | .movEvGv .. | .movGbEb .. | .movGvEv .. | .movALOb ..
  | .movEAXOv .. | .movObAL .. | .movOvEAX .. | .movRbIb .. | .movRvIv .. | .movEbIb .. | .movEvIv ..
  | .leaGvM .. | .movsxGvEb .. | .movsxGvEw .. | .movzxGvEb .. | .movzxGvEw .. | .cwtl .. | .cltd ..
  | .pushRv .. | .pushIv .. | .pushSIb .. | .pushEv .. | .popRv .. | .popEv .. | .inALIb .. | .inEAXIb ..
  | .inALDX .. | .inEAXDX .. | .outIbAL .. | .outIbEAX .. | .outDXAL .. | .outDXEAX .. | .lidtM ..
  | .pusha .. | .popa .. | .intIb .. | .iret .. | .movFromCr .. | .movToCr .. | .setccEb .. | .nop .. => false

/-- The port instructions (43_system.md R344, R345). -/
def Instr.isPort : Instr → Bool
  | .inALIb .. | .inEAXIb .. | .inALDX .. | .inEAXDX .. | .outIbAL .. | .outIbEAX .. | .outDXAL ..
  | .outDXEAX .. => true
  | .addEbGb .. | .addEvGv .. | .addGbEb .. | .addGvEv .. | .addALIb .. | .addEAXIv .. | .addEbIb ..
  | .addEvIv .. | .addEvSIb .. | .orEbGb .. | .orEvGv .. | .orGbEb .. | .orGvEv .. | .orALIb ..
  | .orEAXIv .. | .orEbIb .. | .orEvIv .. | .orEvSIb .. | .adcEbGb .. | .adcEvGv .. | .adcGbEb ..
  | .adcGvEv .. | .adcALIb .. | .adcEAXIv .. | .adcEbIb .. | .adcEvIv .. | .adcEvSIb .. | .sbbEbGb ..
  | .sbbEvGv .. | .sbbGbEb .. | .sbbGvEv .. | .sbbALIb .. | .sbbEAXIv .. | .sbbEbIb .. | .sbbEvIv ..
  | .sbbEvSIb .. | .andEbGb .. | .andEvGv .. | .andGbEb .. | .andGvEv .. | .andALIb .. | .andEAXIv ..
  | .andEbIb .. | .andEvIv .. | .andEvSIb .. | .subEbGb .. | .subEvGv .. | .subGbEb .. | .subGvEv ..
  | .subALIb .. | .subEAXIv .. | .subEbIb .. | .subEvIv .. | .subEvSIb .. | .xorEbGb .. | .xorEvGv ..
  | .xorGbEb .. | .xorGvEv .. | .xorALIb .. | .xorEAXIv .. | .xorEbIb .. | .xorEvIv .. | .xorEvSIb ..
  | .cmpEbGb .. | .cmpEvGv .. | .cmpGbEb .. | .cmpGvEv .. | .cmpALIb .. | .cmpEAXIv .. | .cmpEbIb ..
  | .cmpEvIv .. | .cmpEvSIb .. | .testEbGb .. | .testEvGv .. | .testALIb .. | .testEAXIv .. | .testEbIb ..
  | .testEvIv .. | .incRv .. | .incEb .. | .incEv .. | .decRv .. | .decEb .. | .decEv .. | .negEb ..
  | .negEv .. | .notEb .. | .notEv .. | .shlEbIb .. | .shlEvIb .. | .shlEb1 .. | .shlEv1 .. | .shlEbCL ..
  | .shlEvCL .. | .shrEbIb .. | .shrEvIb .. | .shrEb1 .. | .shrEv1 .. | .shrEbCL .. | .shrEvCL ..
  | .sarEbIb .. | .sarEvIb .. | .sarEb1 .. | .sarEv1 .. | .sarEbCL .. | .sarEvCL .. | .mulEb .. | .mulEv ..
  | .imulEb .. | .imulEv .. | .imulGvEv .. | .imulGvEvIv .. | .imulGvEvSIb .. | .divEb .. | .divEv ..
  | .idivEb .. | .idivEv .. | .movEbGb .. | .movEvGv .. | .movGbEb .. | .movGvEv .. | .movALOb ..
  | .movEAXOv .. | .movObAL .. | .movOvEAX .. | .movRbIb .. | .movRvIv .. | .movEbIb .. | .movEvIv ..
  | .leaGvM .. | .movsxGvEb .. | .movsxGvEw .. | .movzxGvEb .. | .movzxGvEw .. | .cwtl .. | .cltd ..
  | .pushRv .. | .pushIv .. | .pushSIb .. | .pushEv .. | .popRv .. | .popEv .. | .leave | .lidtM ..
  | .pusha .. | .popa .. | .intIb .. | .iret .. | .movFromCr .. | .movToCr .. | .jccJb .. | .jccJd ..
  | .jmpJb .. | .jmpJd .. | .jmpEd .. | .callJd .. | .callEd .. | .ret | .setccEb .. | .nop .. => false

/-- The form of a shift instruction. -/
def Instr.shiftForm : Instr → Option ShiftForm
  | .shlEbIb p rm imm | .shrEbIb p rm imm | .sarEbIb p rm imm => some (.ebIb p rm imm)
  | .shlEvIb o rm imm | .shrEvIb o rm imm | .sarEvIb o rm imm => some (.evIb o rm imm)
  | .shlEb1 p rm | .shrEb1 p rm | .sarEb1 p rm => some (.eb1 p rm)
  | .shlEv1 o rm | .shrEv1 o rm | .sarEv1 o rm => some (.ev1 o rm)
  | .shlEbCL p rm | .shrEbCL p rm | .sarEbCL p rm => some (.ebCL p rm)
  | .shlEvCL o rm | .shrEvCL o rm | .sarEvCL o rm => some (.evCL o rm)
  | .addEbGb .. | .addEvGv .. | .addGbEb .. | .addGvEv .. | .addALIb .. | .addEAXIv .. | .addEbIb ..
  | .addEvIv .. | .addEvSIb .. | .orEbGb .. | .orEvGv .. | .orGbEb .. | .orGvEv .. | .orALIb ..
  | .orEAXIv .. | .orEbIb .. | .orEvIv .. | .orEvSIb .. | .adcEbGb .. | .adcEvGv .. | .adcGbEb ..
  | .adcGvEv .. | .adcALIb .. | .adcEAXIv .. | .adcEbIb .. | .adcEvIv .. | .adcEvSIb .. | .sbbEbGb ..
  | .sbbEvGv .. | .sbbGbEb .. | .sbbGvEv .. | .sbbALIb .. | .sbbEAXIv .. | .sbbEbIb .. | .sbbEvIv ..
  | .sbbEvSIb .. | .andEbGb .. | .andEvGv .. | .andGbEb .. | .andGvEv .. | .andALIb .. | .andEAXIv ..
  | .andEbIb .. | .andEvIv .. | .andEvSIb .. | .subEbGb .. | .subEvGv .. | .subGbEb .. | .subGvEv ..
  | .subALIb .. | .subEAXIv .. | .subEbIb .. | .subEvIv .. | .subEvSIb .. | .xorEbGb .. | .xorEvGv ..
  | .xorGbEb .. | .xorGvEv .. | .xorALIb .. | .xorEAXIv .. | .xorEbIb .. | .xorEvIv .. | .xorEvSIb ..
  | .cmpEbGb .. | .cmpEvGv .. | .cmpGbEb .. | .cmpGvEv .. | .cmpALIb .. | .cmpEAXIv .. | .cmpEbIb ..
  | .cmpEvIv .. | .cmpEvSIb .. | .testEbGb .. | .testEvGv .. | .testALIb .. | .testEAXIv .. | .testEbIb ..
  | .testEvIv .. | .incRv .. | .incEb .. | .incEv .. | .decRv .. | .decEb .. | .decEv .. | .negEb ..
  | .negEv .. | .notEb .. | .notEv .. | .mulEb .. | .mulEv .. | .imulEb .. | .imulEv .. | .imulGvEv ..
  | .imulGvEvIv .. | .imulGvEvSIb .. | .divEb .. | .divEv .. | .idivEb .. | .idivEv .. | .movEbGb ..
  | .movEvGv .. | .movGbEb .. | .movGvEv .. | .movALOb .. | .movEAXOv .. | .movObAL .. | .movOvEAX ..
  | .movRbIb .. | .movRvIv .. | .movEbIb .. | .movEvIv .. | .leaGvM .. | .movsxGvEb .. | .movsxGvEw ..
  | .movzxGvEb .. | .movzxGvEw .. | .cwtl .. | .cltd .. | .pushRv .. | .pushIv .. | .pushSIb .. | .pushEv ..
  | .popRv .. | .popEv .. | .leave | .inALIb .. | .inEAXIb .. | .inALDX .. | .inEAXDX .. | .outIbAL ..
  | .outIbEAX .. | .outDXAL .. | .outDXEAX .. | .lidtM .. | .pusha .. | .popa .. | .intIb .. | .iret ..
  | .movFromCr .. | .movToCr .. | .jccJb .. | .jccJd .. | .jmpJb .. | .jmpJd .. | .jmpEd .. | .callJd ..
  | .callEd .. | .ret | .setccEb .. | .nop .. => none

/-- May the instruction, started in `s`, write a flag? The table of 10_state.md R47: a shift by a masked count
of 0 writes none (44_logic_gk.md R406), nor does two- or three-operand `imul` in mode `unchanged` (41_muldiv.md
R251). -/
def Instr.writesFlags (i : Instr) (s : State) : Bool :=
  match i with
  | .addEbGb .. | .addEvGv .. | .addGbEb .. | .addGvEv .. | .addALIb .. | .addEAXIv .. | .addEbIb ..
  | .addEvIv .. | .addEvSIb .. | .orEbGb .. | .orEvGv .. | .orGbEb .. | .orGvEv .. | .orALIb ..
  | .orEAXIv .. | .orEbIb .. | .orEvIv .. | .orEvSIb .. | .adcEbGb .. | .adcEvGv .. | .adcGbEb ..
  | .adcGvEv .. | .adcALIb .. | .adcEAXIv .. | .adcEbIb .. | .adcEvIv .. | .adcEvSIb .. | .sbbEbGb ..
  | .sbbEvGv .. | .sbbGbEb .. | .sbbGvEv .. | .sbbALIb .. | .sbbEAXIv .. | .sbbEbIb .. | .sbbEvIv ..
  | .sbbEvSIb .. | .andEbGb .. | .andEvGv .. | .andGbEb .. | .andGvEv .. | .andALIb .. | .andEAXIv ..
  | .andEbIb .. | .andEvIv .. | .andEvSIb .. | .subEbGb .. | .subEvGv .. | .subGbEb .. | .subGvEv ..
  | .subALIb .. | .subEAXIv .. | .subEbIb .. | .subEvIv .. | .subEvSIb .. | .xorEbGb .. | .xorEvGv ..
  | .xorGbEb .. | .xorGvEv .. | .xorALIb .. | .xorEAXIv .. | .xorEbIb .. | .xorEvIv .. | .xorEvSIb ..
  | .cmpEbGb .. | .cmpEvGv .. | .cmpGbEb .. | .cmpGvEv .. | .cmpALIb .. | .cmpEAXIv .. | .cmpEbIb ..
  | .cmpEvIv .. | .cmpEvSIb .. | .testEbGb .. | .testEvGv .. | .testALIb .. | .testEAXIv .. | .testEbIb ..
  | .testEvIv .. | .incRv .. | .incEb .. | .incEv .. | .decRv .. | .decEb .. | .decEv .. | .negEb ..
  | .negEv .. | .mulEb .. | .mulEv .. | .imulEb .. | .imulEv .. | .divEb .. | .divEv .. | .idivEb ..
  | .idivEv .. => true
  | .shlEbIb .. | .shlEvIb .. | .shlEb1 .. | .shlEv1 .. | .shlEbCL .. | .shlEvCL .. | .shrEbIb ..
  | .shrEvIb .. | .shrEb1 .. | .shrEv1 .. | .shrEbCL .. | .shrEvCL .. | .sarEbIb .. | .sarEvIb ..
  | .sarEb1 .. | .sarEv1 .. | .sarEbCL .. | .sarEvCL ..
    => i.shiftForm.any fun f => f.count s != 0
  | .imulGvEv .. | .imulGvEvIv .. | .imulGvEvSIb .. => s.cfg.imulTrunc == .ia32
  | .notEb .. | .notEv .. | .movEbGb .. | .movEvGv .. | .movGbEb .. | .movGvEv .. | .movALOb ..
  | .movEAXOv .. | .movObAL .. | .movOvEAX .. | .movRbIb .. | .movRvIv .. | .movEbIb .. | .movEvIv ..
  | .leaGvM .. | .movsxGvEb .. | .movsxGvEw .. | .movzxGvEb .. | .movzxGvEw .. | .cwtl .. | .cltd ..
  | .pushRv .. | .pushIv .. | .pushSIb .. | .pushEv .. | .popRv .. | .popEv .. | .leave | .inALIb ..
  | .inEAXIb .. | .inALDX .. | .inEAXDX .. | .outIbAL .. | .outIbEAX .. | .outDXAL .. | .outDXEAX ..
  | .lidtM .. | .pusha .. | .popa .. | .intIb .. | .iret .. | .movFromCr .. | .movToCr .. | .jccJb ..
  | .jccJd .. | .jmpJb .. | .jmpJd .. | .jmpEd .. | .callJd .. | .callEd .. | .ret | .setccEb .. | .nop .. => false

end Sys2Proof

namespace Sys2Proof.Machine

/-! ### Registers that an instruction may write -/

/-- The register whose storage reg(W, i) is part of (10_state.md R31). -/
def homeOf : Width → Reg → Reg
  | .w1, i => byteHome i
  | .w2, i => i
  | .w4, i => i

/-- The lowest bit of reg(W, i) in its storage (R31). -/
def lowBit : Width → Reg → Nat
  | .w1, i => if isHighByte i then 8 else 0
  | .w2, _ => 0
  | .w4, _ => 0

/-- Bit `k` of x[r] is a bit of reg(W, i). -/
def aliasBit (w : Width) (i r : Reg) (k : Nat) : Bool :=
  r == homeOf w i && decide (lowBit w i ≤ k) && decide (k < lowBit w i + w.bits)

/-- The register of an E operand, by width and number. -/
def rmName (w : Width) : RM → List (Width × Reg)
  | .reg r => [(w, r)]
  | .mem _ => []

end Sys2Proof.Machine

namespace Sys2Proof

open Machine

/-- The registers an instruction may write, by width and number: its destination, and those its rule writes
implicitly (10_state.md R35). -/
def Instr.destNames : Instr → List (Width × Reg)
  | .addEbGb _ rm _ | .orEbGb _ rm _ | .adcEbGb _ rm _ | .sbbEbGb _ rm _ | .andEbGb _ rm _ | .subEbGb _ rm _
  | .xorEbGb _ rm _ => rmName .w1 rm
  | .addEbIb _ rm _ | .orEbIb _ rm _ | .adcEbIb _ rm _ | .sbbEbIb _ rm _ | .andEbIb _ rm _ | .subEbIb _ rm _
  | .xorEbIb _ rm _ => rmName .w1 rm
  | .movEbGb _ rm _ | .movEbIb _ rm _ | .shlEbIb _ rm _ | .shrEbIb _ rm _ | .sarEbIb _ rm _ => rmName .w1 rm
  | .addEvGv o rm _ | .orEvGv o rm _ | .adcEvGv o rm _ | .sbbEvGv o rm _ | .andEvGv o rm _ | .subEvGv o rm _
  | .xorEvGv o rm _ | .addEvSIb o rm _ | .orEvSIb o rm _ | .adcEvSIb o rm _ | .sbbEvSIb o rm _
  | .andEvSIb o rm _ | .subEvSIb o rm _ | .xorEvSIb o rm _ | .movEvGv o rm _ | .shlEvIb o rm _
  | .shrEvIb o rm _ | .sarEvIb o rm _ => rmName o.width rm
  | .addEvIv rm imm | .orEvIv rm imm | .adcEvIv rm imm | .sbbEvIv rm imm | .andEvIv rm imm | .subEvIv rm imm
  | .xorEvIv rm imm | .movEvIv rm imm => rmName imm.osz.width rm
  | .addGbEb _ r _ | .orGbEb _ r _ | .adcGbEb _ r _ | .sbbGbEb _ r _ | .andGbEb _ r _ | .subGbEb _ r _
  | .xorGbEb _ r _ | .movGbEb _ r _ => [(.w1, r)]
  | .movRbIb _ r _ => [(.w1, r)]
  | .addGvEv o r _ | .orGvEv o r _ | .adcGvEv o r _ | .sbbGvEv o r _ | .andGvEv o r _ | .subGvEv o r _
  | .xorGvEv o r _ | .movGvEv o r _ | .imulGvEv o r _ | .movsxGvEb o r _ | .movsxGvEw o r _
  | .movzxGvEb o r _ | .movzxGvEw o r _ | .leaGvM o r _ => [(o.width, r)]
  | .imulGvEvSIb o r _ _ => [(o.width, r)]
  | .imulGvEvIv r _ imm => [(imm.osz.width, r)]
  | .movRvIv r imm => [(imm.osz.width, r)]
  | .addALIb _ _ | .orALIb _ _ | .adcALIb _ _ | .sbbALIb _ _ | .andALIb _ _ | .subALIb _ _ | .xorALIb _ _
  | .movALOb _ _ | .inALIb _ _ => [(.w1, .eax)]
  | .inALDX _ => [(.w1, .eax)]
  | .addEAXIv imm | .orEAXIv imm | .adcEAXIv imm | .sbbEAXIv imm | .andEAXIv imm | .subEAXIv imm
  | .xorEAXIv imm => [(imm.osz.width, .eax)]
  | .movEAXOv o _ | .inEAXIb o _ => [(o.width, .eax)]
  | .inEAXDX o | .cwtl o => [(o.width, .eax)]
  | .cltd o => [(o.width, .edx)]
  | .incRv o r | .decRv o r => [(o.width, r)]
  | .incEb _ rm | .decEb _ rm | .negEb _ rm | .notEb _ rm | .shlEb1 _ rm | .shlEbCL _ rm | .shrEb1 _ rm
  | .shrEbCL _ rm | .sarEb1 _ rm | .sarEbCL _ rm => rmName .w1 rm
  | .setccEb _ _ _ rm => rmName .w1 rm
  | .incEv o rm | .decEv o rm | .negEv o rm | .notEv o rm | .shlEv1 o rm | .shlEvCL o rm | .shrEv1 o rm
  | .shrEvCL o rm | .sarEv1 o rm | .sarEvCL o rm => rmName o.width rm
  | .mulEb _ _ | .imulEb _ _ | .divEb _ _ | .idivEb _ _ => [(.w2, .eax)]
  | .mulEv o _ | .imulEv o _ | .divEv o _ | .idivEv o _ => [(o.width, .eax), (o.width, .edx)]
  | .pushRv _ _ | .pushSIb _ _ | .pushEv _ _ => [(.w4, .esp)]
  | .pushIv _ | .callJd _ | .callEd _ => [(.w4, .esp)]
  | .ret => [(.w4, .esp)]
  | .popRv o r => [(.w4, .esp), (o.width, r)]
  | .popEv o rm => (.w4, .esp) :: rmName o.width rm
  | .leave => [(.w4, .esp), (.w4, .ebp)]
  | .cmpEbGb .. | .cmpEvGv .. | .cmpGbEb .. | .cmpGvEv .. | .cmpALIb .. | .cmpEAXIv .. | .cmpEbIb ..
  | .cmpEvIv .. | .cmpEvSIb .. | .testEbGb .. | .testEvGv .. | .testALIb .. | .testEAXIv .. | .testEbIb ..
  | .testEvIv .. | .movObAL .. | .movOvEAX .. | .outIbAL .. | .outIbEAX .. | .outDXAL .. | .outDXEAX ..
  | .lidtM .. | .pusha .. | .popa .. | .intIb .. | .iret .. | .movFromCr .. | .movToCr .. | .jccJb ..
  | .jccJd .. | .jmpJb .. | .jmpJd .. | .jmpEd .. | .nop .. => []

end Sys2Proof

namespace Sys2Proof.Machine

/-! ### Memory accesses of an instruction -/

/-- A memory access: its width, its first address and its kind. -/
structure Access where
  width : Width
  addr : Word
  kind : AccessKind
deriving DecidableEq, Repr

/-- The access is admitted in `s` (20_memory.md R73). -/
def Access.admitted (s : State) (a : Access) : Bool := (admission s.cfg a.width a.addr).isSome

/-- The access goes to MMIO. -/
def Access.isMmio (s : State) (a : Access) : Bool := admission s.cfg a.width a.addr == some .mmio

/-- Read an E operand. -/
def rmRead (w : Width) (rm : RM) (s : State) : List Access :=
  match rm with
  | .reg _ => []
  | .mem m => [⟨w, effAddr s.regs m, .read⟩]

/-- Write an E operand. -/
def rmWrite (w : Width) (rm : RM) (s : State) : List Access :=
  match rm with
  | .reg _ => []
  | .mem m => [⟨w, effAddr s.regs m, .write⟩]

/-- Read an E operand, then write it. -/
def rmModify (w : Width) (rm : RM) (s : State) : List Access := rmRead w rm s ++ rmWrite w rm s

/-- Write the new stack slot at x[4] - 4 (42_datamove.md R304). -/
def slotWrite (s : State) : Access := ⟨.w4, s.regs.esp - 4, .write⟩

/-- Read the stack slot at x[4] (R304). -/
def slotRead (s : State) : Access := ⟨.w4, s.regs.esp, .read⟩

end Sys2Proof.Machine

namespace Sys2Proof

open Machine

/-- The memory accesses of an instruction started in `s`, in order (20_memory.md R77; a shift by a masked count
of 0 only reads: 44_logic_gk.md R406). -/
def Instr.accesses (i : Instr) (s : State) : List Access :=
  match i with
  | .addEbGb _ rm _ | .orEbGb _ rm _ | .adcEbGb _ rm _ | .sbbEbGb _ rm _ | .andEbGb _ rm _ | .subEbGb _ rm _
  | .xorEbGb _ rm _ | .addEbIb _ rm _ | .orEbIb _ rm _ | .adcEbIb _ rm _ | .sbbEbIb _ rm _ | .andEbIb _ rm _
  | .subEbIb _ rm _ | .xorEbIb _ rm _ => rmModify .w1 rm s
  | .addEvGv o rm _ | .orEvGv o rm _ | .adcEvGv o rm _ | .sbbEvGv o rm _ | .andEvGv o rm _ | .subEvGv o rm _
  | .xorEvGv o rm _ | .addEvSIb o rm _ | .orEvSIb o rm _ | .adcEvSIb o rm _ | .sbbEvSIb o rm _
  | .andEvSIb o rm _ | .subEvSIb o rm _ | .xorEvSIb o rm _ => rmModify o.width rm s
  | .addEvIv rm imm | .orEvIv rm imm | .adcEvIv rm imm | .sbbEvIv rm imm | .andEvIv rm imm | .subEvIv rm imm
  | .xorEvIv rm imm => rmModify imm.osz.width rm s
  | .incEb _ rm | .decEb _ rm | .negEb _ rm | .notEb _ rm => rmModify .w1 rm s
  | .incEv o rm | .decEv o rm | .negEv o rm | .notEv o rm => rmModify o.width rm s
  | .addGbEb _ _ rm | .orGbEb _ _ rm | .adcGbEb _ _ rm | .sbbGbEb _ _ rm | .andGbEb _ _ rm | .subGbEb _ _ rm
  | .xorGbEb _ _ rm | .cmpGbEb _ _ rm | .movGbEb _ _ rm => rmRead .w1 rm s
  | .cmpEbGb _ rm _ | .cmpEbIb _ rm _ | .testEbGb _ rm _ | .testEbIb _ rm _ => rmRead .w1 rm s
  | .addGvEv o _ rm | .orGvEv o _ rm | .adcGvEv o _ rm | .sbbGvEv o _ rm | .andGvEv o _ rm | .subGvEv o _ rm
  | .xorGvEv o _ rm | .cmpGvEv o _ rm | .movGvEv o _ rm | .imulGvEv o _ rm => rmRead o.width rm s
  | .cmpEvGv o rm _ | .cmpEvSIb o rm _ | .testEvGv o rm _ => rmRead o.width rm s
  | .imulGvEvSIb o _ rm _ => rmRead o.width rm s
  | .cmpEvIv rm imm | .testEvIv rm imm => rmRead imm.osz.width rm s
  | .imulGvEvIv _ rm imm => rmRead imm.osz.width rm s
  | .mulEb _ rm | .imulEb _ rm | .divEb _ rm | .idivEb _ rm => rmRead .w1 rm s
  | .mulEv o rm | .imulEv o rm | .divEv o rm | .idivEv o rm => rmRead o.width rm s
  | .movsxGvEb _ _ rm | .movzxGvEb _ _ rm => rmRead .w1 rm s
  | .movsxGvEw _ _ rm | .movzxGvEw _ _ rm => rmRead .w2 rm s
  | .jmpEd rm => rmRead .w4 rm s
  | .shlEbIb p rm imm | .shrEbIb p rm imm | .sarEbIb p rm imm =>
    if (ShiftForm.ebIb p rm imm).count s = 0 then rmRead .w1 rm s else rmModify .w1 rm s
  | .shlEvIb o rm imm | .shrEvIb o rm imm | .sarEvIb o rm imm =>
    if (ShiftForm.evIb o rm imm).count s = 0 then rmRead o.width rm s else rmModify o.width rm s
  | .shlEb1 p rm | .shrEb1 p rm | .sarEb1 p rm =>
    if (ShiftForm.eb1 p rm).count s = 0 then rmRead .w1 rm s else rmModify .w1 rm s
  | .shlEv1 o rm | .shrEv1 o rm | .sarEv1 o rm =>
    if (ShiftForm.ev1 o rm).count s = 0 then rmRead o.width rm s else rmModify o.width rm s
  | .shlEbCL p rm | .shrEbCL p rm | .sarEbCL p rm =>
    if (ShiftForm.ebCL p rm).count s = 0 then rmRead .w1 rm s else rmModify .w1 rm s
  | .shlEvCL o rm | .shrEvCL o rm | .sarEvCL o rm =>
    if (ShiftForm.evCL o rm).count s = 0 then rmRead o.width rm s else rmModify o.width rm s
  | .movEbGb _ rm _ | .movEbIb _ rm _ => rmWrite .w1 rm s
  | .movEvGv o rm _ => rmWrite o.width rm s
  | .movEvIv rm imm => rmWrite imm.osz.width rm s
  | .setccEb _ _ _ rm => rmWrite .w1 rm s
  | .movALOb _ addr => [⟨.w1, addr, .read⟩]
  | .movEAXOv o addr => [⟨o.width, addr, .read⟩]
  | .movObAL _ addr => [⟨.w1, addr, .write⟩]
  | .movOvEAX o addr => [⟨o.width, addr, .write⟩]
  | .pushRv _ _ | .pushSIb _ _ => [slotWrite s]
  | .pushIv _ | .callJd _ => [slotWrite s]
  | .pushEv o rm => rmRead o.width rm s ++ [slotWrite s]
  | .callEd rm => rmRead .w4 rm s ++ [slotWrite s]
  | .popRv _ _ => [slotRead s]
  | .popEv o rm => slotRead s :: rmWrite o.width rm s
  | .ret => [slotRead s]
  | .leave => [⟨.w4, s.regs.ebp, .read⟩]
  | .lidtM _ m => [⟨.w2, effAddr s.regs m, .read⟩, ⟨.w4, effAddr s.regs m + 2, .read⟩]
  | .addALIb .. | .addEAXIv .. | .orALIb .. | .orEAXIv .. | .adcALIb .. | .adcEAXIv .. | .sbbALIb ..
  | .sbbEAXIv .. | .andALIb .. | .andEAXIv .. | .subALIb .. | .subEAXIv .. | .xorALIb .. | .xorEAXIv ..
  | .cmpALIb .. | .cmpEAXIv .. | .testALIb .. | .testEAXIv .. | .incRv .. | .decRv .. | .movRbIb ..
  | .movRvIv .. | .leaGvM .. | .cwtl .. | .cltd .. | .inALIb .. | .inEAXIb .. | .inALDX .. | .inEAXDX ..
  | .outIbAL .. | .outIbEAX .. | .outDXAL .. | .outDXEAX .. | .pusha .. | .popa .. | .intIb .. | .iret ..
  | .movFromCr .. | .movToCr .. | .jccJb .. | .jccJd .. | .jmpJb .. | .jmpJd .. | .nop .. => []

end Sys2Proof

namespace Sys2Proof.Machine

/-! ### Divide errors -/

/-- The unsigned 2n-bit dividend, u(AX) at W = 1, u(DX:AX) at 2, u(EDX:EAX) at 4 (41_muldiv.md R257). -/
def dividend (w : Width) (s : State) : Nat :=
  match w with
  | .w1 => s.regs.eax.toNat % 2 ^ 16
  | .w2 => s.regs.edx.toNat % 2 ^ 16 * 2 ^ 16 + s.regs.eax.toNat % 2 ^ 16
  | .w4 => s.regs.edx.toNat * 2 ^ 32 + s.regs.eax.toNat

/-- The signed 2n-bit dividend (R258). -/
def signedDividend (w : Width) (s : State) : Int := (BitVec.ofNat (2 * w.bits) (dividend w s)).toInt

/-- Why `div` by `x` faults (R256, R257). -/
def divError {w : Width} (x : BitVec w.bits) (s : State) : Option DivideCause :=
  if x = 0 then some .zero
  else if 2 ^ w.bits ≤ dividend w s / x.toNat then some .overflow
  else none

/-- Why `idiv` by `x` faults (R256, R258). -/
def idivError {w : Width} (x : BitVec w.bits) (s : State) : Option DivideCause :=
  if x = 0 then some .zero
  else if (signedDividend w s).tdiv x.toInt < -2 ^ (w.bits - 1) ∨ 2 ^ (w.bits - 1) ≤ (signedDividend w s).tdiv x.toInt
  then some .overflow
  else none

end Sys2Proof.Machine

namespace Sys2Proof

open Machine

/-- Why the instruction, started in `s` with its operand readable, raises `DivideError` (R256). -/
def Instr.divideError (i : Instr) (s : State) : Option DivideCause :=
  match i with
  | .divEb _ rm => divError ((rmOperand .w1 rm s).value s) s
  | .divEv o rm => divError ((rmOperand o.width rm s).value s) s
  | .idivEb _ rm => idivError ((rmOperand .w1 rm s).value s) s
  | .idivEv o rm => idivError ((rmOperand o.width rm s).value s) s
  | .addEbGb .. | .addEvGv .. | .addGbEb .. | .addGvEv .. | .addALIb .. | .addEAXIv .. | .addEbIb ..
  | .addEvIv .. | .addEvSIb .. | .orEbGb .. | .orEvGv .. | .orGbEb .. | .orGvEv .. | .orALIb ..
  | .orEAXIv .. | .orEbIb .. | .orEvIv .. | .orEvSIb .. | .adcEbGb .. | .adcEvGv .. | .adcGbEb ..
  | .adcGvEv .. | .adcALIb .. | .adcEAXIv .. | .adcEbIb .. | .adcEvIv .. | .adcEvSIb .. | .sbbEbGb ..
  | .sbbEvGv .. | .sbbGbEb .. | .sbbGvEv .. | .sbbALIb .. | .sbbEAXIv .. | .sbbEbIb .. | .sbbEvIv ..
  | .sbbEvSIb .. | .andEbGb .. | .andEvGv .. | .andGbEb .. | .andGvEv .. | .andALIb .. | .andEAXIv ..
  | .andEbIb .. | .andEvIv .. | .andEvSIb .. | .subEbGb .. | .subEvGv .. | .subGbEb .. | .subGvEv ..
  | .subALIb .. | .subEAXIv .. | .subEbIb .. | .subEvIv .. | .subEvSIb .. | .xorEbGb .. | .xorEvGv ..
  | .xorGbEb .. | .xorGvEv .. | .xorALIb .. | .xorEAXIv .. | .xorEbIb .. | .xorEvIv .. | .xorEvSIb ..
  | .cmpEbGb .. | .cmpEvGv .. | .cmpGbEb .. | .cmpGvEv .. | .cmpALIb .. | .cmpEAXIv .. | .cmpEbIb ..
  | .cmpEvIv .. | .cmpEvSIb .. | .testEbGb .. | .testEvGv .. | .testALIb .. | .testEAXIv .. | .testEbIb ..
  | .testEvIv .. | .incRv .. | .incEb .. | .incEv .. | .decRv .. | .decEb .. | .decEv .. | .negEb ..
  | .negEv .. | .notEb .. | .notEv .. | .shlEbIb .. | .shlEvIb .. | .shlEb1 .. | .shlEv1 .. | .shlEbCL ..
  | .shlEvCL .. | .shrEbIb .. | .shrEvIb .. | .shrEb1 .. | .shrEv1 .. | .shrEbCL .. | .shrEvCL ..
  | .sarEbIb .. | .sarEvIb .. | .sarEb1 .. | .sarEv1 .. | .sarEbCL .. | .sarEvCL .. | .mulEb .. | .mulEv ..
  | .imulEb .. | .imulEv .. | .imulGvEv .. | .imulGvEvIv .. | .imulGvEvSIb .. | .movEbGb .. | .movEvGv ..
  | .movGbEb .. | .movGvEv .. | .movALOb .. | .movEAXOv .. | .movObAL .. | .movOvEAX .. | .movRbIb ..
  | .movRvIv .. | .movEbIb .. | .movEvIv .. | .leaGvM .. | .movsxGvEb .. | .movsxGvEw .. | .movzxGvEb ..
  | .movzxGvEw .. | .cwtl .. | .cltd .. | .pushRv .. | .pushIv .. | .pushSIb .. | .pushEv .. | .popRv ..
  | .popEv .. | .leave | .inALIb .. | .inEAXIb .. | .inALDX .. | .inEAXDX .. | .outIbAL .. | .outIbEAX ..
  | .outDXAL .. | .outDXEAX .. | .lidtM .. | .pusha .. | .popa .. | .intIb .. | .iret .. | .movFromCr ..
  | .movToCr .. | .jccJb .. | .jccJd .. | .jmpJb .. | .jmpJd .. | .jmpEd .. | .callJd .. | .callEd .. | .ret
  | .setccEb .. | .nop .. => none

end Sys2Proof

namespace Sys2Proof.Machine

/-! ### Flags whose write is a draw -/

/-- After `mul` and one-operand `imul`, by `MUL_FLAG_MODE` (41_muldiv.md R250). -/
def mulDrawn : MulFlagMode → Flags
  | .ia32 => ⟨false, true, true, false⟩
  | .draw => ⟨true, true, true, true⟩

/-- After two- and three-operand `imul`, by `IMUL_TRUNC_FLAG_MODE` (R251); `old` are those before it. -/
def imulTruncDrawn (mode : ImulTruncFlagMode) (old : Flags) : Flags :=
  match mode with
  | .unchanged => old
  | .ia32 => ⟨false, true, true, false⟩

/-! ### The invariant -/

/-- The logged value has no bit above its width (20_memory.md R82). -/
def Event.fits : Event → Bool
  | .portRead _ w v | .portWrite _ w v | .mmioRead _ w v | .mmioWrite _ w v => decide (v.toNat < 2 ^ w.bits)

/-- What every step keeps: memory in its canonical form, a fault record that names the address pc still holds
(60_exceptions.md R504), and a log whose values fit their widths. -/
structure Inv (s : State) : Prop where
  memory : s.mem.wf = true
  record : ∀ r, s.status = .halted r → r.pc = s.pc
  events : ∀ e ∈ s.events, e.fits = true

end Sys2Proof.Machine
end

