-- ==== Sys2Proof/Certificates/Slice0/Obligations.lean ====
section
/-! DEFINITION. The statements for the provers. `g` is `EXT_GK`, `rest` the bytes after an instruction. A
statement over `State` holds for every value of the parameters of 00_scope.md R7, which stand in `cfg`, and for
every draw: the values of `Config.drawWord` are free. Where an operand is MMIO, one access of W bytes is one record of
the log (`loadDone`, `storeDone`): the model's reading, log entry 15. `drawn` is the model's own field: the flags whose last
write was a draw (log entry 24); `setFlags` says that none of the four is one, `setFlagsDrawn` which are. -/

open Sys2Proof Sys2Proof.Machine

/-! ## Encoding and decode -/

/-- One word of each family, written out bit by bit from the spec's encoding (30_encoding.md R102, R103, R140 to
R142), decodes to the instruction it stands for. -/
def Obligations.WordsDecode : Prop :=
  decode true [0b00000001#8, 0b11_011_000#8] = .ok (.addEvGv .o32 (.reg .eax) .ebx, []) ∧
  decode true [0b10000011#8, 0b11_111_000#8, 0x10#8] = .ok (.cmpEvSIb .o32 (.reg .eax) 0x10, []) ∧
  decode true [0x66#8, 0b01001_001#8] = .ok (.decRv .o16 .ecx, []) ∧
  decode true [0b00100001#8, 0b11_011_000#8] = .ok (.andEvGv .o32 (.reg .eax) .ebx, []) ∧
  decode true [0b11000001#8, 0b11_101_000#8, 0x04#8] = .ok (.shrEvIb .o32 (.reg .eax) 4, []) ∧
  decode true [0x0F#8, 0b10101111#8, 0b11_000_001#8] = .ok (.imulGvEv .o32 .eax (.reg .ecx), []) ∧
  decode true [0b11110111#8, 0b11_110_001#8] = .ok (.divEv .o32 (.reg .ecx), []) ∧
  decode true [0b10110_100#8, 0x12#8] = .ok (.movRbIb false .esp 0x12, []) ∧
  decode true [0b10001101#8, 0b01_000_100#8, 0b10_001_011#8, 0x08#8] =
    .ok (.leaGvM .o32 .eax (.sib .s4 .ecx .ebx (.d8 8)), []) ∧
  decode true [0b01101000#8, 0x78#8, 0x56#8, 0x34#8, 0x12#8] = .ok (.pushIv (.i32 0x12345678), []) ∧
  decode true [0x0F#8, 0b00000001#8, 0b00_011_000#8] = .ok (.lidtM false (.base .eax .none), []) ∧
  decode true [0b11101100#8] = .ok (.inALDX false, []) ∧
  decode true [0b11001101#8, 0x80#8] = .ok (.intIb false 0x80, []) ∧
  decode true [0b0111_0101#8, 0xFB#8] = .ok (.jccJb .ne 0xFB, []) ∧
  decode true [0x0F#8, 0b1001_0100#8, 0b11_000_000#8] = .ok (.setccEb false .e .eax (.reg .eax), [])

/-- Decoding undoes encoding, for every well-formed instruction and whatever bytes follow. -/
def Obligations.DecodeEncode : Prop :=
  ∀ (g : Bool) (i : Instr) (rest : List Byte), i.wellFormed = true → (i.isExt = true → g = true) →
    decode g (encode i ++ rest) = .ok (i, rest)

/-- Encoding undoes decoding: what decode answers is well-formed and admitted, and its encoding is what was read.
So every byte string has at most one meaning, and no bit of it is dropped. -/
def Obligations.EncodeDecode : Prop :=
  ∀ (g : Bool) (bs rest : List Byte) (i : Instr), decode g bs = .ok (i, rest) →
    i.wellFormed = true ∧ (i.isExt = true → g = true) ∧ bs = encode i ++ rest

/-- The shortest and the longest instructions (30_encoding.md R101, a derived remark: its list of 11-byte opcodes
leaves out `F7 /0 iv`, the `test` row of 44_logic_gk.md section 1, which is as long; log entry 22). -/
def Obligations.InstructionLength : Prop :=
  (∀ i : Instr, 1 ≤ i.len ∧ i.len ≤ 11) ∧ encode .leave = [0xC9] ∧
  (∀ i : Instr, i.len = 11 → (encode i).head? = some 0x81 ∨ (encode i).head? = some 0xC7 ∨
    (encode i).head? = some 0x69 ∨ (encode i).head? = some 0xF7) ∧
  (∀ (scale : Scale) (index b r : Reg) (d imm : Word),
    Instr.len (.addEvIv (.mem (.sib scale index b (.d32 d))) (.i32 imm)) = 11 ∧
    Instr.len (.movEvIv (.mem (.sib scale index b (.d32 d))) (.i32 imm)) = 11 ∧
    Instr.len (.imulGvEvIv r (.mem (.sib scale index b (.d32 d))) (.i32 imm)) = 11 ∧
    Instr.len (.testEvIv (.mem (.sib scale index b (.d32 d))) (.i32 imm)) = 11 ∧
    Instr.len (.lidtM true (.sib scale index b (.d32 d))) = 9) ∧
  (∀ i : Instr, (encode i).head? = some 0x66 → i.len ≤ 10) ∧
  (∀ i : Instr, (∃ op tl, encode i = 0x0F :: op :: tl ∨ encode i = 0x66 :: 0x0F :: op :: tl) → i.len ≤ 9)

/-- With `EXT_GK` false every extension row is refused, and no other row changes (00_scope.md R5). -/
def Obligations.ExtensionRowsRefused : Prop :=
  ∀ (i : Instr) (rest : List Byte), i.wellFormed = true →
    (i.isExt = true → decode false (encode i ++ rest) = .error (.unsupportedForm .extGkOff)) ∧
    (i.isExt = false → decode false (encode i ++ rest) = .ok (i, rest))

/-- The prefix bytes but 0x66 are refused, so is any prefix after 0x66 (30_encoding.md R131), and so is 0x66 before
`leave`, `ret`, `call`, `jmp` and `jcc` (R135). -/
def Obligations.PrefixesRefused : Prop :=
  ∀ (g : Bool) (rest : List Byte),
    (∀ b ∈ [0xF0#8, 0xF2#8, 0xF3#8, 0x26#8, 0x2E#8, 0x36#8, 0x3E#8, 0x64#8, 0x65#8, 0x67#8],
      decode g (b :: rest) = .error (.unsupportedForm (.prefixByte b))) ∧
    (∀ b ∈ [0x66#8, 0xF0#8, 0xF2#8, 0xF3#8, 0x26#8, 0x2E#8, 0x36#8, 0x3E#8, 0x64#8, 0x65#8, 0x67#8],
      decode g (0x66 :: b :: rest) = .error (.unsupportedForm (.secondPrefix b))) ∧
    (∀ i : Instr, i.wellFormed = true → i.refusesPrefix = true → (i.isExt = true → g = true) →
      decode g (0x66 :: (encode i ++ rest)) = .error (.unsupportedForm .osizePrefix))

/-- Undefined group digits, mod = 11 where the row needs memory, the parity conditions, and `pop` to memory through ESP,
with and without the prefix 0x66 (30_encoding.md R138, R142, R152). The shift opcodes C0, C1 and D0 to D3 are extension
rows, refused at the opcode byte with EXT_GK false, whatever follows (R140, 60_exceptions.md R508). Which reason is reported
where one byte decides several (a parity condition with EXT_GK false, or of `jcc` after 0x66) is the model's reading, log
entry 7, and so is what the record of `InvalidOpcode` lists, log entry 9. -/
def Obligations.ReservedOperandValues : Prop :=
  ∀ (g p : Bool) (b sib : Byte) (rest : List Byte),
    (∀ q ∈ [(0xF6#8, [0, 2, 3, 4, 5, 6, 7]), (0xF7#8, [0, 2, 3, 4, 5, 6, 7]), (0xFE#8, [0, 1]),
        (0xFF#8, [0, 1, 2, 4, 6]), (0x8F#8, [0]), (0xC6#8, [0]), (0xC7#8, [0])],
      b.toNat / 8 % 8 ∉ q.2 → decode g (pfx p ++ q.1 :: b :: rest) = .error (.invalidOpcode (pfx p ++ [q.1, b]))) ∧
    (∀ op ∈ [0xC0#8, 0xC1#8, 0xD0#8, 0xD1#8, 0xD2#8, 0xD3#8],
      decode false (pfx p ++ op :: rest) = .error (.unsupportedForm .extGkOff) ∧
      (b.toNat / 8 % 8 ∉ [4, 5, 7] →
        decode true (pfx p ++ op :: b :: rest) = .error (.invalidOpcode (pfx p ++ [op, b])))) ∧
    (b.toNat / 8 % 8 ≠ 3 →
      decode g (pfx p ++ 0x0F :: 0x01 :: b :: rest) = .error (.invalidOpcode (pfx p ++ [0x0F, 0x01, b]))) ∧
    (b.toNat / 64 = 3 →
      decode g (pfx p ++ 0x8D :: b :: rest) = .error (.invalidOpcode (pfx p ++ [0x8D, b])) ∧
      decode g (pfx p ++ 0x0F :: 0x01 :: b :: rest) = .error (.invalidOpcode (pfx p ++ [0x0F, 0x01, b]))) ∧
    (∀ op ∈ [0x7A#8, 0x7B#8], decode g (pfx p ++ op :: rest) =
      .error (.unsupportedForm (if g then if p then .osizePrefix else .parityCond else .extGkOff))) ∧
    (∀ op ∈ [0x8A#8, 0x8B#8], decode g (pfx p ++ 0x0F :: op :: rest) =
      .error (.unsupportedForm (if g then if p then .osizePrefix else .parityCond else .extGkOff))) ∧
    (∀ op ∈ [0x9A#8, 0x9B#8], decode g (pfx p ++ 0x0F :: op :: rest) =
      .error (.unsupportedForm (if g then .parityCond else .extGkOff))) ∧
    (b ∈ [0x04#8, 0x44#8, 0x84#8] → sib.toNat % 8 = 4 →
      decode g (pfx p ++ 0x8F :: b :: sib :: rest) = .error (.unsupportedForm .popMemEsp))

/-- An opcode outside the maps of 30_encoding.md R140 and R141 raises `InvalidOpcode` with the bytes read (R150). That
these include the prefix 0x66 is the model's reading, log entry 9. -/
def Obligations.OpcodesWithoutRow : Prop :=
  ∀ (g p : Bool) (op : Byte) (rest : List Byte),
    (op ∈ [0x06#8, 0x07#8, 0x0E#8, 0x16#8, 0x17#8, 0x1E#8, 0x1F#8, 0x27#8, 0x2F#8, 0x37#8, 0x3F#8, 0x62#8, 0x63#8,
        0x6C#8, 0x6D#8, 0x6E#8, 0x6F#8, 0x82#8, 0x86#8, 0x87#8, 0x8C#8, 0x8E#8, 0x91#8, 0x92#8, 0x93#8, 0x94#8,
        0x95#8, 0x96#8, 0x97#8, 0x9A#8, 0x9B#8, 0x9C#8, 0x9D#8, 0x9E#8, 0x9F#8, 0xA4#8, 0xA5#8, 0xA6#8, 0xA7#8,
        0xAA#8, 0xAB#8, 0xAC#8, 0xAD#8, 0xAE#8, 0xAF#8] ++
        [0xC2#8, 0xC4#8, 0xC5#8, 0xC8#8, 0xCA#8, 0xCB#8, 0xCC#8, 0xCE#8, 0xD4#8, 0xD5#8, 0xD6#8, 0xD7#8, 0xD8#8,
        0xD9#8, 0xDA#8, 0xDB#8, 0xDC#8, 0xDD#8, 0xDE#8, 0xDF#8, 0xE0#8, 0xE1#8, 0xE2#8, 0xE3#8, 0xEA#8, 0xF1#8,
        0xF4#8, 0xF5#8, 0xF8#8, 0xF9#8, 0xFA#8, 0xFB#8, 0xFC#8, 0xFD#8] →
      decode g (pfx p ++ op :: rest) = .error (.invalidOpcode (pfx p ++ [op]))) ∧
    (op ∉ [0x01#8, 0x20#8, 0x22#8, 0xAF#8, 0xB6#8, 0xB7#8, 0xBE#8, 0xBF#8] → op.toNat / 16 ≠ 8 → op.toNat / 16 ≠ 9 →
      decode g (pfx p ++ 0x0F :: op :: rest) = .error (.invalidOpcode (pfx p ++ [0x0F, op])))

/-- R154: a placeholder faults as soon as its opcode has been read, whatever stands after it and whether or not
that can be fetched, with its mnemonic and nothing else changed. -/
def Obligations.PlaceholderAtOpcode : Prop :=
  ∀ (s : State) (p : Bool), s.status = .running →
    ∀ q ∈ [([0x0F#8, 0x20#8], Placeholder.movCr), ([0x0F#8, 0x22#8], .movCr), ([0xCD#8], .int), ([0xCF#8], .iret),
        ([0x60#8], .pusha), ([0x61#8], .popa)],
      BytesAt s (pfx p ++ q.1) → step s = .next { s with status := .halted ⟨.unimplemented q.2, s.pc⟩ }

/-! ## The step -/

/-- A step of a running core runs the instruction that the fetched bytes decode to (30_encoding.md R170). -/
def Obligations.StepRunsDecoded : Prop :=
  ∀ (s : State) (i : Instr) (rest : List Byte), s.status = .running →
    decode s.cfg.extGk (fetchable s) = .ok (i, rest) → step s = exec i s

/-- When the bytes of a well-formed instruction lie at pc, a step of a running core runs it. -/
def Obligations.StepRunsBytesAtPc : Prop :=
  ∀ (s : State) (i : Instr), s.status = .running → i.wellFormed = true → (i.isExt = true → s.cfg.extGk = true) →
    BytesAt s (encode i) → step s = exec i s

/-- When the instruction has a byte that cannot be fetched, and the bytes before it decide nothing, the step halts:
MMIO is refused, anything else is out of bounds at that address, pc unchanged (30_encoding.md R130). -/
def Obligations.FetchOfUnreadableByte : Prop :=
  ∀ (s : State) (bs : List Byte), s.status = .running → bs.length < 11 → BytesAt s bs →
    decode s.cfg.extGk bs = .error .needMore → isRam s.cfg (s.pc + BitVec.ofNat 32 bs.length) = false →
    step s = .next { s with status := .halted ⟨
      if isMmio s.cfg (s.pc + BitVec.ofNat 32 bs.length) then .unsupportedForm .fetchMmio
      else .memOutOfBounds (s.pc + BitVec.ofNat 32 bs.length) .w1 .fetch, s.pc⟩ }

/-- R505: a halted core takes no step, so that nothing clears or replaces its record; and a running core always has
a next state, since its faults and refusals are halted states (60_exceptions.md R503). -/
def Obligations.StepsIffRunning : Prop :=
  ∀ s : State, (∃ t, step s = .next t) ↔ s.status = .running

/-! ## The whole machine -/

/-- Every step keeps the invariant: memory canonical, the fault record naming pc, logged values in their width. -/
def Obligations.StepKeepsInv : Prop :=
  ∀ s t : State, Inv s → step s = .next t → Inv t

/-- The invariant holds after reset, with the model's launch parameters (log entries 2 to 6). -/
def Obligations.ResetInv : Prop := Inv State.reset

/-- R600: reset, for all launch parameters. -/
def Obligations.ResetValues : Prop :=
  ∀ l : Launch,
    (State.resetWith l).regs = l.regs ∧ (State.resetWith l).pc = l.pc ∧ (State.resetWith l).flags = l.flags ∧
    (State.resetWith l).idtr = l.idtr ∧ (State.resetWith l).mem = l.image ∧
    (State.resetWith l).status = .running ∧ (State.resetWith l).events = []

/-- R504: faults and refusals are precise and atomic: only `status` changes, and the record names pc. -/
def Obligations.FaultsPrecise : Prop :=
  ∀ (s t : State) (r : FaultRecord), step s = .next t → t.status = .halted r →
    r.pc = s.pc ∧ t = { s with status := .halted r }

/-- The parameters stay, and IDTR is written by `lidt` alone and never read: under any other instruction it stays,
and changing it before changes it after, and nothing else (10_state.md R51). -/
def Obligations.IdtrIsolated : Prop :=
  ∀ (i : Instr) (s t : State), exec i s = .next t →
    t.cfg = s.cfg ∧
    ((∀ p m, i ≠ .lidtM p m) → t.idtr = s.idtr ∧
      ∀ limit base, exec i (s.setIdtr limit base) = .next (t.setIdtr limit base))

/-- The flags an instruction may write are those of the table of 10_state.md R47; `inc` and `dec` keep CF in mode
`preserve`. A flag that is kept stays a draw if it was one: `drawn`, log entry 24. -/
def Obligations.FlagFrame : Prop :=
  ∀ (i : Instr) (s t : State), exec i s = .next t →
    (i.writesFlags s = false → t.flags = s.flags ∧ t.drawn = s.drawn) ∧
    (∀ f : IncForm, i = f.incInstr ∨ i = f.decInstr → s.cfg.incDecCf = .preserve →
      t.flags.cf = s.flags.cf ∧ t.drawn.cf = s.drawn.cf)

/-- R41: an instruction that is not a control transfer and completes advances pc by its length. -/
def Obligations.PcAdvances : Prop :=
  ∀ (i : Instr) (s t : State), i.isTransfer = false → s.status = .running → exec i s = .next t →
    t.status = .running → t.pc = s.pc + BitVec.ofNat 32 i.len

/-- Every bit of every register stays, but those of the registers the instruction writes: its destination and the
ones its rule names (10_state.md R33, R35). -/
def Obligations.RegisterFrame : Prop :=
  ∀ (i : Instr) (s t : State), exec i s = .next t → ∀ (r : Reg) (k : Nat),
    (∀ n ∈ i.destNames, aliasBit n.1 n.2 r k = false) → (t.regs.get r).getLsbD k = (s.regs.get r).getLsbD k

/-- Every byte of memory stays, but those the instruction stores to: the bytes of its write accesses, at the
addresses computed in `s` (20_memory.md R77). A form without a write access changes no byte. -/
def Obligations.MemoryFrame : Prop :=
  ∀ (i : Instr) (s t : State), exec i s = .next t → ∀ a : Word,
    (∀ x ∈ i.accesses s, x.kind = .write → a ∉ touched x.width x.addr) → t.mem.byte a.toNat = s.mem.byte a.toNat

/-- The log only grows, by one record for each MMIO access and each port access of an instruction that completes
(20_memory.md R82). That an access of W bytes is one record is the model's reading, log entry 15, and so is that a
shift by a masked count of 0 of MMIO is an access, log entry 11. -/
def Obligations.EventsAppended : Prop :=
  ∀ (i : Instr) (s t : State), s.status = .running → exec i s = .next t →
    ∃ new, t.events = s.events ++ new ∧
      new.length = if t.status = .running then
        ((i.accesses s).countP fun x => x.isMmio s) + (if i.isPort then 1 else 0) else 0

/-- Every instruction but the placeholders completes when its accesses are admitted and no divide error applies:
each of the 162 other constructors answers a next state with `status` as it was. -/
def Obligations.Completes : Prop :=
  ∀ (i : Instr) (s : State), i.wellFormed = true → i.placeholder = none →
    (∀ x ∈ i.accesses s, x.admitted s = true) → i.divideError s = none →
    ∃ t, exec i s = .next t ∧ t.status = s.status

/-- The first access that is not admitted is the one reported, and nothing else happens (60_exceptions.md R508,
20_memory.md R73). -/
def Obligations.FirstRefusedAccess : Prop :=
  ∀ (i : Instr) (s : State) (x : Access), i.wellFormed = true →
    (i.accesses s).find? (fun y => !y.admitted s) = some x →
    exec i s = .next { s with status := .halted ⟨.memOutOfBounds x.addr x.width x.kind, s.pc⟩ }

/-- R502: the placeholders raise `Unimplemented` with their mnemonic and change nothing else. -/
def Obligations.PlaceholdersFault : Prop :=
  ∀ (i : Instr) (s : State) (m : Placeholder), i.placeholder = some m →
    exec i s = .next { s with status := .halted ⟨.unimplemented m, s.pc⟩ }

/-- R501: the only reasons an instruction raises at execution. -/
def Obligations.ReasonsOfExecution : Prop :=
  ∀ (i : Instr) (s t : State) (r : FaultRecord), i.wellFormed = true → s.status = .running → exec i s = .next t →
    t.status = .halted r →
    match r.reason with
    | .memOutOfBounds a w k => ⟨w, a, k⟩ ∈ i.accesses s
    | .divideError c => i.divideError s = some c
    | .unimplemented m => i.placeholder = some m
    | .invalidOpcode _ => False
    | .decodeContractViolation _ => False
    | .unsupportedForm _ => False

/-! ## Registers, memory and ports -/

/-- R32, R33: a read at any width gives exactly the aliased bits, a write at any width changes exactly those. Then the
registers by number, in the literal terms of 10_state.md R31: 0 to 7 are EAX to EDI, byte registers 0 to 3 are bits 7:0 of
EAX, ECX, EDX and EBX, and 4 to 7 bits 15:8 of the same four. -/
def Obligations.RegisterAliases : Prop :=
  (∀ (x : Regs) (w : Width) (i : Reg) (v : BitVec w.bits) (k : Nat),
    (k < w.bits → (x.read w i).getLsbD k = (x.get (homeOf w i)).getLsbD (lowBit w i + k)) ∧
    (k < 32 → ∀ r : Reg, ((x.write w i v).get r).getLsbD k =
      if aliasBit w i r k then v.getLsbD (k - lowBit w i) else (x.get r).getLsbD k)) ∧
  (∀ x : Regs, ∀ q ∈ [(0, x.eax), (1, x.ecx), (2, x.edx), (3, x.ebx), (4, x.esp), (5, x.ebp), (6, x.esi), (7, x.edi)],
    x.read .w4 (Reg.ofNum q.1) = q.2 ∧ x.read .w2 (Reg.ofNum q.1) = q.2.extractLsb' 0 16) ∧
  (∀ x : Regs, ∀ q ∈ [(0, x.eax, 0), (1, x.ecx, 0), (2, x.edx, 0), (3, x.ebx, 0),
      (4, x.eax, 8), (5, x.ecx, 8), (6, x.edx, 8), (7, x.ebx, 8)],
    x.read .w1 (Reg.ofNum q.1) = q.2.1.extractLsb' q.2.2 8) ∧
  ∀ (x : Regs) (v : Byte),
    let low (r : Word) : Word := r.extractLsb' 8 24 ++ v
    let high (r : Word) : Word := r.extractLsb' 16 16 ++ v ++ r.extractLsb' 0 8
    ∀ q ∈ [(0, { x with eax := low x.eax }), (1, { x with ecx := low x.ecx }), (2, { x with edx := low x.edx }),
        (3, { x with ebx := low x.ebx }), (4, { x with eax := high x.eax }), (5, { x with ecx := high x.ecx }),
        (6, { x with edx := high x.edx }), (7, { x with ebx := high x.ebx })],
      x.write .w1 (Reg.ofNum q.1) v = q.2

/-- R74: little-endian, at every address, with the addresses modulo 2^32. -/
def Obligations.MemoryBytes : Prop :=
  ∀ (m : Memory) (w : Width) (a : Word) (v : BitVec w.bits) (b : Word), m.wf = true →
    (∀ k, k < w.bytes →
      (readRam m w a).extractLsb' (8 * k) 8 = m.byte (a + BitVec.ofNat 32 k).toNat ∧
      (writeRam m w a v).byte (a + BitVec.ofNat 32 k).toNat = v.extractLsb' (8 * k) 8) ∧
    (w.bytes ≤ (b - a).toNat → (writeRam m w a v).byte b.toNat = m.byte b.toNat)

/-- An address is MMIO if a range of MMIO_REGION holds it, and RAM if the RAM range holds it and it is not MMIO
(20_memory.md R72, R79; the list of ranges and the overlap: log entries 17 and 14). An access goes to RAM iff every touched
byte is RAM, to MMIO iff every one is MMIO, and is admitted iff it goes to one of them; one that is not raises
`MemOutOfBounds` (R73). -/
def Obligations.AccessAdmission : Prop :=
  ∀ (s : State) (w : Width) (a : Word) (v : BitVec w.bits),
    (isMmio s.cfg a = true ↔ ∃ r ∈ s.cfg.mmio, r.base ≤ a.toNat ∧ a.toNat < r.base + r.size) ∧
    (isRam s.cfg a = true ↔
      s.cfg.pmemBase ≤ a.toNat ∧ a.toNat < s.cfg.pmemBase + s.cfg.pmemSize ∧ isMmio s.cfg a = false) ∧
    (admission s.cfg w a = some .ram ↔ ∀ k, k < w.bytes → isRam s.cfg (a + BitVec.ofNat 32 k) = true) ∧
    (admission s.cfg w a = some .mmio ↔ ∀ k, k < w.bytes → isMmio s.cfg (a + BitVec.ofNat 32 k) = true) ∧
    (admission s.cfg w a ≠ none ↔
      (∀ k, k < w.bytes → isRam s.cfg (a + BitVec.ofNat 32 k) = true) ∨
      (∀ k, k < w.bytes → isMmio s.cfg (a + BitVec.ofNat 32 k) = true)) ∧
    (admission s.cfg w a = none →
      memRead w a s = .error (.memOutOfBounds a w .read) ∧ memWrite w a v s = .error (.memOutOfBounds a w .write)) ∧
    (admission s.cfg w a ≠ none → memRead w a s = .ok (loadValue w a s, loadDone w a s) ∧
      memWrite w a v s = .ok (storeDone w a v s))

/-- An MMIO read gives a draw and one event, an MMIO write one event, and neither changes a byte of RAM (20_memory.md
R80). That an access of W bytes is one draw and one record is the model's reading, log entry 15; the record's form and
the draw counter are the model's, log entries 16 and 6. -/
def Obligations.MmioAccess : Prop :=
  ∀ (s : State) (w : Width) (a : Word) (v : BitVec w.bits), admission s.cfg w a = some .mmio →
    (∃ d : BitVec w.bits, memRead w a s =
      .ok (d, { s with draws := s.draws + 1, events := s.events ++ [.mmioRead a w (d.setWidth 32)] })) ∧
    memWrite w a v s = .ok { s with events := s.events ++ [.mmioWrite a w (v.setWidth 32)] }

/-! ## Arithmetic and logic

`d` and `x` are the destination's and the source's values, in the order R162 reads them; the next state is the one
after both reads, with the result put in the destination, the flags set and pc advanced, and nothing else. -/

/-- R210: `add`, all nine rows No flag written is a draw (`drawn`, log entry 24). -/
def Obligations.AddResult : Prop :=
  ∀ (f : AluForm) (s : State), (f.dst s).admitted s → (f.src s).admitted s →
    let d := (f.dst s).value s
    let s1 := (f.dst s).readDone s
    let x := (f.src s).value s1
    let s2 := (f.src s).readDone s1
    exec f.addInstr s = .next ((((f.dst s).put (d + x) s2).setFlags
      { cf := decide (2 ^ f.width.bits ≤ d.toNat + x.toNat), zf := d + x == 0, sf := (d + x).msb,
        of := d.msb == x.msb && (d + x).msb != d.msb }).setPc (s.pc + BitVec.ofNat 32 f.addInstr.len))

/-- R212: `adc`, all nine rows No flag written is a draw (`drawn`, log entry 24). -/
def Obligations.AdcResult : Prop :=
  ∀ (f : AluForm) (s : State), (f.dst s).admitted s → (f.src s).admitted s →
    let d := (f.dst s).value s
    let s1 := (f.dst s).readDone s
    let x := (f.src s).value s1
    let s2 := (f.src s).readDone s1
    let c := s.flags.cf.toNat
    let r := d + x + BitVec.ofNat f.width.bits c
    exec f.adcInstr s = .next ((((f.dst s).put r s2).setFlags
      { cf := decide (2 ^ f.width.bits ≤ d.toNat + x.toNat + c), zf := r == 0, sf := r.msb,
        of := d.msb == x.msb && r.msb != d.msb }).setPc (s.pc + BitVec.ofNat 32 f.adcInstr.len))

/-- R214, R216: `sub`, and `cmp`, which writes the same flags and no operand; all nine rows of each. No flag
written is a draw (`drawn`, log entry 24). -/
def Obligations.SubCmpResult : Prop :=
  ∀ (f : AluForm) (s : State), (f.dst s).admitted s → (f.src s).admitted s →
    let d := (f.dst s).value s
    let s1 := (f.dst s).readDone s
    let x := (f.src s).value s1
    let s2 := (f.src s).readDone s1
    let fl : Flags := { cf := decide (d.toNat < x.toNat), zf := d - x == 0, sf := (d - x).msb,
                        of := d.msb != x.msb && (d - x).msb != d.msb }
    exec f.subInstr s = .next ((((f.dst s).put (d - x) s2).setFlags fl).setPc
      (s.pc + BitVec.ofNat 32 f.subInstr.len)) ∧
    exec f.cmpInstr s = .next ((s2.setFlags fl).setPc (s.pc + BitVec.ofNat 32 f.cmpInstr.len))

/-- R215: `sbb`, all nine rows No flag written is a draw (`drawn`, log entry 24). -/
def Obligations.SbbResult : Prop :=
  ∀ (f : AluForm) (s : State), (f.dst s).admitted s → (f.src s).admitted s →
    let d := (f.dst s).value s
    let s1 := (f.dst s).readDone s
    let x := (f.src s).value s1
    let s2 := (f.src s).readDone s1
    let c := s.flags.cf.toNat
    let r := d - x - BitVec.ofNat f.width.bits c
    exec f.sbbInstr s = .next ((((f.dst s).put r s2).setFlags
      { cf := decide (d.toNat < x.toNat + c), zf := r == 0, sf := r.msb,
        of := d.msb != x.msb && r.msb != d.msb }).setPc (s.pc + BitVec.ofNat 32 f.sbbInstr.len))

/-- R402, R403, R404: `and`, `or` and `xor`, all nine rows of each No flag written is a draw (`drawn`, log entry 24). -/
def Obligations.LogicResult : Prop :=
  ∀ (f : AluForm) (s : State), (f.dst s).admitted s → (f.src s).admitted s →
    let d := (f.dst s).value s
    let s1 := (f.dst s).readDone s
    let x := (f.src s).value s1
    let s2 := (f.src s).readDone s1
    let done (r : BitVec f.width.bits) (len : Nat) : State := (((f.dst s).put r s2).setFlags
      { cf := false, zf := r == 0, sf := r.msb, of := false }).setPc (s.pc + BitVec.ofNat 32 len)
    exec f.andInstr s = .next (done (d &&& x) f.andInstr.len) ∧
    exec f.orInstr s = .next (done (d ||| x) f.orInstr.len) ∧
    exec f.xorInstr s = .next (done (d ^^^ x) f.xorInstr.len)

/-- R405: `test`, all six rows No flag written is a draw (`drawn`, log entry 24). -/
def Obligations.TestResult : Prop :=
  ∀ (f : TestForm) (s : State), (f.dst s).admitted s →
    let r := (f.dst s).value s &&& f.src.value s
    exec f.instr s = .next ((((f.dst s).readDone s).setFlags
      { cf := false, zf := r == 0, sf := r.msb, of := false }).setPc (s.pc + BitVec.ofNat 32 f.instr.len))

/-- R218, R219: `inc` and `dec`, all three rows of each; CF by R217: a CF that is kept stays a draw if it was one (`drawn`,
log entry 24). -/
def Obligations.IncDecResult : Prop :=
  ∀ (f : IncForm) (s : State), (f.dst s).admitted s →
    let d := (f.dst s).value s
    let s1 := (f.dst s).readDone s
    let cf (wrapped old : Bool) : Bool := if s.cfg.incDecCf = .wraparound then wrapped else old
    let drawn : Flags := { cf := cf false s.drawn.cf, zf := false, sf := false, of := false }
    exec f.incInstr s = .next ((((f.dst s).put (d + 1) s1).setFlagsDrawn
      { cf := cf (d + 1 == 0) s.flags.cf, zf := d + 1 == 0, sf := (d + 1).msb,
        of := d == BitVec.ofNat f.width.bits (2 ^ (f.width.bits - 1) - 1) } drawn).setPc
          (s.pc + BitVec.ofNat 32 f.incInstr.len)) ∧
    exec f.decInstr s = .next ((((f.dst s).put (d - 1) s1).setFlagsDrawn
      { cf := cf (d == 0) s.flags.cf, zf := d - 1 == 0, sf := (d - 1).msb,
        of := d == BitVec.ofNat f.width.bits (2 ^ (f.width.bits - 1)) } drawn).setPc
          (s.pc + BitVec.ofNat 32 f.decInstr.len))

/-- R220 and R407: `neg` and `not`, both rows of each No flag written is a draw (`drawn`, log entry 24). -/
def Obligations.NegNotResult : Prop :=
  ∀ (f : EForm) (s : State), (f.op s).admitted s →
    let d := (f.op s).value s
    let s1 := (f.op s).readDone s
    exec f.negInstr s = .next ((((f.op s).put (0 - d) s1).setFlags
      { cf := d != 0, zf := 0 - d == 0, sf := (0 - d).msb,
        of := d == BitVec.ofNat f.width.bits (2 ^ (f.width.bits - 1)) }).setPc
          (s.pc + BitVec.ofNat 32 f.negInstr.len)) ∧
    exec f.notInstr s = .next (((f.op s).put (~~~ d) s1).setPc (s.pc + BitVec.ofNat 32 f.notInstr.len))

/-- R406: a shift by a masked count of 0 reads its operand, and changes nothing but pc. -/
def Obligations.ShiftByZero : Prop :=
  ∀ (f : ShiftForm) (s : State), (f.dst s).admitted s → f.count s = 0 → ∀ i ∈ [f.shlInstr, f.shrInstr, f.sarInstr],
    exec i s = .next (((f.dst s).readDone s).setPc (s.pc + BitVec.ofNat 32 i.len))

/-- R408, R409, R410: `shl`, `shr` and `sar`, all six rows of each, by a masked count c from 1 to 31: `sar` gives the
floor of the signed quotient; a flag to which the rule gives no value takes any, and is a draw (`drawn`, log entry 24). -/
def Obligations.ShiftResult : Prop :=
  ∀ (f : ShiftForm) (s : State), (f.dst s).admitted s → f.count s ≠ 0 →
    let n := f.width.bits
    let d := (f.dst s).value s
    let c := f.count s
    let done (i : Instr) (r : BitVec n) (cf of : Bool) (k : Nat) : State := { (f.dst s).put r ((f.dst s).readDone s) with
      flags := { cf := cf, zf := r == 0, sf := r.msb, of := of }
      drawn := { cf := decide (n ≤ c), zf := false, sf := false, of := decide (c ≠ 1) }
      pc := s.pc + BitVec.ofNat 32 i.len
      draws := k }
    (∃ cf of k, exec f.shlInstr s = .next (done f.shlInstr (BitVec.ofNat n (d.toNat * 2 ^ c)) cf of k) ∧
      (c ≤ n - 1 → cf = d.getLsbD (n - c)) ∧ (c = 1 → of = ((BitVec.ofNat n (d.toNat * 2 ^ c)).msb ^^ cf))) ∧
    (∃ cf of k, exec f.shrInstr s = .next (done f.shrInstr (BitVec.ofNat n (d.toNat / 2 ^ c)) cf of k) ∧
      (c ≤ n - 1 → cf = d.getLsbD (c - 1)) ∧ (c = 1 → of = d.msb)) ∧
    (∃ cf of k, exec f.sarInstr s = .next (done f.sarInstr (BitVec.ofInt n (d.toInt / 2 ^ c)) cf of k) ∧
      (c ≤ n - 1 → cf = d.getLsbD (c - 1)) ∧ (c = 1 → of = false))

/-- R225: CF is the unsigned carry or borrow and OF the signed overflow, at every width and with any carry in. -/
def Obligations.CarryAndOverflow : Prop :=
  ∀ (w : Width) (d x : BitVec w.bits) (c : Bool),
    let cin : BitVec w.bits := BitVec.ofNat w.bits c.toNat
    (carryAdd d x c = true ↔ (d + x + cin).toNat ≠ d.toNat + x.toNat + c.toNat) ∧
    (borrowSub d x c = true ↔ ((d - x - cin).toNat : Int) ≠ (d.toNat : Int) - x.toNat - c.toNat) ∧
    (overflowAdd (d + x + cin) d x = true ↔ overflows w.bits (d.toInt + x.toInt + c.toNat)) ∧
    (overflowSub (d - x - cin) d x = true ↔ overflows w.bits (d.toInt - x.toInt - c.toNat))

/-! ## Multiply and divide -/

/-- R252, R253: `mul` and one-operand `imul`, both rows of each: the exact unsigned or signed product in the register
pair; CF and OF by R250, ZF and SF any. Which of them are draws: `mulDrawn` (`drawn`, log entry 24). -/
def Obligations.MulResult : Prop :=
  ∀ (f : EForm) (s : State), (f.op s).admitted s →
    let a := s.regs.read f.width .eax
    let x := (f.op s).value s
    let done (i : Instr) (p : Int) (fl : Flags) (k : Nat) : State := { (f.op s).readDone s with
      regs := s.regs.setProduct f.width p
      flags := fl
      drawn := mulDrawn s.cfg.mulFlags
      pc := s.pc + BitVec.ofNat 32 i.len
      draws := k }
    (∃ fl k, exec f.mulInstr s = .next (done f.mulInstr (a.toNat * x.toNat) fl k) ∧
      (s.cfg.mulFlags = .ia32 → fl.cf = decide (2 ^ f.width.bits ≤ a.toNat * x.toNat) ∧ fl.of = fl.cf)) ∧
    (∃ fl k, exec f.imulInstr s = .next (done f.imulInstr (a.toInt * x.toInt) fl k) ∧
      (s.cfg.mulFlags = .ia32 → (fl.cf = true ↔ overflows f.width.bits (a.toInt * x.toInt)) ∧ fl.of = fl.cf))

/-- R254, R255: two- and three-operand `imul`, all three rows: the low half of the signed product; the flags by
R251, and which of them are draws: `imulTruncDrawn` (`drawn`, log entry 24). -/
def Obligations.ImulTruncResult : Prop :=
  ∀ (i : Instr) (o : OSize) (r : Reg) (rm : RM) (a : BitVec o.width.bits) (s : State),
    (i = .imulGvEv o r rm ∧ a = s.regs.read o.width r) ∨
      (∃ imm : Byte, i = .imulGvEvSIb o r rm imm ∧ a = imm.signExtend o.width.bits) ∨
      (∃ v : Half, ∃ h : o = .o16, i = .imulGvEvIv r rm (.i16 v) ∧ a = h ▸ v) ∨
      (∃ v : Word, ∃ h : o = .o32, i = .imulGvEvIv r rm (.i32 v) ∧ a = h ▸ v) →
    (rmOperand o.width rm s).admitted s →
    let p := a.toInt * ((rmOperand o.width rm s).value s).toInt
    ∃ (fl : Flags) (k : Nat),
      exec i s = .next { (rmOperand o.width rm s).readDone s with
        regs := s.regs.write o.width r (BitVec.ofInt o.width.bits p)
        flags := fl
        drawn := imulTruncDrawn s.cfg.imulTrunc s.drawn
        pc := s.pc + BitVec.ofNat 32 i.len
        draws := k } ∧
      (s.cfg.imulTrunc = .unchanged → fl = s.flags) ∧
      (s.cfg.imulTrunc = .ia32 → (fl.cf = true ↔ overflows o.width.bits p) ∧ fl.of = fl.cf)

/-- R256, R257, R258: `div` and `idiv`, both rows of each. A zero divisor or a quotient that does not fit raises
`DivideError`, and nothing else changes; otherwise quotient (of `idiv`, rounded toward zero) and remainder go to their
registers, and the flags take any value, all four draws (`drawn`, log entry 24). -/
def Obligations.DivideResult : Prop :=
  ∀ (f : EForm) (s : State), (f.op s).admitted s →
    let n := f.width.bits
    let x := (f.op s).value s
    let N := dividend f.width s
    let M := signedDividend f.width s
    let done (i : Instr) (q r : BitVec n) (fl : Flags) (k : Nat) : State := { (f.op s).readDone s with
      regs := s.regs.setQuotient f.width q r
      flags := fl
      drawn := { cf := true, zf := true, sf := true, of := true }
      pc := s.pc + BitVec.ofNat 32 i.len
      draws := k }
    (∀ c, divError x s = some c → exec f.divInstr s = .next { s with status := .halted ⟨.divideError c, s.pc⟩ }) ∧
    (∀ c, idivError x s = some c → exec f.idivInstr s = .next { s with status := .halted ⟨.divideError c, s.pc⟩ }) ∧
    (divError x s = none → ∃ fl k, exec f.divInstr s =
      .next (done f.divInstr (BitVec.ofNat n (N / x.toNat)) (BitVec.ofNat n (N % x.toNat)) fl k)) ∧
    (idivError x s = none → ∃ fl k, exec f.idivInstr s =
      .next (done f.idivInstr (BitVec.ofInt n (M.tdiv x.toInt)) (BitVec.ofInt n (M.tmod x.toInt)) fl k))

/-- For every divide that completes, what stands in the registers satisfies N = q * divisor + r and
|r| < |divisor|; for `idiv` r is zero or has the sign of N (41_muldiv.md R259, R258). -/
def Obligations.DivideIdentity : Prop :=
  ∀ (f : EForm) (s t : State), s.status = .running → t.status = .running →
    let w := f.width
    let q := t.regs.read w .eax
    let r := t.regs.read w (if w = .w1 then .esp else .edx)
    (exec f.divInstr s = .next t →
      let x := ((f.op s).value s).toNat
      dividend w s = q.toNat * x + r.toNat ∧ r.toNat < x) ∧
    (exec f.idivInstr s = .next t →
      let x := ((f.op s).value s).toInt
      signedDividend w s = q.toInt * x + r.toInt ∧ r.toInt.natAbs < x.natAbs ∧
        (r.toInt = 0 ∨ (r.toInt < 0 ↔ signedDividend w s < 0)))

/-! ## Data movement and the stack -/

/-- R300: `mov`, all twelve rows. -/
def Obligations.MovResult : Prop :=
  ∀ (f : MovForm) (s : State), (f.dst s).admitted s → (f.src s).admitted s →
    exec f.instr s = .next (((f.dst s).put ((f.src s).value s) ((f.src s).readDone s)).setPc
      (s.pc + BitVec.ofNat 32 f.instr.len))

/-- R311, R312: `cltd`/`cwtd` and `cwtl`/`cbtw`; and `lea`, whose address need not be backed (42_datamove.md R301): they
complete in every state. The address of each addressing form is base + index * scale + displacement modulo 2^32, with
signed displacements; index 4 is no index, whatever the scale (30_encoding.md R120 to R123). -/
def Obligations.LeaAccumulatorResult : Prop :=
  (∀ (x : Regs) (b i : Reg) (d8 : Byte) (d32 : Word),
    ∀ q ∈ [(Scale.s1, 1), (.s2, 2), (.s4, 4), (.s8, 8)],
      let base : Int := (x.get b).toNat
      let index : Int := if i = .esp then 0 else (x.get i).toNat * q.2
      effAddr x (.abs d32) = d32 ∧
      effAddr x (.base b .none) = x.get b ∧
      effAddr x (.base b (.d8 d8)) = BitVec.ofInt 32 (base + d8.toInt) ∧
      effAddr x (.base b (.d32 d32)) = BitVec.ofInt 32 (base + d32.toInt) ∧
      effAddr x (.sib q.1 i b .none) = BitVec.ofInt 32 (base + index) ∧
      effAddr x (.sib q.1 i b (.d8 d8)) = BitVec.ofInt 32 (base + index + d8.toInt) ∧
      effAddr x (.sib q.1 i b (.d32 d32)) = BitVec.ofInt 32 (base + index + d32.toInt) ∧
      effAddr x (.sibNoBase q.1 i d32) = BitVec.ofInt 32 (index + d32.toInt)) ∧
  ∀ (o : OSize) (r : Reg) (m : MemOp) (s : State),
    exec (.leaGvM o r m) s = .next { s with
      regs := s.regs.write o.width r ((effAddr s.regs m).setWidth o.width.bits)
      pc := s.pc + BitVec.ofNat 32 (Instr.leaGvM o r m).len } ∧
    exec (.cltd .o32) s = .next { s with
      regs := { s.regs with edx := if s.regs.eax.getLsbD 31 then 0xFFFFFFFF else 0 }, pc := s.pc + 1 } ∧
    exec (.cltd .o16) s = .next { s with
      regs := s.regs.write .w2 .edx (if s.regs.eax.getLsbD 15 then 0xFFFF else 0), pc := s.pc + 2 } ∧
    exec (.cwtl .o32) s = .next { s with
      regs := { s.regs with eax := (s.regs.eax.setWidth 16).signExtend 32 }, pc := s.pc + 1 } ∧
    exec (.cwtl .o16) s = .next { s with
      regs := s.regs.write .w2 .eax ((s.regs.eax.setWidth 8).signExtend 16), pc := s.pc + 2 }

/-- R302, R303: `movsx` and `movzx`, both rows of each. -/
def Obligations.ExtendResult : Prop :=
  ∀ (o : OSize) (r : Reg) (rm : RM) (s : State),
    ((rmOperand .w1 rm s).admitted s →
      let v := (rmOperand .w1 rm s).value s
      let s1 := (rmOperand .w1 rm s).readDone s
      exec (.movsxGvEb o r rm) s = .next { s1 with
        regs := s.regs.write o.width r (BitVec.ofInt o.width.bits v.toInt)
        pc := s.pc + BitVec.ofNat 32 (Instr.movsxGvEb o r rm).len } ∧
      exec (.movzxGvEb o r rm) s = .next { s1 with
        regs := s.regs.write o.width r (BitVec.ofNat o.width.bits v.toNat)
        pc := s.pc + BitVec.ofNat 32 (Instr.movzxGvEb o r rm).len }) ∧
    ((rmOperand .w2 rm s).admitted s →
      let v := (rmOperand .w2 rm s).value s
      let s1 := (rmOperand .w2 rm s).readDone s
      exec (.movsxGvEw o r rm) s = .next { s1 with
        regs := s.regs.write o.width r (BitVec.ofInt o.width.bits v.toInt)
        pc := s.pc + BitVec.ofNat 32 (Instr.movsxGvEw o r rm).len } ∧
      exec (.movzxGvEw o r rm) s = .next { s1 with
        regs := s.regs.write o.width r (BitVec.ofNat o.width.bits v.toNat)
        pc := s.pc + BitVec.ofNat 32 (Instr.movzxGvEw o r rm).len })

/-- R306: `push`, all four rows: the operand is read before ESP moves, the slot is 4 bytes at any operand size, and
the upper half of a 2-byte push is any value (R305). -/
def Obligations.PushResult : Prop :=
  ∀ (f : PushForm) (s : State), (f.src s).admitted s → admission s.cfg .w4 (s.regs.esp - 4) ≠ none →
    ∃ (word : Word) (k : Nat),
      exec f.instr s = .next { storeDone .w4 (s.regs.esp - 4) word ((f.src s).readDone s) with
        regs := { s.regs with esp := s.regs.esp - 4 }
        pc := s.pc + BitVec.ofNat 32 f.instr.len
        draws := k } ∧
      word.setWidth f.osz.width.bits = (f.src s).value s

/-- R308, R309, R310: `pop`, both rows, and `leave`: ESP moves by 4 before the operand is written, so that `pop %esp`
ends with the popped value; `leave` reads at the old EBP. -/
def Obligations.PopLeaveResult : Prop :=
  ∀ (f : PopForm) (s : State),
    (f.instr.wellFormed = true → admission s.cfg .w4 s.regs.esp ≠ none → (f.dst s).admitted s →
      let word := loadValue .w4 s.regs.esp s
      let s1 : State := { loadDone .w4 s.regs.esp s with regs := { s.regs with esp := s.regs.esp + 4 } }
      exec f.instr s = .next (((f.dst s).put (word.setWidth f.osz.width.bits) s1).setPc
        (s.pc + BitVec.ofNat 32 f.instr.len))) ∧
    (admission s.cfg .w4 s.regs.ebp ≠ none →
      exec .leave s = .next { loadDone .w4 s.regs.ebp s with
        regs := { s.regs with esp := s.regs.ebp + 4, ebp := loadValue .w4 s.regs.ebp s }
        pc := s.pc + 1 })

/-- R314: `push` then `pop` of the same register or memory operand restores every register, at both operand sizes, ESP
among them, when the slot is RAM. Both complete: neither halts the core, and the push has moved ESP by 4 (R304). -/
def Obligations.PushPopRestores : Prop :=
  ∀ (o : OSize) (r : Reg) (rm : RM) (s : State), s.mem.wf = true →
    admission s.cfg .w4 (s.regs.esp - 4) = some .ram →
    (∃ t u, exec (.pushRv o r) s = .next t ∧ t.status = s.status ∧ t.regs.esp = s.regs.esp - 4 ∧
      exec (.popRv o r) t = .next u ∧ u.status = s.status ∧ u.regs = s.regs) ∧
    (rm.usesEsp = false → (rmOperand o.width rm s).admitted s →
      ∃ t u, exec (.pushEv o rm) s = .next t ∧ t.status = s.status ∧ t.regs.esp = s.regs.esp - 4 ∧
        exec (.popEv o rm) t = .next u ∧ u.status = s.status ∧ u.regs = s.regs)

/-! ## System and ports -/

/-- R340: `lidt`: the limit at EA, then the base at EA + 2, whole with or without the prefix. -/
def Obligations.LidtResult : Prop :=
  ∀ (p : Bool) (m : MemOp) (s : State),
    let a := effAddr s.regs m
    let s1 := loadDone .w2 a s
    admission s.cfg .w2 a ≠ none → admission s.cfg .w4 (a + 2) ≠ none →
    exec (.lidtM p m) s = .next { loadDone .w4 (a + 2) s1 with
      idtr := ⟨loadValue .w2 a s, loadValue .w4 (a + 2) s1⟩
      pc := s.pc + BitVec.ofNat 32 (Instr.lidtM p m).len }

/-- R344, R345: `in` and `out`, all four rows of each: they complete in every state and at every port. -/
def Obligations.PortResult : Prop :=
  ∀ (f : PortForm) (s : State),
    (∃ v : BitVec f.width.bits, exec f.inInstr s = .next { s with
      regs := s.regs.write f.width .eax v
      events := s.events ++ [.portRead (f.port s) f.width (v.setWidth 32)]
      draws := s.draws + 1
      pc := s.pc + BitVec.ofNat 32 f.inInstr.len }) ∧
    (s.cfg.outWidth = .widthAware → exec f.outInstr s = .next { s with
      events := s.events ++ [.portWrite (f.port s) f.width ((s.regs.read f.width .eax).setWidth 32)]
      pc := s.pc + BitVec.ofNat 32 f.outInstr.len }) ∧
    (s.cfg.outWidth = .narrow → exec f.outInstr s = .next { s with
      events := s.events ++ [.portWrite (f.port s) .w1 (s.regs.eax &&& 0xFF)]
      pc := s.pc + BitVec.ofNat 32 f.outInstr.len })

/-! ## Control transfer -/

/-- The condition codes, by the numbers of their encoding (45_control_gk.md R430): the value that the table gives from the
flags, and whether the condition reads a flag of `drawn`: it reads those that its line of the table names, whatever their
values, which is the model's reading (log entries 24 and 26). -/
def Obligations.ConditionCodes : Prop :=
  ∀ f d : Flags,
    let cond (n : Nat) : Option (Bool × Bool) := (Cond.ofNum n).map fun cc => (condHolds cc f, condDrawn cc d)
    cond 0x0 = some (f.of, d.of) ∧ cond 0x1 = some (!f.of, d.of) ∧
    cond 0x2 = some (f.cf, d.cf) ∧ cond 0x3 = some (!f.cf, d.cf) ∧
    cond 0x4 = some (f.zf, d.zf) ∧ cond 0x5 = some (!f.zf, d.zf) ∧
    cond 0x6 = some (f.cf || f.zf, d.cf || d.zf) ∧ cond 0x7 = some (!(f.cf || f.zf), d.cf || d.zf) ∧
    cond 0x8 = some (f.sf, d.sf) ∧ cond 0x9 = some (!f.sf, d.sf) ∧
    cond 0xA = none ∧ cond 0xB = none ∧
    cond 0xC = some (f.sf ^^ f.of, d.sf || d.of) ∧ cond 0xD = some (!(f.sf ^^ f.of), d.sf || d.of) ∧
    cond 0xE = some (f.zf || (f.sf ^^ f.of), d.zf || d.sf || d.of) ∧
    cond 0xF = some (!(f.zf || (f.sf ^^ f.of)), d.zf || d.sf || d.of)

/-- `jcc` and `jmp` (45_control_gk.md section 2): a relative target counts from the address after the instruction; no target
is checked. `jcc` goes by the table's condition when the condition reads no drawn flag, and by a draw, a free value and a
new one at every read, when it reads one: what a condition reads is the model's reading of section 1, and `drawn` its own
field (log entries 24 and 26). -/
def Obligations.JumpResult : Prop :=
  ∀ (cc : Cond) (d8 : Byte) (d32 : Word) (rm : RM) (s : State),
    let target8 := s.pc + 2 + d8.signExtend 32
    let target32 := s.pc + 6 + d32
    (condDrawn cc s.drawn = false →
      exec (.jccJb cc d8) s = .next { s with pc := if condHolds cc s.flags then target8 else s.pc + 2 } ∧
      exec (.jccJd cc d32) s = .next { s with pc := if condHolds cc s.flags then target32 else s.pc + 6 }) ∧
    (condDrawn cc s.drawn = true →
      let b := (Config.drawWord s.draws).getLsbD 0
      exec (.jccJb cc d8) s = .next { s with draws := s.draws + 1, pc := if b then target8 else s.pc + 2 } ∧
      exec (.jccJd cc d32) s = .next { s with draws := s.draws + 1, pc := if b then target32 else s.pc + 6 }) ∧
    exec (.jmpJb d8) s = .next { s with pc := target8 } ∧
    exec (.jmpJd d32) s = .next { s with pc := s.pc + 5 + d32 } ∧
    ((rmOperand .w4 rm s).admitted s → exec (.jmpEd rm) s =
      .next { (rmOperand .w4 rm s).readDone s with pc := (rmOperand .w4 rm s).value s })

/-- R435 to R437: `call` and `ret`: the target of an indirect call is read before the push. -/
def Obligations.CallRetResult : Prop :=
  ∀ (disp : Word) (rm : RM) (s : State),
    (admission s.cfg .w4 (s.regs.esp - 4) ≠ none →
      exec (.callJd disp) s = .next { storeDone .w4 (s.regs.esp - 4) (s.pc + 5) s with
        regs := { s.regs with esp := s.regs.esp - 4 }
        pc := s.pc + 5 + disp } ∧
      ((rmOperand .w4 rm s).admitted s →
        exec (.callEd rm) s = .next { storeDone .w4 (s.regs.esp - 4)
            (s.pc + BitVec.ofNat 32 (Instr.callEd rm).len) ((rmOperand .w4 rm s).readDone s) with
          regs := { s.regs with esp := s.regs.esp - 4 }
          pc := (rmOperand .w4 rm s).value s })) ∧
    (admission s.cfg .w4 s.regs.esp ≠ none →
      exec .ret s = .next { loadDone .w4 s.regs.esp s with
        regs := { s.regs with esp := s.regs.esp + 4 }
        pc := loadValue .w4 s.regs.esp s })

/-- Either `call`, then any code that leaves x[4] and the pushed slot as the call left them, then `ret`: it resumes
after the call, with x[4] as it was before it (45_control_gk.md R442). -/
def Obligations.CallThenRet : Prop :=
  ∀ (i : Instr) (s t u : State), s.mem.wf = true → admission s.cfg .w4 (s.regs.esp - 4) = some .ram →
    ((∃ disp, i = .callJd disp) ∨ ∃ rm, i = .callEd rm ∧ (rmOperand .w4 rm s).admitted s) →
    exec i s = .next t →
    u.cfg = t.cfg → u.regs.esp = t.regs.esp →
    (∀ a ∈ touched .w4 t.regs.esp, u.mem.byte a.toNat = t.mem.byte a.toNat) →
    ∃ v, exec .ret u = .next v ∧ v.pc = s.pc + BitVec.ofNat 32 i.len ∧ v.regs.esp = s.regs.esp

/-- `setcc`, its `reg` field ignored, and `nop` (45_control_gk.md R440, R441). The condition is the table's when it reads no
drawn flag, and a draw, a free value and a new one at every read, when it reads one: what a condition reads is the model's reading, and
`drawn` its own field (log entries 24 and 26). -/
def Obligations.SetccNopResult : Prop :=
  ∀ (p : Bool) (cc : Cond) (reg : Reg) (rm : RM) (s : State),
    ((rmOperand .w1 rm s).admitted s →
      let next := s.pc + BitVec.ofNat 32 (Instr.setccEb p cc reg rm).len
      (condDrawn cc s.drawn = false → exec (.setccEb p cc reg rm) s = .next (((rmOperand .w1 rm s).put
        (if condHolds cc s.flags then 0x01 else 0x00) s).setPc next)) ∧
      (condDrawn cc s.drawn = true → exec (.setccEb p cc reg rm) s = .next (((rmOperand .w1 rm s).put
        (if (Config.drawWord s.draws).getLsbD 0 then 0x01 else 0x00) { s with draws := s.draws + 1 }).setPc next))) ∧
    exec (.nop p) s = .next { s with pc := s.pc + (if p then 2 else 1) }

/-! ## A run -/

/-- A run ends by a fault or refusal, or when its step budget is used up (70_reset_and_hazards.md R612; the budget is an
argument: log entry 27). From a running state: while the core runs, the states of the run follow one another by `step`; the
budget is used up iff the core runs after every one of its steps; a run that halted did so in its last step, and a greater
budget changes nothing. A run from reset is this with the state after reset. -/
def Obligations.RunEnds : Prop :=
  (∀ (s : State) (n : Nat), s.status = .running →
    (∀ k, (runSteps k s).status = .running → step (runSteps k s) = .next (runSteps (k + 1) s)) ∧
    ((runSteps n s).runEnd = .budgetUsed ↔ ∀ k, k ≤ n → (runSteps k s).status = .running) ∧
    (∀ r, (runSteps n s).runEnd = .halted r →
      (∃ k, k < n ∧ (runSteps k s).status = .running ∧ step (runSteps k s) = .next (runSteps n s) ∧
        (runSteps n s).status = .halted r) ∧
      ∀ m, n ≤ m → runSteps m s = runSteps n s)) ∧
  ∀ (l : Launch) (n : Nat),
    run l n = (runSteps n (State.resetWith l), (runSteps n (State.resetWith l)).runEnd)
end

