-- ==== Sys2Proof/Laws/Bits.lean ====
section
/-! SUPPORT. Fields of concatenated bit vectors, and a value put together from its bytes. -/

namespace Sys2Proof

theorem extract_low {a b : Nat} (x : BitVec a) (y : BitVec b) : (x ++ y).extractLsb' 0 b = y := by
  apply BitVec.eq_of_getLsbD_eq
  intro i hi
  simp [BitVec.getLsbD_append, hi]

theorem extract_above {a b : Nat} (x : BitVec a) (y : BitVec b) (k w : Nat) :
    (x ++ y).extractLsb' (b + k) w = x.extractLsb' k w := by
  apply BitVec.eq_of_getLsbD_eq
  intro i hi
  have h : ¬ b + k + i < b := by omega
  have e : b + k + i - b = k + i := by omega
  simp [BitVec.getLsbD_append, hi, h, e]

theorem extract_high {a b : Nat} (x : BitVec a) (y : BitVec b) : (x ++ y).extractLsb' b a = x := by
  apply BitVec.eq_of_getLsbD_eq
  intro i hi
  simp [BitVec.getLsbD_append, hi]

theorem extract_mid {a b c : Nat} (x : BitVec a) (y : BitVec b) (z : BitVec c) :
    (x ++ y ++ z).extractLsb' c b = y := by
  apply BitVec.eq_of_getLsbD_eq
  intro i hi
  simp [BitVec.getLsbD_append, hi]

theorem half_join (v : Half) : v.extractLsb' 8 8 ++ v.extractLsb' 0 8 = v := by
  apply BitVec.eq_of_getLsbD_eq
  intro i hi
  simp only [BitVec.getLsbD_append, BitVec.getLsbD_extractLsb']
  by_cases h : i < 8
  · simp [h]
  · have h1 : i - 8 < 8 := by omega
    have h2 : 8 + (i - 8) = i := by omega
    simp [h, h1, h2]

theorem word_join (v : Word) :
    v.extractLsb' 24 8 ++ v.extractLsb' 16 8 ++ v.extractLsb' 8 8 ++ v.extractLsb' 0 8 = v := by
  apply BitVec.eq_of_getLsbD_eq
  intro i hi
  simp only [BitVec.getLsbD_append, BitVec.getLsbD_extractLsb']
  rcases (by omega : i < 8 ∨ (8 ≤ i ∧ i < 16) ∨ (16 ≤ i ∧ i < 24) ∨ (24 ≤ i ∧ i < 32)) with h | h | h | h
  · simp [h]
  · have h1 : ¬ i < 8 := by omega
    have h2 : i - 8 < 8 := by omega
    simp [h1, h2]; congr 1; omega
  · have h1 : ¬ i < 8 := by omega
    have h2 : ¬ i - 8 < 8 := by omega
    have h3 : i - 8 - 8 < 8 := by omega
    simp [h1, h2, h3]; congr 1; omega
  · have h1 : ¬ i < 8 := by omega
    have h2 : ¬ i - 8 < 8 := by omega
    have h3 : ¬ i - 8 - 8 < 8 := by omega
    have h4 : i - 8 - 8 - 8 < 8 := by omega
    simp [h1, h2, h3, h4]; congr 1; omega

/-- The bytes of two bytes put together. -/
theorem half_bytes (b0 b1 : Byte) :
    (b1 ++ b0 : Half).extractLsb' 0 8 = b0 ∧ (b1 ++ b0 : Half).extractLsb' 8 8 = b1 :=
  ⟨extract_low b1 b0, extract_high b1 b0⟩

/-- The bytes of four bytes put together. -/
theorem word_bytes (b0 b1 b2 b3 : Byte) :
    (b3 ++ b2 ++ b1 ++ b0 : Word).extractLsb' 0 8 = b0 ∧ (b3 ++ b2 ++ b1 ++ b0 : Word).extractLsb' 8 8 = b1 ∧
      (b3 ++ b2 ++ b1 ++ b0 : Word).extractLsb' 16 8 = b2 ∧ (b3 ++ b2 ++ b1 ++ b0 : Word).extractLsb' 24 8 = b3 :=
  ⟨extract_low _ b0, extract_mid (b3 ++ b2) b1 b0,
    (extract_above (b3 ++ b2 ++ b1) b0 8 8).trans (extract_mid b3 b2 b1),
    (extract_above (b3 ++ b2 ++ b1) b0 16 8).trans
      ((extract_above (b3 ++ b2) b1 8 8).trans (extract_high b3 b2))⟩

/-- Two fields put together, as a number. -/
theorem toNat_concat {a b : Nat} (x : BitVec a) (y : BitVec b) : (x ++ y).toNat = x.toNat * 2 ^ b + y.toNat := by
  rw [BitVec.toNat_append, ← Nat.shiftLeft_add_eq_or_of_lt y.isLt, Nat.shiftLeft_eq]

end Sys2Proof
end

