-- ==== Sys2Proof/Laws/State.lean ====
section
/-! SUPPORT. One lemma per field of the state and per update of it, so that no proof unfolds an update. -/

namespace Sys2Proof.Machine

/-! ### setReg -/

@[simp] theorem State.setReg_cfg (s : State) (w : Width) (i : Reg) (v : BitVec w.bits) : (s.setReg w i v).cfg = s.cfg := rfl
@[simp] theorem State.setReg_regs (s : State) (w : Width) (i : Reg) (v : BitVec w.bits) : (s.setReg w i v).regs = s.regs.write w i v := rfl
@[simp] theorem State.setReg_pc (s : State) (w : Width) (i : Reg) (v : BitVec w.bits) : (s.setReg w i v).pc = s.pc := rfl
@[simp] theorem State.setReg_flags (s : State) (w : Width) (i : Reg) (v : BitVec w.bits) : (s.setReg w i v).flags = s.flags := rfl
@[simp] theorem State.setReg_drawn (s : State) (w : Width) (i : Reg) (v : BitVec w.bits) : (s.setReg w i v).drawn = s.drawn := rfl
@[simp] theorem State.setReg_idtr (s : State) (w : Width) (i : Reg) (v : BitVec w.bits) : (s.setReg w i v).idtr = s.idtr := rfl
@[simp] theorem State.setReg_mem (s : State) (w : Width) (i : Reg) (v : BitVec w.bits) : (s.setReg w i v).mem = s.mem := rfl
@[simp] theorem State.setReg_status (s : State) (w : Width) (i : Reg) (v : BitVec w.bits) : (s.setReg w i v).status = s.status := rfl
@[simp] theorem State.setReg_events (s : State) (w : Width) (i : Reg) (v : BitVec w.bits) : (s.setReg w i v).events = s.events := rfl
@[simp] theorem State.setReg_draws (s : State) (w : Width) (i : Reg) (v : BitVec w.bits) : (s.setReg w i v).draws = s.draws := rfl

/-! ### setFlags -/

@[simp] theorem State.setFlags_cfg (s : State) (f : Flags) : (s.setFlags f).cfg = s.cfg := rfl
@[simp] theorem State.setFlags_regs (s : State) (f : Flags) : (s.setFlags f).regs = s.regs := rfl
@[simp] theorem State.setFlags_pc (s : State) (f : Flags) : (s.setFlags f).pc = s.pc := rfl
@[simp] theorem State.setFlags_flags (s : State) (f : Flags) : (s.setFlags f).flags = f := rfl
@[simp] theorem State.setFlags_drawn (s : State) (f : Flags) : (s.setFlags f).drawn = .clear := rfl
@[simp] theorem State.setFlags_idtr (s : State) (f : Flags) : (s.setFlags f).idtr = s.idtr := rfl
@[simp] theorem State.setFlags_mem (s : State) (f : Flags) : (s.setFlags f).mem = s.mem := rfl
@[simp] theorem State.setFlags_status (s : State) (f : Flags) : (s.setFlags f).status = s.status := rfl
@[simp] theorem State.setFlags_events (s : State) (f : Flags) : (s.setFlags f).events = s.events := rfl
@[simp] theorem State.setFlags_draws (s : State) (f : Flags) : (s.setFlags f).draws = s.draws := rfl

/-! ### setFlagsDrawn -/

@[simp] theorem State.setFlagsDrawn_cfg (s : State) (f d : Flags) : (s.setFlagsDrawn f d).cfg = s.cfg := rfl
@[simp] theorem State.setFlagsDrawn_regs (s : State) (f d : Flags) : (s.setFlagsDrawn f d).regs = s.regs := rfl
@[simp] theorem State.setFlagsDrawn_pc (s : State) (f d : Flags) : (s.setFlagsDrawn f d).pc = s.pc := rfl
@[simp] theorem State.setFlagsDrawn_flags (s : State) (f d : Flags) : (s.setFlagsDrawn f d).flags = f := rfl
@[simp] theorem State.setFlagsDrawn_drawn (s : State) (f d : Flags) : (s.setFlagsDrawn f d).drawn = d := rfl
@[simp] theorem State.setFlagsDrawn_idtr (s : State) (f d : Flags) : (s.setFlagsDrawn f d).idtr = s.idtr := rfl
@[simp] theorem State.setFlagsDrawn_mem (s : State) (f d : Flags) : (s.setFlagsDrawn f d).mem = s.mem := rfl
@[simp] theorem State.setFlagsDrawn_status (s : State) (f d : Flags) : (s.setFlagsDrawn f d).status = s.status := rfl
@[simp] theorem State.setFlagsDrawn_events (s : State) (f d : Flags) : (s.setFlagsDrawn f d).events = s.events := rfl
@[simp] theorem State.setFlagsDrawn_draws (s : State) (f d : Flags) : (s.setFlagsDrawn f d).draws = s.draws := rfl

/-! ### setPc -/

@[simp] theorem State.setPc_cfg (s : State) (a : Word) : (s.setPc a).cfg = s.cfg := rfl
@[simp] theorem State.setPc_regs (s : State) (a : Word) : (s.setPc a).regs = s.regs := rfl
@[simp] theorem State.setPc_pc (s : State) (a : Word) : (s.setPc a).pc = a := rfl
@[simp] theorem State.setPc_flags (s : State) (a : Word) : (s.setPc a).flags = s.flags := rfl
@[simp] theorem State.setPc_drawn (s : State) (a : Word) : (s.setPc a).drawn = s.drawn := rfl
@[simp] theorem State.setPc_idtr (s : State) (a : Word) : (s.setPc a).idtr = s.idtr := rfl
@[simp] theorem State.setPc_mem (s : State) (a : Word) : (s.setPc a).mem = s.mem := rfl
@[simp] theorem State.setPc_status (s : State) (a : Word) : (s.setPc a).status = s.status := rfl
@[simp] theorem State.setPc_events (s : State) (a : Word) : (s.setPc a).events = s.events := rfl
@[simp] theorem State.setPc_draws (s : State) (a : Word) : (s.setPc a).draws = s.draws := rfl

/-! ### setIdtr -/

@[simp] theorem State.setIdtr_cfg (s : State) (l : Half) (b : Word) : (s.setIdtr l b).cfg = s.cfg := rfl
@[simp] theorem State.setIdtr_regs (s : State) (l : Half) (b : Word) : (s.setIdtr l b).regs = s.regs := rfl
@[simp] theorem State.setIdtr_pc (s : State) (l : Half) (b : Word) : (s.setIdtr l b).pc = s.pc := rfl
@[simp] theorem State.setIdtr_flags (s : State) (l : Half) (b : Word) : (s.setIdtr l b).flags = s.flags := rfl
@[simp] theorem State.setIdtr_drawn (s : State) (l : Half) (b : Word) : (s.setIdtr l b).drawn = s.drawn := rfl
@[simp] theorem State.setIdtr_idtr (s : State) (l : Half) (b : Word) : (s.setIdtr l b).idtr = ⟨l, b⟩ := rfl
@[simp] theorem State.setIdtr_mem (s : State) (l : Half) (b : Word) : (s.setIdtr l b).mem = s.mem := rfl
@[simp] theorem State.setIdtr_status (s : State) (l : Half) (b : Word) : (s.setIdtr l b).status = s.status := rfl
@[simp] theorem State.setIdtr_events (s : State) (l : Half) (b : Word) : (s.setIdtr l b).events = s.events := rfl
@[simp] theorem State.setIdtr_draws (s : State) (l : Half) (b : Word) : (s.setIdtr l b).draws = s.draws := rfl

/-! ### log -/

@[simp] theorem State.log_cfg (s : State) (e : Event) : (s.log e).cfg = s.cfg := rfl
@[simp] theorem State.log_regs (s : State) (e : Event) : (s.log e).regs = s.regs := rfl
@[simp] theorem State.log_pc (s : State) (e : Event) : (s.log e).pc = s.pc := rfl
@[simp] theorem State.log_flags (s : State) (e : Event) : (s.log e).flags = s.flags := rfl
@[simp] theorem State.log_drawn (s : State) (e : Event) : (s.log e).drawn = s.drawn := rfl
@[simp] theorem State.log_idtr (s : State) (e : Event) : (s.log e).idtr = s.idtr := rfl
@[simp] theorem State.log_mem (s : State) (e : Event) : (s.log e).mem = s.mem := rfl
@[simp] theorem State.log_status (s : State) (e : Event) : (s.log e).status = s.status := rfl
@[simp] theorem State.log_events (s : State) (e : Event) : (s.log e).events = s.events ++ [e] := rfl
@[simp] theorem State.log_draws (s : State) (e : Event) : (s.log e).draws = s.draws := rfl

/-! ### halt -/

@[simp] theorem State.halt_cfg (s : State) (r : Reason) : (s.halt r).cfg = s.cfg := rfl
@[simp] theorem State.halt_regs (s : State) (r : Reason) : (s.halt r).regs = s.regs := rfl
@[simp] theorem State.halt_pc (s : State) (r : Reason) : (s.halt r).pc = s.pc := rfl
@[simp] theorem State.halt_flags (s : State) (r : Reason) : (s.halt r).flags = s.flags := rfl
@[simp] theorem State.halt_drawn (s : State) (r : Reason) : (s.halt r).drawn = s.drawn := rfl
@[simp] theorem State.halt_idtr (s : State) (r : Reason) : (s.halt r).idtr = s.idtr := rfl
@[simp] theorem State.halt_mem (s : State) (r : Reason) : (s.halt r).mem = s.mem := rfl
@[simp] theorem State.halt_status (s : State) (r : Reason) : (s.halt r).status = .halted ⟨r, s.pc⟩ := rfl
@[simp] theorem State.halt_events (s : State) (r : Reason) : (s.halt r).events = s.events := rfl
@[simp] theorem State.halt_draws (s : State) (r : Reason) : (s.halt r).draws = s.draws := rfl

/-! ### draw -/

@[simp] theorem State.draw_cfg (s : State) (n : Nat) : (s.draw n).2.cfg = s.cfg := rfl
@[simp] theorem State.draw_regs (s : State) (n : Nat) : (s.draw n).2.regs = s.regs := rfl
@[simp] theorem State.draw_pc (s : State) (n : Nat) : (s.draw n).2.pc = s.pc := rfl
@[simp] theorem State.draw_flags (s : State) (n : Nat) : (s.draw n).2.flags = s.flags := rfl
@[simp] theorem State.draw_drawn (s : State) (n : Nat) : (s.draw n).2.drawn = s.drawn := rfl
@[simp] theorem State.draw_idtr (s : State) (n : Nat) : (s.draw n).2.idtr = s.idtr := rfl
@[simp] theorem State.draw_mem (s : State) (n : Nat) : (s.draw n).2.mem = s.mem := rfl
@[simp] theorem State.draw_status (s : State) (n : Nat) : (s.draw n).2.status = s.status := rfl
@[simp] theorem State.draw_events (s : State) (n : Nat) : (s.draw n).2.events = s.events := rfl
@[simp] theorem State.draw_draws (s : State) (n : Nat) : (s.draw n).2.draws = s.draws + 1 := rfl

/-! ### drawBit -/

@[simp] theorem State.drawBit_cfg (s : State) : (s.drawBit).2.cfg = s.cfg := rfl
@[simp] theorem State.drawBit_regs (s : State) : (s.drawBit).2.regs = s.regs := rfl
@[simp] theorem State.drawBit_pc (s : State) : (s.drawBit).2.pc = s.pc := rfl
@[simp] theorem State.drawBit_flags (s : State) : (s.drawBit).2.flags = s.flags := rfl
@[simp] theorem State.drawBit_drawn (s : State) : (s.drawBit).2.drawn = s.drawn := rfl
@[simp] theorem State.drawBit_idtr (s : State) : (s.drawBit).2.idtr = s.idtr := rfl
@[simp] theorem State.drawBit_mem (s : State) : (s.drawBit).2.mem = s.mem := rfl
@[simp] theorem State.drawBit_status (s : State) : (s.drawBit).2.status = s.status := rfl
@[simp] theorem State.drawBit_events (s : State) : (s.drawBit).2.events = s.events := rfl
@[simp] theorem State.drawBit_draws (s : State) : (s.drawBit).2.draws = s.draws + 1 := rfl

/-! ### The values drawn -/

@[simp] theorem State.draw_value (s : State) (n : Nat) : (s.draw n).1 = (Config.drawWord s.draws).setWidth n := rfl
@[simp] theorem State.drawBit_value (s : State) : s.drawBit.1 = (Config.drawWord s.draws).getLsbD 0 := rfl

end Sys2Proof.Machine
end

