-- ==== Sys2Proof/Laws/Memory.lean ====
section
/-! SUPPORT. Memory: reading after writing a byte, and the canonical form, which every memory operation
keeps and the memory after reset has. -/

namespace Sys2Proof.Machine

/-! ### Bytes -/

/-- A write leaves every other byte alone, in any list. -/
theorem Memory.byte_setByte_other (m : Memory) {a c : Nat} (b : Byte) (h : c ≠ a) :
    Memory.byte (Memory.setByte m a b) c = Memory.byte m c := by
  induction m with
  | nil =>
    simp only [Memory.setByte]
    split <;> simp [Memory.byte, Ne.symm h]
  | cons cell m ih =>
    obtain ⟨k, d⟩ := cell
    simp only [Memory.setByte]
    split
    · split <;> simp [Memory.byte, Ne.symm h]
    · split
      · next _ hk => subst hk; split <;> simp [Memory.byte, Ne.symm h]
      · simp only [Memory.byte, ih]

/-- An address below every listed one reads as unlisted. -/
theorem Memory.byte_below {m : Memory} {lo a : Nat} (hw : Memory.wfFrom lo m = true) (h : a < lo) :
    Memory.byte m a = Memory.unlisted := by
  induction m generalizing lo with
  | nil => rfl
  | cons cell m ih =>
    obtain ⟨k, d⟩ := cell
    simp only [Memory.wfFrom, Bool.and_eq_true, decide_eq_true_eq] at hw
    have hk : k ≠ a := by omega
    simp only [Memory.byte, hk, if_false]
    exact ih hw.2 (by omega)

theorem Memory.byte_setByte_same_from {m : Memory} {lo a : Nat} (b : Byte) (hw : Memory.wfFrom lo m = true) :
    Memory.byte (Memory.setByte m a b) a = b := by
  induction m generalizing lo with
  | nil =>
    simp only [Memory.setByte]
    split
    · next h => subst h; rfl
    · simp [Memory.byte]
  | cons cell m ih =>
    obtain ⟨k, d⟩ := cell
    have hw0 := hw
    simp only [Memory.wfFrom, Bool.and_eq_true, decide_eq_true_eq] at hw
    simp only [Memory.setByte]
    split
    · next hlt =>
      split
      · next hb =>
        have hk : k ≠ a := by omega
        simp only [Memory.byte, hk, if_false, hb]
        exact Memory.byte_below hw.2 (by omega)
      · simp [Memory.byte]
    · split
      · next _ hk =>
        subst hk
        split
        · next hb => rw [hb]; exact Memory.byte_below hw.2 (by omega)
        · simp [Memory.byte]
      · next _ hk =>
        have hk' : k ≠ a := Ne.symm hk
        simp only [Memory.byte, hk', if_false]
        exact ih hw.2

/-- A canonical memory reads back what was written. -/
theorem Memory.byte_setByte_same {m : Memory} (a : Nat) (b : Byte) (hw : m.wf = true) :
    Memory.byte (Memory.setByte m a b) a = b :=
  Memory.byte_setByte_same_from b hw

/-! ### The canonical form -/

theorem Memory.wfFrom_mono {m : Memory} {lo lo' : Nat} (h : lo' ≤ lo) (hw : Memory.wfFrom lo m = true) :
    Memory.wfFrom lo' m = true := by
  cases m with
  | nil => rfl
  | cons cell m =>
    obtain ⟨k, d⟩ := cell
    simp only [Memory.wfFrom, Bool.and_eq_true, decide_eq_true_eq] at hw ⊢
    exact ⟨⟨⟨by omega, hw.1.1.2⟩, hw.1.2⟩, hw.2⟩

theorem Memory.wfFrom_setByte {m : Memory} {lo a : Nat} (b : Byte) (ha : a < 2 ^ 32) (hlo : lo ≤ a)
    (hw : Memory.wfFrom lo m = true) : Memory.wfFrom lo (Memory.setByte m a b) = true := by
  induction m generalizing lo with
  | nil =>
    simp only [Memory.setByte]
    split
    · rfl
    · next hb =>
      simp only [Memory.wfFrom, Bool.and_eq_true, decide_eq_true_eq, bne_iff_ne]
      exact ⟨⟨⟨hlo, ha⟩, hb⟩, trivial⟩
  | cons cell m ih =>
    obtain ⟨k, d⟩ := cell
    have hw0 := hw
    simp only [Memory.wfFrom, Bool.and_eq_true, decide_eq_true_eq, bne_iff_ne] at hw
    obtain ⟨⟨⟨h1, h2⟩, h3⟩, h4⟩ := hw
    simp only [Memory.setByte]
    split
    · next hlt =>
      split
      · exact hw0
      · next hb =>
        simp only [Memory.wfFrom, Bool.and_eq_true, decide_eq_true_eq, bne_iff_ne]
        exact ⟨⟨⟨hlo, ha⟩, hb⟩, ⟨⟨by omega, h2⟩, h3⟩, h4⟩
    · split
      · next _ hk =>
        subst hk
        split
        · exact Memory.wfFrom_mono (by omega) h4
        · next hb =>
          simp only [Memory.wfFrom, Bool.and_eq_true, decide_eq_true_eq, bne_iff_ne]
          exact ⟨⟨⟨hlo, ha⟩, hb⟩, h4⟩
      · simp only [Memory.wfFrom, Bool.and_eq_true, decide_eq_true_eq, bne_iff_ne]
        exact ⟨⟨⟨h1, h2⟩, h3⟩, ih (by omega) h4⟩

/-- Storing a byte keeps the canonical form. -/
theorem Memory.wf_setByte {m : Memory} (a : Word) (b : Byte) (hw : m.wf = true) :
    (Memory.setByte m a.toNat b).wf = true :=
  Memory.wfFrom_setByte b a.isLt (Nat.zero_le _) hw

/-- Storing bytes keeps the canonical form. -/
theorem Memory.wf_setBytes {m : Memory} (a : Word) (bs : List Byte) (hw : m.wf = true) :
    (Memory.setBytes m a bs).wf = true := by
  induction bs generalizing m a with
  | nil => exact hw
  | cons b bs ih => exact ih _ (Memory.wf_setByte a b hw)

/-- Storing an access of any width keeps the canonical form. -/
theorem wf_writeRam {m : Memory} (w : Width) (a : Word) (v : BitVec w.bits) (hw : m.wf = true) :
    (writeRam m w a v).wf = true := by
  cases w with
  | w1 => exact Memory.wf_setByte _ _ hw
  | w2 => exact Memory.wf_setByte _ _ (Memory.wf_setByte _ _ hw)
  | w4 =>
    exact Memory.wf_setByte _ _ (Memory.wf_setByte _ _ (Memory.wf_setByte _ _ (Memory.wf_setByte _ _ hw)))

/-- The memory after reset is canonical. -/
theorem reset_mem_wf : State.reset.mem.wf = true := rfl

/-- Placing an instruction at `pc` keeps the canonical form. -/
theorem wf_withFetchWord {s : State} (nbits w : Nat) (hw : s.mem.wf = true) :
    (s.withFetchWord nbits w).mem.wf = true :=
  Memory.wf_setBytes _ _ hw

/-! ### Accesses -/

/-- A store changes no byte outside the bytes it touches. -/
theorem byte_writeRam_other (m : Memory) (w : Width) (a : Word) (v : BitVec w.bits) {c : Word}
    (h : c ∉ touched w a) : (writeRam m w a v).byte c.toNat = m.byte c.toNat := by
  have ne : ∀ {x : Word}, c ≠ x → c.toNat ≠ x.toNat := fun hx he => hx (BitVec.eq_of_toNat_eq he)
  cases w with
  | w1 =>
    simp only [touched, List.mem_singleton] at h
    exact Memory.byte_setByte_other _ _ (ne h)
  | w2 =>
    simp only [touched, List.mem_cons, List.not_mem_nil, or_false, not_or] at h
    simp only [writeRam]
    rw [Memory.byte_setByte_other _ _ (ne h.2), Memory.byte_setByte_other _ _ (ne h.1)]
  | w4 =>
    simp only [touched, List.mem_cons, List.not_mem_nil, or_false, not_or] at h
    simp only [writeRam]
    rw [Memory.byte_setByte_other _ _ (ne h.2.2.2), Memory.byte_setByte_other _ _ (ne h.2.2.1),
      Memory.byte_setByte_other _ _ (ne h.2.1), Memory.byte_setByte_other _ _ (ne h.1)]

/-- The four bytes of an access are four different ones. -/
theorem offset_ne (a : Word) {j k : Nat} (hj : j < 4) (hk : k < 4) (h : j ≠ k) :
    (a + BitVec.ofNat 32 j).toNat ≠ (a + BitVec.ofNat 32 k).toNat := by
  intro he
  simp only [BitVec.toNat_add, BitVec.toNat_ofNat] at he
  omega

/-- Reading what was just written gives it back, at every width and address. -/
theorem readRam_writeRam_same {m : Memory} (w : Width) (a : Word) (v : BitVec w.bits) (hw : m.wf = true) :
    readRam (writeRam m w a v) w a = v := by
  have e0 : a = a + BitVec.ofNat 32 0 := by simp
  have ne : ∀ {j k : Nat}, j < 4 → k < 4 → j ≠ k → (a + BitVec.ofNat 32 j).toNat ≠ (a + BitVec.ofNat 32 k).toNat :=
    fun hj hk h => offset_ne a hj hk h
  have n01 : a.toNat ≠ (a + 1).toNat := by
    have h := ne (j := 0) (k := 1) (by decide) (by decide) (by decide); rwa [← e0] at h
  have n02 : a.toNat ≠ (a + 2).toNat := by
    have h := ne (j := 0) (k := 2) (by decide) (by decide) (by decide); rwa [← e0] at h
  have n03 : a.toNat ≠ (a + 3).toNat := by
    have h := ne (j := 0) (k := 3) (by decide) (by decide) (by decide); rwa [← e0] at h
  have n12 : (a + 1).toNat ≠ (a + 2).toNat := ne (j := 1) (k := 2) (by decide) (by decide) (by decide)
  have n13 : (a + 1).toNat ≠ (a + 3).toNat := ne (j := 1) (k := 3) (by decide) (by decide) (by decide)
  have n23 : (a + 2).toNat ≠ (a + 3).toNat := ne (j := 2) (k := 3) (by decide) (by decide) (by decide)
  cases w with
  | w1 => exact Memory.byte_setByte_same _ _ hw
  | w2 =>
    have w1 := Memory.wf_setByte a (v.extractLsb' 0 8) hw
    simp only [readRam, writeRam]
    rw [Memory.byte_setByte_same _ _ w1, Memory.byte_setByte_other _ _ n01, Memory.byte_setByte_same _ _ hw]
    exact half_join v
  | w4 =>
    have w1 := Memory.wf_setByte a (v.extractLsb' 0 8) hw
    have w2 := Memory.wf_setByte (a + 1) (v.extractLsb' 8 8) w1
    have w3 := Memory.wf_setByte (a + 2) (v.extractLsb' 16 8) w2
    simp only [readRam, writeRam]
    rw [Memory.byte_setByte_same _ _ w3, Memory.byte_setByte_other _ _ n23, Memory.byte_setByte_same _ _ w2,
      Memory.byte_setByte_other _ _ n13, Memory.byte_setByte_other _ _ n12, Memory.byte_setByte_same _ _ w1,
      Memory.byte_setByte_other _ _ n03, Memory.byte_setByte_other _ _ n02, Memory.byte_setByte_other _ _ n01,
      Memory.byte_setByte_same _ _ hw]
    exact word_join v

/-- Two memories that agree on the touched bytes give the same value. -/
theorem readRam_congr {m m' : Memory} {w : Width} {a : Word}
    (h : ∀ c ∈ touched w a, m.byte c.toNat = m'.byte c.toNat) : readRam m w a = readRam m' w a := by
  cases w with
  | w1 => exact h a (by simp [touched])
  | w2 => simp only [readRam]; rw [h a (by simp [touched]), h (a + 1) (by simp [touched])]
  | w4 =>
    simp only [readRam]
    rw [h a (by simp [touched]), h (a + 1) (by simp [touched]), h (a + 2) (by simp [touched]),
      h (a + 3) (by simp [touched])]

end Sys2Proof.Machine
end

