-- ==== Sys2Proof/Laws/Regs.lean ====
section
/-! SUPPORT. Reading and writing registers: x[i] and its aliases (10_state.md R32, R33). -/

namespace Sys2Proof.Machine

@[simp] theorem Regs.get_set_same (x : Regs) (i : Reg) (v : Word) : (x.set i v).get i = v := by
  cases i <;> rfl

theorem Regs.get_set_other (x : Regs) {i j : Reg} (v : Word) (h : j ≠ i) : (x.set i v).get j = x.get j := by
  cases i <;> cases j <;> first | rfl | exact absurd rfl h

/-- Everything a write at any width does outside its own register: nothing. -/
theorem Regs.get_write_other (x : Regs) (w : Width) {i j : Reg} (v : BitVec w.bits) (h : j ≠ homeOf w i) :
    (x.write w i v).get j = x.get j := by
  cases w with
  | w1 =>
    simp only [Regs.write]
    split <;> exact Regs.get_set_other _ _ h
  | w2 => exact Regs.get_set_other _ _ h
  | w4 => exact Regs.get_set_other _ _ h

/-- A write is read back at its own width. -/
@[simp] theorem Regs.read_write_same (x : Regs) (w : Width) (i : Reg) (v : BitVec w.bits) :
    (x.write w i v).read w i = v := by
  cases w with
  | w1 =>
    simp only [Regs.read, Regs.write]
    split
    · rw [Regs.get_set_same]; exact extract_mid _ _ _
    · rw [Regs.get_set_same]; exact extract_low _ _
  | w2 => simp only [Regs.read, Regs.write, Regs.get_set_same]; exact extract_low _ _
  | w4 => simp only [Regs.read, Regs.write, Regs.get_set_same]

/-- A write at any width changes no bit outside its own alias (10_state.md R33). -/
theorem Regs.bit_write_other (x : Regs) (w : Width) (i : Reg) (v : BitVec w.bits) (r : Reg) (k : Nat)
    (h : aliasBit w i r k = false) : ((x.write w i v).get r).getLsbD k = (x.get r).getLsbD k := by
  by_cases hr : r = homeOf w i
  · subst hr
    by_cases hk : k < 32
    · cases w with
      | w4 => simp [homeOf, aliasBit, lowBit, hk] at h
      | w2 =>
        simp [aliasBit, lowBit, Width.bits] at h
        simp only [Regs.write, homeOf, Regs.get_set_same, BitVec.getLsbD_append, BitVec.getLsbD_extractLsb']
        have e1 : ¬ k < 16 := by omega
        have e2 : k - 16 < 16 := by omega
        have e3 : 16 + (k - 16) = k := by omega
        simp [e1, e2, e3]
      | w1 =>
        simp only [Regs.write, homeOf, aliasBit, lowBit] at *
        by_cases hh : isHighByte i = true
        · simp [hh, Width.bits] at h
          simp only [hh, if_true, Regs.get_set_same, BitVec.getLsbD_append, BitVec.getLsbD_extractLsb']
          by_cases e0 : k < 8
          · simp [e0]
          · have e1 : ¬ k - 8 < 8 := by omega
            have e2 : k - 8 - 8 < 16 := by omega
            have e3 : 16 + (k - 8 - 8) = k := by omega
            simp [e0, e1, e2, e3]
        · simp [hh, Width.bits] at h
          simp only [hh, if_false, Regs.get_set_same, BitVec.getLsbD_append, BitVec.getLsbD_extractLsb',
            Bool.false_eq_true]
          have e1 : ¬ k < 8 := by omega
          have e2 : k - 8 < 24 := by omega
          have e3 : 8 + (k - 8) = k := by omega
          simp [e1, e2, e3]
    · rw [BitVec.getLsbD_of_ge _ _ (by omega), BitVec.getLsbD_of_ge _ _ (by omega)]
  · rw [Regs.get_write_other x w v hr]

end Sys2Proof.Machine
end

