-- ==== Sys2Proof/Laws/Access.lean ====
section
/-! SUPPORT. What each shared operation does, said once: memory accesses, operands, the stack, and the end of an
instruction. Every lemma says all that the operation answers, so that no later proof unfolds it. -/

namespace Sys2Proof.Machine

/-! ### The effect of an access, field by field -/

section Fields

variable (w : Width) (a : Word) (v : BitVec w.bits) (s : State)

@[simp] theorem loadDone_cfg : (loadDone w a s).cfg = s.cfg := by unfold loadDone; split <;> rfl
@[simp] theorem loadDone_regs : (loadDone w a s).regs = s.regs := by unfold loadDone; split <;> rfl
@[simp] theorem loadDone_pc : (loadDone w a s).pc = s.pc := by unfold loadDone; split <;> rfl
@[simp] theorem loadDone_flags : (loadDone w a s).flags = s.flags := by unfold loadDone; split <;> rfl
@[simp] theorem loadDone_drawn : (loadDone w a s).drawn = s.drawn := by unfold loadDone; split <;> rfl
@[simp] theorem loadDone_idtr : (loadDone w a s).idtr = s.idtr := by unfold loadDone; split <;> rfl
@[simp] theorem loadDone_mem : (loadDone w a s).mem = s.mem := by unfold loadDone; split <;> rfl
@[simp] theorem loadDone_status : (loadDone w a s).status = s.status := by unfold loadDone; split <;> rfl

@[simp] theorem storeDone_cfg : (storeDone w a v s).cfg = s.cfg := by unfold storeDone; split <;> rfl
@[simp] theorem storeDone_regs : (storeDone w a v s).regs = s.regs := by unfold storeDone; split <;> rfl
@[simp] theorem storeDone_pc : (storeDone w a v s).pc = s.pc := by unfold storeDone; split <;> rfl
@[simp] theorem storeDone_flags : (storeDone w a v s).flags = s.flags := by unfold storeDone; split <;> rfl
@[simp] theorem storeDone_drawn : (storeDone w a v s).drawn = s.drawn := by unfold storeDone; split <;> rfl
@[simp] theorem storeDone_idtr : (storeDone w a v s).idtr = s.idtr := by unfold storeDone; split <;> rfl
@[simp] theorem storeDone_status : (storeDone w a v s).status = s.status := by unfold storeDone; split <;> rfl
@[simp] theorem storeDone_draws : (storeDone w a v s).draws = s.draws := by unfold storeDone; split <;> rfl

/-- A load appends one event when it goes to MMIO, and none otherwise. -/
theorem loadDone_events : ∃ new, (loadDone w a s).events = s.events ++ new ∧
    new.length = (if admission s.cfg w a = some .mmio then 1 else 0) ∧ ∀ e ∈ new, e.fits = true := by
  unfold loadDone
  split
  · next h =>
    refine ⟨[_], rfl, by simp, ?_⟩
    intro e he
    obtain rfl := List.mem_singleton.1 he
    cases w <;> simp only [Event.fits, decide_eq_true_eq, BitVec.toNat_setWidth] <;>
      exact Nat.lt_of_le_of_lt (Nat.mod_le _ _) (BitVec.isLt _)
  · next h => exact ⟨[], by simp, by simp, by simp⟩

/-- A store appends one event when it goes to MMIO, and none otherwise. -/
theorem storeDone_events : ∃ new, (storeDone w a v s).events = s.events ++ new ∧
    new.length = (if admission s.cfg w a = some .mmio then 1 else 0) ∧ ∀ e ∈ new, e.fits = true := by
  unfold storeDone
  split
  · next h =>
    refine ⟨[_], rfl, by simp, ?_⟩
    intro e he
    obtain rfl := List.mem_singleton.1 he
    cases w <;> simp only [Event.fits, decide_eq_true_eq, BitVec.toNat_setWidth] <;>
      exact Nat.lt_of_le_of_lt (Nat.mod_le _ _) v.isLt
  · next h => exact ⟨[], by simp, by simp, by simp⟩

/-- A store keeps memory canonical. -/
theorem storeDone_wf (h : s.mem.wf = true) : (storeDone w a v s).mem.wf = true := by
  unfold storeDone
  split
  · exact h
  · exact wf_writeRam w a v h

/-- A store changes no byte outside those it touches. -/
theorem storeDone_byte_other {c : Word} (h : c ∉ touched w a) :
    (storeDone w a v s).mem.byte c.toNat = s.mem.byte c.toNat := by
  unfold storeDone
  split
  · rfl
  · exact byte_writeRam_other s.mem w a v h

end Fields

section OperandFields

variable {w : Width} (op : Operand w) (v : BitVec w.bits) (s : State)

@[simp] theorem Operand.readDone_cfg : (op.readDone s).cfg = s.cfg := by cases op <;> simp [Operand.readDone]
@[simp] theorem Operand.readDone_regs : (op.readDone s).regs = s.regs := by cases op <;> simp [Operand.readDone]
@[simp] theorem Operand.readDone_pc : (op.readDone s).pc = s.pc := by cases op <;> simp [Operand.readDone]
@[simp] theorem Operand.readDone_flags : (op.readDone s).flags = s.flags := by cases op <;> simp [Operand.readDone]
@[simp] theorem Operand.readDone_drawn : (op.readDone s).drawn = s.drawn := by cases op <;> simp [Operand.readDone]
@[simp] theorem Operand.readDone_idtr : (op.readDone s).idtr = s.idtr := by cases op <;> simp [Operand.readDone]
@[simp] theorem Operand.readDone_mem : (op.readDone s).mem = s.mem := by cases op <;> simp [Operand.readDone]
@[simp] theorem Operand.readDone_status : (op.readDone s).status = s.status := by
  cases op <;> simp [Operand.readDone]

@[simp] theorem Operand.put_cfg : (op.put v s).cfg = s.cfg := by cases op <;> simp [Operand.put]
@[simp] theorem Operand.put_pc : (op.put v s).pc = s.pc := by cases op <;> simp [Operand.put]
@[simp] theorem Operand.put_flags : (op.put v s).flags = s.flags := by cases op <;> simp [Operand.put]
@[simp] theorem Operand.put_drawn : (op.put v s).drawn = s.drawn := by cases op <;> simp [Operand.put]
@[simp] theorem Operand.put_idtr : (op.put v s).idtr = s.idtr := by cases op <;> simp [Operand.put]
@[simp] theorem Operand.put_status : (op.put v s).status = s.status := by cases op <;> simp [Operand.put]
@[simp] theorem Operand.put_draws : (op.put v s).draws = s.draws := by cases op <;> simp [Operand.put]

/-- Whether an access is admitted depends on the parameters alone. -/
theorem Operand.admitted_congr {s t : State} (h : t.cfg = s.cfg) : op.admitted t ↔ op.admitted s := by
  cases op <;> simp [Operand.admitted, h]

@[simp] theorem Operand.admitted_readDone {w' : Width} (op' : Operand w') :
    op.admitted (op'.readDone s) ↔ op.admitted s := op.admitted_congr (Operand.readDone_cfg op' s)

@[simp] theorem Operand.admitted_reg (i : Reg) : (Operand.reg (w := w) i).admitted s := trivial
@[simp] theorem Operand.admitted_imm : (Operand.imm v).admitted s := trivial

/-- Reading memory first changes no register or immediate operand. -/
@[simp] theorem Operand.value_reg (i : Reg) : (Operand.reg (w := w) i).value s = s.regs.read w i := rfl
@[simp] theorem Operand.value_imm : (Operand.imm v).value s = v := rfl
@[simp] theorem Operand.readDone_reg (i : Reg) : (Operand.reg (w := w) i).readDone s = s := rfl
@[simp] theorem Operand.readDone_imm : (Operand.imm v).readDone s = s := rfl
@[simp] theorem Operand.put_reg (i : Reg) : (Operand.reg (w := w) i).put v s = s.setReg w i v := rfl

end OperandFields

/-! ### The shared operations -/

theorem memRead_ok {w : Width} {a : Word} {s : State} (h : admission s.cfg w a ≠ none) :
    memRead w a s = .ok (loadValue w a s, loadDone w a s) := by
  unfold memRead loadDone loadValue
  cases hs : admission s.cfg w a with
  | none => exact absurd hs h
  | some sp => cases sp <;> simp [State.draw, State.log]

theorem memRead_refused {w : Width} {a : Word} {s : State} (h : admission s.cfg w a = none) :
    memRead w a s = .error (.memOutOfBounds a w .read) := by simp only [memRead, h]

theorem memWrite_ok {w : Width} {a : Word} {v : BitVec w.bits} {s : State} (h : admission s.cfg w a ≠ none) :
    memWrite w a v s = .ok (storeDone w a v s) := by
  unfold memWrite storeDone
  cases hs : admission s.cfg w a with
  | none => exact absurd hs h
  | some sp => cases sp <;> simp [State.log]

theorem memWrite_refused {w : Width} {a : Word} {v : BitVec w.bits} {s : State} (h : admission s.cfg w a = none) :
    memWrite w a v s = .error (.memOutOfBounds a w .write) := by simp only [memWrite, h]

theorem Operand.read_ok {w : Width} {op : Operand w} {s : State} (h : op.admitted s) :
    op.read s = .ok (op.value s, op.readDone s) := by
  cases op with
  | reg i => rfl
  | mem a => exact memRead_ok h
  | imm v => rfl

/-- A destination: a register or memory, never an immediate. -/
def Operand.isPlace {w : Width} : Operand w → Bool
  | .imm _ => false
  | .reg _ | .mem _ => true

theorem Operand.write_ok {w : Width} {op : Operand w} {v : BitVec w.bits} {s : State} (hp : op.isPlace = true)
    (h : op.admitted s) : op.write v s = .ok (op.put v s) := by
  cases op with
  | reg i => rfl
  | mem a => exact memWrite_ok h
  | imm v => cases hp

@[simp] theorem rmOperand_isPlace (w : Width) (rm : RM) (s : State) : (rmOperand w rm s).isPlace = true := by
  cases rm <;> rfl

@[simp] theorem isPlace_reg {w : Width} (i : Reg) : (Operand.reg (w := w) i).isPlace = true := rfl
@[simp] theorem isPlace_mem {w : Width} (a : Word) : (Operand.mem (w := w) a).isPlace = true := rfl

/-- All that a push can do. -/
theorem push32_ok {v : Word} {s : State} (h : admission s.cfg .w4 (s.regs.esp - 4) ≠ none) :
    push32 v s = .ok { storeDone .w4 (s.regs.esp - 4) v s with regs := { s.regs with esp := s.regs.esp - 4 } } := by
  have e : s.regs.get .esp = s.regs.esp := rfl
  simp only [push32, e, memWrite_ok h]
  show Except.ok _ = Except.ok _
  simp only [State.setReg, storeDone_regs]
  rfl

theorem push32_refused {v : Word} {s : State} (h : admission s.cfg .w4 (s.regs.esp - 4) = none) :
    push32 v s = .error (.memOutOfBounds (s.regs.esp - 4) .w4 .write) := by
  have e : s.regs.get .esp = s.regs.esp := rfl
  simp only [push32, e, memWrite_refused h]
  rfl

/-- All that a pop can do. -/
theorem pop32_ok {s : State} (h : admission s.cfg .w4 s.regs.esp ≠ none) :
    pop32 s = .ok (loadValue .w4 s.regs.esp s,
      { loadDone .w4 s.regs.esp s with regs := { s.regs with esp := s.regs.esp + 4 } }) := by
  have e : s.regs.get .esp = s.regs.esp := rfl
  simp only [pop32, e, memRead_ok h]
  show Except.ok _ = Except.ok _
  simp only [State.setReg, loadDone_regs]
  rfl

theorem pop32_refused {s : State} (h : admission s.cfg .w4 s.regs.esp = none) :
    pop32 s = .error (.memOutOfBounds s.regs.esp .w4 .read) := by
  have e : s.regs.get .esp = s.regs.esp := rfl
  simp only [pop32, e, memRead_refused h]
  rfl

/-! ### The end of an instruction -/

@[simp] theorem retire_ok (i : Instr) (s t : State) : retire i s (.ok t) = .next (t.setPc (nextPc i s)) := rfl
@[simp] theorem retire_error (i : Instr) (s : State) (r : Reason) : retire i s (.error r) = .next (s.halt r) := rfl
@[simp] theorem transfer_ok (s t : State) : transfer s (.ok t) = .next t := rfl
@[simp] theorem transfer_error (s : State) (r : Reason) : transfer s (.error r) = .next (s.halt r) := rfl
@[simp] theorem raise_eq (r : Reason) (s : State) : raise r s = .next (s.halt r) := rfl

/-- An instruction answers a next state, whatever its handler answers. -/
theorem retire_next (i : Instr) (s : State) (x : Except Reason State) : ∃ t, retire i s x = .next t := by
  cases x <;> exact ⟨_, rfl⟩

theorem transfer_next (s : State) (x : Except Reason State) : ∃ t, transfer s x = .next t := by
  cases x <;> exact ⟨_, rfl⟩

end Sys2Proof.Machine
end

