-- ==== Sys2Proof/Laws/Handlers.lean ====
section
/-! SUPPORT. What each handler answers when its accesses are admitted: one lemma per handler, which later proofs
cite and no proof unfolds again. -/

namespace Sys2Proof.Machine

/-! ### Two operands -/

section TwoOperands

variable {w : Width} {dst src : Operand w} {s : State}

/-- The destination is still writable after the reads. -/
theorem admitted_after_reads (hd : dst.admitted s) : dst.admitted (src.readDone (dst.readDone s)) :=
  (dst.admitted_readDone _ src).2 ((dst.admitted_readDone _ dst).2 hd)

theorem handleAdd_ok (hp : dst.isPlace = true) (hd : dst.admitted s) (hs : src.admitted s) :
    handleAdd dst src s = .ok (
      let d := dst.value s
      let x := src.value (dst.readDone s)
      (dst.put (d + x) (src.readDone (dst.readDone s))).setFlags
        (resultFlags (d + x) (carryAdd d x false) (overflowAdd (d + x) d x))) := by
  simp only [handleAdd, Operand.read_ok hd, ok_bind,
    Operand.read_ok ((src.admitted_readDone s dst).2 hs), Operand.write_ok hp (admitted_after_reads hd)]
  rfl

theorem handleAdc_ok (hp : dst.isPlace = true) (hd : dst.admitted s) (hs : src.admitted s) :
    handleAdc dst src s = .ok (
      let d := dst.value s
      let x := src.value (dst.readDone s)
      (dst.put (d + x + carryValue w.bits s.flags.cf) (src.readDone (dst.readDone s))).setFlags
        (resultFlags (d + x + carryValue w.bits s.flags.cf) (carryAdd d x s.flags.cf)
          (overflowAdd (d + x + carryValue w.bits s.flags.cf) d x))) := by
  simp only [handleAdc, Operand.read_ok hd, ok_bind,
    Operand.read_ok ((src.admitted_readDone s dst).2 hs), Operand.write_ok hp (admitted_after_reads hd), Operand.readDone_flags]
  rfl

theorem handleSub_ok (hp : dst.isPlace = true) (hd : dst.admitted s) (hs : src.admitted s) :
    handleSub dst src s = .ok (
      let d := dst.value s
      let x := src.value (dst.readDone s)
      (dst.put (d - x) (src.readDone (dst.readDone s))).setFlags
        (resultFlags (d - x) (borrowSub d x false) (overflowSub (d - x) d x))) := by
  simp only [handleSub, Operand.read_ok hd, ok_bind,
    Operand.read_ok ((src.admitted_readDone s dst).2 hs), Operand.write_ok hp (admitted_after_reads hd)]
  rfl

theorem handleSbb_ok (hp : dst.isPlace = true) (hd : dst.admitted s) (hs : src.admitted s) :
    handleSbb dst src s = .ok (
      let d := dst.value s
      let x := src.value (dst.readDone s)
      (dst.put (d - x - carryValue w.bits s.flags.cf) (src.readDone (dst.readDone s))).setFlags
        (resultFlags (d - x - carryValue w.bits s.flags.cf) (borrowSub d x s.flags.cf)
          (overflowSub (d - x - carryValue w.bits s.flags.cf) d x))) := by
  simp only [handleSbb, Operand.read_ok hd, ok_bind,
    Operand.read_ok ((src.admitted_readDone s dst).2 hs), Operand.write_ok hp (admitted_after_reads hd), Operand.readDone_flags]
  rfl

theorem handleCmp_ok (hd : dst.admitted s) (hs : src.admitted s) :
    handleCmp dst src s = .ok (
      let d := dst.value s
      let x := src.value (dst.readDone s)
      (src.readDone (dst.readDone s)).setFlags
        (resultFlags (d - x) (borrowSub d x false) (overflowSub (d - x) d x))) := by
  simp only [handleCmp, Operand.read_ok hd, ok_bind, Operand.read_ok ((src.admitted_readDone s dst).2 hs)]
  rfl

theorem handleAnd_ok (hp : dst.isPlace = true) (hd : dst.admitted s) (hs : src.admitted s) :
    handleAnd dst src s = .ok (
      let d := dst.value s
      let x := src.value (dst.readDone s)
      (dst.put (d &&& x) (src.readDone (dst.readDone s))).setFlags
        (logicFlags (d &&& x))) := by
  simp only [handleAnd, Operand.read_ok hd, ok_bind,
    Operand.read_ok ((src.admitted_readDone s dst).2 hs), Operand.write_ok hp (admitted_after_reads hd)]
  rfl

theorem handleOr_ok (hp : dst.isPlace = true) (hd : dst.admitted s) (hs : src.admitted s) :
    handleOr dst src s = .ok (
      let d := dst.value s
      let x := src.value (dst.readDone s)
      (dst.put (d ||| x) (src.readDone (dst.readDone s))).setFlags
        (logicFlags (d ||| x))) := by
  simp only [handleOr, Operand.read_ok hd, ok_bind,
    Operand.read_ok ((src.admitted_readDone s dst).2 hs), Operand.write_ok hp (admitted_after_reads hd)]
  rfl

theorem handleXor_ok (hp : dst.isPlace = true) (hd : dst.admitted s) (hs : src.admitted s) :
    handleXor dst src s = .ok (
      let d := dst.value s
      let x := src.value (dst.readDone s)
      (dst.put (d ^^^ x) (src.readDone (dst.readDone s))).setFlags
        (logicFlags (d ^^^ x))) := by
  simp only [handleXor, Operand.read_ok hd, ok_bind,
    Operand.read_ok ((src.admitted_readDone s dst).2 hs), Operand.write_ok hp (admitted_after_reads hd)]
  rfl

theorem handleTest_ok (hd : dst.admitted s) (hs : src.admitted s) :
    handleTest dst src s = .ok (
      let d := dst.value s
      let x := src.value (dst.readDone s)
      (src.readDone (dst.readDone s)).setFlags
        (logicFlags (d &&& x))) := by
  simp only [handleTest, Operand.read_ok hd, ok_bind, Operand.read_ok ((src.admitted_readDone s dst).2 hs)]
  rfl

end TwoOperands

/-! ### One operand -/

section OneOperand

variable {w : Width} {dst src : Operand w} {s : State}

theorem admitted_after_read (hd : dst.admitted s) : dst.admitted (dst.readDone s) :=
  (dst.admitted_readDone _ dst).2 hd

theorem handleInc_ok (hp : dst.isPlace = true) (hd : dst.admitted s) :
    handleInc dst s = .ok (
      let d := dst.value s
      (dst.put (d + 1) (dst.readDone s)).setFlagsDrawn
        (resultFlags (d + 1) (incDecCf s.cfg.incDecCf (d + 1 == 0) s.flags.cf) (overflowAdd (d + 1) d 1))
        (incDecDrawn s.cfg.incDecCf s.drawn.cf)) := by
  simp only [handleInc, Operand.read_ok hd, ok_bind, Operand.write_ok hp (admitted_after_read hd), Operand.put_cfg,
    Operand.put_flags, Operand.put_drawn, Operand.readDone_cfg, Operand.readDone_flags, Operand.readDone_drawn]
  rfl

theorem handleDec_ok (hp : dst.isPlace = true) (hd : dst.admitted s) :
    handleDec dst s = .ok (
      let d := dst.value s
      (dst.put (d - 1) (dst.readDone s)).setFlagsDrawn
        (resultFlags (d - 1) (incDecCf s.cfg.incDecCf (d == 0) s.flags.cf) (overflowSub (d - 1) d 1))
        (incDecDrawn s.cfg.incDecCf s.drawn.cf)) := by
  simp only [handleDec, Operand.read_ok hd, ok_bind, Operand.write_ok hp (admitted_after_read hd), Operand.put_cfg,
    Operand.put_flags, Operand.put_drawn, Operand.readDone_cfg, Operand.readDone_flags, Operand.readDone_drawn]
  rfl

theorem handleNeg_ok (hp : dst.isPlace = true) (hd : dst.admitted s) :
    handleNeg dst s = .ok (
      let d := dst.value s
      (dst.put (0 - d) (dst.readDone s)).setFlags
        (resultFlags (0 - d) (d != 0) (overflowSub (0 - d) 0 d))) := by
  simp only [handleNeg, Operand.read_ok hd, ok_bind, Operand.write_ok hp (admitted_after_read hd)]
  rfl

theorem handleNot_ok (hp : dst.isPlace = true) (hd : dst.admitted s) :
    handleNot dst s = .ok (dst.put (~~~(dst.value s)) (dst.readDone s)) := by
  simp only [handleNot, Operand.read_ok hd, ok_bind, Operand.write_ok hp (admitted_after_read hd)]

/-- `mov`: the source is read, then the destination is written. -/
theorem handleMov_ok (hp : dst.isPlace = true) (hd : dst.admitted s) (hs : src.admitted s) :
    handleMov dst src s = .ok (dst.put (src.value s) (src.readDone s)) := by
  simp only [handleMov, Operand.read_ok hs, ok_bind, Operand.write_ok hp ((dst.admitted_readDone s src).2 hd)]

theorem handleMovsx_ok {v : Width} {dst : Operand v} (hp : dst.isPlace = true) (hd : dst.admitted s)
    (hs : src.admitted s) :
    handleMovsx dst src s = .ok (dst.put ((src.value s).signExtend v.bits) (src.readDone s)) := by
  simp only [handleMovsx, Operand.read_ok hs, ok_bind, Operand.write_ok hp ((dst.admitted_readDone s src).2 hd)]

theorem handleMovzx_ok {v : Width} {dst : Operand v} (hp : dst.isPlace = true) (hd : dst.admitted s)
    (hs : src.admitted s) :
    handleMovzx dst src s = .ok (dst.put ((src.value s).zeroExtend v.bits) (src.readDone s)) := by
  simp only [handleMovzx, Operand.read_ok hs, ok_bind, Operand.write_ok hp ((dst.admitted_readDone s src).2 hd)]

end OneOperand

/-! ### Conditions -/

/-- A condition that reads no drawn flag is the table's. -/
theorem evalCond_given {cc : Cond} {s : State} (h : condDrawn cc s.drawn = false) :
    evalCond cc s = (condHolds cc s.flags, s) := by simp [evalCond, h]

/-- A condition that reads a drawn flag is a draw. -/
theorem evalCond_drawn {cc : Cond} {s : State} (h : condDrawn cc s.drawn = true) : evalCond cc s = s.drawBit := by
  simp [evalCond, h]

/-- Either way it changes nothing but the count of draws. -/
theorem evalCond_eq (cc : Cond) (s : State) : ∃ (b : Bool) (k : Nat), evalCond cc s = (b, { s with draws := k }) := by
  unfold evalCond
  split
  exacts [⟨_, _, rfl⟩, ⟨_, _, rfl⟩]

@[simp] theorem evalCond_cfg (cc : Cond) (s : State) : (evalCond cc s).2.cfg = s.cfg := by
  obtain ⟨b, k, h⟩ := evalCond_eq cc s
  rw [h]

theorem handleSetcc_ok {cc : Cond} {dst : Operand .w1} {s : State} (hp : dst.isPlace = true) (hd : dst.admitted s) :
    handleSetcc cc dst s = .ok (dst.put (if (evalCond cc s).1 then 1 else 0) (evalCond cc s).2) :=
  Operand.write_ok hp ((dst.admitted_congr (evalCond_cfg cc s)).2 hd)

/-! ### Flags with draws: some flags, and some number of draws -/

theorem flagOrDraw_eq (given : Option Bool) (s : State) :
    ∃ (b : Bool) (k : Nat), flagOrDraw given s = (b, { s with draws := k }) ∧ ∀ c, given = some c → b = c := by
  cases given with
  | none => exact ⟨_, _, rfl, by simp⟩
  | some c => exact ⟨c, s.draws, rfl, by simp⟩

theorem shiftFlags_eq {n : Nat} (r : BitVec n) (cf : Option Bool) (of : Bool → Option Bool) (s : State) :
    ∃ (c o : Bool) (k : Nat), shiftFlags r cf of s = { s with
        flags := resultFlags r c o, drawn := ⟨cf.isNone, false, false, (of c).isNone⟩, draws := k } ∧
      (∀ b, cf = some b → c = b) ∧ (∀ b, of c = some b → o = b) := by
  obtain ⟨c, k, h1, h2⟩ := flagOrDraw_eq cf s
  obtain ⟨o, k', h3, h4⟩ := flagOrDraw_eq (of c) { s with draws := k }
  exact ⟨c, o, k', by simp only [shiftFlags, h1, h3]; rfl, h2, h4⟩

theorem drawnFlags_eq (s : State) : ∃ (f : Flags) (k : Nat),
    drawnFlags s = { s with flags := f, drawn := ⟨true, true, true, true⟩, draws := k } :=
  ⟨_, _, rfl⟩

/-- `m` is `MUL_FLAG_MODE`. -/
theorem mulFlags_eq (b : Bool) (s : State) {m : MulFlagMode} (hm : s.cfg.mulFlags = m) :
    ∃ (f : Flags) (k : Nat), mulFlags b s = { s with flags := f, drawn := mulDrawn m, draws := k } ∧
      (m = .ia32 → f.cf = b ∧ f.of = f.cf) := by
  subst hm
  unfold mulFlags
  cases h : s.cfg.mulFlags with
  | ia32 => exact ⟨_, _, rfl, fun _ => ⟨rfl, rfl⟩⟩
  | draw => exact ⟨_, _, rfl, by simp⟩

/-- `m` is `IMUL_TRUNC_FLAG_MODE`, `fl` and `d` the flags before. -/
theorem imulTruncFlags_eq (b : Bool) (s : State) {m : ImulTruncFlagMode} {fl d : Flags} (hm : s.cfg.imulTrunc = m)
    (hf : s.flags = fl) (hd : s.drawn = d) :
    ∃ (f : Flags) (k : Nat), imulTruncFlags b s = { s with flags := f, drawn := imulTruncDrawn m d, draws := k } ∧
      (m = .unchanged → f = fl) ∧ (m = .ia32 → f.cf = b ∧ f.of = f.cf) := by
  subst hm hf hd
  unfold imulTruncFlags
  cases h : s.cfg.imulTrunc with
  | unchanged => exact ⟨_, _, rfl, fun _ => rfl, by simp⟩
  | ia32 => exact ⟨_, _, rfl, by simp, fun _ => ⟨rfl, rfl⟩⟩

/-! ### Shifts -/

section Shifts

/-- A flag is a draw where no value is given. -/
theorem given_isNone (p : Prop) [Decidable p] (b : Bool) : (if p then some b else none).isNone = decide ¬ p := by
  by_cases h : p <;> simp [h]

theorem not_le_pred_bits (w : Width) (c : Nat) : decide (¬ c ≤ w.bits - 1) = decide (w.bits ≤ c) := by
  cases w <;> simp only [Width.bits] <;> congr 1 <;> simp only [eq_iff_iff] <;> omega

variable {w : Width} {dst : Operand w} {count : Operand .w1} {s : State}

/-- A masked count of 0 only reads. -/
theorem handleShl_zero (hd : dst.admitted s) (hc : count.admitted s)
    (h0 : maskedCount (count.value (dst.readDone s)) = 0) :
    handleShl dst count s = .ok (count.readDone (dst.readDone s)) := by
  simp only [handleShl, Operand.read_ok hd, ok_bind, Operand.read_ok ((count.admitted_readDone s dst).2 hc), h0, if_true]
  rfl

theorem handleShl_ok (hp : dst.isPlace = true) (hd : dst.admitted s) (hc : count.admitted s)
    (h0 : maskedCount (count.value (dst.readDone s)) ≠ 0) :
    let d := dst.value s
    let c := maskedCount (count.value (dst.readDone s))
    let r := d <<< c
    ∃ (cf of : Bool) (k : Nat),
      handleShl dst count s = .ok { dst.put r (count.readDone (dst.readDone s)) with
        flags := resultFlags r cf of, drawn := ⟨decide (w.bits ≤ c), false, false, decide (c ≠ 1)⟩, draws := k } ∧
      (c ≤ w.bits - 1 → cf = d.getLsbD (w.bits - c)) ∧ (c = 1 → of = (r.msb ^^ cf)) := by
  intro d c r
  have hd2 : dst.admitted (count.readDone (dst.readDone s)) :=
    (dst.admitted_readDone _ count).2 ((dst.admitted_readDone _ dst).2 hd)
  obtain ⟨cf, of, k, h1, h2, h3⟩ := shiftFlags_eq r
    (if c ≤ w.bits - 1 then some (d.getLsbD (w.bits - c)) else none)
    (fun cf => if c = 1 then some (r.msb ^^ cf) else none)
    (dst.put r (count.readDone (dst.readDone s)))
  refine ⟨cf, of, k, ?_, ?_, ?_⟩
  · simp only [handleShl, Operand.read_ok hd, ok_bind, Operand.read_ok ((count.admitted_readDone s dst).2 hc),
      if_neg h0, Operand.write_ok hp hd2]
    rw [given_isNone, given_isNone, not_le_pred_bits] at h1
    exact congrArg Except.ok h1
  · intro h; exact h2 _ (by rw [if_pos h])
  · intro h; exact h3 _ (by rw [if_pos h])

/-- A masked count of 0 only reads. -/
theorem handleShr_zero (hd : dst.admitted s) (hc : count.admitted s)
    (h0 : maskedCount (count.value (dst.readDone s)) = 0) :
    handleShr dst count s = .ok (count.readDone (dst.readDone s)) := by
  simp only [handleShr, Operand.read_ok hd, ok_bind, Operand.read_ok ((count.admitted_readDone s dst).2 hc), h0, if_true]
  rfl

theorem handleShr_ok (hp : dst.isPlace = true) (hd : dst.admitted s) (hc : count.admitted s)
    (h0 : maskedCount (count.value (dst.readDone s)) ≠ 0) :
    let d := dst.value s
    let c := maskedCount (count.value (dst.readDone s))
    let r := d >>> c
    ∃ (cf of : Bool) (k : Nat),
      handleShr dst count s = .ok { dst.put r (count.readDone (dst.readDone s)) with
        flags := resultFlags r cf of, drawn := ⟨decide (w.bits ≤ c), false, false, decide (c ≠ 1)⟩, draws := k } ∧
      (c ≤ w.bits - 1 → cf = d.getLsbD (c - 1)) ∧ (c = 1 → of = (d.msb)) := by
  intro d c r
  have hd2 : dst.admitted (count.readDone (dst.readDone s)) :=
    (dst.admitted_readDone _ count).2 ((dst.admitted_readDone _ dst).2 hd)
  obtain ⟨cf, of, k, h1, h2, h3⟩ := shiftFlags_eq r
    (if c ≤ w.bits - 1 then some (d.getLsbD (c - 1)) else none)
    (fun _ => if c = 1 then some (d.msb) else none)
    (dst.put r (count.readDone (dst.readDone s)))
  refine ⟨cf, of, k, ?_, ?_, ?_⟩
  · simp only [handleShr, Operand.read_ok hd, ok_bind, Operand.read_ok ((count.admitted_readDone s dst).2 hc),
      if_neg h0, Operand.write_ok hp hd2]
    rw [given_isNone, given_isNone, not_le_pred_bits] at h1
    exact congrArg Except.ok h1
  · intro h; exact h2 _ (by rw [if_pos h])
  · intro h; exact h3 _ (by rw [if_pos h])

/-- A masked count of 0 only reads. -/
theorem handleSar_zero (hd : dst.admitted s) (hc : count.admitted s)
    (h0 : maskedCount (count.value (dst.readDone s)) = 0) :
    handleSar dst count s = .ok (count.readDone (dst.readDone s)) := by
  simp only [handleSar, Operand.read_ok hd, ok_bind, Operand.read_ok ((count.admitted_readDone s dst).2 hc), h0, if_true]
  rfl

theorem handleSar_ok (hp : dst.isPlace = true) (hd : dst.admitted s) (hc : count.admitted s)
    (h0 : maskedCount (count.value (dst.readDone s)) ≠ 0) :
    let d := dst.value s
    let c := maskedCount (count.value (dst.readDone s))
    let r := d.sshiftRight c
    ∃ (cf of : Bool) (k : Nat),
      handleSar dst count s = .ok { dst.put r (count.readDone (dst.readDone s)) with
        flags := resultFlags r cf of, drawn := ⟨decide (w.bits ≤ c), false, false, decide (c ≠ 1)⟩, draws := k } ∧
      (c ≤ w.bits - 1 → cf = d.getLsbD (c - 1)) ∧ (c = 1 → of = (false)) := by
  intro d c r
  have hd2 : dst.admitted (count.readDone (dst.readDone s)) :=
    (dst.admitted_readDone _ count).2 ((dst.admitted_readDone _ dst).2 hd)
  obtain ⟨cf, of, k, h1, h2, h3⟩ := shiftFlags_eq r
    (if c ≤ w.bits - 1 then some (d.getLsbD (c - 1)) else none)
    (fun _ => if c = 1 then some (false) else none)
    (dst.put r (count.readDone (dst.readDone s)))
  refine ⟨cf, of, k, ?_, ?_, ?_⟩
  · simp only [handleSar, Operand.read_ok hd, ok_bind, Operand.read_ok ((count.admitted_readDone s dst).2 hc),
      if_neg h0, Operand.write_ok hp hd2]
    rw [given_isNone, given_isNone, not_le_pred_bits] at h1
    exact congrArg Except.ok h1
  · intro h; exact h2 _ (by rw [if_pos h])
  · intro h; exact h3 _ (by rw [if_pos h])

end Shifts

/-! ### Multiply and divide -/

section MulDiv

variable {w : Width} {dst src src2 : Operand w} {s : State}

theorem handleMul_ok (hs : src.admitted s) :
    let p := (s.lowHalf w).toNat * (src.value s).toNat
    let high := BitVec.ofNat w.bits (p / 2 ^ w.bits)
    ∃ (f : Flags) (k : Nat),
      handleMul src s = .ok { (src.readDone s).setPair w high (BitVec.ofNat w.bits p) with
        flags := f, drawn := mulDrawn s.cfg.mulFlags, draws := k } ∧
      (s.cfg.mulFlags = .ia32 → f.cf = (high != 0) ∧ f.of = f.cf) := by
  intro p high
  obtain ⟨f, k, h1, h2⟩ := mulFlags_eq (high != 0) ((src.readDone s).setPair w high (BitVec.ofNat w.bits p))
    (m := s.cfg.mulFlags) (by simp [State.setPair])
  refine ⟨f, k, ?_, h2⟩
  simp only [handleMul, Operand.read_ok hs, ok_bind, State.lowHalf, Operand.readDone_regs]
  exact congrArg Except.ok h1

theorem handleImul1_ok (hs : src.admitted s) :
    let p := (s.lowHalf w).toInt * (src.value s).toInt
    let low := BitVec.ofInt w.bits p
    ∃ (f : Flags) (k : Nat),
      handleImul1 src s = .ok { (src.readDone s).setPair w (BitVec.ofInt w.bits (p / 2 ^ w.bits)) low with
        flags := f, drawn := mulDrawn s.cfg.mulFlags, draws := k } ∧
      (s.cfg.mulFlags = .ia32 → f.cf = decide (p ≠ low.toInt) ∧ f.of = f.cf) := by
  intro p low
  obtain ⟨f, k, h1, h2⟩ := mulFlags_eq (decide (p ≠ low.toInt))
    ((src.readDone s).setPair w (BitVec.ofInt w.bits (p / 2 ^ w.bits)) low)
    (m := s.cfg.mulFlags) (by simp [State.setPair])
  refine ⟨f, k, ?_, h2⟩
  simp only [handleImul1, Operand.read_ok hs, ok_bind, State.lowHalf, Operand.readDone_regs]
  exact congrArg Except.ok h1

theorem handleImul2_ok (hp : dst.isPlace = true) (hd : dst.admitted s) (hs : src.admitted s) :
    let p := (dst.value s).toInt * (src.value (dst.readDone s)).toInt
    let low := BitVec.ofInt w.bits p
    ∃ (f : Flags) (k : Nat),
      handleImul2 dst src s = .ok { dst.put low (src.readDone (dst.readDone s)) with
        flags := f, drawn := imulTruncDrawn s.cfg.imulTrunc s.drawn, draws := k } ∧
      (s.cfg.imulTrunc = .unchanged → f = s.flags) ∧
      (s.cfg.imulTrunc = .ia32 → f.cf = decide (p ≠ low.toInt) ∧ f.of = f.cf) := by
  intro p low
  obtain ⟨f, k, h1, h2⟩ := imulTruncFlags_eq (decide (p ≠ low.toInt)) (dst.put low (src.readDone (dst.readDone s)))
    (m := s.cfg.imulTrunc) (fl := s.flags) (d := s.drawn) (by simp) (by simp) (by simp)
  refine ⟨f, k, ?_, h2⟩
  simp only [handleImul2, Operand.read_ok hd, ok_bind, Operand.read_ok ((src.admitted_readDone s dst).2 hs),
    Operand.write_ok hp (admitted_after_reads hd)]
  exact congrArg Except.ok h1

theorem handleImul3_ok (hp : dst.isPlace = true) (hd : dst.admitted s) (hs : src.admitted s)
    (h2 : src2.admitted s) :
    let p := (src.value s).toInt * (src2.value (src.readDone s)).toInt
    let low := BitVec.ofInt w.bits p
    ∃ (f : Flags) (k : Nat),
      handleImul3 dst src src2 s = .ok { dst.put low (src2.readDone (src.readDone s)) with
        flags := f, drawn := imulTruncDrawn s.cfg.imulTrunc s.drawn, draws := k } ∧
      (s.cfg.imulTrunc = .unchanged → f = s.flags) ∧
      (s.cfg.imulTrunc = .ia32 → f.cf = decide (p ≠ low.toInt) ∧ f.of = f.cf) := by
  intro p low
  obtain ⟨f, k, h1, h3⟩ := imulTruncFlags_eq (decide (p ≠ low.toInt)) (dst.put low (src2.readDone (src.readDone s)))
    (m := s.cfg.imulTrunc) (fl := s.flags) (d := s.drawn) (by simp) (by simp) (by simp)
  have hd2 : dst.admitted (src2.readDone (src.readDone s)) :=
    (dst.admitted_readDone _ src2).2 ((dst.admitted_readDone _ src).2 hd)
  refine ⟨f, k, ?_, h3⟩
  simp only [handleImul3, Operand.read_ok hs, ok_bind, Operand.read_ok ((src2.admitted_readDone s src).2 h2),
    Operand.write_ok hp hd2]
  exact congrArg Except.ok h1

/-- Everything `div` can do once its operand is read. -/
theorem handleDiv_cases (hs : src.admitted s) :
    let n := (s.highHalf w ++ s.lowHalf w).toNat
    let x := (src.value s).toNat
    (x = 0 ∧ handleDiv src s = .error (.divideError .zero)) ∨
    (x ≠ 0 ∧ 2 ^ w.bits ≤ n / x ∧ handleDiv src s = .error (.divideError .overflow)) ∨
    (x ≠ 0 ∧ n / x < 2 ^ w.bits ∧ ∃ (f : Flags) (k : Nat), handleDiv src s = .ok
      { (src.readDone s).setPair w (BitVec.ofNat w.bits (n % x)) (BitVec.ofNat w.bits (n / x)) with
        flags := f, drawn := ⟨true, true, true, true⟩, draws := k }) := by
  intro n x
  simp only [handleDiv, Operand.read_ok hs, ok_bind, State.highHalf, State.lowHalf, Operand.readDone_regs]
  by_cases h0 : x = 0
  · left; exact ⟨h0, by rw [if_pos h0]; rfl⟩
  · right
    by_cases h1 : 2 ^ w.bits ≤ n / x
    · left; exact ⟨h0, h1, (if_neg h0).trans (if_pos h1)⟩
    · right
      obtain ⟨f, k, hf⟩ := drawnFlags_eq
        ((src.readDone s).setPair w (BitVec.ofNat w.bits (n % x)) (BitVec.ofNat w.bits (n / x)))
      exact ⟨h0, by omega, f, k, (if_neg h0).trans ((if_neg h1).trans (congrArg Except.ok hf))⟩

/-- Everything `idiv` can do once its operand is read. -/
theorem handleIdiv_cases (hs : src.admitted s) :
    let n := (s.highHalf w ++ s.lowHalf w).toInt
    let x := (src.value s).toInt
    let q := n.tdiv x
    (x = 0 ∧ handleIdiv src s = .error (.divideError .zero)) ∨
    (x ≠ 0 ∧ overflows w.bits q ∧ handleIdiv src s = .error (.divideError .overflow)) ∨
    (x ≠ 0 ∧ ¬ overflows w.bits q ∧ ∃ (f : Flags) (k : Nat), handleIdiv src s = .ok
      { (src.readDone s).setPair w (BitVec.ofInt w.bits (n - x * q)) (BitVec.ofInt w.bits q) with
        flags := f, drawn := ⟨true, true, true, true⟩, draws := k }) := by
  intro n x q
  have ho : overflows w.bits q ↔ (q < -(2 ^ (w.bits - 1)) ∨ 2 ^ (w.bits - 1) - 1 < q) := by
    simp only [overflows]
    constructor <;> rintro (h | h) <;> [left; right; left; right] <;> omega
  simp only [handleIdiv, Operand.read_ok hs, ok_bind, State.highHalf, State.lowHalf, Operand.readDone_regs]
  by_cases h0 : x = 0
  · left; exact ⟨h0, by rw [if_pos h0]; rfl⟩
  · right
    by_cases h1 : overflows w.bits q
    · left; exact ⟨h0, h1, (if_neg h0).trans (if_pos (ho.1 h1))⟩
    · right
      obtain ⟨f, k, hf⟩ := drawnFlags_eq
        ((src.readDone s).setPair w (BitVec.ofInt w.bits (n - x * q)) (BitVec.ofInt w.bits q))
      exact ⟨h0, h1, f, k, (if_neg h0).trans ((if_neg fun h => h1 (ho.2 h)).trans (congrArg Except.ok hf))⟩

end MulDiv

/-! ### The stack, lidt and control transfer -/

theorem slotWord_eq (o : OSize) (v : BitVec o.width.bits) (s : State) :
    ∃ (word : Word) (k : Nat), slotWord o v s = (word, { s with draws := k }) ∧ word.setWidth o.width.bits = v := by
  cases o with
  | o32 => exact ⟨v, s.draws, rfl, by simp⟩
  | o16 => exact ⟨_, _, rfl, by simp [BitVec.setWidth_append]⟩

theorem handlePush_ok {o : OSize} {src : Operand o.width} {s : State} (hs : src.admitted s)
    (h : admission s.cfg .w4 (s.regs.esp - 4) ≠ none) :
    ∃ (word : Word) (k : Nat),
      handlePush o src s = .ok { storeDone .w4 (s.regs.esp - 4) word (src.readDone s) with
        regs := { s.regs with esp := s.regs.esp - 4 }, draws := k } ∧
      word.setWidth o.width.bits = src.value s := by
  obtain ⟨word, k, h1, h2⟩ := slotWord_eq o (src.value s) (src.readDone s)
  refine ⟨word, k, ?_, h2⟩
  have ha : admission ({ src.readDone s with draws := k } : State).cfg .w4
      (({ src.readDone s with draws := k } : State).regs.esp - 4) ≠ none := by
    simpa using h
  simp only [handlePush, Operand.read_ok hs, ok_bind, h1, push32_ok ha]
  congr 1
  simp only [storeDone, Operand.readDone_cfg, Operand.readDone_regs, Operand.readDone_mem]
  split <;> rfl

theorem handlePop_ok {o : OSize} {dst : Operand o.width} {s : State} (hp : dst.isPlace = true)
    (h : admission s.cfg .w4 s.regs.esp ≠ none) (hd : dst.admitted s) :
    handlePop o dst s = .ok (dst.put ((loadValue .w4 s.regs.esp s).setWidth o.width.bits)
      { loadDone .w4 s.regs.esp s with regs := { s.regs with esp := s.regs.esp + 4 } }) := by
  have hd2 : dst.admitted ({ loadDone .w4 s.regs.esp s with regs := { s.regs with esp := s.regs.esp + 4 } } : State) :=
    (dst.admitted_congr (by simp)).2 hd
  simp only [handlePop, pop32_ok h, ok_bind, Operand.write_ok hp hd2]

theorem handleLeave_ok {s : State} (h : admission s.cfg .w4 s.regs.ebp ≠ none) :
    handleLeave s = .ok { loadDone .w4 s.regs.ebp s with
      regs := { s.regs with esp := s.regs.ebp + 4, ebp := loadValue .w4 s.regs.ebp s } } := by
  have e : s.regs.get .ebp = s.regs.ebp := rfl
  simp only [handleLeave, e, memRead_ok h, ok_bind]
  simp only [pure_ok, State.setReg, loadDone_regs]
  rfl

theorem handleLidt_ok {m : MemOp} {s : State} (h1 : admission s.cfg .w2 (effAddr s.regs m) ≠ none)
    (h2 : admission s.cfg .w4 (effAddr s.regs m + 2) ≠ none) :
    handleLidt m s = .ok (
      let s1 := loadDone .w2 (effAddr s.regs m) s
      (loadDone .w4 (effAddr s.regs m + 2) s1).setIdtr (loadValue .w2 (effAddr s.regs m) s)
        (loadValue .w4 (effAddr s.regs m + 2) s1)) := by
  have h3 : admission (loadDone .w2 (effAddr s.regs m) s).cfg .w4 (effAddr s.regs m + 2) ≠ none := by simpa using h2
  simp only [handleLidt, memRead_ok h1, ok_bind, memRead_ok h3]
  rfl

theorem handleJmp_ok {src : Operand .w4} {s : State} (hs : src.admitted s) :
    handleJmp src s = .ok ((src.readDone s).setPc (src.value s)) := by
  simp only [handleJmp, Operand.read_ok hs, ok_bind]
  rfl

theorem handleCall_ok {next : Word} {target : Operand .w4} {s : State} (ht : target.admitted s)
    (h : admission s.cfg .w4 (s.regs.esp - 4) ≠ none) :
    handleCall next target s = .ok { storeDone .w4 (s.regs.esp - 4) next (target.readDone s) with
      regs := { s.regs with esp := s.regs.esp - 4 }, pc := target.value s } := by
  have ha : admission (target.readDone s).cfg .w4 ((target.readDone s).regs.esp - 4) ≠ none := by simpa using h
  simp only [handleCall, Operand.read_ok ht, ok_bind, push32_ok ha]
  simp only [pure_ok, State.setPc, Operand.readDone_regs]

theorem handleRet_ok {s : State} (h : admission s.cfg .w4 s.regs.esp ≠ none) :
    handleRet s = .ok { loadDone .w4 s.regs.esp s with
      regs := { s.regs with esp := s.regs.esp + 4 }, pc := loadValue .w4 s.regs.esp s } := by
  simp only [handleRet, pop32_ok h, ok_bind]
  rfl

end Sys2Proof.Machine
end

