-- ==== Sys2Proof/Laws/Effects.lean ====
section
/-! SUPPORT. Everything a handler can do, said once for each handler: it answers an effect when every access is
admitted, and otherwise the reason of the first access that is not, or of a divide error (60_exceptions.md R508).
The frames and the completion of an instruction follow from its handler's lemma here. -/

namespace Sys2Proof.Machine

/-! ### Accesses and names of an operand -/

/-- The access that reading or writing the operand makes. -/
def Operand.accesses {w : Width} (op : Operand w) (k : AccessKind) : List Access :=
  match op with
  | .mem a => [⟨w, a, k⟩]
  | .reg _ => []
  | .imm _ => []

/-- The register that writing the operand changes. -/
def Operand.names {w : Width} (op : Operand w) : List (Width × Reg) :=
  match op with
  | .reg r => [(w, r)]
  | .mem _ => []
  | .imm _ => []

@[simp] theorem accesses_reg {w : Width} (r : Reg) (k : AccessKind) : (Operand.reg (w := w) r).accesses k = [] := rfl
@[simp] theorem accesses_imm {w : Width} (v : BitVec w.bits) (k : AccessKind) : (Operand.imm v).accesses k = [] := rfl
@[simp] theorem accesses_mem {w : Width} (a : Word) (k : AccessKind) :
    (Operand.mem (w := w) a).accesses k = [⟨w, a, k⟩] := rfl
@[simp] theorem names_reg {w : Width} (r : Reg) : (Operand.reg (w := w) r).names = [(w, r)] := rfl
@[simp] theorem names_mem {w : Width} (a : Word) : (Operand.mem (w := w) a).names = [] := rfl

theorem accesses_rm_read (w : Width) (rm : RM) (s : State) : (rmOperand w rm s).accesses .read = rmRead w rm s := by
  cases rm <;> rfl

theorem accesses_rm_write (w : Width) (rm : RM) (s : State) :
    (rmOperand w rm s).accesses .write = rmWrite w rm s := by
  cases rm <;> rfl

theorem names_rm (w : Width) (rm : RM) (s : State) : (rmOperand w rm s).names = rmName w rm := by cases rm <;> rfl

theorem isMmio_congr {s t : State} (h : t.cfg = s.cfg) (x : Access) : x.isMmio t = x.isMmio s := by
  simp only [Access.isMmio, h]

theorem access_admitted_congr {s t : State} (h : t.cfg = s.cfg) (x : Access) : x.admitted t = x.admitted s := by
  simp only [Access.admitted, h]

theorem access_admitted_iff {s : State} {w : Width} {a : Word} {k : AccessKind} :
    (Access.mk w a k).admitted s = true ↔ admission s.cfg w a ≠ none := by
  simp [Access.admitted, Option.isSome_iff_ne_none]

theorem access_refused_iff {s : State} {w : Width} {a : Word} {k : AccessKind} :
    (Access.mk w a k).admitted s = false ↔ admission s.cfg w a = none := by
  simp [Access.admitted]

theorem Operand.admitted_iff {w : Width} (op : Operand w) (k : AccessKind) (s : State) :
    op.admitted s ↔ ∀ y ∈ op.accesses k, y.admitted s = true := by
  cases op <;> simp [Operand.accesses, Operand.admitted, Access.admitted, Option.isSome_iff_ne_none]

/-- Only a memory operand can be refused. -/
theorem Operand.refused {w : Width} {op : Operand w} {s : State} (h : ¬ op.admitted s) :
    ∃ a, op = .mem a ∧ admission s.cfg w a = none := by
  cases op with
  | reg i => exact absurd trivial h
  | imm i => exact absurd trivial h
  | mem a => exact ⟨a, rfl, by simpa [Operand.admitted] using h⟩

/-- A refused read, also after another operand has been read. -/
theorem Operand.read_refused {w : Width} {a : Word} {s : State} (h : admission s.cfg w a = none) :
    (Operand.mem (w := w) a).read s = .error (.memOutOfBounds a w .read) := memRead_refused h

theorem Operand.read_refused_after {w v : Width} {a : Word} {s : State} {op : Operand v} (h : admission s.cfg w a = none) :
    (Operand.mem (w := w) a).read (op.readDone s) = .error (.memOutOfBounds a w .read) :=
  memRead_refused (by simpa using h)

theorem Operand.write_refused_after {w v : Width} {a : Word} {x : BitVec w.bits} {s : State} {op : Operand v}
    (h : admission s.cfg w a = none) :
    (Operand.mem (w := w) a).write x (op.readDone s) = .error (.memOutOfBounds a w .write) :=
  memWrite_refused (by simpa using h)

/-! ### Effects -/

/-- The frame of an effect: from `s` to `t` by the accesses `acc` and `ports` port accesses, writing no register but
those of `dst`, and no flag unless `fl`. -/
structure Effect (s t : State) (acc : List Access) (ports : Nat) (dst : List (Width × Reg)) (fl : Bool) : Prop where
  cfg : t.cfg = s.cfg
  idtr : t.idtr = s.idtr
  status : t.status = s.status
  flags : fl = false → t.flags = s.flags ∧ t.drawn = s.drawn
  regs : ∀ (r : Reg) (k : Nat), (∀ n ∈ dst, aliasBit n.1 n.2 r k = false) →
    (t.regs.get r).getLsbD k = (s.regs.get r).getLsbD k
  mem : ∀ a : Word, (∀ x ∈ acc, x.kind = .write → a ∉ touched x.width x.addr) →
    t.mem.byte a.toNat = s.mem.byte a.toNat
  events : ∃ new, t.events = s.events ++ new ∧ new.length = (acc.countP fun x => x.isMmio s) + ports ∧
    ∀ e ∈ new, e.fits = true
  wf : s.mem.wf = true → t.mem.wf = true

namespace Effect

variable {s t u : State} {a b : List Access} {p q : Nat} {d e : List (Width × Reg)} {f g : Bool}

theorem refl (s : State) : Effect s s [] 0 [] false := by constructor <;> simp

theorem trans (h1 : Effect s t a p d f) (h2 : Effect t u b q e g) : Effect s u (a ++ b) (p + q) (d ++ e) (f || g) where
  cfg := h2.cfg.trans h1.cfg
  idtr := h2.idtr.trans h1.idtr
  status := h2.status.trans h1.status
  flags h := by
    simp only [Bool.or_eq_false_iff] at h
    exact ⟨(h2.flags h.2).1.trans (h1.flags h.1).1, (h2.flags h.2).2.trans (h1.flags h.1).2⟩
  regs r k h := (h2.regs r k fun n hn => h n (List.mem_append_right _ hn)).trans
    (h1.regs r k fun n hn => h n (List.mem_append_left _ hn))
  mem c h := (h2.mem c fun n hn => h n (List.mem_append_right _ hn)).trans
    (h1.mem c fun n hn => h n (List.mem_append_left _ hn))
  events := by
    obtain ⟨n1, e1, l1, f1⟩ := h1.events
    obtain ⟨n2, e2, l2, f2⟩ := h2.events
    refine ⟨n1 ++ n2, by rw [e2, e1, List.append_assoc], ?_, ?_⟩
    · rw [List.length_append, l1, l2, List.countP_append]
      simp only [isMmio_congr h1.cfg]
      omega
    · intro x hx
      rcases List.mem_append.1 hx with h | h
      exacts [f1 x h, f2 x h]
  wf h := h2.wf (h1.wf h)

theorem cast (h : Effect s t a p d f) (h1 : a = b) (h2 : p = q) (h3 : d = e) (h4 : f = g) : Effect s t b q e g := by
  subst h1 h2 h3 h4
  exact h

/-- An effect that writes flags, said again with what is known of them. -/
theorem withFlags (g : Bool) (h : Effect s t a p d f) (hg : g = false → t.flags = s.flags ∧ t.drawn = s.drawn) :
    Effect s t a p d g where
  cfg := h.cfg
  idtr := h.idtr
  status := h.status
  flags := hg
  regs := h.regs
  mem := h.mem
  events := h.events
  wf := h.wf

/-- An effect may be said to write more registers than it does. -/
theorem moreNames (h : Effect s t a p d f)
    (hd : ∀ r k, (∀ n ∈ e, aliasBit n.1 n.2 r k = false) → ∀ n ∈ d, aliasBit n.1 n.2 r k = false) :
    Effect s t a p e f where
  cfg := h.cfg
  idtr := h.idtr
  status := h.status
  flags := h.flags
  regs r k hk := h.regs r k (hd r k hk)
  mem := h.mem
  events := h.events
  wf := h.wf

theorem load (w : Width) (a : Word) (s : State) : Effect s (loadDone w a s) [⟨w, a, .read⟩] 0 [] false := by
  constructor <;> try simp
  obtain ⟨n, h1, h2, h3⟩ := loadDone_events w a s
  exact ⟨n, h1, by rw [h2]; simp [Access.isMmio], h3⟩

theorem store (w : Width) (a : Word) (v : BitVec w.bits) (s : State) :
    Effect s (storeDone w a v s) [⟨w, a, .write⟩] 0 [] false := by
  constructor <;> try simp
  · exact fun c h => storeDone_byte_other w a v s h
  · obtain ⟨n, h1, h2, h3⟩ := storeDone_events w a v s
    exact ⟨n, h1, by rw [h2]; simp [Access.isMmio], h3⟩
  · exact storeDone_wf w a v s

theorem setReg (w : Width) (i : Reg) (v : BitVec w.bits) (s : State) :
    Effect s (s.setReg w i v) [] 0 [(w, i)] false := by
  constructor <;> try simp
  exact fun r k h => Regs.bit_write_other _ w i v r k h

theorem setFlagsDrawn (s : State) (f d : Flags) : Effect s (s.setFlagsDrawn f d) [] 0 [] true := by
  constructor <;> simp

theorem flagsAndDraws (s : State) (f d : Flags) (k : Nat) :
    Effect s { s with flags := f, drawn := d, draws := k } [] 0 [] true := by
  constructor <;> simp

theorem draws (s : State) (k : Nat) : Effect s { s with draws := k } [] 0 [] false := by constructor <;> simp

theorem evalCond (cc : Cond) (s : State) : Effect s (evalCond cc s).2 [] 0 [] false := by
  obtain ⟨b, k, h⟩ := evalCond_eq cc s
  rw [h]
  exact draws s k

theorem setPc (s : State) (target : Word) : Effect s (s.setPc target) [] 0 [] false := by
  constructor <;> simp [State.setPc]

theorem setEsp (s : State) (v : Word) :
    Effect s { s with regs := { s.regs with esp := v } } [] 0 [(.w4, .esp)] false := setReg .w4 .esp v s

theorem setPair (s : State) (w : Width) (high low : BitVec w.bits) :
    Effect s (s.setPair w high low) [] 0 [(w, .eax), (w, pairHigh w)] false :=
  ((setReg w .eax low s).trans (setReg w (pairHigh w) high _)).cast rfl rfl rfl rfl

theorem readDone {w : Width} (op : Operand w) (s : State) : Effect s (op.readDone s) (op.accesses .read) 0 [] false := by
  cases op with
  | reg i => exact refl s
  | mem a => exact load w a s
  | imm v => exact refl s

theorem put {w : Width} (op : Operand w) (v : BitVec w.bits) (s : State) :
    Effect s (op.put v s) (op.accesses .write) 0 op.names false := by
  cases op with
  | reg i => exact setReg w i v s
  | mem a => exact store w a v s
  | imm _ => exact refl s

/-- One port access. -/
theorem port (s : State) (e : Event) (h : e.fits = true) (k : Nat) :
    Effect s { s with events := s.events ++ [e], draws := k } [] 1 [] false := by
  constructor <;> simp [h]

end Effect

/-! ### What a handler answers -/

/-- All that a handler can answer from `s`: the reason of the first access of `acc` that is not admitted, else the
divide error `err`, else an effect. -/
def Answers (s : State) (x : Except Reason State) (acc : List Access) (ports : Nat) (dst : List (Width × Reg))
    (fl : Bool) (err : Option DivideCause) : Prop :=
  match acc.find? (fun y => !y.admitted s) with
  | some y => x = .error (.memOutOfBounds y.addr y.width y.kind)
  | none =>
    match err with
    | some c => x = .error (.divideError c)
    | none => ∃ t, x = .ok t ∧ Effect s t acc ports dst fl

namespace Answers

variable {s t : State} {x : Except Reason State} {acc acc' : List Access} {p p' : Nat} {d d' : List (Width × Reg)}
  {f f' : Bool} {e e' : Option DivideCause}

theorem find_none (h : ∀ y ∈ acc, y.admitted s = true) : acc.find? (fun y => !y.admitted s) = none := by
  rw [List.find?_eq_none]
  intro y hy
  simp [h y hy]

theorem done (h : ∀ y ∈ acc, y.admitted s = true) (hx : x = .ok t) (r : Effect s t acc p d f) :
    Answers s x acc p d f none := by
  simp only [Answers, find_none h]
  exact ⟨t, hx, r⟩

theorem divideError {c : DivideCause} (h : ∀ y ∈ acc, y.admitted s = true) (hx : x = .error (.divideError c)) :
    Answers s x acc p d f (some c) := by
  simp only [Answers, find_none h]
  exact hx

theorem refused {y : Access} (before after : List Access) (h : ∀ y ∈ before, y.admitted s = true)
    (hy : y.admitted s = false) (hx : x = .error (.memOutOfBounds y.addr y.width y.kind)) :
    Answers s x (before ++ y :: after) p d f e := by
  simp only [Answers, List.find?_append, find_none h, List.find?_cons, hy]
  exact hx

theorem cast (h : Answers s x acc p d f e) (h1 : acc = acc') (h2 : p = p') (h3 : d = d') (h4 : f = f') (h5 : e = e') :
    Answers s x acc' p' d' f' e' := by
  subst h1 h2 h3 h4 h5
  exact h

theorem moreNames (h : Answers s x acc p d f e)
    (hd : ∀ r k, (∀ n ∈ d', aliasBit n.1 n.2 r k = false) → ∀ n ∈ d, aliasBit n.1 n.2 r k = false) :
    Answers s x acc p d' f e := by
  unfold Answers at *
  split at h
  · exact h
  · split at h
    · exact h
    · obtain ⟨t, h1, h2⟩ := h
      exact ⟨t, h1, h2.moreNames hd⟩

/-- Both operands are read, then the destination is written. -/
theorem readReadWrite {w : Width} {dst src : Operand w}
    (hd0 : ∀ a, dst = .mem a → admission s.cfg w a = none → x = .error (.memOutOfBounds a w .read))
    (hs0 : ∀ a, dst.admitted s → src = .mem a → admission s.cfg w a = none → x = .error (.memOutOfBounds a w .read))
    (hok : dst.admitted s → src.admitted s → ∃ t : State, x = .ok t ∧
      Effect s t (dst.accesses .read ++ src.accesses .read ++ dst.accesses .write) 0 dst.names f) :
    Answers s x (dst.accesses .read ++ src.accesses .read ++ dst.accesses .write) 0 dst.names f none := by
  by_cases hd : dst.admitted s
  · by_cases hs : src.admitted s
    · obtain ⟨t, h1, h2⟩ := hok hd hs
      refine done ?_ h1 h2
      intro y hy
      simp only [List.mem_append] at hy
      rcases hy with (hy | hy) | hy
      exacts [(dst.admitted_iff .read s).1 hd y hy, (src.admitted_iff .read s).1 hs y hy,
        (dst.admitted_iff .write s).1 hd y hy]
    · obtain ⟨a, rfl, hb⟩ := Operand.refused hs
      rw [List.append_assoc]
      exact refused _ _ ((dst.admitted_iff .read s).1 hd) (access_refused_iff.2 hb) (hs0 a hd rfl hb)
  · obtain ⟨a, rfl, hb⟩ := Operand.refused hd
    rw [List.append_assoc]
    exact refused [] _ (by simp) (access_refused_iff.2 hb) (hd0 a rfl hb)

/-- Both operands are read. -/
theorem readRead {w : Width} {dst src : Operand w}
    (hd0 : ∀ a, dst = .mem a → admission s.cfg w a = none → x = .error (.memOutOfBounds a w .read))
    (hs0 : ∀ a, dst.admitted s → src = .mem a → admission s.cfg w a = none → x = .error (.memOutOfBounds a w .read))
    (hok : dst.admitted s → src.admitted s → ∃ t : State, x = .ok t ∧
      Effect (src.readDone (dst.readDone s)) t [] 0 [] true) :
    Answers s x (dst.accesses .read ++ src.accesses .read) 0 [] true none := by
  by_cases hd : dst.admitted s
  · by_cases hs : src.admitted s
    · obtain ⟨t, h1, h2⟩ := hok hd hs
      refine done ?_ h1 (((Effect.readDone dst s).trans (Effect.readDone src _)).trans h2 |>.cast (by simp) rfl rfl rfl)
      intro y hy
      rcases List.mem_append.1 hy with hy | hy
      exacts [(dst.admitted_iff .read s).1 hd y hy, (src.admitted_iff .read s).1 hs y hy]
    · obtain ⟨a, rfl, hb⟩ := Operand.refused hs
      exact refused _ [] ((dst.admitted_iff .read s).1 hd) (access_refused_iff.2 hb) (hs0 a hd rfl hb)
  · obtain ⟨a, rfl, hb⟩ := Operand.refused hd
    exact refused [] _ (by simp) (access_refused_iff.2 hb) (hd0 a rfl hb)

/-- One operand is read and written. -/
theorem readWrite {w : Width} {dst : Operand w}
    (h0 : ∀ a, dst = .mem a → admission s.cfg w a = none → x = .error (.memOutOfBounds a w .read))
    (hok : dst.admitted s → ∃ (v : BitVec w.bits) (t : State), x = .ok t ∧
      Effect (dst.put v (dst.readDone s)) t [] 0 [] f) :
    Answers s x (dst.accesses .read ++ dst.accesses .write) 0 dst.names f none := by
  by_cases hd : dst.admitted s
  · obtain ⟨v, t, h1, h2⟩ := hok hd
    refine done ?_ h1
      (((Effect.readDone dst s).trans (Effect.put dst v _)).trans h2 |>.cast (by simp) rfl (by simp) (by simp))
    intro y hy
    rcases List.mem_append.1 hy with hy | hy
    exacts [(dst.admitted_iff .read s).1 hd y hy, (dst.admitted_iff .write s).1 hd y hy]
  · obtain ⟨a, rfl, hb⟩ := Operand.refused hd
    exact refused [] _ (by simp) (access_refused_iff.2 hb) (h0 a rfl hb)

/-- One operand is read. -/
theorem readOnly {w : Width} {src : Operand w}
    (h0 : ∀ a, src = .mem a → admission s.cfg w a = none → x = .error (.memOutOfBounds a w .read))
    (hok : src.admitted s → ∃ t : State, x = .ok t ∧ Effect (src.readDone s) t [] 0 d f) :
    Answers s x (src.accesses .read) 0 d f none := by
  by_cases hs : src.admitted s
  · obtain ⟨t, h1, h2⟩ := hok hs
    exact done ((src.admitted_iff .read s).1 hs) h1
      ((Effect.readDone src s).trans h2 |>.cast (by simp) (by simp) (by simp) (by simp))
  · obtain ⟨a, rfl, hb⟩ := Operand.refused hs
    exact refused [] _ (by simp) (access_refused_iff.2 hb) (h0 a rfl hb)

/-- The source is read, then the destination is written. -/
theorem move {v w : Width} {dst : Operand v} {src : Operand w}
    (hs0 : ∀ a, src = .mem a → admission s.cfg w a = none → x = .error (.memOutOfBounds a w .read))
    (hd0 : ∀ a, src.admitted s → dst = .mem a → admission s.cfg v a = none → x = .error (.memOutOfBounds a v .write))
    (hok : src.admitted s → dst.admitted s → ∃ val : BitVec v.bits, x = .ok (dst.put val (src.readDone s))) :
    Answers s x (src.accesses .read ++ dst.accesses .write) 0 dst.names false none := by
  by_cases hs : src.admitted s
  · by_cases hd : dst.admitted s
    · obtain ⟨val, h1⟩ := hok hs hd
      refine done ?_ h1 ((Effect.readDone src s).trans (Effect.put dst val _) |>.cast rfl rfl rfl rfl)
      intro y hy
      rcases List.mem_append.1 hy with hy | hy
      exacts [(src.admitted_iff .read s).1 hs y hy, (dst.admitted_iff .write s).1 hd y hy]
    · obtain ⟨a, rfl, hb⟩ := Operand.refused hd
      exact refused _ [] ((src.admitted_iff .read s).1 hs) (access_refused_iff.2 hb) (hd0 a hs rfl hb)
  · obtain ⟨a, rfl, hb⟩ := Operand.refused hs
    exact refused [] _ (by simp) (access_refused_iff.2 hb) (hs0 a rfl hb)

/-- Nothing is accessed. -/
theorem plain (r : Effect s t [] p d f) : Answers s (.ok t) [] p d f none := done (by simp) rfl r

end Answers

/-! ### Two operands -/

section TwoOperands

variable {w : Width} (dst src : Operand w) (s : State)

/-- Reading both operands and writing the destination, then the flags. -/
theorem effect_readReadWrite (v : BitVec w.bits) (f d : Flags) (k : Nat) :
    Effect s { dst.put v (src.readDone (dst.readDone s)) with flags := f, drawn := d, draws := k }
      (dst.accesses .read ++ src.accesses .read ++ dst.accesses .write) 0 dst.names true :=
  (((Effect.readDone dst s).trans (Effect.readDone src _)).trans (Effect.put dst v _)).trans
    (Effect.flagsAndDraws _ f d k) |>.cast (by simp) rfl (by simp) rfl

theorem handleAdd_answers (hp : dst.isPlace = true) :
    Answers s (handleAdd dst src s) (dst.accesses .read ++ src.accesses .read ++ dst.accesses .write) 0 dst.names true
      none :=
  .readReadWrite
    (fun a h1 h2 => by subst h1; simp only [handleAdd, Operand.read_refused h2, error_bind])
    (fun a hd h1 h2 => by
      subst h1; simp only [handleAdd, Operand.read_ok hd, ok_bind, Operand.read_refused_after h2, error_bind])
    (fun hd hs => ⟨_, handleAdd_ok hp hd hs, effect_readReadWrite dst src s _ _ _ _⟩)

theorem handleAdc_answers (hp : dst.isPlace = true) :
    Answers s (handleAdc dst src s) (dst.accesses .read ++ src.accesses .read ++ dst.accesses .write) 0 dst.names true
      none :=
  .readReadWrite
    (fun a h1 h2 => by subst h1; simp only [handleAdc, Operand.read_refused h2, error_bind])
    (fun a hd h1 h2 => by
      subst h1; simp only [handleAdc, Operand.read_ok hd, ok_bind, Operand.read_refused_after h2, error_bind])
    (fun hd hs => ⟨_, handleAdc_ok hp hd hs, effect_readReadWrite dst src s _ _ _ _⟩)

theorem handleSub_answers (hp : dst.isPlace = true) :
    Answers s (handleSub dst src s) (dst.accesses .read ++ src.accesses .read ++ dst.accesses .write) 0 dst.names true
      none :=
  .readReadWrite
    (fun a h1 h2 => by subst h1; simp only [handleSub, Operand.read_refused h2, error_bind])
    (fun a hd h1 h2 => by
      subst h1; simp only [handleSub, Operand.read_ok hd, ok_bind, Operand.read_refused_after h2, error_bind])
    (fun hd hs => ⟨_, handleSub_ok hp hd hs, effect_readReadWrite dst src s _ _ _ _⟩)

theorem handleSbb_answers (hp : dst.isPlace = true) :
    Answers s (handleSbb dst src s) (dst.accesses .read ++ src.accesses .read ++ dst.accesses .write) 0 dst.names true
      none :=
  .readReadWrite
    (fun a h1 h2 => by subst h1; simp only [handleSbb, Operand.read_refused h2, error_bind])
    (fun a hd h1 h2 => by
      subst h1; simp only [handleSbb, Operand.read_ok hd, ok_bind, Operand.read_refused_after h2, error_bind])
    (fun hd hs => ⟨_, handleSbb_ok hp hd hs, effect_readReadWrite dst src s _ _ _ _⟩)

theorem handleAnd_answers (hp : dst.isPlace = true) :
    Answers s (handleAnd dst src s) (dst.accesses .read ++ src.accesses .read ++ dst.accesses .write) 0 dst.names true
      none :=
  .readReadWrite
    (fun a h1 h2 => by subst h1; simp only [handleAnd, Operand.read_refused h2, error_bind])
    (fun a hd h1 h2 => by
      subst h1; simp only [handleAnd, Operand.read_ok hd, ok_bind, Operand.read_refused_after h2, error_bind])
    (fun hd hs => ⟨_, handleAnd_ok hp hd hs, effect_readReadWrite dst src s _ _ _ _⟩)

theorem handleOr_answers (hp : dst.isPlace = true) :
    Answers s (handleOr dst src s) (dst.accesses .read ++ src.accesses .read ++ dst.accesses .write) 0 dst.names true
      none :=
  .readReadWrite
    (fun a h1 h2 => by subst h1; simp only [handleOr, Operand.read_refused h2, error_bind])
    (fun a hd h1 h2 => by
      subst h1; simp only [handleOr, Operand.read_ok hd, ok_bind, Operand.read_refused_after h2, error_bind])
    (fun hd hs => ⟨_, handleOr_ok hp hd hs, effect_readReadWrite dst src s _ _ _ _⟩)

theorem handleXor_answers (hp : dst.isPlace = true) :
    Answers s (handleXor dst src s) (dst.accesses .read ++ src.accesses .read ++ dst.accesses .write) 0 dst.names true
      none :=
  .readReadWrite
    (fun a h1 h2 => by subst h1; simp only [handleXor, Operand.read_refused h2, error_bind])
    (fun a hd h1 h2 => by
      subst h1; simp only [handleXor, Operand.read_ok hd, ok_bind, Operand.read_refused_after h2, error_bind])
    (fun hd hs => ⟨_, handleXor_ok hp hd hs, effect_readReadWrite dst src s _ _ _ _⟩)

theorem handleCmp_answers :
    Answers s (handleCmp dst src s) (dst.accesses .read ++ src.accesses .read) 0 [] true none :=
  .readRead
    (fun a h1 h2 => by subst h1; simp only [handleCmp, Operand.read_refused h2, error_bind])
    (fun a hd h1 h2 => by
      subst h1; simp only [handleCmp, Operand.read_ok hd, ok_bind, Operand.read_refused_after h2, error_bind])
    (fun hd hs => ⟨_, handleCmp_ok hd hs, Effect.setFlagsDrawn _ _ _⟩)

theorem handleTest_answers :
    Answers s (handleTest dst src s) (dst.accesses .read ++ src.accesses .read) 0 [] true none :=
  .readRead
    (fun a h1 h2 => by subst h1; simp only [handleTest, Operand.read_refused h2, error_bind])
    (fun a hd h1 h2 => by
      subst h1; simp only [handleTest, Operand.read_ok hd, ok_bind, Operand.read_refused_after h2, error_bind])
    (fun hd hs => ⟨_, handleTest_ok hd hs, Effect.setFlagsDrawn _ _ _⟩)

theorem handleMov_answers (hp : dst.isPlace = true) :
    Answers s (handleMov dst src s) (src.accesses .read ++ dst.accesses .write) 0 dst.names false none :=
  .move
    (fun a h1 h2 => by subst h1; simp only [handleMov, Operand.read_refused h2, error_bind])
    (fun a hs h1 h2 => by subst h1; simp only [handleMov, Operand.read_ok hs, ok_bind, Operand.write_refused_after h2])
    (fun hs hd => ⟨_, handleMov_ok hp hd hs⟩)

theorem handleMovsx_answers (v : Width) (r : Reg) :
    Answers s (handleMovsx (v := v) (.reg r) src s) (src.accesses .read) 0 [(v, r)] false none :=
  .readOnly
    (fun a h1 h2 => by subst h1; simp only [handleMovsx, Operand.read_refused h2, error_bind])
    (fun hs => ⟨_, handleMovsx_ok (dst := .reg r) rfl trivial hs, Effect.setReg _ _ _ _⟩)

theorem handleMovzx_answers (v : Width) (r : Reg) :
    Answers s (handleMovzx (v := v) (.reg r) src s) (src.accesses .read) 0 [(v, r)] false none :=
  .readOnly
    (fun a h1 h2 => by subst h1; simp only [handleMovzx, Operand.read_refused h2, error_bind])
    (fun hs => ⟨_, handleMovzx_ok (dst := .reg r) rfl trivial hs, Effect.setReg _ _ _ _⟩)

end TwoOperands

/-! ### One operand -/

section OneOperand

variable {w : Width} (dst : Operand w) (s : State)

theorem handleInc_answers (hp : dst.isPlace = true) :
    Answers s (handleInc dst s) (dst.accesses .read ++ dst.accesses .write) 0 dst.names true none :=
  .readWrite
    (fun a h1 h2 => by subst h1; simp only [handleInc, Operand.read_refused h2, error_bind])
    (fun hd => ⟨_, _, handleInc_ok hp hd, Effect.setFlagsDrawn _ _ _⟩)

theorem handleDec_answers (hp : dst.isPlace = true) :
    Answers s (handleDec dst s) (dst.accesses .read ++ dst.accesses .write) 0 dst.names true none :=
  .readWrite
    (fun a h1 h2 => by subst h1; simp only [handleDec, Operand.read_refused h2, error_bind])
    (fun hd => ⟨_, _, handleDec_ok hp hd, Effect.setFlagsDrawn _ _ _⟩)

theorem handleNeg_answers (hp : dst.isPlace = true) :
    Answers s (handleNeg dst s) (dst.accesses .read ++ dst.accesses .write) 0 dst.names true none :=
  .readWrite
    (fun a h1 h2 => by subst h1; simp only [handleNeg, Operand.read_refused h2, error_bind])
    (fun hd => ⟨_, _, handleNeg_ok hp hd, Effect.setFlagsDrawn _ _ _⟩)

theorem handleNot_answers (hp : dst.isPlace = true) :
    Answers s (handleNot dst s) (dst.accesses .read ++ dst.accesses .write) 0 dst.names false none :=
  .readWrite
    (fun a h1 h2 => by subst h1; simp only [handleNot, Operand.read_refused h2, error_bind])
    (fun hd => ⟨_, _, handleNot_ok hp hd, Effect.refl _⟩)

theorem handleSetcc_answers (cc : Cond) (dst : Operand .w1) (hp : dst.isPlace = true) :
    Answers s (handleSetcc cc dst s) (dst.accesses .write) 0 dst.names false none := by
  by_cases hd : dst.admitted s
  · exact .done ((dst.admitted_iff .write s).1 hd) (handleSetcc_ok hp hd)
      ((Effect.evalCond cc s).trans (Effect.put _ _ _) |>.cast rfl rfl rfl rfl)
  · obtain ⟨a, rfl, hb⟩ := Operand.refused hd
    exact .refused [] _ (by simp) (access_refused_iff.2 hb)
      (memWrite_refused (s := (evalCond cc s).2) (by rw [evalCond_cfg]; exact hb))

/-- `n` is the masked count. -/
theorem handleShl_answers (hp : dst.isPlace = true) (count : Operand .w1) (hc : ∀ t, count.admitted t)
    (hr : ∀ t, count.readDone t = t) (n : Nat) (hn : maskedCount (count.value (dst.readDone s)) = n) :
    Answers s (handleShl dst count s)
      (if n = 0 then dst.accesses .read else dst.accesses .read ++ dst.accesses .write) 0 dst.names (decide (n ≠ 0))
      none := by
  have h0 : ∀ a, dst = .mem a → admission s.cfg w a = none →
      handleShl dst count s = .error (.memOutOfBounds a w .read) := by
    intro a h1 h2
    subst h1
    simp only [handleShl, Operand.read_refused h2, error_bind]
  by_cases hz : n = 0
  · simp only [hz, if_true, ne_eq, not_true_eq_false, decide_false]
    refine .readOnly h0 fun hd => ⟨_, handleShl_zero hd (hc s) (hn.trans hz), ?_⟩
    rw [hr]
    exact (Effect.refl _).moreNames (by simp)
  · simp only [hz, if_false, ne_eq, not_false_eq_true, decide_true]
    refine .readWrite h0 fun hd => ?_
    obtain ⟨cf, of, k, h1, -, -⟩ := handleShl_ok hp hd (hc s) (by rw [hn]; exact hz)
    rw [hr] at h1
    exact ⟨_, _, h1, Effect.flagsAndDraws _ _ _ _⟩

/-- `n` is the masked count. -/
theorem handleShr_answers (hp : dst.isPlace = true) (count : Operand .w1) (hc : ∀ t, count.admitted t)
    (hr : ∀ t, count.readDone t = t) (n : Nat) (hn : maskedCount (count.value (dst.readDone s)) = n) :
    Answers s (handleShr dst count s)
      (if n = 0 then dst.accesses .read else dst.accesses .read ++ dst.accesses .write) 0 dst.names (decide (n ≠ 0))
      none := by
  have h0 : ∀ a, dst = .mem a → admission s.cfg w a = none →
      handleShr dst count s = .error (.memOutOfBounds a w .read) := by
    intro a h1 h2
    subst h1
    simp only [handleShr, Operand.read_refused h2, error_bind]
  by_cases hz : n = 0
  · simp only [hz, if_true, ne_eq, not_true_eq_false, decide_false]
    refine .readOnly h0 fun hd => ⟨_, handleShr_zero hd (hc s) (hn.trans hz), ?_⟩
    rw [hr]
    exact (Effect.refl _).moreNames (by simp)
  · simp only [hz, if_false, ne_eq, not_false_eq_true, decide_true]
    refine .readWrite h0 fun hd => ?_
    obtain ⟨cf, of, k, h1, -, -⟩ := handleShr_ok hp hd (hc s) (by rw [hn]; exact hz)
    rw [hr] at h1
    exact ⟨_, _, h1, Effect.flagsAndDraws _ _ _ _⟩

/-- `n` is the masked count. -/
theorem handleSar_answers (hp : dst.isPlace = true) (count : Operand .w1) (hc : ∀ t, count.admitted t)
    (hr : ∀ t, count.readDone t = t) (n : Nat) (hn : maskedCount (count.value (dst.readDone s)) = n) :
    Answers s (handleSar dst count s)
      (if n = 0 then dst.accesses .read else dst.accesses .read ++ dst.accesses .write) 0 dst.names (decide (n ≠ 0))
      none := by
  have h0 : ∀ a, dst = .mem a → admission s.cfg w a = none →
      handleSar dst count s = .error (.memOutOfBounds a w .read) := by
    intro a h1 h2
    subst h1
    simp only [handleSar, Operand.read_refused h2, error_bind]
  by_cases hz : n = 0
  · simp only [hz, if_true, ne_eq, not_true_eq_false, decide_false]
    refine .readOnly h0 fun hd => ⟨_, handleSar_zero hd (hc s) (hn.trans hz), ?_⟩
    rw [hr]
    exact (Effect.refl _).moreNames (by simp)
  · simp only [hz, if_false, ne_eq, not_false_eq_true, decide_true]
    refine .readWrite h0 fun hd => ?_
    obtain ⟨cf, of, k, h1, -, -⟩ := handleSar_ok hp hd (hc s) (by rw [hn]; exact hz)
    rw [hr] at h1
    exact ⟨_, _, h1, Effect.flagsAndDraws _ _ _ _⟩

end OneOperand

/-! ### Multiply and divide -/

section MulDiv

variable {w : Width} (src : Operand w) (s : State)

theorem handleMul_answers :
    Answers s (handleMul src s) (src.accesses .read) 0 [(w, .eax), (w, pairHigh w)] true none :=
  .readOnly
    (fun a h1 h2 => by subst h1; simp only [handleMul, Operand.read_refused h2, error_bind])
    (fun hs => by
      obtain ⟨f, k, h1, -⟩ := handleMul_ok hs
      exact ⟨_, h1, (Effect.setPair _ _ _ _).trans (Effect.flagsAndDraws _ _ _ _) |>.cast rfl rfl rfl rfl⟩)

theorem handleImul1_answers :
    Answers s (handleImul1 src s) (src.accesses .read) 0 [(w, .eax), (w, pairHigh w)] true none :=
  .readOnly
    (fun a h1 h2 => by subst h1; simp only [handleImul1, Operand.read_refused h2, error_bind])
    (fun hs => by
      obtain ⟨f, k, h1, -⟩ := handleImul1_ok hs
      exact ⟨_, h1, (Effect.setPair _ _ _ _).trans (Effect.flagsAndDraws _ _ _ _) |>.cast rfl rfl rfl rfl⟩)

/-- `f` says whether the parameters let the flags change (41_muldiv.md R251). -/
theorem handleImul2_answers (dst : Operand w) (hp : dst.isPlace = true) (f : Bool)
    (hf : f = true ∨ s.cfg.imulTrunc = .unchanged) :
    Answers s (handleImul2 dst src s) (dst.accesses .read ++ src.accesses .read ++ dst.accesses .write) 0 dst.names f
      none := by
  refine .readReadWrite
    (fun a h1 h2 => by subst h1; simp only [handleImul2, Operand.read_refused h2, error_bind])
    (fun a hd h1 h2 => by
      subst h1; simp only [handleImul2, Operand.read_ok hd, ok_bind, Operand.read_refused_after h2, error_bind])
    (fun hd hs => ?_)
  obtain ⟨fl, k, h1, h2, -⟩ := handleImul2_ok hp hd hs
  refine ⟨_, h1, (effect_readReadWrite dst src s _ fl _ k).withFlags f ?_⟩
  intro h
  rcases hf with hf | hf
  · rw [hf] at h; cases h
  · exact ⟨h2 hf, by rw [hf]; rfl⟩

theorem handleImul3_answers (r : Reg) (v : BitVec w.bits) (f : Bool) (hf : f = true ∨ s.cfg.imulTrunc = .unchanged) :
    Answers s (handleImul3 (.reg r) src (.imm v) s) (src.accesses .read) 0 [(w, r)] f none := by
  refine .readOnly (fun a h1 h2 => by subst h1; simp only [handleImul3, Operand.read_refused h2, error_bind])
    (fun hs => ?_)
  obtain ⟨fl, k, h1, h2, -⟩ := handleImul3_ok (dst := .reg r) (src2 := .imm v) rfl trivial hs trivial
  refine ⟨_, h1, ((Effect.setReg w r _ (src.readDone s)).trans (Effect.flagsAndDraws _ fl _ k)
    |>.cast (by simp) rfl (by simp) rfl).withFlags f ?_⟩
  intro h
  rcases hf with hf | hf
  · rw [hf] at h; cases h
  · exact ⟨by simpa using h2 hf, by rw [hf]; simp [imulTruncDrawn]⟩

/-- The pair as a number is the dividend of 41_muldiv.md R257. -/
theorem pair_toNat (w : Width) (s : State) : (s.highHalf w ++ s.lowHalf w).toNat = dividend w s := by
  rw [toNat_concat]
  cases w with
  | w4 => rfl
  | w1 =>
    simp only [State.highHalf, State.lowHalf, pairHigh, dividend, Regs.read, byteHome, isHighByte, Regs.get, if_true,
      Bool.false_eq_true, if_false, BitVec.extractLsb'_toNat, Nat.shiftRight_eq_div_pow]
    norm_num [Width.bits]
    omega
  | w2 =>
    simp only [State.highHalf, State.lowHalf, pairHigh, dividend, Regs.read, Regs.get, BitVec.extractLsb'_toNat,
      Nat.shiftRight_eq_div_pow]
    norm_num [Width.bits]

/-- The pair as a signed number is the dividend of R258. -/
theorem pair_toInt (w : Width) (s : State) : (s.highHalf w ++ s.lowHalf w).toInt = signedDividend w s := by
  rw [signedDividend, ← pair_toNat]
  generalize s.highHalf w ++ s.lowHalf w = v
  have h : ∀ {n : Nat} (v : BitVec n), v = BitVec.ofNat n v.toNat := fun v => by simp
  cases w with
  | w1 => exact congrArg BitVec.toInt (h (n := 16) v)
  | w2 => exact congrArg BitVec.toInt (h (n := 32) v)
  | w4 => exact congrArg BitVec.toInt (h (n := 64) v)

theorem divError_cases {w : Width} (x : BitVec w.bits) (s : State) :
    (x.toNat = 0 → divError x s = some .zero) ∧
    (x.toNat ≠ 0 → 2 ^ w.bits ≤ dividend w s / x.toNat → divError x s = some .overflow) ∧
    (x.toNat ≠ 0 → dividend w s / x.toNat < 2 ^ w.bits → divError x s = none) := by
  have hx : x = 0 ↔ x.toNat = 0 := by rw [← BitVec.toNat_inj]; simp
  unfold divError
  exact ⟨fun h => if_pos (hx.2 h), fun h h2 => (if_neg (mt hx.1 h)).trans (if_pos h2),
    fun h h2 => (if_neg (mt hx.1 h)).trans (if_neg (by omega))⟩

theorem idivError_cases {w : Width} (x : BitVec w.bits) (s : State) :
    (x.toInt = 0 → idivError x s = some .zero) ∧
    (x.toInt ≠ 0 → overflows w.bits ((signedDividend w s).tdiv x.toInt) → idivError x s = some .overflow) ∧
    (x.toInt ≠ 0 → ¬ overflows w.bits ((signedDividend w s).tdiv x.toInt) → idivError x s = none) := by
  have hx : x = 0 ↔ x.toInt = 0 := by rw [← BitVec.toInt_inj]; simp
  unfold idivError
  exact ⟨fun h => if_pos (hx.2 h), fun h h2 => (if_neg (mt hx.1 h)).trans (if_pos h2),
    fun h h2 => (if_neg (mt hx.1 h)).trans (if_neg h2)⟩

theorem handleDiv_answers :
    Answers s (handleDiv src s) (src.accesses .read) 0 [(w, .eax), (w, pairHigh w)] true
      (divError (src.value s) s) := by
  by_cases hs : src.admitted s
  · have ha := (src.admitted_iff .read s).1 hs
    have hc := handleDiv_cases (s := s) hs
    dsimp only at hc
    rw [pair_toNat] at hc
    obtain ⟨e1, e2, e3⟩ := divError_cases (src.value s) s
    rcases hc with ⟨h1, h⟩ | ⟨h1, h2, h⟩ | ⟨h1, h2, fl, k, h⟩
    · rw [e1 h1]; exact .divideError ha h
    · rw [e2 h1 h2]; exact .divideError ha h
    · rw [e3 h1 h2]
      exact .done ha h ((Effect.readDone src s).trans ((Effect.setPair _ _ _ _).trans (Effect.flagsAndDraws _ _ _ _))
        |>.cast (by simp) rfl (by simp) rfl)
  · obtain ⟨a, rfl, hb⟩ := Operand.refused hs
    exact .refused [] _ (by simp) (access_refused_iff.2 hb)
      (by simp only [handleDiv, Operand.read_refused hb, error_bind])

theorem handleIdiv_answers :
    Answers s (handleIdiv src s) (src.accesses .read) 0 [(w, .eax), (w, pairHigh w)] true
      (idivError (src.value s) s) := by
  by_cases hs : src.admitted s
  · have ha := (src.admitted_iff .read s).1 hs
    have hc := handleIdiv_cases (s := s) hs
    dsimp only at hc
    rw [pair_toInt] at hc
    obtain ⟨e1, e2, e3⟩ := idivError_cases (src.value s) s
    rcases hc with ⟨h1, h⟩ | ⟨h1, h2, h⟩ | ⟨h1, h2, fl, k, h⟩
    · rw [e1 h1]; exact .divideError ha h
    · rw [e2 h1 h2]; exact .divideError ha h
    · rw [e3 h1 h2]
      exact .done ha h ((Effect.readDone src s).trans ((Effect.setPair _ _ _ _).trans (Effect.flagsAndDraws _ _ _ _))
        |>.cast (by simp) rfl (by simp) rfl)
  · obtain ⟨a, rfl, hb⟩ := Operand.refused hs
    exact .refused [] _ (by simp) (access_refused_iff.2 hb)
      (by simp only [handleIdiv, Operand.read_refused hb, error_bind])

end MulDiv

/-! ### The stack, lidt, ports and control transfer -/

theorem handlePush_answers (o : OSize) (src : Operand o.width) (s : State) :
    Answers s (handlePush o src s) (src.accesses .read ++ [slotWrite s]) 0 [(.w4, .esp)] false none := by
  by_cases hs : src.admitted s
  · have ha := (src.admitted_iff .read s).1 hs
    by_cases hd : admission s.cfg .w4 (s.regs.esp - 4) = none
    · obtain ⟨word, k, h1, -⟩ := slotWord_eq o (src.value s) (src.readDone s)
      refine .refused (y := slotWrite s) _ [] ha (access_refused_iff.2 hd) ?_
      simp only [handlePush, Operand.read_ok hs, ok_bind, h1]
      rw [push32_refused (by simpa using hd)]
      simp [slotWrite]
    · obtain ⟨word, k, h1, -⟩ := handlePush_ok hs hd
      refine .done ?_ h1 ?_
      · intro y hy
        simp only [List.mem_append, List.mem_singleton] at hy
        rcases hy with hy | rfl
        exacts [ha y hy, access_admitted_iff.2 hd]
      · have h := (((Effect.readDone src s).trans (Effect.store .w4 (s.regs.esp - 4) word _)).trans
          (Effect.setEsp _ (s.regs.esp - 4))).trans (Effect.draws _ k)
        simp only [storeDone_regs, Operand.readDone_regs] at h
        exact h.cast (by simp; rfl) rfl rfl rfl
  · obtain ⟨a, rfl, hb⟩ := Operand.refused hs
    exact .refused [] _ (by simp) (access_refused_iff.2 hb)
      (by simp only [handlePush, Operand.read_refused hb, error_bind])

theorem handleCall_answers (next : Word) (target : Operand .w4) (s : State) :
    Answers s (handleCall next target s) (target.accesses .read ++ [slotWrite s]) 0 [(.w4, .esp)] false none := by
  by_cases hs : target.admitted s
  · have ha := (target.admitted_iff .read s).1 hs
    by_cases hd : admission s.cfg .w4 (s.regs.esp - 4) = none
    · refine .refused (y := slotWrite s) _ [] ha (access_refused_iff.2 hd) ?_
      simp only [handleCall, Operand.read_ok hs, ok_bind]
      rw [push32_refused (by simpa using hd)]
      simp [slotWrite]
    · refine .done ?_ (handleCall_ok hs hd) ?_
      · intro y hy
        simp only [List.mem_append, List.mem_singleton] at hy
        rcases hy with hy | rfl
        exacts [ha y hy, access_admitted_iff.2 hd]
      · have h := (((Effect.readDone target s).trans (Effect.store .w4 (s.regs.esp - 4) next _)).trans
          (Effect.setEsp _ (s.regs.esp - 4))).trans (Effect.setPc _ (target.value s))
        simp only [storeDone_regs, Operand.readDone_regs] at h
        exact h.cast (by simp; rfl) rfl rfl rfl
  · obtain ⟨a, rfl, hb⟩ := Operand.refused hs
    exact .refused [] _ (by simp) (access_refused_iff.2 hb)
      (by simp only [handleCall, Operand.read_refused hb, error_bind])

theorem handleJcc_answers (cc : Cond) (next target : Word) (s : State) :
    Answers s (.ok (handleJcc cc next target s)) [] 0 [] false none :=
  .plain ((Effect.evalCond cc s).trans (Effect.setPc _ _))

theorem handleJmp_answers (src : Operand .w4) (s : State) :
    Answers s (handleJmp src s) (src.accesses .read) 0 [] false none :=
  .readOnly
    (fun a h1 h2 => by subst h1; simp only [handleJmp, Operand.read_refused h2, error_bind])
    (fun hs => ⟨_, handleJmp_ok hs, Effect.setPc _ _⟩)

theorem handleRet_answers (s : State) : Answers s (handleRet s) [slotRead s] 0 [(.w4, .esp)] false none := by
  by_cases h : admission s.cfg .w4 s.regs.esp = none
  · refine .refused (y := slotRead s) [] [] (by simp) (access_refused_iff.2 h) ?_
    simp only [handleRet, pop32_refused h, error_bind]
    rfl
  · refine .done (by simp only [List.mem_singleton, forall_eq]; exact access_admitted_iff.2 h) (handleRet_ok h) ?_
    have e := ((Effect.load .w4 s.regs.esp s).trans (Effect.setEsp _ (s.regs.esp + 4))).trans
      (Effect.setPc _ (loadValue .w4 s.regs.esp s))
    simp only [loadDone_regs] at e
    exact e.cast rfl rfl rfl rfl

theorem handlePop_answers (o : OSize) (dst : Operand o.width) (s : State) (hp : dst.isPlace = true) :
    Answers s (handlePop o dst s) (slotRead s :: dst.accesses .write) 0 ((.w4, .esp) :: dst.names) false none := by
  by_cases h : admission s.cfg .w4 s.regs.esp = none
  · refine .refused (y := slotRead s) [] _ (by simp) (access_refused_iff.2 h) ?_
    simp only [handlePop, pop32_refused h, error_bind]
    rfl
  · by_cases hd : dst.admitted s
    · refine .done ?_ (handlePop_ok hp h hd) ?_
      · intro y hy
        rcases List.mem_cons.1 hy with rfl | hy
        exacts [access_admitted_iff.2 h, (dst.admitted_iff .write s).1 hd y hy]
      · have e := ((Effect.load .w4 s.regs.esp s).trans (Effect.setEsp _ (s.regs.esp + 4))).trans
          (Effect.put dst ((loadValue .w4 s.regs.esp s).setWidth o.width.bits) _)
        simp only [loadDone_regs] at e
        exact e.cast rfl rfl rfl rfl
    · obtain ⟨a, rfl, hb⟩ := Operand.refused hd
      refine .refused (y := ⟨o.width, a, .write⟩) [slotRead s] [] ?_ (access_refused_iff.2 hb) ?_
      · simp only [List.mem_singleton, forall_eq]
        exact access_admitted_iff.2 h
      · simp only [handlePop, pop32_ok h, ok_bind, Operand.write]
        exact memWrite_refused (by simpa using hb)

theorem handleLeave_answers (s : State) :
    Answers s (handleLeave s) [⟨.w4, s.regs.ebp, .read⟩] 0 [(.w4, .esp), (.w4, .ebp)] false none := by
  by_cases h : admission s.cfg .w4 s.regs.ebp = none
  · refine .refused (y := ⟨.w4, s.regs.ebp, .read⟩) [] [] (by simp) (access_refused_iff.2 h) ?_
    have e : s.regs.get .ebp = s.regs.ebp := rfl
    simp only [handleLeave, e]
    rw [memRead_refused h, error_bind]
  · refine .done (by simp only [List.mem_singleton, forall_eq]; exact access_admitted_iff.2 h) (handleLeave_ok h) ?_
    have e := ((Effect.load .w4 s.regs.ebp s).trans (Effect.setEsp _ (s.regs.ebp + 4))).trans
      (Effect.setReg .w4 .ebp (loadValue .w4 s.regs.ebp s) _)
    simp only [loadDone_regs, State.setReg, Regs.write, Regs.set] at e
    exact e.cast rfl rfl rfl rfl

/-- `lidt` alone writes IDTR: it is refused at its first access that is not admitted, or reads and then writes
IDTR. -/
theorem handleLidt_answers (m : MemOp) (s : State) :
    let acc : List Access := [⟨.w2, effAddr s.regs m, .read⟩, ⟨.w4, effAddr s.regs m + 2, .read⟩]
    (∃ y, acc.find? (fun y => !y.admitted s) = some y ∧
      handleLidt m s = .error (.memOutOfBounds y.addr y.width y.kind)) ∨
    (acc.find? (fun y => !y.admitted s) = none ∧ ∃ t limit base, handleLidt m s = .ok (t.setIdtr limit base) ∧
      Effect s t acc 0 [] false) := by
  intro acc
  by_cases h : admission s.cfg .w2 (effAddr s.regs m) = none
  · left
    refine ⟨⟨.w2, effAddr s.regs m, .read⟩, ?_, ?_⟩
    · simp only [acc, List.find?_cons, access_refused_iff.2 h, Bool.not_false]
    · simp only [handleLidt]
      rw [memRead_refused h, error_bind]
  · by_cases h2 : admission s.cfg .w4 (effAddr s.regs m + 2) = none
    · left
      refine ⟨⟨.w4, effAddr s.regs m + 2, .read⟩, ?_, ?_⟩
      · simp only [acc, List.find?_cons, access_admitted_iff.2 h, access_refused_iff.2 h2, Bool.not_false, Bool.not_true]
      · simp only [handleLidt, memRead_ok h, ok_bind]
        rw [memRead_refused (by simpa using h2), error_bind]
    · right
      refine ⟨Answers.find_none ?_, _, _, _, handleLidt_ok h h2, ?_⟩
      · intro y hy
        simp only [acc, List.mem_cons, List.not_mem_nil, or_false] at hy
        rcases hy with rfl | rfl
        exacts [access_admitted_iff.2 h, access_admitted_iff.2 h2]
      · exact (Effect.load _ _ _).trans (Effect.load _ _ _) |>.cast rfl rfl rfl rfl

theorem handleIn_answers (w : Width) (port : Half) (s : State) :
    Answers s (.ok (handleIn w port s)) [] 1 [(w, .eax)] false none := by
  have h : (Event.portRead port w (((Config.drawWord s.draws).setWidth w.bits).setWidth 32)).fits = true := by
    cases w <;> simp only [Event.fits, decide_eq_true_eq, BitVec.toNat_setWidth] <;>
      exact Nat.lt_of_le_of_lt (Nat.mod_le _ _) (by simp only [Width.bits]; omega)
  exact .plain ((Effect.port s _ h (s.draws + 1)).trans
    (Effect.setReg w .eax ((Config.drawWord s.draws).setWidth w.bits) _) |>.cast rfl rfl rfl rfl)

theorem handleOut_answers (w : Width) (port : Half) (s : State) :
    Answers s (.ok (handleOut w port s)) [] 1 [] false none := by
  have h : ∀ (w : Width) (v : BitVec w.bits), (Event.portWrite port w (v.setWidth 32)).fits = true := by
    intro w v
    cases w <;> simp only [Event.fits, decide_eq_true_eq, BitVec.toNat_setWidth] <;>
      exact Nat.lt_of_le_of_lt (Nat.mod_le _ _) v.isLt
  refine .plain ?_
  unfold handleOut
  split
  · exact Effect.port s _ (h _ _) s.draws
  · exact Effect.port s _ (h _ _) s.draws

end Sys2Proof.Machine
end

