-- ==== Sys2Proof/Laws/Encoding.lean ====
section
/-! SUPPORT. The pieces of an encoding and the decoder's readers of them, in both directions: a reader gives
back the piece from its bytes, and what a reader answers has the bytes it read. -/

namespace Sys2Proof

/-! ### Fields and numbers -/

@[simp] theorem Reg.ofNum_num (r : Reg) : Reg.ofNum r.num = r := by cases r <;> rfl

theorem Reg.num_lt (r : Reg) : r.num < 8 := by cases r <;> decide

theorem Reg.num_ofNum {n : Nat} (h : n < 8) : (Reg.ofNum n).num = n := by
  match n, h with
  | 0, _ | 1, _ | 2, _ | 3, _ | 4, _ | 5, _ | 6, _ | 7, _ => rfl

@[simp] theorem Scale.ofNum_num (r : Scale) : Scale.ofNum r.num = r := by cases r <;> rfl

theorem Scale.num_lt (r : Scale) : r.num < 4 := by cases r <;> decide

theorem Scale.num_ofNum {n : Nat} (h : n < 4) : (Scale.ofNum n).num = n := by
  match n, h with
  | 0, _ | 1, _ | 2, _ | 3, _ => rfl

@[simp] theorem Cond.ofNum_num (c : Cond) : Cond.ofNum c.num = some c := by cases c <;> rfl

theorem Cond.num_lt (c : Cond) : c.num < 16 := by cases c <;> decide

theorem Disp.mod_lt (d : Disp) : d.mod < 3 := by cases d <;> simp [Disp.mod]

theorem OSize.ofPrefix_o16 : OSize.ofPrefix true = .o16 := rfl

theorem OSize.ofPrefix_o32 : OSize.ofPrefix false = .o32 := rfl

/-- A ModR/M or SIB byte is read back field by field. -/
theorem fieldsByte_fields {a b c : Nat} (ha : a < 4) (hb : b < 8) (hc : c < 8) :
    highField (fieldsByte a b c) = a ∧ midField (fieldsByte a b c) = b ∧ lowField (fieldsByte a b c) = c := by
  simp only [highField, midField, lowField, fieldsByte, BitVec.toNat_ofNat]
  omega

theorem highField_lt (b : Byte) : highField b < 4 := by
  have := b.isLt
  simp only [highField]; omega

theorem midField_lt (b : Byte) : midField b < 8 := by simp only [midField]; omega

theorem lowField_lt (b : Byte) : lowField b < 8 := by simp only [lowField]; omega

/-- A byte is made of its three fields. -/
theorem fieldsByte_of_fields (b : Byte) : fieldsByte (highField b) (midField b) (lowField b) = b := by
  apply BitVec.eq_of_toNat_eq
  have := b.isLt
  simp only [highField, midField, lowField, fieldsByte, BitVec.toNat_ofNat]
  omega

theorem opReg_toNat {op : Nat} (h : op < 240) (r : Reg) : (opReg op r).toNat = op + r.num := by
  have := Reg.num_lt r
  simp only [opReg, BitVec.toNat_ofNat]; omega

theorem opCond_toNat {op : Nat} (h : op < 240) (c : Cond) : (opCond op c).toNat = op + c.num := by
  have := Cond.num_lt c
  simp only [opCond, BitVec.toNat_ofNat]; omega

/-! ### Little-endian fields -/

theorem byte_fields_half (b0 b1 : Byte) : halfBytes (b1 ++ b0) = [b0, b1] := by
  obtain ⟨h0, h1⟩ := half_bytes b0 b1
  simp only [halfBytes, h0, h1]

theorem byte_fields_word (b0 b1 b2 b3 : Byte) : wordBytes (b3 ++ b2 ++ b1 ++ b0) = [b0, b1, b2, b3] := by
  obtain ⟨h0, h1, h2, h3⟩ := word_bytes b0 b1 b2 b3
  simp only [wordBytes, h0, h1, h2, h3]

theorem takeHalf_bytes (v : Half) (bs : List Byte) : takeHalf (halfBytes v ++ bs) = .ok (v, bs) := by
  simp only [halfBytes, takeHalf, List.cons_append, List.nil_append, half_join]

theorem takeWord_bytes (v : Word) (bs : List Byte) : takeWord (wordBytes v ++ bs) = .ok (v, bs) := by
  simp only [wordBytes, takeWord, List.cons_append, List.nil_append, word_join]

theorem takeByte_inv {bs rest : List Byte} {v : Byte} (h : takeByte bs = .ok (v, rest)) : bs = v :: rest := by
  match bs, h with
  | b :: bs, h => cases h; rfl

theorem takeHalf_inv {bs rest : List Byte} {v : Half} (h : takeHalf bs = .ok (v, rest)) :
    bs = halfBytes v ++ rest := by
  match bs, h with
  | b0 :: b1 :: bs, h => cases h; rw [byte_fields_half]; rfl

theorem takeWord_inv {bs rest : List Byte} {v : Word} (h : takeWord bs = .ok (v, rest)) :
    bs = wordBytes v ++ rest := by
  match bs, h with
  | b0 :: b1 :: b2 :: b3 :: bs, h => cases h; rw [byte_fields_word]; rfl

theorem takeImmV_bytes (imm : ImmV) (bs : List Byte) :
    takeImmV (imm.osz == .o16) (imm.bytes ++ bs) = .ok (imm, bs) := by
  cases imm with
  | i16 v => simp only [takeImmV, ImmV.bytes, takeHalf_bytes]; rfl
  | i32 v => simp only [takeImmV, ImmV.bytes, takeWord_bytes]; rfl

theorem takeImmV_inv {p : Bool} {bs rest : List Byte} {imm : ImmV} (h : takeImmV p bs = .ok (imm, rest)) :
    bs = imm.bytes ++ rest ∧ imm.osz = OSize.ofPrefix p := by
  cases p with
  | true =>
    obtain ⟨⟨v, r⟩, hv, h⟩ := bind_ok h
    cases h
    exact ⟨takeHalf_inv hv, rfl⟩
  | false =>
    obtain ⟨⟨v, r⟩, hv, h⟩ := bind_ok h
    cases h
    exact ⟨takeWord_inv hv, rfl⟩

theorem takeDisp_bytes (d : Disp) (bs : List Byte) : takeDisp d.mod (d.bytes ++ bs) = .ok (d, bs) := by
  cases d with
  | none => rfl
  | d8 v => rfl
  | d32 v => simp only [takeDisp, Disp.mod, Disp.bytes, takeWord_bytes]; rfl

theorem takeDisp_inv {mod : Nat} {bs rest : List Byte} {d : Disp} (hm : mod < 3)
    (h : takeDisp mod bs = .ok (d, rest)) : bs = d.bytes ++ rest ∧ d.mod = mod := by
  match mod, hm with
  | 0, _ => cases h; exact ⟨rfl, rfl⟩
  | 1, _ =>
    obtain ⟨⟨v, r⟩, hv, h⟩ := bind_ok h
    cases h
    exact ⟨takeByte_inv hv, rfl⟩
  | 2, _ =>
    obtain ⟨⟨v, r⟩, hv, h⟩ := bind_ok h
    cases h
    exact ⟨takeWord_inv hv, rfl⟩

/-! ### ModR/M, SIB and displacement -/

/-- A displacement form that fits its base is not mod = 00 with EBP. -/
theorem Disp.fitsBase_iff (d : Disp) (b : Reg) : d.fitsBase b = true ↔ ¬ (d.mod = 0 ∧ b = .ebp) := by
  cases d <;> cases b <;> simp [Disp.fitsBase, Disp.mod]

/-- The reader of a memory operand gives it back from its bytes; the ModR/M byte holds `k` in `reg`. -/
theorem takeMem_bytes {m : MemOp} (hw : m.wellFormed = true) {noEsp : Bool}
    (hn : noEsp = true → m.usesEsp = false) {k : Nat} (hk : k < 8) (bs : List Byte) :
    ∃ b tl, m.bytes k ++ bs = b :: tl ∧ midField b = k ∧ highField b < 3 ∧
      takeMem noEsp b tl = .ok (m, bs) := by
  cases m with
  | abs a =>
    obtain ⟨h1, h2, h3⟩ := fieldsByte_fields (a := 0) (c := 5) (by omega) hk (by omega)
    refine ⟨_, wordBytes a ++ bs, rfl, h2, by omega, ?_⟩
    have h5 : Reg.ofNum 5 = .ebp := rfl
    simp only [takeMem, h1, h3, h5, reduceCtorEq, if_false, and_self, if_true, takeWord_bytes, ok_bind]
    rfl
  | base b d =>
    have hd := Disp.mod_lt d
    obtain ⟨h1, h2, h3⟩ := fieldsByte_fields (a := d.mod) (c := b.num) (by omega) hk (Reg.num_lt b)
    refine ⟨_, d.bytes ++ bs, rfl, h2, by omega, ?_⟩
    simp only [MemOp.wellFormed, Bool.and_eq_true, bne_iff_ne] at hw
    have hf := (Disp.fitsBase_iff d b).1 hw.2
    simp only [takeMem, h1, h3, Reg.ofNum_num, hw.1, if_false, hf, takeDisp_bytes, ok_bind]
    rfl
  | sib sc ix b d =>
    have hd := Disp.mod_lt d
    obtain ⟨h1, h2, h3⟩ := fieldsByte_fields (a := d.mod) (c := 4) (by omega) hk (by omega)
    obtain ⟨g1, g2, g3⟩ := fieldsByte_fields (Scale.num_lt sc) (Reg.num_lt ix) (Reg.num_lt b)
    refine ⟨_, fieldsByte sc.num ix.num b.num :: (d.bytes ++ bs), rfl, h2, by omega, ?_⟩
    have hf := (Disp.fitsBase_iff d b).1 hw
    have he : ¬ (noEsp = true ∧ b = .esp) := by
      rintro ⟨h, rfl⟩
      simpa [MemOp.usesEsp] using hn h
    have h4 : Reg.ofNum 4 = .esp := rfl
    simp only [takeMem, h1, h3, h4, if_true, takeByte, ok_bind, g1, g2, g3,
      Reg.ofNum_num, Scale.ofNum_num, if_neg he, if_neg hf, takeDisp_bytes]
    rfl
  | sibNoBase sc ix d =>
    obtain ⟨h1, h2, h3⟩ := fieldsByte_fields (a := 0) (c := 4) (by omega) hk (by omega)
    obtain ⟨g1, g2, g3⟩ := fieldsByte_fields (c := 5) (Scale.num_lt sc) (Reg.num_lt ix) (by omega)
    refine ⟨_, fieldsByte sc.num ix.num 5 :: (wordBytes d ++ bs), rfl, h2, by omega, ?_⟩
    have h4 : Reg.ofNum 4 = .esp := rfl
    have h5 : Reg.ofNum 5 = .ebp := rfl
    simp only [takeMem, h1, h3, h4, h5, if_true, takeByte, ok_bind, g1, g2, g3,
      Reg.ofNum_num, Scale.ofNum_num, reduceCtorEq, and_false, if_false, and_self, takeWord_bytes]
    rfl

theorem takeRM_bytes {rm : RM} (hw : rm.wellFormed = true) {noEsp : Bool}
    (hn : noEsp = true → rm.usesEsp = false) {k : Nat} (hk : k < 8) (bs : List Byte) :
    ∃ b tl, rm.bytes k ++ bs = b :: tl ∧ midField b = k ∧ takeRM noEsp b tl = .ok (rm, bs) := by
  cases rm with
  | reg r =>
    obtain ⟨h1, h2, h3⟩ := fieldsByte_fields (a := 3) (by omega) hk (Reg.num_lt r)
    exact ⟨_, _, rfl, h2, by simp [takeRM, h1, h3]⟩
  | mem m =>
    obtain ⟨b, tl, h1, h2, h3, h4⟩ := takeMem_bytes hw hn hk bs
    refine ⟨b, tl, h1, h2, ?_⟩
    have h5 : highField b ≠ 3 := by omega
    simp only [takeRM, h5, if_false, h4, ok_bind]
    rfl

/-- What the reader of a memory operand answers is well-formed and has the bytes it read. -/
theorem takeMem_inv {noEsp : Bool} {b : Byte} {tl rest : List Byte} {m : MemOp} (hb : highField b ≠ 3)
    (h : takeMem noEsp b tl = .ok (m, rest)) :
    m.wellFormed = true ∧ (noEsp = true → m.usesEsp = false) ∧ b :: tl = m.bytes (midField b) ++ rest := by
  have hlt : highField b < 3 := by have := highField_lt b; omega
  have hfb := fieldsByte_of_fields b
  have hnum := Reg.num_ofNum (lowField_lt b)
  simp only [takeMem] at h
  split at h
  · next h4 =>
    obtain ⟨⟨sib, tl'⟩, hs, h'⟩ := bind_ok h
    clear h
    have hs' := takeByte_inv hs
    subst hs'
    have hsb := fieldsByte_of_fields sib
    have n1 := Scale.num_ofNum (highField_lt sib)
    have n2 := Reg.num_ofNum (midField_lt sib)
    have n3 := Reg.num_ofNum (lowField_lt sib)
    have l4 : lowField b = 4 := by rw [h4] at hnum; exact hnum.symm
    split at h'
    · cases h'
    · next he =>
      split at h'
      · next h5 =>
        obtain ⟨⟨d, r⟩, hd, h'⟩ := bind_ok h'
        cases h'
        have l5 : lowField sib = 5 := by rw [h5.2] at n3; exact n3.symm
        refine ⟨rfl, fun _ => rfl, ?_⟩
        simp only [MemOp.bytes, n1, n2, List.cons_append, ← takeWord_inv hd]
        rw [← h5.1, ← l4, hfb, ← l5, hsb]
      · next h5 =>
        obtain ⟨⟨d, r⟩, hd, h'⟩ := bind_ok h'
        cases h'
        obtain ⟨e1, e2⟩ := takeDisp_inv hlt hd
        refine ⟨?_, ?_, ?_⟩
        · exact (Disp.fitsBase_iff _ _).2 (by rw [e2]; exact h5)
        · intro hn
          simp only [MemOp.usesEsp, beq_eq_false_iff_ne]
          exact fun hb => he ⟨hn, hb⟩
        · simp only [MemOp.bytes, n1, n2, n3, e2, List.cons_append, ← e1]
          rw [← l4, hfb, hsb]
  · next h4 =>
    split at h
    · next h5 =>
      obtain ⟨⟨d, r⟩, hd, h⟩ := bind_ok h
      cases h
      have l5 : lowField b = 5 := by rw [h5.2] at hnum; exact hnum.symm
      refine ⟨rfl, fun _ => rfl, ?_⟩
      simp only [MemOp.bytes, List.cons_append, ← takeWord_inv hd]
      rw [← h5.1, ← l5, hfb]
    · next h5 =>
      obtain ⟨⟨d, r⟩, hd, h⟩ := bind_ok h
      cases h
      obtain ⟨e1, e2⟩ := takeDisp_inv hlt hd
      refine ⟨?_, ?_, ?_⟩
      · simp only [MemOp.wellFormed, Bool.and_eq_true, bne_iff_ne]
        exact ⟨h4, (Disp.fitsBase_iff _ _).2 (by rw [e2]; exact h5)⟩
      · intro _
        simp only [MemOp.usesEsp, beq_eq_false_iff_ne]
        exact h4
      · simp only [MemOp.bytes, hnum, e2, List.cons_append, ← e1]
        rw [hfb]

theorem takeRM_inv {noEsp : Bool} {b : Byte} {tl rest : List Byte} {rm : RM}
    (h : takeRM noEsp b tl = .ok (rm, rest)) :
    rm.wellFormed = true ∧ (noEsp = true → rm.usesEsp = false) ∧ b :: tl = rm.bytes (midField b) ++ rest := by
  simp only [takeRM] at h
  split at h
  · next h3 =>
    cases h
    refine ⟨rfl, fun _ => rfl, ?_⟩
    simp only [RM.bytes, Reg.num_ofNum (lowField_lt b), List.cons_append, List.nil_append]
    rw [← h3, fieldsByte_of_fields]
  · next h3 =>
    obtain ⟨⟨m, r⟩, hm, h⟩ := bind_ok h
    cases h
    exact takeMem_inv h3 hm

/-! ### The prefix, the opcode and the row -/

section Rows

variable {g p e f : Bool} {seen : List Byte} {row : Reg → Option ModRow}

/-- With or without a prefix, the opcode byte comes next. -/
theorem decode_pfx {op : Byte} (tl : List Byte) (h : isPrefix op = false) :
    decode g (pfx p ++ op :: tl) = decodeOpcode g p (pfx p) op tl := by
  have h2 := h
  simp only [isPrefix, Bool.or_eq_false_iff, beq_eq_false_iff_ne] at h2
  cases p with
  | true =>
    simp only [decode, pfx, if_true, List.cons_append, List.nil_append, takeByte, ok_bind, h, Bool.false_eq_true,
      if_false]
  | false =>
    simp only [decode, pfx, Bool.false_eq_true, if_false, List.nil_append, takeByte, ok_bind, h2.1, h2.2]

theorem decodeOpcode_one {op : Byte} (tl : List Byte) (h : op ≠ 0x0F) :
    decodeOpcode g p seen op tl = decodeRow g p (seen ++ [op]) (oneByte p op.toNat) tl := by
  simp only [decodeOpcode, h, if_false]

theorem decodeOpcode_two (op2 : Byte) (tl : List Byte) :
    decodeOpcode g p seen 0x0F (op2 :: tl) = decodeRow g p (seen ++ [0x0F, op2]) (twoByte p op2.toNat) tl := rfl

/-- A row that is admitted goes by its layout. -/
theorem decodeRow_modrm {r : OpRow} {m : Reg → Option ModRow} (tl : List Byte) (hl : r.layout = .modrm m)
    (he : r.ext = true → g = true) (hr : (r.ref && p) = false) :
    decodeRow g p seen r tl = decodeModRM g p seen m tl := by
  have h4 : ¬ (r.ext = true ∧ ¬ g = true) := fun h => h.2 (he h.1)
  have h5 : ¬ (r.ref = true ∧ p = true) := by simpa [← Bool.and_eq_true] using hr
  simp only [decodeRow, hl, if_neg h4, if_neg h5]

theorem decodeRow_bare {r : OpRow} {i : Instr} (tl : List Byte) (hl : r.layout = .bare i)
    (he : r.ext = true → g = true) (hr : (r.ref && p) = false) :
    decodeRow g p seen r tl = .ok (i, tl) := by
  have h4 : ¬ (r.ext = true ∧ ¬ g = true) := fun h => h.2 (he h.1)
  have h5 : ¬ (r.ref = true ∧ p = true) := by simpa [← Bool.and_eq_true] using hr
  simp only [decodeRow, hl, if_neg h4, if_neg h5]
  rfl

theorem decodeRow_imm8 {r : OpRow} {mk : Byte → Instr} (imm : Byte) (tl : List Byte) (hl : r.layout = .imm8 mk)
    (he : r.ext = true → g = true) (hr : (r.ref && p) = false) :
    decodeRow g p seen r (imm :: tl) = .ok (mk imm, tl) := by
  have h4 : ¬ (r.ext = true ∧ ¬ g = true) := fun h => h.2 (he h.1)
  have h5 : ¬ (r.ref = true ∧ p = true) := by simpa [← Bool.and_eq_true] using hr
  simp only [decodeRow, hl, if_neg h4, if_neg h5, takeByte, ok_bind]
  rfl

theorem decodeRow_stub {r : OpRow} {m : Placeholder} {mk : Byte → Instr} (b : Byte) (tl : List Byte)
    (hl : r.layout = .stub m mk) (he : r.ext = true → g = true) (hr : (r.ref && p) = false) :
    decodeRow g p seen r (b :: tl) = .ok (mk b, tl) := by
  have h4 : ¬ (r.ext = true ∧ ¬ g = true) := fun h => h.2 (he h.1)
  have h5 : ¬ (r.ref = true ∧ p = true) := by simpa [← Bool.and_eq_true] using hr
  simp only [decodeRow, hl, if_neg h4, if_neg h5]
  rfl

theorem decodeRow_imm32 {r : OpRow} {mk : Word → Instr} (imm : Word) (tl : List Byte) (hl : r.layout = .imm32 mk)
    (he : r.ext = true → g = true) (hr : (r.ref && p) = false) :
    decodeRow g p seen r (wordBytes imm ++ tl) = .ok (mk imm, tl) := by
  have h4 : ¬ (r.ext = true ∧ ¬ g = true) := fun h => h.2 (he h.1)
  have h5 : ¬ (r.ref = true ∧ p = true) := by simpa [← Bool.and_eq_true] using hr
  simp only [decodeRow, hl, if_neg h4, if_neg h5, takeWord_bytes, ok_bind]
  rfl

theorem decodeRow_immV {r : OpRow} {mk : ImmV → Instr} (imm : ImmV) (tl : List Byte) (hp : p = (imm.osz == .o16))
    (hl : r.layout = .immV mk) (he : r.ext = true → g = true) (hr : (r.ref && p) = false) :
    decodeRow g p seen r (imm.bytes ++ tl) = .ok (mk imm, tl) := by
  have h4 : ¬ (r.ext = true ∧ ¬ g = true) := fun h => h.2 (he h.1)
  have h5 : ¬ (r.ref = true ∧ p = true) := by simpa [← Bool.and_eq_true] using hr
  subst hp
  simp only [decodeRow, hl, if_neg h4, if_neg h5, takeImmV_bytes, ok_bind]
  rfl

/-! ### Rows with a ModR/M byte -/

theorem decodeModRM_plain {mk : RM → Instr} {rm : RM} (r : Reg) (hw : rm.wellFormed = true) (bs : List Byte)
    (hrow : row r = some { ext := e, ref := f, layout := .plain mk })
    (he : e = true → g = true) (hf : (f && p) = false) :
    decodeModRM g p seen row (rm.bytes r.num ++ bs) = .ok (mk rm, bs) := by
  obtain ⟨b, tl, h1, h2, h3⟩ := takeRM_bytes hw (noEsp := false) (by simp) (Reg.num_lt r) bs
  have h4 : ¬ (e = true ∧ ¬ g = true) := fun h => h.2 (he h.1)
  have h5 : ¬ (f = true ∧ p = true) := by simpa [← Bool.and_eq_true] using hf
  rw [h1]
  simp only [decodeModRM, takeByte, ok_bind, h2, Reg.ofNum_num, hrow, if_neg h4, if_neg h5, h3]
  rfl

theorem decodeModRM_imm8 {mk : RM → Byte → Instr} {rm : RM} (r : Reg) (hw : rm.wellFormed = true)
    (imm : Byte) (bs : List Byte)
    (hrow : row r = some { ext := e, ref := false, layout := .imm8 mk })
    (he : e = true → g = true) :
    decodeModRM g p seen row (rm.bytes r.num ++ imm :: bs) = .ok (mk rm imm, bs) := by
  obtain ⟨b, tl, h1, h2, h3⟩ := takeRM_bytes hw (noEsp := false) (by simp) (Reg.num_lt r) (imm :: bs)
  have h4 : ¬ (e = true ∧ ¬ g = true) := fun h => h.2 (he h.1)
  rw [h1]
  simp only [decodeModRM, takeByte, ok_bind, h2, Reg.ofNum_num, hrow, if_neg h4, Bool.false_eq_true, false_and, if_false, h3]
  rfl

theorem decodeModRM_immV {mk : RM → ImmV → Instr} {rm : RM} (r : Reg) (hw : rm.wellFormed = true)
    (imm : ImmV) (bs : List Byte) (hp : p = (imm.osz == .o16))
    (hrow : row r = some { ext := e, ref := false, layout := .immV mk })
    (he : e = true → g = true) :
    decodeModRM g p seen row (rm.bytes r.num ++ (imm.bytes ++ bs)) = .ok (mk rm imm, bs) := by
  obtain ⟨b, tl, h1, h2, h3⟩ := takeRM_bytes hw (noEsp := false) (by simp) (Reg.num_lt r) (imm.bytes ++ bs)
  have h4 : ¬ (e = true ∧ ¬ g = true) := fun h => h.2 (he h.1)
  rw [h1]
  simp only [decodeModRM, takeByte, ok_bind, h2, Reg.ofNum_num, hrow, if_neg h4, Bool.false_eq_true, false_and, if_false, h3, hp,
    takeImmV_bytes]
  rfl

theorem decodeModRM_memOnly {mk : MemOp → Instr} {m : MemOp} (r : Reg) (hw : m.wellFormed = true)
    (bs : List Byte) (hrow : row r = some { ext := e, ref := false, layout := .memOnly mk })
    (he : e = true → g = true) :
    decodeModRM g p seen row (m.bytes r.num ++ bs) = .ok (mk m, bs) := by
  obtain ⟨b, tl, h1, h2, h5, h3⟩ := takeMem_bytes hw (noEsp := false) (by simp) (Reg.num_lt r) bs
  have h4 : ¬ (e = true ∧ ¬ g = true) := fun h => h.2 (he h.1)
  have h6 : highField b ≠ 3 := by omega
  rw [h1]
  simp only [decodeModRM, takeByte, ok_bind, h2, Reg.ofNum_num, hrow, if_neg h4, Bool.false_eq_true, false_and, if_false, h6, h3]
  rfl

theorem decodeModRM_noEsp {mk : RM → Instr} {rm : RM} (r : Reg) (hw : rm.wellFormed = true)
    (hu : rm.usesEsp = false) (bs : List Byte)
    (hrow : row r = some { ext := e, ref := false, layout := .noEsp mk })
    (he : e = true → g = true) :
    decodeModRM g p seen row (rm.bytes r.num ++ bs) = .ok (mk rm, bs) := by
  obtain ⟨b, tl, h1, h2, h3⟩ := takeRM_bytes hw (noEsp := true) (fun _ => hu) (Reg.num_lt r) bs
  have h4 : ¬ (e = true ∧ ¬ g = true) := fun h => h.2 (he h.1)
  rw [h1]
  simp only [decodeModRM, takeByte, ok_bind, h2, Reg.ofNum_num, hrow, if_neg h4, Bool.false_eq_true, false_and, if_false, h3]
  rfl

end Rows

/-! ### What a decode that answers has read -/

/-- `i` is an instruction of this layout, with `r` in the ModR/M `reg` field and these bytes from ModR/M on. -/
def ModLayout.Reads (p : Bool) (r : Reg) : ModLayout → Instr → List Byte → Prop
  | .plain mk, i, bs => ∃ rm : RM, rm.wellFormed = true ∧ i = mk rm ∧ bs = rm.bytes r.num
  | .imm8 mk, i, bs => ∃ (rm : RM) (imm : Byte), rm.wellFormed = true ∧ i = mk rm imm ∧ bs = rm.bytes r.num ++ [imm]
  | .immV mk, i, bs =>
    ∃ (rm : RM) (imm : ImmV), rm.wellFormed = true ∧ imm.osz = OSize.ofPrefix p ∧ i = mk rm imm ∧
      bs = rm.bytes r.num ++ imm.bytes
  | .memOnly mk, i, bs => ∃ m : MemOp, m.wellFormed = true ∧ i = mk m ∧ bs = m.bytes r.num
  | .noEsp mk, i, bs =>
    ∃ rm : RM, rm.wellFormed = true ∧ rm.usesEsp = false ∧ i = mk rm ∧ bs = rm.bytes r.num

/-- `i` is an instruction of this layout, with these bytes after the opcode. -/
def Layout.Reads (g p : Bool) : Layout → Instr → List Byte → Prop
  | .noRow, _, _ => False
  | .parity, _, _ => False
  | .bare j, i, bs => i = j ∧ bs = []
  | .imm8 mk, i, bs => ∃ imm : Byte, i = mk imm ∧ bs = [imm]
  | .imm32 mk, i, bs => ∃ imm : Word, i = mk imm ∧ bs = wordBytes imm
  | .immV mk, i, bs => ∃ imm : ImmV, imm.osz = OSize.ofPrefix p ∧ i = mk imm ∧ bs = imm.bytes
  | .modrm row, i, bs =>
    ∃ (r : Reg) (m : ModRow), row r = some m ∧ (m.ext = true → g = true) ∧ (m.ref && p) = false ∧
      m.layout.Reads p r i bs
  | .stub _ mk, i, bs => ∃ b : Byte, i = mk b ∧ bs = [b]

theorem decodeModRM_inv {g p : Bool} {seen : List Byte} {row : Reg → Option ModRow} {bs rest : List Byte}
    {i : Instr} (h : decodeModRM g p seen row bs = .ok (i, rest)) :
    ∃ used, bs = used ++ rest ∧ (Layout.modrm row).Reads g p i used := by
  obtain ⟨⟨b, tl⟩, hb, h1⟩ := bind_ok h
  clear h
  obtain rfl := takeByte_inv hb
  clear hb
  have hn := Reg.num_ofNum (midField_lt b)
  simp only at h1
  split at h1
  · cases h1
  next r hr =>
  split at h1
  · cases h1
  next he =>
  split at h1
  · cases h1
  next hf =>
  have he' : r.ext = true → g = true := by simpa using he
  have hf' : (r.ref && p) = false := by simpa using hf
  split at h1
  · next mk hl =>
    obtain ⟨⟨rm, r1⟩, hm, h2⟩ := bind_ok h1
    cases h2
    obtain ⟨w, -, e⟩ := takeRM_inv hm
    exact ⟨_, e, _, _, hr, he', hf', by rw [hl]; exact ⟨rm, w, rfl, by rw [hn]⟩⟩
  · next mk hl =>
    obtain ⟨⟨rm, r1⟩, hm, h2⟩ := bind_ok h1
    obtain ⟨⟨imm, r2⟩, hi, h3⟩ := bind_ok h2
    cases h3
    obtain ⟨w, -, e⟩ := takeRM_inv hm
    have e2 := takeByte_inv hi
    simp only at e2
    refine ⟨rm.bytes (midField b) ++ [imm], by rw [e, e2]; simp, _, _, hr, he', hf', ?_⟩
    rw [hl]
    exact ⟨rm, imm, w, rfl, by rw [hn]⟩
  · next mk hl =>
    obtain ⟨⟨rm, r1⟩, hm, h2⟩ := bind_ok h1
    obtain ⟨⟨imm, r2⟩, hi, h3⟩ := bind_ok h2
    cases h3
    obtain ⟨w, -, e⟩ := takeRM_inv hm
    obtain ⟨e2, e3⟩ := takeImmV_inv hi
    simp only at e2
    refine ⟨rm.bytes (midField b) ++ imm.bytes, by rw [e, e2]; simp, _, _, hr, he', hf', ?_⟩
    rw [hl]
    exact ⟨rm, imm, w, e3, rfl, by rw [hn]⟩
  · next mk hl =>
    split at h1
    · cases h1
    next h3 =>
    obtain ⟨⟨m, r1⟩, hm, h2⟩ := bind_ok h1
    cases h2
    obtain ⟨w, -, e⟩ := takeMem_inv h3 hm
    exact ⟨_, e, _, _, hr, he', hf', by rw [hl]; exact ⟨m, w, rfl, by rw [hn]⟩⟩
  · next mk hl =>
    obtain ⟨⟨rm, r1⟩, hm, h2⟩ := bind_ok h1
    cases h2
    obtain ⟨w, u, e⟩ := takeRM_inv hm
    exact ⟨_, e, _, _, hr, he', hf', by rw [hl]; exact ⟨rm, w, u rfl, rfl, by rw [hn]⟩⟩

theorem decodeRow_inv {g p : Bool} {seen : List Byte} {row : OpRow} {bs rest : List Byte} {i : Instr}
    (h : decodeRow g p seen row bs = .ok (i, rest)) :
    (row.ext = true → g = true) ∧ (row.ref && p) = false ∧
      ∃ used, bs = used ++ rest ∧ row.layout.Reads g p i used := by
  simp only [decodeRow] at h
  split at h
  · cases h
  split at h
  · cases h
  next he =>
  split at h
  · cases h
  next hf =>
  have he' : row.ext = true → g = true := by simpa using he
  have hf' : (row.ref && p) = false := by simpa using hf
  refine ⟨he', hf', ?_⟩
  split at h
  · cases h
  · cases h
  · next hl => cases h; exact ⟨[], rfl, by rw [hl]; exact ⟨rfl, rfl⟩⟩
  · next hl =>
    obtain ⟨⟨imm, r1⟩, hi, h2⟩ := bind_ok h
    cases h2
    exact ⟨[imm], takeByte_inv hi, by rw [hl]; exact ⟨imm, rfl, rfl⟩⟩
  · next hl =>
    obtain ⟨⟨imm, r1⟩, hi, h2⟩ := bind_ok h
    cases h2
    exact ⟨_, takeWord_inv hi, by rw [hl]; exact ⟨imm, rfl, rfl⟩⟩
  · next hl =>
    obtain ⟨⟨imm, r1⟩, hi, h2⟩ := bind_ok h
    cases h2
    obtain ⟨e, o⟩ := takeImmV_inv hi
    exact ⟨_, e, by rw [hl]; exact ⟨imm, o, rfl, rfl⟩⟩
  · next hl => rw [hl]; exact decodeModRM_inv h
  · next hl =>
    split at h
    · cases h
    · next b _ => cases h; exact ⟨[b], rfl, by rw [hl]; exact ⟨b, rfl, rfl⟩⟩

/-- Everything a decode that answers can have read: a prefix or none, an opcode of one byte or two, and the
bytes of the opcode's row. -/
theorem decode_inv {g : Bool} {bs rest : List Byte} {i : Instr} (h : decode g bs = .ok (i, rest)) :
    ∃ (p : Bool) (used : List Byte),
      (∃ op : Byte, isPrefix op = false ∧ op ≠ 0x0F ∧ bs = pfx p ++ op :: (used ++ rest) ∧
        ((oneByte p op.toNat).ext = true → g = true) ∧ ((oneByte p op.toNat).ref && p) = false ∧
        (oneByte p op.toNat).layout.Reads g p i used) ∨
      (∃ op : Byte, bs = pfx p ++ 0x0F :: op :: (used ++ rest) ∧
        ((twoByte p op.toNat).ext = true → g = true) ∧ ((twoByte p op.toNat).ref && p) = false ∧
        (twoByte p op.toNat).layout.Reads g p i used) := by
  have key : ∀ (p : Bool) (seen : List Byte) (op : Byte) (tl : List Byte), isPrefix op = false →
      decodeOpcode g p seen op tl = .ok (i, rest) →
      ∃ used, (op ≠ 0x0F ∧ tl = used ++ rest ∧
        ((oneByte p op.toNat).ext = true → g = true) ∧ ((oneByte p op.toNat).ref && p) = false ∧
        (oneByte p op.toNat).layout.Reads g p i used) ∨
      (op = 0x0F ∧ ∃ op2 : Byte, tl = op2 :: (used ++ rest) ∧
        ((twoByte p op2.toNat).ext = true → g = true) ∧ ((twoByte p op2.toNat).ref && p) = false ∧
        (twoByte p op2.toNat).layout.Reads g p i used) := by
    intro p seen op tl _ h
    simp only [decodeOpcode] at h
    split at h
    · next h0 =>
      obtain ⟨⟨op2, r1⟩, h1, h2⟩ := bind_ok h
      obtain rfl := takeByte_inv h1
      obtain ⟨e, f, used, u, hr⟩ := decodeRow_inv h2
      simp only at u
      exact ⟨used, .inr ⟨h0, op2, by rw [u], e, f, hr⟩⟩
    · next h0 =>
      obtain ⟨e, f, used, u, hr⟩ := decodeRow_inv h
      exact ⟨used, .inl ⟨h0, u, e, f, hr⟩⟩
  simp only [decode] at h
  obtain ⟨⟨b, tl⟩, hb, h1⟩ := bind_ok h
  obtain rfl := takeByte_inv hb
  simp only at h1
  split at h1
  · next h66 =>
    obtain ⟨⟨c, tl2⟩, hc, h2⟩ := bind_ok h1
    obtain rfl := takeByte_inv hc
    simp only at h2
    split at h2
    · cases h2
    next hp =>
    have hp' : isPrefix c = false := by simpa using hp
    obtain ⟨used, ⟨h0, u, e, f, hr⟩ | ⟨h0, op2, u, e, f, hr⟩⟩ := key true _ c tl2 hp' h2
    · exact ⟨true, used, .inl ⟨c, hp', h0, by rw [h66, u]; rfl, e, f, hr⟩⟩
    · exact ⟨true, used, .inr ⟨op2, by rw [h66, h0, u]; rfl, e, f, hr⟩⟩
  · next h66 =>
    split at h1
    · cases h1
    next hp =>
    have hp' : isPrefix b = false := Bool.or_eq_false_iff.2 ⟨beq_eq_false_iff_ne.2 h66, by simpa using hp⟩
    obtain ⟨used, ⟨h0, u, e, f, hr⟩ | ⟨h0, op2, u, e, f, hr⟩⟩ := key false _ b tl hp' h1
    · exact ⟨false, used, .inl ⟨b, hp', h0, by rw [u]; rfl, e, f, hr⟩⟩
    · exact ⟨false, used, .inr ⟨op2, by rw [h0, u]; rfl, e, f, hr⟩⟩

end Sys2Proof
end

