-- ==== Sys2Proof/Laws/Run.lean ====
section
/-! SUPPORT. Unfolding a run by one step, and its end by status. -/

namespace Sys2Proof.Machine

@[simp] theorem runSteps_zero (s : State) : runSteps 0 s = s := rfl

theorem runSteps_of_next {s t : State} (h : step s = .next t) (n : Nat) : runSteps (n + 1) s = runSteps n t := by
  simp [runSteps, h]

/-- A halted core stays as it is, whatever the budget. -/
theorem runSteps_of_halted {s : State} {r : FaultRecord} (h : s.status = .halted r) (n : Nat) : runSteps n s = s := by
  cases n with
  | zero => rfl
  | succ n =>
    have : step s = haltedStep r := by simp [step, h]
    cases hc : r.reason.category <;> simp [runSteps, this, haltedStep, hc]

@[simp] theorem State.runEnd_of_running {s : State} (h : s.status = .running) : s.runEnd = .budgetUsed := by
  simp [State.runEnd, h]

@[simp] theorem State.runEnd_of_halted {s : State} {r : FaultRecord} (h : s.status = .halted r) :
    s.runEnd = .halted r := by
  simp [State.runEnd, h]

theorem State.runEnd_eq_budgetUsed {s : State} : s.runEnd = .budgetUsed ↔ s.status = .running := by
  cases h : s.status <;> simp [State.runEnd, h]

theorem State.runEnd_eq_halted {s : State} {r : FaultRecord} : s.runEnd = .halted r ↔ s.status = .halted r := by
  cases h : s.status <;> simp [State.runEnd, h]

end Sys2Proof.Machine
end

