-- ==== Sys2Proof/Tests/Slice0.lean ====
section
/-! SUPPORT. Tests of the model: ill-formed terms that `wellFormed` refuses, a word of every constructor, single
steps with results from spec/95_test_vectors.md, and for each obligation with hypotheses a witness that meets them. -/

namespace Sys2Proof.Tests

open Machine

/-! ### Ill-formed terms, one for each check (30_encoding.md R121, R122, R138) -/

/-- rm = 100 calls for a SIB byte, so base ESP has none without it. -/
theorem test_illFormed_esp_without_sib : Instr.wellFormed (.leaGvM .o32 .eax (.base .esp .none)) = false := by decide

/-- mod = 00 with rm = 101 is an absolute address, so base EBP needs a displacement. -/
theorem test_illFormed_ebp_without_disp : Instr.wellFormed (.incEb false (.mem (.base .ebp .none))) = false := by decide

/-- The same for the base of a SIB byte. -/
theorem test_illFormed_sib_ebp_without_disp :
    Instr.wellFormed (.jmpEd (.mem (.sib .s2 .eax .ebp .none))) = false := by decide

/-- `pop` to memory through ESP is refused at decode. -/
theorem test_illFormed_pop_esp : Instr.wellFormed (.popEv .o32 (.mem (.sib .s1 .esp .esp .none))) = false := by decide

/-- The neighbours of those terms are well-formed. -/
theorem test_wellFormed_neighbours :
    Instr.wellFormed (.leaGvM .o32 .eax (.sib .s1 .esp .esp .none)) = true ∧
    Instr.wellFormed (.incEb false (.mem (.base .ebp (.d8 0)))) = true ∧
    Instr.wellFormed (.jmpEd (.mem (.sib .s2 .eax .ebp (.d8 0)))) = true ∧
    Instr.wellFormed (.popEv .o32 (.mem (.sib .s1 .esp .ebp (.d8 0)))) = true ∧
    Instr.wellFormed (.popEv .o32 (.reg .esp)) = true := by decide

/-! ### Every constructor's word, written out from the encodings of 30_encoding.md R140 to R142 -/

/-- The bytes decode to the instruction, with nothing left. -/
def reads (row : List Byte × Instr) : Bool :=
  match decode true row.1 with
  | .ok (i, rest) => decide (i = row.2) && rest.isEmpty
  | .error _ => false

theorem test_decode_add : (
    [([0x00, 0xD9], .addEbGb false (.reg .ecx) .ebx),
     ([0x66, 0x00, 0x76, 0x10], .addEbGb true (.mem (.base .esi (.d8 0x10))) .esi),
     ([0x01, 0xD9], .addEvGv .o32 (.reg .ecx) .ebx),
     ([0x66, 0x01, 0x76, 0x10], .addEvGv .o16 (.mem (.base .esi (.d8 0x10))) .esi),
     ([0x02, 0xD9], .addGbEb false .ebx (.reg .ecx)),
     ([0x66, 0x02, 0x76, 0x10], .addGbEb true .esi (.mem (.base .esi (.d8 0x10)))),
     ([0x03, 0xD9], .addGvEv .o32 .ebx (.reg .ecx)),
     ([0x66, 0x03, 0x76, 0x10], .addGvEv .o16 .esi (.mem (.base .esi (.d8 0x10)))),
     ([0x04, 0x12], .addALIb false 0x12),
     ([0x66, 0x04, 0xF0], .addALIb true 0xF0),
     ([0x05, 0x78, 0x56, 0x34, 0x12], .addEAXIv (.i32 0x12345678)),
     ([0x66, 0x05, 0x34, 0x12], .addEAXIv (.i16 0x1234)),
     ([0x80, 0xC1, 0x12], .addEbIb false (.reg .ecx) 0x12),
     ([0x66, 0x80, 0x46, 0x10, 0xF0], .addEbIb true (.mem (.base .esi (.d8 0x10))) 0xF0),
     ([0x81, 0xC1, 0x78, 0x56, 0x34, 0x12], .addEvIv (.reg .ecx) (.i32 0x12345678)),
     ([0x66, 0x81, 0x46, 0x10, 0x34, 0x12], .addEvIv (.mem (.base .esi (.d8 0x10))) (.i16 0x1234)),
     ([0x83, 0xC1, 0x12], .addEvSIb .o32 (.reg .ecx) 0x12),
     ([0x66, 0x83, 0x46, 0x10, 0xF0], .addEvSIb .o16 (.mem (.base .esi (.d8 0x10))) 0xF0)] : List (List Byte × Instr)).all reads = true := by decide

theorem test_decode_or : (
    [([0x08, 0xD9], .orEbGb false (.reg .ecx) .ebx),
     ([0x66, 0x08, 0x76, 0x10], .orEbGb true (.mem (.base .esi (.d8 0x10))) .esi),
     ([0x09, 0xD9], .orEvGv .o32 (.reg .ecx) .ebx),
     ([0x66, 0x09, 0x76, 0x10], .orEvGv .o16 (.mem (.base .esi (.d8 0x10))) .esi),
     ([0x0A, 0xD9], .orGbEb false .ebx (.reg .ecx)),
     ([0x66, 0x0A, 0x76, 0x10], .orGbEb true .esi (.mem (.base .esi (.d8 0x10)))),
     ([0x0B, 0xD9], .orGvEv .o32 .ebx (.reg .ecx)),
     ([0x66, 0x0B, 0x76, 0x10], .orGvEv .o16 .esi (.mem (.base .esi (.d8 0x10)))),
     ([0x0C, 0x12], .orALIb false 0x12),
     ([0x66, 0x0C, 0xF0], .orALIb true 0xF0),
     ([0x0D, 0x78, 0x56, 0x34, 0x12], .orEAXIv (.i32 0x12345678)),
     ([0x66, 0x0D, 0x34, 0x12], .orEAXIv (.i16 0x1234)),
     ([0x80, 0xC9, 0x12], .orEbIb false (.reg .ecx) 0x12),
     ([0x66, 0x80, 0x4E, 0x10, 0xF0], .orEbIb true (.mem (.base .esi (.d8 0x10))) 0xF0),
     ([0x81, 0xC9, 0x78, 0x56, 0x34, 0x12], .orEvIv (.reg .ecx) (.i32 0x12345678)),
     ([0x66, 0x81, 0x4E, 0x10, 0x34, 0x12], .orEvIv (.mem (.base .esi (.d8 0x10))) (.i16 0x1234)),
     ([0x83, 0xC9, 0x12], .orEvSIb .o32 (.reg .ecx) 0x12),
     ([0x66, 0x83, 0x4E, 0x10, 0xF0], .orEvSIb .o16 (.mem (.base .esi (.d8 0x10))) 0xF0)] : List (List Byte × Instr)).all reads = true := by decide

theorem test_decode_adc : (
    [([0x10, 0xD9], .adcEbGb false (.reg .ecx) .ebx),
     ([0x66, 0x10, 0x76, 0x10], .adcEbGb true (.mem (.base .esi (.d8 0x10))) .esi),
     ([0x11, 0xD9], .adcEvGv .o32 (.reg .ecx) .ebx),
     ([0x66, 0x11, 0x76, 0x10], .adcEvGv .o16 (.mem (.base .esi (.d8 0x10))) .esi),
     ([0x12, 0xD9], .adcGbEb false .ebx (.reg .ecx)),
     ([0x66, 0x12, 0x76, 0x10], .adcGbEb true .esi (.mem (.base .esi (.d8 0x10)))),
     ([0x13, 0xD9], .adcGvEv .o32 .ebx (.reg .ecx)),
     ([0x66, 0x13, 0x76, 0x10], .adcGvEv .o16 .esi (.mem (.base .esi (.d8 0x10)))),
     ([0x14, 0x12], .adcALIb false 0x12),
     ([0x66, 0x14, 0xF0], .adcALIb true 0xF0),
     ([0x15, 0x78, 0x56, 0x34, 0x12], .adcEAXIv (.i32 0x12345678)),
     ([0x66, 0x15, 0x34, 0x12], .adcEAXIv (.i16 0x1234)),
     ([0x80, 0xD1, 0x12], .adcEbIb false (.reg .ecx) 0x12),
     ([0x66, 0x80, 0x56, 0x10, 0xF0], .adcEbIb true (.mem (.base .esi (.d8 0x10))) 0xF0),
     ([0x81, 0xD1, 0x78, 0x56, 0x34, 0x12], .adcEvIv (.reg .ecx) (.i32 0x12345678)),
     ([0x66, 0x81, 0x56, 0x10, 0x34, 0x12], .adcEvIv (.mem (.base .esi (.d8 0x10))) (.i16 0x1234)),
     ([0x83, 0xD1, 0x12], .adcEvSIb .o32 (.reg .ecx) 0x12),
     ([0x66, 0x83, 0x56, 0x10, 0xF0], .adcEvSIb .o16 (.mem (.base .esi (.d8 0x10))) 0xF0)] : List (List Byte × Instr)).all reads = true := by decide

theorem test_decode_sbb : (
    [([0x18, 0xD9], .sbbEbGb false (.reg .ecx) .ebx),
     ([0x66, 0x18, 0x76, 0x10], .sbbEbGb true (.mem (.base .esi (.d8 0x10))) .esi),
     ([0x19, 0xD9], .sbbEvGv .o32 (.reg .ecx) .ebx),
     ([0x66, 0x19, 0x76, 0x10], .sbbEvGv .o16 (.mem (.base .esi (.d8 0x10))) .esi),
     ([0x1A, 0xD9], .sbbGbEb false .ebx (.reg .ecx)),
     ([0x66, 0x1A, 0x76, 0x10], .sbbGbEb true .esi (.mem (.base .esi (.d8 0x10)))),
     ([0x1B, 0xD9], .sbbGvEv .o32 .ebx (.reg .ecx)),
     ([0x66, 0x1B, 0x76, 0x10], .sbbGvEv .o16 .esi (.mem (.base .esi (.d8 0x10)))),
     ([0x1C, 0x12], .sbbALIb false 0x12),
     ([0x66, 0x1C, 0xF0], .sbbALIb true 0xF0),
     ([0x1D, 0x78, 0x56, 0x34, 0x12], .sbbEAXIv (.i32 0x12345678)),
     ([0x66, 0x1D, 0x34, 0x12], .sbbEAXIv (.i16 0x1234)),
     ([0x80, 0xD9, 0x12], .sbbEbIb false (.reg .ecx) 0x12),
     ([0x66, 0x80, 0x5E, 0x10, 0xF0], .sbbEbIb true (.mem (.base .esi (.d8 0x10))) 0xF0),
     ([0x81, 0xD9, 0x78, 0x56, 0x34, 0x12], .sbbEvIv (.reg .ecx) (.i32 0x12345678)),
     ([0x66, 0x81, 0x5E, 0x10, 0x34, 0x12], .sbbEvIv (.mem (.base .esi (.d8 0x10))) (.i16 0x1234)),
     ([0x83, 0xD9, 0x12], .sbbEvSIb .o32 (.reg .ecx) 0x12),
     ([0x66, 0x83, 0x5E, 0x10, 0xF0], .sbbEvSIb .o16 (.mem (.base .esi (.d8 0x10))) 0xF0)] : List (List Byte × Instr)).all reads = true := by decide

theorem test_decode_and : (
    [([0x20, 0xD9], .andEbGb false (.reg .ecx) .ebx),
     ([0x66, 0x20, 0x76, 0x10], .andEbGb true (.mem (.base .esi (.d8 0x10))) .esi),
     ([0x21, 0xD9], .andEvGv .o32 (.reg .ecx) .ebx),
     ([0x66, 0x21, 0x76, 0x10], .andEvGv .o16 (.mem (.base .esi (.d8 0x10))) .esi),
     ([0x22, 0xD9], .andGbEb false .ebx (.reg .ecx)),
     ([0x66, 0x22, 0x76, 0x10], .andGbEb true .esi (.mem (.base .esi (.d8 0x10)))),
     ([0x23, 0xD9], .andGvEv .o32 .ebx (.reg .ecx)),
     ([0x66, 0x23, 0x76, 0x10], .andGvEv .o16 .esi (.mem (.base .esi (.d8 0x10)))),
     ([0x24, 0x12], .andALIb false 0x12),
     ([0x66, 0x24, 0xF0], .andALIb true 0xF0),
     ([0x25, 0x78, 0x56, 0x34, 0x12], .andEAXIv (.i32 0x12345678)),
     ([0x66, 0x25, 0x34, 0x12], .andEAXIv (.i16 0x1234)),
     ([0x80, 0xE1, 0x12], .andEbIb false (.reg .ecx) 0x12),
     ([0x66, 0x80, 0x66, 0x10, 0xF0], .andEbIb true (.mem (.base .esi (.d8 0x10))) 0xF0),
     ([0x81, 0xE1, 0x78, 0x56, 0x34, 0x12], .andEvIv (.reg .ecx) (.i32 0x12345678)),
     ([0x66, 0x81, 0x66, 0x10, 0x34, 0x12], .andEvIv (.mem (.base .esi (.d8 0x10))) (.i16 0x1234)),
     ([0x83, 0xE1, 0x12], .andEvSIb .o32 (.reg .ecx) 0x12),
     ([0x66, 0x83, 0x66, 0x10, 0xF0], .andEvSIb .o16 (.mem (.base .esi (.d8 0x10))) 0xF0)] : List (List Byte × Instr)).all reads = true := by decide

theorem test_decode_sub : (
    [([0x28, 0xD9], .subEbGb false (.reg .ecx) .ebx),
     ([0x66, 0x28, 0x76, 0x10], .subEbGb true (.mem (.base .esi (.d8 0x10))) .esi),
     ([0x29, 0xD9], .subEvGv .o32 (.reg .ecx) .ebx),
     ([0x66, 0x29, 0x76, 0x10], .subEvGv .o16 (.mem (.base .esi (.d8 0x10))) .esi),
     ([0x2A, 0xD9], .subGbEb false .ebx (.reg .ecx)),
     ([0x66, 0x2A, 0x76, 0x10], .subGbEb true .esi (.mem (.base .esi (.d8 0x10)))),
     ([0x2B, 0xD9], .subGvEv .o32 .ebx (.reg .ecx)),
     ([0x66, 0x2B, 0x76, 0x10], .subGvEv .o16 .esi (.mem (.base .esi (.d8 0x10)))),
     ([0x2C, 0x12], .subALIb false 0x12),
     ([0x66, 0x2C, 0xF0], .subALIb true 0xF0),
     ([0x2D, 0x78, 0x56, 0x34, 0x12], .subEAXIv (.i32 0x12345678)),
     ([0x66, 0x2D, 0x34, 0x12], .subEAXIv (.i16 0x1234)),
     ([0x80, 0xE9, 0x12], .subEbIb false (.reg .ecx) 0x12),
     ([0x66, 0x80, 0x6E, 0x10, 0xF0], .subEbIb true (.mem (.base .esi (.d8 0x10))) 0xF0),
     ([0x81, 0xE9, 0x78, 0x56, 0x34, 0x12], .subEvIv (.reg .ecx) (.i32 0x12345678)),
     ([0x66, 0x81, 0x6E, 0x10, 0x34, 0x12], .subEvIv (.mem (.base .esi (.d8 0x10))) (.i16 0x1234)),
     ([0x83, 0xE9, 0x12], .subEvSIb .o32 (.reg .ecx) 0x12),
     ([0x66, 0x83, 0x6E, 0x10, 0xF0], .subEvSIb .o16 (.mem (.base .esi (.d8 0x10))) 0xF0)] : List (List Byte × Instr)).all reads = true := by decide

theorem test_decode_xor : (
    [([0x30, 0xD9], .xorEbGb false (.reg .ecx) .ebx),
     ([0x66, 0x30, 0x76, 0x10], .xorEbGb true (.mem (.base .esi (.d8 0x10))) .esi),
     ([0x31, 0xD9], .xorEvGv .o32 (.reg .ecx) .ebx),
     ([0x66, 0x31, 0x76, 0x10], .xorEvGv .o16 (.mem (.base .esi (.d8 0x10))) .esi),
     ([0x32, 0xD9], .xorGbEb false .ebx (.reg .ecx)),
     ([0x66, 0x32, 0x76, 0x10], .xorGbEb true .esi (.mem (.base .esi (.d8 0x10)))),
     ([0x33, 0xD9], .xorGvEv .o32 .ebx (.reg .ecx)),
     ([0x66, 0x33, 0x76, 0x10], .xorGvEv .o16 .esi (.mem (.base .esi (.d8 0x10)))),
     ([0x34, 0x12], .xorALIb false 0x12),
     ([0x66, 0x34, 0xF0], .xorALIb true 0xF0),
     ([0x35, 0x78, 0x56, 0x34, 0x12], .xorEAXIv (.i32 0x12345678)),
     ([0x66, 0x35, 0x34, 0x12], .xorEAXIv (.i16 0x1234)),
     ([0x80, 0xF1, 0x12], .xorEbIb false (.reg .ecx) 0x12),
     ([0x66, 0x80, 0x76, 0x10, 0xF0], .xorEbIb true (.mem (.base .esi (.d8 0x10))) 0xF0),
     ([0x81, 0xF1, 0x78, 0x56, 0x34, 0x12], .xorEvIv (.reg .ecx) (.i32 0x12345678)),
     ([0x66, 0x81, 0x76, 0x10, 0x34, 0x12], .xorEvIv (.mem (.base .esi (.d8 0x10))) (.i16 0x1234)),
     ([0x83, 0xF1, 0x12], .xorEvSIb .o32 (.reg .ecx) 0x12),
     ([0x66, 0x83, 0x76, 0x10, 0xF0], .xorEvSIb .o16 (.mem (.base .esi (.d8 0x10))) 0xF0)] : List (List Byte × Instr)).all reads = true := by decide

theorem test_decode_cmp : (
    [([0x38, 0xD9], .cmpEbGb false (.reg .ecx) .ebx),
     ([0x66, 0x38, 0x76, 0x10], .cmpEbGb true (.mem (.base .esi (.d8 0x10))) .esi),
     ([0x39, 0xD9], .cmpEvGv .o32 (.reg .ecx) .ebx),
     ([0x66, 0x39, 0x76, 0x10], .cmpEvGv .o16 (.mem (.base .esi (.d8 0x10))) .esi),
     ([0x3A, 0xD9], .cmpGbEb false .ebx (.reg .ecx)),
     ([0x66, 0x3A, 0x76, 0x10], .cmpGbEb true .esi (.mem (.base .esi (.d8 0x10)))),
     ([0x3B, 0xD9], .cmpGvEv .o32 .ebx (.reg .ecx)),
     ([0x66, 0x3B, 0x76, 0x10], .cmpGvEv .o16 .esi (.mem (.base .esi (.d8 0x10)))),
     ([0x3C, 0x12], .cmpALIb false 0x12),
     ([0x66, 0x3C, 0xF0], .cmpALIb true 0xF0),
     ([0x3D, 0x78, 0x56, 0x34, 0x12], .cmpEAXIv (.i32 0x12345678)),
     ([0x66, 0x3D, 0x34, 0x12], .cmpEAXIv (.i16 0x1234)),
     ([0x80, 0xF9, 0x12], .cmpEbIb false (.reg .ecx) 0x12),
     ([0x66, 0x80, 0x7E, 0x10, 0xF0], .cmpEbIb true (.mem (.base .esi (.d8 0x10))) 0xF0),
     ([0x81, 0xF9, 0x78, 0x56, 0x34, 0x12], .cmpEvIv (.reg .ecx) (.i32 0x12345678)),
     ([0x66, 0x81, 0x7E, 0x10, 0x34, 0x12], .cmpEvIv (.mem (.base .esi (.d8 0x10))) (.i16 0x1234)),
     ([0x83, 0xF9, 0x12], .cmpEvSIb .o32 (.reg .ecx) 0x12),
     ([0x66, 0x83, 0x7E, 0x10, 0xF0], .cmpEvSIb .o16 (.mem (.base .esi (.d8 0x10))) 0xF0)] : List (List Byte × Instr)).all reads = true := by decide

theorem test_decode_test : (
    [([0x84, 0xD9], .testEbGb false (.reg .ecx) .ebx),
     ([0x66, 0x84, 0x76, 0x10], .testEbGb true (.mem (.base .esi (.d8 0x10))) .esi),
     ([0x85, 0xD9], .testEvGv .o32 (.reg .ecx) .ebx),
     ([0x66, 0x85, 0x76, 0x10], .testEvGv .o16 (.mem (.base .esi (.d8 0x10))) .esi),
     ([0xA8, 0x12], .testALIb false 0x12),
     ([0x66, 0xA8, 0xF0], .testALIb true 0xF0),
     ([0xA9, 0x78, 0x56, 0x34, 0x12], .testEAXIv (.i32 0x12345678)),
     ([0x66, 0xA9, 0x34, 0x12], .testEAXIv (.i16 0x1234)),
     ([0xF6, 0xC1, 0x12], .testEbIb false (.reg .ecx) 0x12),
     ([0x66, 0xF6, 0x46, 0x10, 0xF0], .testEbIb true (.mem (.base .esi (.d8 0x10))) 0xF0),
     ([0xF7, 0xC1, 0x78, 0x56, 0x34, 0x12], .testEvIv (.reg .ecx) (.i32 0x12345678)),
     ([0x66, 0xF7, 0x46, 0x10, 0x34, 0x12], .testEvIv (.mem (.base .esi (.d8 0x10))) (.i16 0x1234))] : List (List Byte × Instr)).all reads = true := by decide

theorem test_decode_inc_dec_neg_not : (
    [([0x43], .incRv .o32 .ebx),
     ([0x66, 0x46], .incRv .o16 .esi),
     ([0xFE, 0xC1], .incEb false (.reg .ecx)),
     ([0x66, 0xFE, 0x46, 0x10], .incEb true (.mem (.base .esi (.d8 0x10)))),
     ([0xFF, 0xC1], .incEv .o32 (.reg .ecx)),
     ([0x66, 0xFF, 0x46, 0x10], .incEv .o16 (.mem (.base .esi (.d8 0x10)))),
     ([0x4B], .decRv .o32 .ebx),
     ([0x66, 0x4E], .decRv .o16 .esi),
     ([0xFE, 0xC9], .decEb false (.reg .ecx)),
     ([0x66, 0xFE, 0x4E, 0x10], .decEb true (.mem (.base .esi (.d8 0x10)))),
     ([0xFF, 0xC9], .decEv .o32 (.reg .ecx)),
     ([0x66, 0xFF, 0x4E, 0x10], .decEv .o16 (.mem (.base .esi (.d8 0x10)))),
     ([0xF6, 0xD9], .negEb false (.reg .ecx)),
     ([0x66, 0xF6, 0x5E, 0x10], .negEb true (.mem (.base .esi (.d8 0x10)))),
     ([0xF7, 0xD9], .negEv .o32 (.reg .ecx)),
     ([0x66, 0xF7, 0x5E, 0x10], .negEv .o16 (.mem (.base .esi (.d8 0x10)))),
     ([0xF6, 0xD1], .notEb false (.reg .ecx)),
     ([0x66, 0xF6, 0x56, 0x10], .notEb true (.mem (.base .esi (.d8 0x10)))),
     ([0xF7, 0xD1], .notEv .o32 (.reg .ecx)),
     ([0x66, 0xF7, 0x56, 0x10], .notEv .o16 (.mem (.base .esi (.d8 0x10))))] : List (List Byte × Instr)).all reads = true := by decide

theorem test_decode_shift : (
    [([0xC0, 0xE1, 0x12], .shlEbIb false (.reg .ecx) 0x12),
     ([0x66, 0xC0, 0x66, 0x10, 0xF0], .shlEbIb true (.mem (.base .esi (.d8 0x10))) 0xF0),
     ([0xC1, 0xE1, 0x12], .shlEvIb .o32 (.reg .ecx) 0x12),
     ([0x66, 0xC1, 0x66, 0x10, 0xF0], .shlEvIb .o16 (.mem (.base .esi (.d8 0x10))) 0xF0),
     ([0xD0, 0xE1], .shlEb1 false (.reg .ecx)),
     ([0x66, 0xD0, 0x66, 0x10], .shlEb1 true (.mem (.base .esi (.d8 0x10)))),
     ([0xD1, 0xE1], .shlEv1 .o32 (.reg .ecx)),
     ([0x66, 0xD1, 0x66, 0x10], .shlEv1 .o16 (.mem (.base .esi (.d8 0x10)))),
     ([0xD2, 0xE1], .shlEbCL false (.reg .ecx)),
     ([0x66, 0xD2, 0x66, 0x10], .shlEbCL true (.mem (.base .esi (.d8 0x10)))),
     ([0xD3, 0xE1], .shlEvCL .o32 (.reg .ecx)),
     ([0x66, 0xD3, 0x66, 0x10], .shlEvCL .o16 (.mem (.base .esi (.d8 0x10)))),
     ([0xC0, 0xE9, 0x12], .shrEbIb false (.reg .ecx) 0x12),
     ([0x66, 0xC0, 0x6E, 0x10, 0xF0], .shrEbIb true (.mem (.base .esi (.d8 0x10))) 0xF0),
     ([0xC1, 0xE9, 0x12], .shrEvIb .o32 (.reg .ecx) 0x12),
     ([0x66, 0xC1, 0x6E, 0x10, 0xF0], .shrEvIb .o16 (.mem (.base .esi (.d8 0x10))) 0xF0),
     ([0xD0, 0xE9], .shrEb1 false (.reg .ecx)),
     ([0x66, 0xD0, 0x6E, 0x10], .shrEb1 true (.mem (.base .esi (.d8 0x10)))),
     ([0xD1, 0xE9], .shrEv1 .o32 (.reg .ecx)),
     ([0x66, 0xD1, 0x6E, 0x10], .shrEv1 .o16 (.mem (.base .esi (.d8 0x10))))] ++
    [([0xD2, 0xE9], .shrEbCL false (.reg .ecx)),
     ([0x66, 0xD2, 0x6E, 0x10], .shrEbCL true (.mem (.base .esi (.d8 0x10)))),
     ([0xD3, 0xE9], .shrEvCL .o32 (.reg .ecx)),
     ([0x66, 0xD3, 0x6E, 0x10], .shrEvCL .o16 (.mem (.base .esi (.d8 0x10)))),
     ([0xC0, 0xF9, 0x12], .sarEbIb false (.reg .ecx) 0x12),
     ([0x66, 0xC0, 0x7E, 0x10, 0xF0], .sarEbIb true (.mem (.base .esi (.d8 0x10))) 0xF0),
     ([0xC1, 0xF9, 0x12], .sarEvIb .o32 (.reg .ecx) 0x12),
     ([0x66, 0xC1, 0x7E, 0x10, 0xF0], .sarEvIb .o16 (.mem (.base .esi (.d8 0x10))) 0xF0),
     ([0xD0, 0xF9], .sarEb1 false (.reg .ecx)),
     ([0x66, 0xD0, 0x7E, 0x10], .sarEb1 true (.mem (.base .esi (.d8 0x10)))),
     ([0xD1, 0xF9], .sarEv1 .o32 (.reg .ecx)),
     ([0x66, 0xD1, 0x7E, 0x10], .sarEv1 .o16 (.mem (.base .esi (.d8 0x10)))),
     ([0xD2, 0xF9], .sarEbCL false (.reg .ecx)),
     ([0x66, 0xD2, 0x7E, 0x10], .sarEbCL true (.mem (.base .esi (.d8 0x10)))),
     ([0xD3, 0xF9], .sarEvCL .o32 (.reg .ecx)),
     ([0x66, 0xD3, 0x7E, 0x10], .sarEvCL .o16 (.mem (.base .esi (.d8 0x10))))] : List (List Byte × Instr)).all reads = true := by decide

theorem test_decode_mul_div : (
    [([0xF6, 0xE1], .mulEb false (.reg .ecx)),
     ([0x66, 0xF6, 0x66, 0x10], .mulEb true (.mem (.base .esi (.d8 0x10)))),
     ([0xF7, 0xE1], .mulEv .o32 (.reg .ecx)),
     ([0x66, 0xF7, 0x66, 0x10], .mulEv .o16 (.mem (.base .esi (.d8 0x10)))),
     ([0xF6, 0xE9], .imulEb false (.reg .ecx)),
     ([0x66, 0xF6, 0x6E, 0x10], .imulEb true (.mem (.base .esi (.d8 0x10)))),
     ([0xF7, 0xE9], .imulEv .o32 (.reg .ecx)),
     ([0x66, 0xF7, 0x6E, 0x10], .imulEv .o16 (.mem (.base .esi (.d8 0x10)))),
     ([0x0F, 0xAF, 0xD9], .imulGvEv .o32 .ebx (.reg .ecx)),
     ([0x66, 0x0F, 0xAF, 0x76, 0x10], .imulGvEv .o16 .esi (.mem (.base .esi (.d8 0x10)))),
     ([0x69, 0xD9, 0x78, 0x56, 0x34, 0x12], .imulGvEvIv .ebx (.reg .ecx) (.i32 0x12345678)),
     ([0x66, 0x69, 0x76, 0x10, 0x34, 0x12], .imulGvEvIv .esi (.mem (.base .esi (.d8 0x10))) (.i16 0x1234)),
     ([0x6B, 0xD9, 0x12], .imulGvEvSIb .o32 .ebx (.reg .ecx) 0x12),
     ([0x66, 0x6B, 0x76, 0x10, 0xF0], .imulGvEvSIb .o16 .esi (.mem (.base .esi (.d8 0x10))) 0xF0),
     ([0xF6, 0xF1], .divEb false (.reg .ecx)),
     ([0x66, 0xF6, 0x76, 0x10], .divEb true (.mem (.base .esi (.d8 0x10)))),
     ([0xF7, 0xF1], .divEv .o32 (.reg .ecx)),
     ([0x66, 0xF7, 0x76, 0x10], .divEv .o16 (.mem (.base .esi (.d8 0x10)))),
     ([0xF6, 0xF9], .idivEb false (.reg .ecx)),
     ([0x66, 0xF6, 0x7E, 0x10], .idivEb true (.mem (.base .esi (.d8 0x10))))] ++
    [([0xF7, 0xF9], .idivEv .o32 (.reg .ecx)),
     ([0x66, 0xF7, 0x7E, 0x10], .idivEv .o16 (.mem (.base .esi (.d8 0x10))))] : List (List Byte × Instr)).all reads = true := by decide

theorem test_decode_mov : (
    [([0x88, 0xD9], .movEbGb false (.reg .ecx) .ebx),
     ([0x66, 0x88, 0x76, 0x10], .movEbGb true (.mem (.base .esi (.d8 0x10))) .esi),
     ([0x89, 0xD9], .movEvGv .o32 (.reg .ecx) .ebx),
     ([0x66, 0x89, 0x76, 0x10], .movEvGv .o16 (.mem (.base .esi (.d8 0x10))) .esi),
     ([0x8A, 0xD9], .movGbEb false .ebx (.reg .ecx)),
     ([0x66, 0x8A, 0x76, 0x10], .movGbEb true .esi (.mem (.base .esi (.d8 0x10)))),
     ([0x8B, 0xD9], .movGvEv .o32 .ebx (.reg .ecx)),
     ([0x66, 0x8B, 0x76, 0x10], .movGvEv .o16 .esi (.mem (.base .esi (.d8 0x10)))),
     ([0xA0, 0x44, 0x33, 0x22, 0x11], .movALOb false 0x11223344),
     ([0x66, 0xA0, 0x44, 0x33, 0x22, 0x11], .movALOb true 0x11223344),
     ([0xA1, 0x44, 0x33, 0x22, 0x11], .movEAXOv .o32 0x11223344),
     ([0x66, 0xA1, 0x44, 0x33, 0x22, 0x11], .movEAXOv .o16 0x11223344),
     ([0xA2, 0x44, 0x33, 0x22, 0x11], .movObAL false 0x11223344),
     ([0x66, 0xA2, 0x44, 0x33, 0x22, 0x11], .movObAL true 0x11223344),
     ([0xA3, 0x44, 0x33, 0x22, 0x11], .movOvEAX .o32 0x11223344),
     ([0x66, 0xA3, 0x44, 0x33, 0x22, 0x11], .movOvEAX .o16 0x11223344),
     ([0xB3, 0x12], .movRbIb false .ebx 0x12),
     ([0x66, 0xB6, 0xF0], .movRbIb true .esi 0xF0),
     ([0xBB, 0x78, 0x56, 0x34, 0x12], .movRvIv .ebx (.i32 0x12345678)),
     ([0x66, 0xBE, 0x34, 0x12], .movRvIv .esi (.i16 0x1234))] ++
    [([0xC6, 0xC1, 0x12], .movEbIb false (.reg .ecx) 0x12),
     ([0x66, 0xC6, 0x46, 0x10, 0xF0], .movEbIb true (.mem (.base .esi (.d8 0x10))) 0xF0),
     ([0xC7, 0xC1, 0x78, 0x56, 0x34, 0x12], .movEvIv (.reg .ecx) (.i32 0x12345678)),
     ([0x66, 0xC7, 0x46, 0x10, 0x34, 0x12], .movEvIv (.mem (.base .esi (.d8 0x10))) (.i16 0x1234))] : List (List Byte × Instr)).all reads = true := by decide

theorem test_decode_extend : (
    [([0x8D, 0x5E, 0x10], .leaGvM .o32 .ebx (.base .esi (.d8 0x10))),
     ([0x66, 0x8D, 0x34, 0x8B], .leaGvM .o16 .esi (.sib .s4 .ecx .ebx .none)),
     ([0x0F, 0xBE, 0xD9], .movsxGvEb .o32 .ebx (.reg .ecx)),
     ([0x66, 0x0F, 0xBE, 0x76, 0x10], .movsxGvEb .o16 .esi (.mem (.base .esi (.d8 0x10)))),
     ([0x0F, 0xBF, 0xD9], .movsxGvEw .o32 .ebx (.reg .ecx)),
     ([0x66, 0x0F, 0xBF, 0x76, 0x10], .movsxGvEw .o16 .esi (.mem (.base .esi (.d8 0x10)))),
     ([0x0F, 0xB6, 0xD9], .movzxGvEb .o32 .ebx (.reg .ecx)),
     ([0x66, 0x0F, 0xB6, 0x76, 0x10], .movzxGvEb .o16 .esi (.mem (.base .esi (.d8 0x10)))),
     ([0x0F, 0xB7, 0xD9], .movzxGvEw .o32 .ebx (.reg .ecx)),
     ([0x66, 0x0F, 0xB7, 0x76, 0x10], .movzxGvEw .o16 .esi (.mem (.base .esi (.d8 0x10)))),
     ([0x98], .cwtl .o32),
     ([0x66, 0x98], .cwtl .o16),
     ([0x99], .cltd .o32),
     ([0x66, 0x99], .cltd .o16)] : List (List Byte × Instr)).all reads = true := by decide

theorem test_decode_stack : (
    [([0x53], .pushRv .o32 .ebx),
     ([0x66, 0x56], .pushRv .o16 .esi),
     ([0x68, 0x78, 0x56, 0x34, 0x12], .pushIv (.i32 0x12345678)),
     ([0x66, 0x68, 0x34, 0x12], .pushIv (.i16 0x1234)),
     ([0x6A, 0x12], .pushSIb .o32 0x12),
     ([0x66, 0x6A, 0xF0], .pushSIb .o16 0xF0),
     ([0xFF, 0xF1], .pushEv .o32 (.reg .ecx)),
     ([0x66, 0xFF, 0x76, 0x10], .pushEv .o16 (.mem (.base .esi (.d8 0x10)))),
     ([0x5B], .popRv .o32 .ebx),
     ([0x66, 0x5E], .popRv .o16 .esi),
     ([0x8F, 0xC1], .popEv .o32 (.reg .ecx)),
     ([0x66, 0x8F, 0x46, 0x10], .popEv .o16 (.mem (.base .esi (.d8 0x10)))),
     ([0xC9], .leave)] : List (List Byte × Instr)).all reads = true := by decide

theorem test_decode_port : (
    [([0xE4, 0x12], .inALIb false 0x12),
     ([0x66, 0xE4, 0xF0], .inALIb true 0xF0),
     ([0xE5, 0x12], .inEAXIb .o32 0x12),
     ([0x66, 0xE5, 0xF0], .inEAXIb .o16 0xF0),
     ([0xEC], .inALDX false),
     ([0x66, 0xEC], .inALDX true),
     ([0xED], .inEAXDX .o32),
     ([0x66, 0xED], .inEAXDX .o16),
     ([0xE6, 0x12], .outIbAL false 0x12),
     ([0x66, 0xE6, 0xF0], .outIbAL true 0xF0),
     ([0xE7, 0x12], .outIbEAX .o32 0x12),
     ([0x66, 0xE7, 0xF0], .outIbEAX .o16 0xF0),
     ([0xEE], .outDXAL false),
     ([0x66, 0xEE], .outDXAL true),
     ([0xEF], .outDXEAX .o32),
     ([0x66, 0xEF], .outDXEAX .o16)] : List (List Byte × Instr)).all reads = true := by decide

theorem test_decode_system : (
    [([0x0F, 0x01, 0x5E, 0x10], .lidtM false (.base .esi (.d8 0x10))),
     ([0x66, 0x0F, 0x01, 0x1C, 0x8B], .lidtM true (.sib .s4 .ecx .ebx .none)),
     ([0x60], .pusha false),
     ([0x66, 0x60], .pusha true),
     ([0x61], .popa false),
     ([0x66, 0x61], .popa true),
     ([0xCD, 0x12], .intIb false 0x12),
     ([0x66, 0xCD, 0xF0], .intIb true 0xF0),
     ([0xCF], .iret false),
     ([0x66, 0xCF], .iret true),
     ([0x0F, 0x20, 0x12], .movFromCr false 0x12),
     ([0x66, 0x0F, 0x20, 0xF0], .movFromCr true 0xF0),
     ([0x0F, 0x22, 0x12], .movToCr false 0x12),
     ([0x66, 0x0F, 0x22, 0xF0], .movToCr true 0xF0)] : List (List Byte × Instr)).all reads = true := by decide

theorem test_decode_control : (
    [([0x75, 0x12], .jccJb .ne 0x12),
     ([0x0F, 0x85, 0x44, 0x33, 0x22, 0x11], .jccJd .ne 0x11223344),
     ([0xEB, 0x12], .jmpJb 0x12),
     ([0xE9, 0x44, 0x33, 0x22, 0x11], .jmpJd 0x11223344),
     ([0xFF, 0xE1], .jmpEd (.reg .ecx)),
     ([0xE8, 0x44, 0x33, 0x22, 0x11], .callJd 0x11223344),
     ([0xFF, 0xD1], .callEd (.reg .ecx)),
     ([0xC3], .ret),
     ([0x0F, 0x95, 0xD1], .setccEb false .ne .edx (.reg .ecx)),
     ([0x66, 0x0F, 0x95, 0x56, 0x10], .setccEb true .ne .edx (.mem (.base .esi (.d8 0x10)))),
     ([0x90], .nop false),
     ([0x66, 0x90], .nop true)] : List (List Byte × Instr)).all reads = true := by decide

/-- Addressing forms (R121, R122): absolute, base with each displacement, SIB with and without base and index. -/
theorem test_decode_addressing : (
    [([0x8B, 0b00_001_101, 0x44, 0x33, 0x22, 0x11], .movGvEv .o32 .ecx (.mem (.abs 0x11223344))),
     ([0x8B, 0b00_001_011], .movGvEv .o32 .ecx (.mem (.base .ebx .none))),
     ([0x8B, 0b01_001_101, 0xFF], .movGvEv .o32 .ecx (.mem (.base .ebp (.d8 0xFF)))),
     ([0x8B, 0b10_001_101, 0x44, 0x33, 0x22, 0x11], .movGvEv .o32 .ecx (.mem (.base .ebp (.d32 0x11223344)))),
     ([0x8B, 0b00_001_100, 0b00_100_100], .movGvEv .o32 .ecx (.mem (.sib .s1 .esp .esp .none))),
     ([0x8B, 0b00_001_100, 0b01_000_101, 0x00, 0x01, 0x00, 0x00],
       .movGvEv .o32 .ecx (.mem (.sibNoBase .s2 .eax 0x100))),
     ([0x8B, 0b01_001_100, 0b11_110_101, 0x08], .movGvEv .o32 .ecx (.mem (.sib .s8 .esi .ebp (.d8 8)))),
     ([0x8B, 0b10_001_100, 0b10_111_110, 0x08, 0x00, 0x00, 0x00],
       .movGvEv .o32 .ecx (.mem (.sib .s4 .edi .esi (.d32 8))))] : List (List Byte × Instr)).all reads = true := by decide

/-- Words that decode refuses, with the reason (R131, R135, R138, R142, R150; 45_control_gk.md R430). -/
def refuses (row : Bool × List Byte × DecodeError) : Bool :=
  match decode row.1 row.2.1 with
  | .ok _ => false
  | .error e => decide (e = row.2.2)

theorem test_decode_refused : (
    [(true, [0xF0, 0x01, 0xD8], .unsupportedForm (.prefixByte 0xF0)),
     (true, [0x66, 0x66, 0x01, 0xD8], .unsupportedForm (.secondPrefix 0x66)),
     (true, [0x66, 0xC9], .unsupportedForm .osizePrefix),
     (true, [0x66, 0x75, 0x00], .unsupportedForm .osizePrefix),
     (true, [0x7A, 0x00], .unsupportedForm .parityCond),
     (true, [0x8F, 0x04, 0x24], .unsupportedForm .popMemEsp),
     (false, [0x31, 0xC0], .unsupportedForm .extGkOff),
     (false, [0x81, 0xF0, 0x01, 0x00, 0x00, 0x00], .unsupportedForm .extGkOff),
     (true, [0x0F, 0x01, 0xD8], .invalidOpcode [0x0F, 0x01, 0xD8]),
     (true, [0x8D, 0xC0], .invalidOpcode [0x8D, 0xC0]),
     (true, [0xD1, 0xC0], .invalidOpcode [0xD1, 0xC0]),
     (false, [0xC0], .unsupportedForm .extGkOff),
     (false, [0xD3, 0xC0], .unsupportedForm .extGkOff),
     (true, [0x0F, 0x0B], .invalidOpcode [0x0F, 0x0B]),
     (true, [0xF4], .invalidOpcode [0xF4]),
     (true, [0x81, 0xC0, 0x01], .needMore)] : List (Bool × List Byte × DecodeError)).all refuses = true := by decide

/-! ### Single steps

Each result is that of the named row of spec/95_test_vectors.md, whose start state is `small`. -/

/-- The start state of 95_test_vectors.md: RAM from 0 to 0xFFFF, pc 0x1000, all else 0. -/
def small : State :=
  { State.reset with cfg := { Config.default with pmemSize := 0x10000 }, pc := 0x1000 }

/-- One step with `bytes` stored at pc answers a next state that passes. -/
def after (bytes : List Byte) (s : State) (passes : State → Bool) : Bool :=
  match step { s with mem := s.mem.setBytes s.pc bytes } with
  | .next t => passes t
  | .fault _ => false
  | .refused _ => false

/-- The step halts with this reason at pc, and keeps the registers. -/
def halts (bytes : List Byte) (s : State) (r : Reason) : Bool :=
  after bytes s fun t => decide (t.status = .halted ⟨r, s.pc⟩) && decide (t.regs = s.regs) && decide (t.pc = s.pc)

/-- Running, at this pc, with these flags. -/
def ran (t : State) (pc : Word) (f : Flags) : Bool :=
  decide (t.status = .running) && decide (t.pc = pc) && decide (t.flags = f)

/-- Running, at this pc, with this CF and OF, whatever ZF and SF are. -/
def ranCfOf (t : State) (pc : Word) (cf of : Bool) : Bool :=
  decide (t.status = .running) && decide (t.pc = pc) && t.flags.cf == cf && t.flags.of == of

/-- 95_test_vectors.md B1.1. -/
theorem test_step_add_signed_overflow : after [0x01, 0xD8]
    { small with regs := { small.regs with eax := 0x7FFFFFFF, ebx := 0x1 } }
    (fun t => t.regs.eax == 0x80000000 && ran t 0x1002 ⟨false, false, true, true⟩) = true := by
  decide

/-- 95_test_vectors.md B1.4. -/
theorem test_step_add_word_keeps_high : after [0x66, 0x01, 0xD8]
    { small with regs := { small.regs with eax := 0x12348000, ebx := 0x8000 } }
    (fun t => t.regs.eax == 0x12340000 && ran t 0x1003 ⟨true, true, false, true⟩) = true := by
  decide

/-- 95_test_vectors.md B1.5. -/
theorem test_step_adc_carry_in_operand : after [0x14, 0xFF]
    { small with regs := { small.regs with eax := 0x80 }, flags := ⟨true, false, false, false⟩ }
    (fun t => t.regs.eax == 0x80 && ran t 0x1002 ⟨true, false, true, false⟩) = true := by
  decide

/-- 95_test_vectors.md B1.7. -/
theorem test_step_adc_all_ones : after [0x11, 0xD8]
    { small with regs := { small.regs with eax := 0xFFFFFFFF, ebx := 0xFFFFFFFF }, flags := ⟨true, false, false, false⟩ }
    (fun t => t.regs.eax == 0xFFFFFFFF && ran t 0x1002 ⟨true, false, true, false⟩) = true := by
  decide

/-- 95_test_vectors.md B1.8. -/
theorem test_step_sub_borrow : after [0x29, 0xD8]
    { small with regs := { small.regs with eax := 0x0, ebx := 0x1 } }
    (fun t => t.regs.eax == 0xFFFFFFFF && ran t 0x1002 ⟨true, false, true, false⟩) = true := by
  decide

/-- 95_test_vectors.md B1.9. -/
theorem test_step_sub_signed_overflow : after [0x29, 0xD8]
    { small with regs := { small.regs with eax := 0x80000000, ebx := 0x1 } }
    (fun t => t.regs.eax == 0x7FFFFFFF && ran t 0x1002 ⟨false, false, false, true⟩) = true := by
  decide

/-- 95_test_vectors.md B1.11. -/
theorem test_step_sbb_borrow_in : after [0x19, 0xD8]
    { small with regs := { small.regs with eax := 0x0, ebx := 0x0 }, flags := ⟨true, false, false, false⟩ }
    (fun t => t.regs.eax == 0xFFFFFFFF && ran t 0x1002 ⟨true, false, true, false⟩) = true := by
  decide

/-- 95_test_vectors.md B1.12. -/
theorem test_step_sbb_byte : after [0x18, 0xD8]
    { small with regs := { small.regs with eax := 0x0, ebx := 0xFF }, flags := ⟨true, false, false, false⟩ }
    (fun t => t.regs.eax == 0x0 && ran t 0x1002 ⟨true, true, false, false⟩) = true := by
  decide

/-- 95_test_vectors.md B1.13. -/
theorem test_step_cmp_below : after [0x83, 0xF8, 0x05]
    { small with regs := { small.regs with eax := 0x3 } }
    (fun t => t.regs.eax == 0x3 && ran t 0x1003 ⟨true, false, true, false⟩) = true := by
  decide

/-- 95_test_vectors.md B1.14. -/
theorem test_step_cmp_equal : after [0x83, 0xF8, 0x05]
    { small with regs := { small.regs with eax := 0x5 } }
    (fun t => ran t 0x1003 ⟨false, true, false, false⟩) = true := by
  decide

/-- 95_test_vectors.md B1.17. -/
theorem test_step_inc_overflow : after [0x40]
    { small with regs := { small.regs with eax := 0x7FFFFFFF } }
    (fun t => t.regs.eax == 0x80000000 && ran t 0x1001 ⟨false, false, true, true⟩) = true := by
  decide

/-- 95_test_vectors.md B1.20. -/
theorem test_step_inc_high_byte : after [0xFE, 0xC4]
    { small with regs := { small.regs with eax := 0xFF7F } }
    (fun t => t.regs.eax == 0x7F && ran t 0x1002 ⟨true, true, false, false⟩) = true := by
  decide

/-- 95_test_vectors.md B1.18. -/
theorem test_step_dec_wraps : after [0x49]
    { small with regs := { small.regs with ecx := 0x0 } }
    (fun t => t.regs.ecx == 0xFFFFFFFF && ran t 0x1001 ⟨true, false, true, false⟩) = true := by
  decide

/-- 95_test_vectors.md B1.19. -/
theorem test_step_dec_overflow : after [0x49]
    { small with regs := { small.regs with ecx := 0x80000000 } }
    (fun t => t.regs.ecx == 0x7FFFFFFF && ran t 0x1001 ⟨false, false, false, true⟩) = true := by
  decide

/-- 95_test_vectors.md B1.24. -/
theorem test_step_neg_one : after [0xF7, 0xD8]
    { small with regs := { small.regs with eax := 0x1 } }
    (fun t => t.regs.eax == 0xFFFFFFFF && ran t 0x1002 ⟨true, false, true, false⟩) = true := by
  decide

/-- 95_test_vectors.md B1.25. -/
theorem test_step_neg_min : after [0xF7, 0xD8]
    { small with regs := { small.regs with eax := 0x80000000 } }
    (fun t => t.regs.eax == 0x80000000 && ran t 0x1002 ⟨true, false, true, true⟩) = true := by
  decide

/-- 95_test_vectors.md B1.27. -/
theorem test_step_add_read_refused : halts [0x01, 0x03] { small with regs := { small.regs with eax := 0x1, ebx := 0xFFFF }, flags := ⟨true, false, false, false⟩ } (.memOutOfBounds 0xFFFF .w4 .read) = true := by
  decide

/-- 95_test_vectors.md B1.22. -/
theorem test_step_inc_preserve : after [0x40]
    { small with cfg := { small.cfg with incDecCf := .preserve }, regs := { small.regs with eax := 0xFFFFFFFF } }
    (fun t => t.regs.eax == 0x0 && ran t 0x1001 ⟨false, true, false, false⟩) = true := by
  decide

/-- 95_test_vectors.md B2.1. -/
theorem test_step_mul_byte : after [0xF6, 0xE3]
    { small with regs := { small.regs with eax := 0xAABBCCFF, ebx := 0xFF } }
    (fun t => t.regs.eax == 0xAABBFE01 && ranCfOf t 0x1002 true true) = true := by
  decide

/-- 95_test_vectors.md B2.4. -/
theorem test_step_mul_long : after [0xF7, 0xE3]
    { small with regs := { small.regs with eax := 0xFFFFFFFF, ebx := 0xFFFFFFFF } }
    (fun t => t.regs.eax == 0x1 && t.regs.edx == 0xFFFFFFFE && ranCfOf t 0x1002 true true) = true := by
  decide

/-- 95_test_vectors.md B2.9. -/
theorem test_step_imul_byte : after [0xF6, 0xEB]
    { small with regs := { small.regs with eax := 0x80, ebx := 0xFF } }
    (fun t => t.regs.eax == 0x80 && ranCfOf t 0x1002 true true) = true := by
  decide

/-- 95_test_vectors.md B2.10. -/
theorem test_step_imul_long : after [0xF7, 0xEB]
    { small with regs := { small.regs with eax := 0xFFFFFFFE, ebx := 0x3 } }
    (fun t => t.regs.eax == 0xFFFFFFFA && t.regs.edx == 0xFFFFFFFF && ranCfOf t 0x1002 false false) = true := by
  decide

/-- 95_test_vectors.md B2.12. -/
theorem test_step_imul_two_unchanged : after [0x0F, 0xAF, 0xC3]
    { small with regs := { small.regs with eax := 0x10000, ebx := 0x10000 }, flags := ⟨false, true, false, false⟩ }
    (fun t => t.regs.eax == 0x0 && ran t 0x1003 ⟨false, true, false, false⟩) = true := by
  decide

/-- 95_test_vectors.md B2.13. -/
theorem test_step_imul_two_ia32 : after [0x0F, 0xAF, 0xC3]
    { small with cfg := { small.cfg with imulTrunc := .ia32 }, regs := { small.regs with eax := 0x10000, ebx := 0x10000 } }
    (fun t => t.regs.eax == 0x0 && ranCfOf t 0x1003 true true) = true := by
  decide

/-- 95_test_vectors.md B2.14. -/
theorem test_step_imul_three : after [0x6B, 0xC1, 0xFD]
    { small with regs := { small.regs with ecx := 0x7 } }
    (fun t => t.regs.eax == 0xFFFFFFEB && ran t 0x1003 ⟨false, false, false, false⟩) = true := by
  decide

/-- 95_test_vectors.md B2.16. -/
theorem test_step_imul_three_word : after [0x66, 0x6B, 0xC1, 0xFF]
    { small with regs := { small.regs with eax := 0xAAAA0000, ecx := 0x8000 } }
    (fun t => t.regs.eax == 0xAAAA8000 && ran t 0x1004 ⟨false, false, false, false⟩) = true := by
  decide

/-- 95_test_vectors.md B2.17. -/
theorem test_step_div_byte : after [0xF6, 0xF3]
    { small with regs := { small.regs with eax := 0x107, ebx := 0x2 } }
    (fun t => t.regs.eax == 0x183 && decide (t.pc = 0x1002)) = true := by
  decide

/-- 95_test_vectors.md B2.21. -/
theorem test_step_div_overflow : halts [0xF7, 0xF3] { small with regs := { small.regs with eax := 0x0, edx := 0x1, ebx := 0x1 } } (.divideError .overflow) = true := by
  decide

/-- 95_test_vectors.md B2.23. -/
theorem test_step_idiv_negative : after [0xF7, 0xFB]
    { small with regs := { small.regs with eax := 0xFFFFFFF9, edx := 0xFFFFFFFF, ebx := 0x2 } }
    (fun t => t.regs.eax == 0xFFFFFFFD && t.regs.edx == 0xFFFFFFFF && decide (t.pc = 0x1002)) = true := by
  decide

/-- 95_test_vectors.md B2.25. -/
theorem test_step_idiv_overflow : halts [0xF7, 0xFB] { small with regs := { small.regs with eax := 0x80000000, edx := 0xFFFFFFFF, ebx := 0xFFFFFFFF } } (.divideError .overflow) = true := by
  decide

/-- 95_test_vectors.md B2.30. -/
theorem test_step_div_read_first : halts [0xF7, 0x36] { small with regs := { small.regs with eax := 0x5, esi := 0x20000 } } (.memOutOfBounds 0x20000 .w4 .read) = true := by
  decide

/-- 95_test_vectors.md B3.1. -/
theorem test_step_mov_store : after [0x89, 0x43, 0x10]
    { small with regs := { small.regs with eax := 0x11223344, ebx := 0x2000 } }
    (fun t => t.mem.byte 0x2010 == 0x44 && t.mem.byte 0x2011 == 0x33 && t.mem.byte 0x2012 == 0x22 && t.mem.byte 0x2013 == 0x11 && ran t 0x1003 ⟨false, false, false, false⟩) = true := by
  decide

/-- 95_test_vectors.md B3.3. -/
theorem test_step_mov_high_bytes : after [0x88, 0xFC]
    { small with regs := { small.regs with eax := 0x11223344, ebx := 0xAB00 } }
    (fun t => t.regs.eax == 0x1122AB44 && ran t 0x1002 ⟨false, false, false, false⟩) = true := by
  decide

/-- 95_test_vectors.md B3.4. -/
theorem test_step_mov_word_imm : after [0x66, 0xB8, 0xEF, 0xBE]
    { small with regs := { small.regs with eax := 0x12345678 } }
    (fun t => t.regs.eax == 0x1234BEEF && ran t 0x1004 ⟨false, false, false, false⟩) = true := by
  decide

/-- 95_test_vectors.md B3.6. -/
theorem test_step_mov_absolute : after [0xA1, 0x00, 0x30, 0x00, 0x00]
    { small with mem := small.mem.setBytes 0x3000 [0xEF, 0xBE, 0xAD, 0xDE] }
    (fun t => t.regs.eax == 0xDEADBEEF && ran t 0x1005 ⟨false, false, false, false⟩) = true := by
  decide

/-- 95_test_vectors.md B3.9. -/
theorem test_step_lea_wraps : after [0x8D, 0x45, 0xFC]
    { small with regs := { small.regs with ebp := 0x2 } }
    (fun t => t.regs.eax == 0xFFFFFFFE && ran t 0x1003 ⟨false, false, false, false⟩) = true := by
  decide

/-- 95_test_vectors.md B3.10. -/
theorem test_step_lea_index : after [0x8D, 0x04, 0xCD, 0x00, 0x00, 0x00, 0x00]
    { small with regs := { small.regs with ecx := 0x20000001 } }
    (fun t => t.regs.eax == 0x8 && ran t 0x1007 ⟨false, false, false, false⟩) = true := by
  decide

/-- 95_test_vectors.md B3.13. -/
theorem test_step_movsx_byte : after [0x66, 0x0F, 0xBE, 0xC3]
    { small with regs := { small.regs with eax := 0x11112222, ebx := 0x80 } }
    (fun t => t.regs.eax == 0x1111FF80 && ran t 0x1004 ⟨false, false, false, false⟩) = true := by
  decide

/-- 95_test_vectors.md B3.14. -/
theorem test_step_movsx_word : after [0x0F, 0xBF, 0xC3]
    { small with regs := { small.regs with ebx := 0x18000 } }
    (fun t => t.regs.eax == 0xFFFF8000 && ran t 0x1003 ⟨false, false, false, false⟩) = true := by
  decide

/-- 95_test_vectors.md B3.15. -/
theorem test_step_movzx_word : after [0x0F, 0xB7, 0xC3]
    { small with regs := { small.regs with ebx := 0xFFFF8000 } }
    (fun t => t.regs.eax == 0x8000 && ran t 0x1003 ⟨false, false, false, false⟩) = true := by
  decide

/-- 95_test_vectors.md B3.16. -/
theorem test_step_movzx_high_byte : after [0x0F, 0xB6, 0xC4]
    { small with regs := { small.regs with eax := 0x1234ABCD } }
    (fun t => t.regs.eax == 0xAB && ran t 0x1003 ⟨false, false, false, false⟩) = true := by
  decide

/-- 95_test_vectors.md B3.17. -/
theorem test_step_push_reg : after [0x53]
    { small with regs := { small.regs with ebx := 0x11223344, esp := 0x8000 } }
    (fun t => t.regs.esp == 0x7FFC && t.mem.byte 0x7FFC == 0x44 && t.mem.byte 0x7FFD == 0x33 && t.mem.byte 0x7FFE == 0x22 && t.mem.byte 0x7FFF == 0x11 && ran t 0x1001 ⟨false, false, false, false⟩) = true := by
  decide

/-- 95_test_vectors.md B3.18. -/
theorem test_step_push_esp : after [0x54]
    { small with regs := { small.regs with esp := 0x8000 } }
    (fun t => t.regs.esp == 0x7FFC && t.mem.byte 0x7FFC == 0x00 && t.mem.byte 0x7FFD == 0x80 && t.mem.byte 0x7FFE == 0x00 && t.mem.byte 0x7FFF == 0x00 && ran t 0x1001 ⟨false, false, false, false⟩) = true := by
  decide

/-- 95_test_vectors.md B3.20. -/
theorem test_step_push_simm : after [0x6A, 0xFE]
    { small with regs := { small.regs with esp := 0x8000 } }
    (fun t => t.regs.esp == 0x7FFC && t.mem.byte 0x7FFC == 0xFE && t.mem.byte 0x7FFD == 0xFF && t.mem.byte 0x7FFE == 0xFF && t.mem.byte 0x7FFF == 0xFF && ran t 0x1002 ⟨false, false, false, false⟩) = true := by
  decide

/-- 95_test_vectors.md B3.24. -/
theorem test_step_push_mem_esp : after [0xFF, 0x74, 0x24, 0x04]
    { small with regs := { small.regs with esp := 0x7FFC }, mem := small.mem.setBytes 0x8000 [0x5A] }
    (fun t => t.regs.esp == 0x7FF8 && t.mem.byte 0x7FF8 == 0x5A && t.mem.byte 0x7FF9 == 0x00 && t.mem.byte 0x7FFA == 0x00 && t.mem.byte 0x7FFB == 0x00 && ran t 0x1004 ⟨false, false, false, false⟩) = true := by
  decide

/-- 95_test_vectors.md B3.19. -/
theorem test_step_pop_esp : after [0x5C]
    { small with regs := { small.regs with esp := 0x7FFC }, mem := small.mem.setBytes 0x7FFC [0x00, 0x50, 0x00, 0x00] }
    (fun t => t.regs.esp == 0x5000 && ran t 0x1001 ⟨false, false, false, false⟩) = true := by
  decide

/-- 95_test_vectors.md B3.25. -/
theorem test_step_pop_mem : after [0x8F, 0x03]
    { small with regs := { small.regs with ebx := 0x2000, esp := 0x7FFC }, mem := small.mem.setBytes 0x7FFC [0x78, 0x56, 0x34, 0x12] }
    (fun t => t.regs.esp == 0x8000 && t.mem.byte 0x2000 == 0x78 && t.mem.byte 0x2001 == 0x56 && t.mem.byte 0x2002 == 0x34 && t.mem.byte 0x2003 == 0x12 && ran t 0x1002 ⟨false, false, false, false⟩) = true := by
  decide

/-- 95_test_vectors.md B3.27. -/
theorem test_step_push_refused : halts [0x50] { small with regs := { small.regs with esp := 0x2 } } (.memOutOfBounds 0xFFFFFFFE .w4 .write) = true := by
  decide

/-- 95_test_vectors.md B3.29. -/
theorem test_step_leave : after [0xC9]
    { small with regs := { small.regs with esp := 0x7000, ebp := 0x7FF8 }, mem := small.mem.setBytes 0x7FF8 [0x00, 0x80, 0x00, 0x00] }
    (fun t => t.regs.esp == 0x7FFC && t.regs.ebp == 0x8000 && ran t 0x1001 ⟨false, false, false, false⟩) = true := by
  decide

/-- 95_test_vectors.md B3.31. -/
theorem test_step_cltd : after [0x99]
    { small with regs := { small.regs with eax := 0x80000000, edx := 0x1234 } }
    (fun t => t.regs.edx == 0xFFFFFFFF && ran t 0x1001 ⟨false, false, false, false⟩) = true := by
  decide

/-- 95_test_vectors.md B3.33. -/
theorem test_step_cwtd : after [0x66, 0x99]
    { small with regs := { small.regs with eax := 0x8000, edx := 0x12345678 } }
    (fun t => t.regs.edx == 0x1234FFFF && ran t 0x1002 ⟨false, false, false, false⟩) = true := by
  decide

/-- 95_test_vectors.md B3.34. -/
theorem test_step_cwtl : after [0x98]
    { small with regs := { small.regs with eax := 0x1234FF80 } }
    (fun t => t.regs.eax == 0xFFFFFF80 && ran t 0x1001 ⟨false, false, false, false⟩) = true := by
  decide

/-- 95_test_vectors.md B3.35. -/
theorem test_step_cbtw : after [0x66, 0x98]
    { small with regs := { small.regs with eax := 0x12345680 } }
    (fun t => t.regs.eax == 0x1234FF80 && ran t 0x1002 ⟨false, false, false, false⟩) = true := by
  decide

/-- 95_test_vectors.md B3.36. -/
theorem test_step_pusha : halts [0x60] { small with regs := { small.regs with esp := 0x8000 } } (.unimplemented .pusha) = true := by
  decide

/-- 95_test_vectors.md B3.37. -/
theorem test_step_popa : halts [0x61] { small with regs := { small.regs with esp := 0x8000 } } (.unimplemented .popa) = true := by
  decide

/-- 95_test_vectors.md B4.1. -/
theorem test_step_lidt : after [0x0F, 0x01, 0x18]
    { small with regs := { small.regs with eax := 0x2000 }, mem := small.mem.setBytes 0x2000 [0xFF, 0x07, 0x00, 0x10, 0x00, 0x00] }
    (fun t => decide (t.idtr = ⟨0x07FF, 0x00001000⟩) && ran t 0x1003 ⟨false, false, false, false⟩) = true := by
  decide

/-- 95_test_vectors.md B4.4. -/
theorem test_step_lidt_refused : halts [0x0F, 0x01, 0x18] { small with regs := { small.regs with eax := 0xFFFC } } (.memOutOfBounds 0xFFFE .w4 .read) = true := by
  decide

/-- 95_test_vectors.md B4.6. -/
theorem test_step_mov_cr : halts [0x0F, 0x20, 0xC0] small (.unimplemented .movCr) = true := by
  decide

/-- 95_test_vectors.md B4.7. -/
theorem test_step_int : halts [0xCD, 0x80] small (.unimplemented .int) = true := by
  decide

/-- 95_test_vectors.md B4.8. -/
theorem test_step_iret : halts [0xCF] small (.unimplemented .iret) = true := by
  decide

/-- 95_test_vectors.md B4.12. -/
theorem test_step_out_imm : after [0xE6, 0x80]
    { small with regs := { small.regs with eax := 0x11223344 } }
    (fun t => decide (t.events = [.portWrite 0x0080 .w1 0x44]) && ran t 0x1002 ⟨false, false, false, false⟩) = true := by
  decide

/-- 95_test_vectors.md B4.14. -/
theorem test_step_out_narrow : after [0xEF]
    { small with cfg := { small.cfg with outWidth := .narrow }, regs := { small.regs with eax := 0x11223344, edx := 0x60 } }
    (fun t => decide (t.events = [.portWrite 0x0060 .w1 0x44]) && ran t 0x1001 ⟨false, false, false, false⟩) = true := by
  decide

/-- 95_test_vectors.md B5.1. -/
theorem test_step_and : after [0x21, 0xD8]
    { small with regs := { small.regs with eax := 0xF0F0F0F0, ebx := 0xFF00FF0 }, flags := ⟨true, true, true, true⟩ }
    (fun t => t.regs.eax == 0xF000F0 && ran t 0x1002 ⟨false, false, false, false⟩) = true := by
  decide

/-- 95_test_vectors.md B5.6. -/
theorem test_step_and_simm : after [0x83, 0xE1, 0x0F]
    { small with regs := { small.regs with ecx := 0x1234 }, flags := ⟨true, true, true, true⟩ }
    (fun t => t.regs.ecx == 0x4 && ran t 0x1003 ⟨false, false, false, false⟩) = true := by
  decide

/-- 95_test_vectors.md B5.2. -/
theorem test_step_or : after [0x0C, 0x80]
    { small with regs := { small.regs with eax := 0x1 }, flags := ⟨true, true, true, true⟩ }
    (fun t => t.regs.eax == 0x81 && ran t 0x1002 ⟨false, false, true, false⟩) = true := by
  decide

/-- 95_test_vectors.md B5.3. -/
theorem test_step_xor : after [0x31, 0xC0]
    { small with regs := { small.regs with eax := 0xDEADBEEF }, flags := ⟨true, true, true, true⟩ }
    (fun t => t.regs.eax == 0x0 && ran t 0x1002 ⟨false, true, false, false⟩) = true := by
  decide

/-- 95_test_vectors.md B5.4. -/
theorem test_step_test : after [0x85, 0xC0]
    { small with regs := { small.regs with eax := 0x0 }, flags := ⟨true, true, true, true⟩ }
    (fun t => t.regs.eax == 0x0 && ran t 0x1002 ⟨false, true, false, false⟩) = true := by
  decide

/-- 95_test_vectors.md B5.9. -/
theorem test_step_test_mem : after [0xF7, 0x03, 0x01, 0x00, 0x00, 0x00]
    { small with regs := { small.regs with ebx := 0x2000 }, mem := small.mem.setBytes 0x2000 [0x03] }
    (fun t => ran t 0x1006 ⟨false, false, false, false⟩) = true := by
  decide

/-- 95_test_vectors.md B5.7. -/
theorem test_step_not : after [0xF7, 0xD0]
    { small with regs := { small.regs with eax := 0xF0F0F0F }, flags := ⟨true, true, true, true⟩ }
    (fun t => t.regs.eax == 0xF0F0F0F0 && ran t 0x1002 ⟨true, true, true, true⟩) = true := by
  decide

/-- 95_test_vectors.md B5.10. -/
theorem test_step_shl_one : after [0xD0, 0xE0]
    { small with regs := { small.regs with eax := 0xC0 } }
    (fun t => t.regs.eax == 0x80 && ran t 0x1002 ⟨true, false, true, false⟩) = true := by
  decide

/-- 95_test_vectors.md B5.8. -/
theorem test_step_shl_zero : after [0xC1, 0xE0, 0x20]
    { small with regs := { small.regs with eax := 0x3 }, flags := ⟨true, true, true, true⟩ }
    (fun t => t.regs.eax == 0x3 && ran t 0x1003 ⟨true, true, true, true⟩) = true := by
  decide

/-- 95_test_vectors.md B5.11. -/
theorem test_step_shl_31 : after [0xC1, 0xE0, 0x1F]
    { small with regs := { small.regs with eax := 0x3 } }
    (fun t => t.regs.eax == 0x80000000 && decide (t.pc = 0x1003) && t.flags.cf == true && t.flags.zf == false && t.flags.sf == true) = true := by
  decide

/-- 95_test_vectors.md B5.14. -/
theorem test_step_shr : after [0xC1, 0xE8, 0x04]
    { small with regs := { small.regs with eax := 0x80000018 } }
    (fun t => t.regs.eax == 0x8000001 && decide (t.pc = 0x1003) && t.flags.cf == true && t.flags.zf == false && t.flags.sf == false) = true := by
  decide

/-- 95_test_vectors.md B5.15. -/
theorem test_step_shr_one : after [0xD1, 0xE8]
    { small with regs := { small.regs with eax := 0x80000001 } }
    (fun t => t.regs.eax == 0x40000000 && ran t 0x1002 ⟨true, false, false, true⟩) = true := by
  decide

/-- 95_test_vectors.md B5.16. -/
theorem test_step_sar_one : after [0xD1, 0xF8]
    { small with regs := { small.regs with eax := 0xFFFFFFF9 } }
    (fun t => t.regs.eax == 0xFFFFFFFC && ran t 0x1002 ⟨true, false, true, false⟩) = true := by
  decide

/-- 95_test_vectors.md B5.18. -/
theorem test_step_sar_cl : after [0xD3, 0xF8]
    { small with regs := { small.regs with eax := 0x80000000, ecx := 0x1F } }
    (fun t => t.regs.eax == 0xFFFFFFFF && decide (t.pc = 0x1002) && t.flags.cf == false && t.flags.zf == false && t.flags.sf == true) = true := by
  decide

/-- 95_test_vectors.md B6.1. -/
theorem test_step_jcc_taken : after [0x75, 0xFB]
    { small with pc := 0x100 }
    (fun t => ran t 0xFD ⟨false, false, false, false⟩) = true := by
  decide

/-- 95_test_vectors.md B6.4. -/
theorem test_step_jcc_not_taken : after [0x7C, 0x10]
    { small with flags := ⟨false, false, true, true⟩ }
    (fun t => ran t 0x1002 ⟨false, false, true, true⟩) = true := by
  decide

/-- 95_test_vectors.md B6.10. -/
theorem test_step_jmp_near : after [0xE9, 0x00, 0x01, 0x00, 0x00]
    small
    (fun t => ran t 0x1105 ⟨false, false, false, false⟩) = true := by
  decide

/-- 95_test_vectors.md B6.14. -/
theorem test_step_jmp_mem : after [0xFF, 0x23]
    { small with regs := { small.regs with ebx := 0x2000 }, mem := small.mem.setBytes 0x2000 [0x34, 0x12, 0x00, 0x00] }
    (fun t => ran t 0x1234 ⟨false, false, false, false⟩) = true := by
  decide

/-- 95_test_vectors.md B6.15. -/
theorem test_step_call : after [0xE8, 0x10, 0x00, 0x00, 0x00]
    { small with regs := { small.regs with esp := 0x8000 } }
    (fun t => t.regs.esp == 0x7FFC && t.mem.byte 0x7FFC == 0x05 && t.mem.byte 0x7FFD == 0x10 && t.mem.byte 0x7FFE == 0x00 && t.mem.byte 0x7FFF == 0x00 && ran t 0x1015 ⟨false, false, false, false⟩) = true := by
  decide

/-- 95_test_vectors.md B6.17. -/
theorem test_step_call_mem_esp : after [0xFF, 0x14, 0x24]
    { small with regs := { small.regs with esp := 0x8000 }, mem := small.mem.setBytes 0x8000 [0x00, 0x30, 0x00, 0x00] }
    (fun t => t.regs.esp == 0x7FFC && t.mem.byte 0x7FFC == 0x03 && t.mem.byte 0x7FFD == 0x10 && t.mem.byte 0x7FFE == 0x00 && t.mem.byte 0x7FFF == 0x00 && ran t 0x3000 ⟨false, false, false, false⟩) = true := by
  decide

/-- 95_test_vectors.md B6.19. -/
theorem test_step_ret : after [0xC3]
    { small with regs := { small.regs with esp := 0x7FFC }, mem := small.mem.setBytes 0x7FFC [0x05, 0x10, 0x00, 0x00] }
    (fun t => t.regs.esp == 0x8000 && ran t 0x1005 ⟨false, false, false, false⟩) = true := by
  decide

/-- 95_test_vectors.md B6.21. -/
theorem test_step_setcc : after [0x0F, 0x94, 0xC0]
    { small with regs := { small.regs with eax := 0xFFFFFFFF }, flags := ⟨false, true, false, false⟩ }
    (fun t => t.regs.eax == 0xFFFFFF01 && ran t 0x1003 ⟨false, true, false, false⟩) = true := by
  decide

/-- 95_test_vectors.md B6.23. -/
theorem test_step_setcc_high_byte : after [0x0F, 0x92, 0xC4]
    { small with regs := { small.regs with eax := 0xFFFFFFFF } }
    (fun t => t.regs.eax == 0xFFFF00FF && ran t 0x1003 ⟨false, false, false, false⟩) = true := by
  decide

/-- 95_test_vectors.md B6.25. -/
theorem test_step_nop : after [0x66, 0x90]
    small
    (fun t => ran t 0x1002 ⟨false, false, false, false⟩) = true := by
  decide

/-- 95_test_vectors.md B7.13. -/
theorem test_step_fetch_end_of_ram : halts [0x01] { small with pc := 0xFFFF } (.memOutOfBounds 0x10000 .w1 .fetch) = true := by
  decide

/-- 95_test_vectors.md B7.14. -/
theorem test_step_fetch_last_byte : after [0x40]
    { small with pc := 0xFFFF }
    (fun t => t.regs.eax == 0x1 && ran t 0x10000 ⟨false, false, false, false⟩) = true := by
  decide

/-- 95_test_vectors.md B7.16. -/
theorem test_step_sib_no_base : after [0x8B, 0x0C, 0x45, 0x00, 0x01, 0x00, 0x00]
    { small with regs := { small.regs with eax := 0x80 }, mem := small.mem.setBytes 0x200 [0x11, 0x22] }
    (fun t => t.regs.ecx == 0x2211 && ran t 0x1007 ⟨false, false, false, false⟩) = true := by
  decide

/-- 95_test_vectors.md B7.20. -/
theorem test_step_address_wraps : after [0x8B, 0x48, 0xFF]
    { small with regs := { small.regs with eax := 0x1 }, mem := small.mem.setBytes 0x0 [0x55] }
    (fun t => t.regs.ecx == 0x55 && ran t 0x1003 ⟨false, false, false, false⟩) = true := by
  decide

/-- 95_test_vectors.md B4.10: one event; the value read is any byte. -/
theorem test_step_in : after [0xE4, 0x60] { small with regs := { small.regs with eax := 0x11223344 } } (fun t =>
    t.events.length == 1 && ran t 0x1002 small.flags) = true := by decide

/-- 95_test_vectors.md B3.22: a 2-byte push moves ESP by 4. -/
theorem test_step_push_word : after [0x66, 0x53]
    { small with regs := { small.regs with ebx := 0xAAAA1234, esp := 0x8000 } } (fun t =>
    t.regs.esp == 0x7FFC && ran t 0x1002 small.flags) = true := by decide

/-- 20_memory.md R80: a store to MMIO changes no byte and logs the access. -/
theorem test_step_mmio_store : after [0xA2, 0x00, 0x20, 0x00, 0x00]
    { small with cfg := { small.cfg with mmio := [⟨0x2000, 16⟩] }, regs := { small.regs with eax := 0x11223344 } }
    (fun t => t.mem.byte 0x2000 == 0 && decide (t.events = [.mmioWrite 0x2000 .w1 0x44]) &&
      ran t 0x1005 small.flags) = true := by decide

/-- 45_control_gk.md R430: `jbe` with CF = 1 given and ZF drawn takes a draw; `jb`, which reads no drawn flag, takes none. -/
theorem test_step_jcc_drawn :
    let s : State := { small with flags := ⟨true, false, false, false⟩, drawn := ⟨false, true, false, false⟩ }
    after [0x76, 0x10] s (fun t => t.draws == 1 && decide (t.drawn = s.drawn)) = true ∧
    after [0x72, 0x10] s (fun t => t.draws == 0 && ran t 0x1012 s.flags) = true := by decide

/-- 41_muldiv.md R250: `mul` in mode ia32 draws ZF and SF; 40_arith.md R210: `add` then writes all four. -/
theorem test_step_drawn :
    after [0xF7, 0xE1] small (fun t => decide (t.drawn = ⟨false, true, true, false⟩)) = true ∧
    after [0x01, 0xD8] { small with drawn := ⟨true, true, true, true⟩ } (fun t => decide (t.drawn = .clear)) = true := by
  decide

/-- 60_exceptions.md R505: a halted core takes no step; a refusal ends the step as a refusal. -/
theorem test_step_halted_fault : step { small with status := .halted ⟨.divideError .zero, 0x1000⟩ } =
    .fault (.halted ⟨.divideError .zero, 0x1000⟩) := by rfl

theorem test_step_halted_refusal : step { small with status := .halted ⟨.unsupportedForm .osizePrefix, 0x1000⟩ } =
    .refused (.halted ⟨.unsupportedForm .osizePrefix, 0x1000⟩) := by rfl

/-- The host's way to place a word: `sub %ebx, %eax` right after reset. -/
theorem test_withFetchWord : step (State.reset.withFetchWord 16 0xD829) =
    exec (.subEvGv .o32 (.reg .eax) .ebx) (State.reset.withFetchWord 16 0xD829) := by rfl

theorem test_decodeTableWord : decodeTableWord 16 0xD829 = some (.subEvGv .o32 (.reg .eax) .ebx) := by decide

/-- A width that is not 1, 2 or 4, and a write to an immediate, break the decode contract (60_exceptions.md R500). -/
theorem test_contract_width : (Width.ofBytes 3).toOption = none ∧ (Width.ofBytes 4).toOption = some .w4 := by decide

theorem test_contract_immediate :
    (Operand.write (w := .w1) (.imm 0) 1 small) = .error (.decodeContractViolation .writeToImmediate) := by rfl

/-! ### Witnesses

One theorem for each obligation with hypotheses: concrete operands and a concrete state that meet all of them together,
for each of its clauses, at boundary values. -/

/-- `small` with ESP at 0x8000, EBX at the last word of RAM, EAX 0x80 and ECX 31. -/
def low : State := { small with regs := { small.regs with esp := 0x8000, ebx := 0xFFFC, eax := 0x80, ecx := 31 } }

/-- `low` with the 16 bytes from 0x2000 in MMIO, and ESI there. -/
def withMmio : State :=
  { low with cfg := { low.cfg with mmio := [⟨0x2000, 16⟩] }, regs := { low.regs with esi := 0x2000 } }

/-- [EBX]: the last word of RAM. -/
abbrev lastWord : RM := .mem (.base .ebx .none)

/-- An access to the last word of RAM is admitted, one a byte above is not. -/
theorem lastWord_admitted : admission low.cfg .w4 0xFFFC = some .ram ∧ admission low.cfg .w4 0xFFFD = none := by decide

theorem admitted_lastWord : (rmOperand .w4 lastWord low).admitted low := by
  show admission low.cfg .w4 (effAddr low.regs _) ≠ none
  decide

theorem admitted_lastWord_w2 : (rmOperand .w2 lastWord low).admitted low := by
  show admission low.cfg .w2 (effAddr low.regs _) ≠ none
  decide

theorem admitted_lastWord_w1 : (rmOperand .w1 lastWord low).admitted low := by
  show admission low.cfg .w1 (effAddr low.regs _) ≠ none
  decide

theorem witness_DecodeEncode :
    Instr.wellFormed (.popEv .o32 lastWord) = true ∧ Instr.isExt (.popEv .o32 lastWord) = false ∧
    Instr.wellFormed (.setccEb true .g .edi (.mem (.sib .s8 .esp .ebp (.d32 0xFFFFFFFF)))) = true ∧
    Instr.isExt (.setccEb true .g .edi (.mem (.sib .s8 .esp .ebp (.d32 0xFFFFFFFF)))) = true := by decide

theorem witness_EncodeDecode : decode false [0x8F, 0x03, 0x90] = .ok (.popEv .o32 lastWord, [0x90]) := by rfl

theorem witness_InstructionLength :
    Instr.len (.testEvIv (.mem (.sib .s1 .eax .eax (.d32 0))) (.i32 0)) = 11 ∧
    (encode (.addEvIv (.mem (.sib .s1 .eax .eax (.d32 0))) (.i16 0))).head? = some 0x66 ∧
    (encode (.jccJd .o 0)).take 2 = [0x0F, 0x80] ∧
    (encode (.lidtM true (.sib .s1 .eax .eax (.d32 0)))).take 3 = [0x66, 0x0F, 0x01] := by decide

theorem witness_ExtensionRowsRefused :
    Instr.wellFormed (.nop true) = true ∧ Instr.isExt (.nop true) = true ∧
    Instr.wellFormed .leave = true ∧ Instr.isExt .leave = false := by decide

theorem witness_PrefixesRefused :
    Instr.wellFormed .leave = true ∧ Instr.refusesPrefix .leave = true ∧ Instr.isExt .leave = false ∧
    Instr.wellFormed (.callEd lastWord) = true ∧ Instr.refusesPrefix (.callEd lastWord) = true := by decide

/-- 0xC0 /6, 0xF6 /1, 0x0F 0x01 /2, a register operand, and `pop` to [ESP + EDI * 8 + d32]; `pop` to ESP itself decodes. -/
theorem witness_ReservedOperandValues :
    (0xF0#8).toNat / 8 % 8 ∉ [4, 5, 7] ∧ (0xC8#8).toNat / 8 % 8 ∉ [0, 2, 3, 4, 5, 6, 7] ∧ (0x10#8).toNat / 8 % 8 ≠ 3 ∧ (0xD8#8).toNat / 64 = 3 ∧
    (0x84#8) ∈ [0x04#8, 0x44#8, 0x84#8] ∧ (0xFC#8).toNat % 8 = 4 ∧
    decode true [0x8F, 0xC4] = .ok (.popEv .o32 (.reg .esp), []) := by decide

theorem witness_OpcodesWithoutRow :
    (0x0B#8) ∉ [0x01#8, 0x20#8, 0x22#8, 0xAF#8, 0xB6#8, 0xB7#8, 0xBE#8, 0xBF#8] ∧
    (0x0B#8).toNat / 16 ≠ 8 ∧ (0x0B#8).toNat / 16 ≠ 9 := by decide

/-- A placeholder at the last byte of RAM, with and without the prefix. -/
theorem witness_PlaceholderAtOpcode :
    let s : State := { small with pc := 0xFFFF, mem := small.mem.setBytes 0xFFFE [0x66, 0xCF] }
    s.status = .running ∧ BytesAt s (pfx false ++ [0xCF]) ∧ BytesAt { s with pc := 0xFFFE } (pfx true ++ [0xCF]) := by
  refine ⟨rfl, ?_, ?_⟩ <;> unfold BytesAt <;> decide

/-- `push %ebx` in the last byte of RAM: nothing more can be fetched. -/
theorem witness_StepRunsDecoded :
    let s : State := { low with pc := 0xFFFF, mem := low.mem.setBytes 0xFFFF [0x53] }
    s.status = .running ∧ decode s.cfg.extGk (fetchable s) = .ok (.pushRv .o32 .ebx, []) := ⟨rfl, rfl⟩

/-- The same instruction as bytes at pc, and one that ends at the last byte of RAM. -/
theorem witness_StepRunsBytesAtPc :
    let s : State := { low with pc := 0xFFFE, mem := low.mem.setBytes 0xFFFE [0x29, 0xD8] }
    s.status = .running ∧ Instr.wellFormed (.subEvGv .o32 (.reg .eax) .ebx) = true ∧
    BytesAt s (encode (.subEvGv .o32 (.reg .eax) .ebx)) := by
  refine ⟨rfl, rfl, ?_⟩
  unfold BytesAt
  decide

/-- The second byte lies past RAM; or it is MMIO; or not even the first byte can be fetched. -/
theorem witness_FetchOfUnreadableByte :
    let s : State := { small with pc := 0xFFFF, mem := small.mem.setBytes 0xFFFF [0x01] }
    let s2 : State := { withMmio with pc := 0x1FFF, mem := small.mem.setBytes 0x1FFF [0x01] }
    BytesAt s [0x01] ∧ decode s.cfg.extGk [0x01] = .error .needMore ∧ isRam s.cfg (s.pc + 1) = false ∧
    isMmio s.cfg (s.pc + 1) = false ∧
    BytesAt s2 [0x01] ∧ isRam s2.cfg (s2.pc + 1) = false ∧ isMmio s2.cfg (s2.pc + 1) = true ∧
    decode s.cfg.extGk [] = .error .needMore ∧ isRam small.cfg 0x10000 = false := by
  refine ⟨?_, rfl, ?_, ?_, ?_, ?_, ?_, rfl, ?_⟩ <;> try unfold BytesAt
  all_goals decide

theorem witness_StepKeepsInv : Inv low ∧ ∃ t, step low = .next t :=
  ⟨⟨rfl, by simp [low, small, State.reset, State.resetWith], by simp [low, small, State.reset, State.resetWith]⟩, _, rfl⟩

/-- A step that halts: `int $0x80`. -/
theorem witness_FaultsPrecise :
    let s : State := { small with mem := small.mem.setBytes 0x1000 [0xCD, 0x80] }
    ∃ t r, step s = .next t ∧ t.status = .halted r := ⟨_, _, rfl, rfl⟩

theorem witness_IdtrIsolated :
    (∃ t, exec (.pushRv .o32 .ebx) low = .next t) ∧ (∀ p m, Instr.pushRv .o32 .ebx ≠ .lidtM p m) ∧
    ∃ t, exec (.lidtM false (.base .ebx .none)) low = .next t := ⟨⟨_, rfl⟩, by simp, _, rfl⟩

/-- A shift by 32, which writes no flag; and `inc` in mode `preserve`. -/
theorem witness_FlagFrame :
    Instr.writesFlags (.shlEvIb .o32 (.reg .eax) 32) low = false ∧
    (∃ t, exec (.shlEvIb .o32 (.reg .eax) 32) low = .next t) ∧
    let s : State := { low with cfg := { low.cfg with incDecCf := .preserve } }
    s.cfg.incDecCf = .preserve ∧ ∃ t, exec (.incRv .o32 .eax) s = .next t := ⟨by decide, ⟨_, rfl⟩, rfl, _, rfl⟩

/-- CF drawn by a divide stays a draw under `inc` in mode `preserve`, and is none under `add`. -/
theorem witness_FlagFrame_drawn :
    let s : State := { low with cfg := { low.cfg with incDecCf := .preserve }, drawn := ⟨true, true, true, true⟩ }
    (∃ t, exec (.incRv .o32 .eax) s = .next t ∧ t.drawn = ⟨true, false, false, false⟩) ∧
    ∃ t, exec (.addALIb false 1) s = .next t ∧ t.drawn = .clear := ⟨⟨_, rfl, rfl⟩, _, rfl, rfl⟩

theorem witness_PcAdvances :
    Instr.isTransfer (.movRvIv .eax (.i32 1)) = false ∧ low.status = .running ∧
    ∃ t, exec (.movRvIv .eax (.i32 1)) low = .next t ∧ t.status = .running := ⟨rfl, rfl, _, rfl, rfl⟩

/-- Bit 16 of EAX under a 2-byte write, the lowest bit that stays. -/
theorem witness_RegisterFrame :
    (∃ t, exec (.movRvIv .eax (.i16 1)) low = .next t) ∧
    ∀ n ∈ Instr.destNames (.movRvIv .eax (.i16 1)), aliasBit n.1 n.2 .eax 16 = false := ⟨⟨_, rfl⟩, by decide⟩

/-- The byte just below the last word of RAM, under a store to that word; and any byte under a load from it. -/
theorem witness_MemoryFrame :
    (∃ t, exec (.movEvGv .o32 lastWord .eax) low = .next t) ∧
    (∀ x ∈ Instr.accesses (.movEvGv .o32 lastWord .eax) low, x.kind = .write → (0xFFFB : Word) ∉ touched x.width x.addr) ∧
    (∃ t, exec (.movGvEv .o32 .eax lastWord) low = .next t) ∧
    ∀ x ∈ Instr.accesses (.movGvEv .o32 .eax lastWord) low, x.kind = .write → (0xFFFC : Word) ∉ touched x.width x.addr :=
  ⟨⟨_, rfl⟩, by decide, ⟨_, rfl⟩, by decide⟩

/-- A read and a write of MMIO, a port access, and a step that halts. -/
theorem witness_EventsAppended :
    withMmio.status = .running ∧
    (∃ t, exec (.notEv .o32 (.mem (.base .esi .none))) withMmio = .next t ∧ t.status = .running) ∧
    (∃ t, exec (.outDXAL false) withMmio = .next t ∧ t.status = .running) ∧
    ∃ t r, exec (.pusha false) withMmio = .next t ∧ t.status = .halted r :=
  ⟨rfl, ⟨_, rfl, rfl⟩, ⟨_, rfl, rfl⟩, _, _, rfl, rfl⟩

/-- `push` of the last word of RAM, and `div` by it with a quotient of 8 bits exactly. -/
theorem witness_Completes :
    Instr.wellFormed (.pushEv .o32 lastWord) = true ∧ Instr.placeholder (.pushEv .o32 lastWord) = none ∧
    (∀ x ∈ Instr.accesses (.pushEv .o32 lastWord) low, x.admitted low = true) ∧
    Instr.divideError (.pushEv .o32 lastWord) low = none ∧
    Instr.divideError (.divEb false (.reg .ecx))
      { low with regs := { low.regs with eax := 31 * 255 + 30 } } = none := by decide

/-- The read of a read-modify-write a byte above the last word; the slot of a push at ESP 0. -/
theorem witness_FirstRefusedAccess :
    let s : State := { low with regs := { low.regs with ebx := 0xFFFD, esp := 0 } }
    Instr.wellFormed (.notEv .o32 lastWord) = true ∧
    (Instr.accesses (.notEv .o32 lastWord) s).find? (fun y => !y.admitted s) = some ⟨.w4, 0xFFFD, .read⟩ ∧
    (Instr.accesses (.pushRv .o32 .eax) s).find? (fun y => !y.admitted s) = some ⟨.w4, 0xFFFFFFFC, .write⟩ := by decide

theorem witness_PlaceholdersFault :
    Instr.placeholder (.movFromCr false 0xC0) = some .movCr ∧ Instr.placeholder (.movToCr false 0xC0) = some .movCr ∧
    Instr.placeholder (.intIb false 0x80) = some .int ∧ Instr.placeholder (.iret false) = some .iret ∧
    Instr.placeholder (.pusha false) = some .pusha ∧ Instr.placeholder (.popa true) = some .popa := by decide

/-- Each of the three reasons arises. -/
theorem witness_ReasonsOfExecution :
    let s : State := { low with regs := { low.regs with ebx := 0xFFFD } }
    Instr.wellFormed (.notEv .o32 lastWord) = true ∧ s.status = .running ∧
    (∃ t r, exec (.notEv .o32 lastWord) s = .next t ∧ t.status = .halted r) ∧
    (∃ t r, exec (.divEb false (.reg .edx)) s = .next t ∧ t.status = .halted r) ∧
    ∃ t r, exec (.popa false) s = .next t ∧ t.status = .halted r :=
  ⟨rfl, rfl, ⟨_, _, rfl, rfl⟩, ⟨_, _, rfl, rfl⟩, _, _, rfl, rfl⟩

/-- The highest bit of AH, and the bits beside it, which a write of AH keeps; the first and the last number. -/
theorem witness_RegisterAliases :
    7 < Width.bits .w1 ∧ aliasBit .w1 .esp .eax 15 = true ∧ aliasBit .w1 .esp .eax 8 = true ∧
    aliasBit .w1 .esp .eax 7 = false ∧ aliasBit .w1 .esp .eax 16 = false ∧ 31 < 32 ∧
    (0, low.regs.eax) ∈ [(0, low.regs.eax)] ∧ Reg.ofNum 0 = .eax ∧ Reg.ofNum 7 = .edi := by decide

/-- An access that wraps: its last byte, and the byte just above it. -/
theorem witness_MemoryBytes :
    low.mem.wf = true ∧ 3 < Width.bytes .w4 ∧ ((0xFFFFFFFE : Word) + BitVec.ofNat 32 3) = 1 ∧
    Width.bytes .w4 ≤ ((2 : Word) - 0xFFFFFFFE).toNat := by decide

/-- The first and last address of RAM and of MMIO, and the addresses just outside; the last word of RAM, one byte above it,
MMIO, and an access across the edge of MMIO. -/
theorem witness_AccessAdmission :
    let c := { withMmio.cfg with pmemBase := 0x1000, pmemSize := 0xF000 }
    (isRam c 0xFFF = false ∧ isRam c 0x1000 = true ∧ isRam c 0xFFFF = true ∧ isRam c 0x10000 = false) ∧
    (isMmio c 0x1FFF = false ∧ isMmio c 0x2000 = true ∧ isMmio c 0x200F = true ∧ isMmio c 0x2010 = false) ∧
    (isRam c 0x1FFF = true ∧ isRam c 0x2000 = false ∧ isRam c 0x200F = false ∧ isRam c 0x2010 = true) ∧
    admission withMmio.cfg .w4 0xFFFC = some .ram ∧ admission withMmio.cfg .w4 0xFFFD = none ∧
    admission withMmio.cfg .w4 0x200C = some .mmio ∧ admission withMmio.cfg .w4 0x200D = none ∧
    admission withMmio.cfg .w4 0x1FFC = some .ram ∧ admission withMmio.cfg .w4 0x2000 = some .mmio ∧
    admission withMmio.cfg .w2 0x1FFF = none := by decide

theorem witness_MmioAccess :
    admission withMmio.cfg .w4 0x2000 = some .mmio ∧ admission withMmio.cfg .w1 0x200F = some .mmio := by decide

/-- For `AddResult`, `AdcResult`, `SubCmpResult`, `SbbResult` and `LogicResult`: a memory destination, a memory source,
and two registers. -/
theorem witness_AddResult :
    (AluForm.dst (.evGv .o32 lastWord .eax) low).admitted low ∧ (AluForm.src (.evGv .o32 lastWord .eax) low).admitted low ∧
    (AluForm.dst (.gvEv .o16 .eax lastWord) low).admitted low ∧ (AluForm.src (.gvEv .o16 .eax lastWord) low).admitted low ∧
    (AluForm.dst (.ebGb true (.reg .esp) .eax) low).admitted low :=
  ⟨admitted_lastWord, trivial, trivial, admitted_lastWord_w2, trivial⟩

theorem witness_AdcResult :
    (AluForm.dst (.ebIb false lastWord 0xFF) low).admitted low ∧ (AluForm.src (.ebIb false lastWord 0xFF) low).admitted low :=
  ⟨admitted_lastWord_w1, trivial⟩

theorem witness_SubCmpResult :
    (AluForm.dst (.evIv lastWord (.i32 0)) low).admitted low ∧ (AluForm.src (.evIv lastWord (.i32 0)) low).admitted low :=
  ⟨admitted_lastWord, trivial⟩

theorem witness_SbbResult :
    (AluForm.dst (.evSIb .o16 lastWord 0x80) low).admitted low ∧
    (AluForm.src (.evSIb .o16 lastWord 0x80) low).admitted low := ⟨admitted_lastWord_w2, trivial⟩

theorem witness_LogicResult :
    (AluForm.dst (.gbEb false .edi lastWord) low).admitted low ∧ (AluForm.src (.gbEb false .edi lastWord) low).admitted low :=
  ⟨trivial, admitted_lastWord_w1⟩

theorem witness_TestResult : (TestForm.dst (.evIv lastWord (.i32 1)) low).admitted low := admitted_lastWord

theorem witness_IncDecResult :
    (IncForm.dst (.ev .o32 lastWord) low).admitted low ∧ (IncForm.dst (.rv .o16 .esp) low).admitted low :=
  ⟨admitted_lastWord, trivial⟩

theorem witness_NegNotResult :
    (EForm.op (.ev .o32 lastWord) low).admitted low ∧ (EForm.op (.eb false (.reg .esp)) low).admitted low :=
  ⟨admitted_lastWord, trivial⟩

/-- The counts 0 and 32. -/
theorem witness_ShiftByZero :
    (ShiftForm.dst (.evIb .o32 lastWord 0) low).admitted low ∧ ShiftForm.count (.evIb .o32 lastWord 0) low = 0 ∧
    ShiftForm.count (.ebIb false (.reg .eax) 0x20) low = 0 := ⟨admitted_lastWord, by decide, by decide⟩

/-- The counts 1, 7, 8 and 31 on a byte (CF given up to 7), 31 on a word in memory. -/
theorem witness_ShiftResult :
    (ShiftForm.dst (.evCL .o32 lastWord) low).admitted low ∧ ShiftForm.count (.evCL .o32 lastWord) low = 31 ∧
    31 ≤ (ShiftForm.evCL .o32 lastWord).width.bits - 1 ∧
    ShiftForm.count (.eb1 false (.reg .eax)) low = 1 ∧
    ShiftForm.count (.ebIb false (.reg .eax) 7) low ≤ (ShiftForm.ebIb false (.reg .eax) 7).width.bits - 1 ∧
    ¬ ShiftForm.count (.ebIb false (.reg .eax) 8) low ≤ (ShiftForm.ebIb false (.reg .eax) 8).width.bits - 1 ∧
    ShiftForm.count (.ebCL false (.reg .eax)) low ≠ 0 :=
  ⟨admitted_lastWord, by decide, by decide, by decide, by decide, by decide, by decide⟩

theorem witness_MulResult :
    (EForm.op (.ev .o32 lastWord) low).admitted low ∧ low.cfg.mulFlags = .ia32 := ⟨admitted_lastWord, rfl⟩

/-- Each of the four forms, and both modes. -/
theorem witness_ImulTruncResult :
    (rmOperand .w4 lastWord low).admitted low ∧ low.cfg.imulTrunc = .unchanged ∧
    ({ low.cfg with imulTrunc := .ia32 } : Config).imulTrunc = .ia32 ∧
    (∃ a : Word, Instr.imulGvEv .o32 .eax lastWord = .imulGvEv .o32 .eax lastWord ∧ a = low.regs.read .w4 .eax) ∧
    (∃ a : Word, ∃ imm : Byte, Instr.imulGvEvSIb .o32 .eax lastWord 0x80 = .imulGvEvSIb .o32 .eax lastWord imm ∧
      a = imm.signExtend 32) ∧
    (∃ a : Half, ∃ v : Half, Instr.imulGvEvIv .eax lastWord (.i16 1) = .imulGvEvIv .eax lastWord (.i16 v) ∧ a = v) ∧
    ∃ a : Word, ∃ v : Word, Instr.imulGvEvIv .eax lastWord (.i32 1) = .imulGvEvIv .eax lastWord (.i32 v) ∧ a = v :=
  ⟨admitted_lastWord, rfl, rfl, ⟨_, rfl, rfl⟩, ⟨_, _, rfl, rfl⟩, ⟨_, _, rfl, rfl⟩, _, _, rfl, rfl⟩

/-- A zero divisor; the least dividend whose quotient does not fit, and the greatest whose quotient does. -/
theorem witness_DivideResult :
    (EForm.op (.ev .o32 lastWord) low).admitted low ∧
    divError ((EForm.op (.ev .o32 lastWord) low).value low) low = some .zero ∧
    idivError ((EForm.op (.ev .o32 lastWord) low).value low) low = some .zero ∧
    divError (w := .w1) 2 { low with regs := { low.regs with eax := 0x200 } } = some .overflow ∧
    divError (w := .w1) 2 { low with regs := { low.regs with eax := 0x1FF } } = none ∧
    idivError (w := .w1) 0xFF { low with regs := { low.regs with eax := 0xFF80 } } = some .overflow ∧
    idivError (w := .w1) 1 { low with regs := { low.regs with eax := 0xFF80 } } = none :=
  ⟨admitted_lastWord, by decide, by decide, by decide, by decide, by decide, by decide⟩

/-- 31 * 255 + 30 divided by CL = 31, and -31 * 3 - 2 by it. -/
theorem witness_DivideIdentity :
    low.status = .running ∧
    (∃ t, exec (EForm.divInstr (.eb false (.reg .ecx))) { low with regs := { low.regs with eax := 31 * 255 + 30 } } =
      .next t ∧ t.status = .running) ∧
    ∃ t, exec (EForm.idivInstr (.eb false (.reg .ecx))) { low with regs := { low.regs with eax := 0xFFA1 } } =
      .next t ∧ t.status = .running := ⟨rfl, ⟨_, rfl, rfl⟩, _, rfl, rfl⟩

theorem witness_MovResult :
    (MovForm.dst (.ovEAX .o32 0xFFFC) low).admitted low ∧ (MovForm.src (.ovEAX .o32 0xFFFC) low).admitted low ∧
    (MovForm.dst (.gvEv .o32 .eax lastWord) low).admitted low ∧ (MovForm.src (.gvEv .o32 .eax lastWord) low).admitted low :=
  ⟨admitted_lastWord, trivial, trivial, admitted_lastWord⟩

/-- Index number 4 is no index; a 1-byte displacement is signed; the sum wraps (hand-computed from R120 and R122). -/
theorem witness_LeaAccumulatorResult :
    (Scale.s8, 8) ∈ [(Scale.s1, 1), (.s2, 2), (.s4, 4), (.s8, 8)] ∧
    effAddr low.regs (.sib .s8 .esp .eax (.d8 0x80)) = 0 ∧
    effAddr low.regs (.sib .s8 .ecx .ebx (.d32 0xFFFFFFFF)) = 0x100F3 ∧
    effAddr low.regs (.sibNoBase .s4 .ecx 0xFFFFFF00) = 0xFFFFFF7C := by decide

theorem witness_ExtendResult :
    (rmOperand .w1 lastWord low).admitted low ∧ (rmOperand .w2 lastWord low).admitted low :=
  ⟨admitted_lastWord_w1, admitted_lastWord_w2⟩

/-- The slot may lie at the very start of RAM. -/
theorem witness_PushResult :
    (PushForm.src (.ev .o32 lastWord) low).admitted low ∧ admission low.cfg .w4 (low.regs.esp - 4) ≠ none ∧
    admission low.cfg .w4 ((4 : Word) - 4) ≠ none := ⟨admitted_lastWord, by decide, by decide⟩

theorem witness_PopLeaveResult :
    (PopForm.instr (.ev .o32 lastWord)).wellFormed = true ∧ admission low.cfg .w4 low.regs.esp ≠ none ∧
    (PopForm.dst (.ev .o32 lastWord) low).admitted low ∧ admission low.cfg .w4 low.regs.ebp ≠ none :=
  ⟨by decide, by decide, admitted_lastWord, by decide⟩

theorem witness_PushPopRestores :
    low.mem.wf = true ∧ admission low.cfg .w4 (low.regs.esp - 4) = some .ram ∧ lastWord.usesEsp = false ∧
    (rmOperand .w4 lastWord low).admitted low := ⟨by decide, by decide, by decide, admitted_lastWord⟩

/-- The base of the descriptor in the last word of RAM. -/
theorem witness_LidtResult :
    let a := effAddr low.regs (.base .ebx (.d8 0xFE))
    a = 0xFFFA ∧ admission low.cfg .w2 a ≠ none ∧ admission low.cfg .w4 (a + 2) ≠ none := by decide

theorem witness_PortResult :
    low.cfg.outWidth = .widthAware ∧ ({ low.cfg with outWidth := .narrow } : Config).outWidth = .narrow := by decide

/-- `be` with CF = 1 given and ZF drawn reads a drawn flag, `b` reads none; and `jmp` through the last word of RAM. -/
theorem witness_JumpResult :
    let s : State := { low with flags := ⟨true, false, false, false⟩, drawn := ⟨false, true, false, false⟩ }
    condDrawn .be s.drawn = true ∧ condDrawn .b s.drawn = false ∧ (rmOperand .w4 lastWord low).admitted low :=
  ⟨rfl, rfl, admitted_lastWord⟩

theorem witness_CallRetResult :
    admission low.cfg .w4 (low.regs.esp - 4) ≠ none ∧ (rmOperand .w4 lastWord low).admitted low ∧
    admission low.cfg .w4 low.regs.esp ≠ none := ⟨by decide, admitted_lastWord, by decide⟩

/-- The code in between may do nothing at all; the second call is through the last word of RAM. -/
theorem witness_CallThenRet :
    low.mem.wf = true ∧ admission low.cfg .w4 (low.regs.esp - 4) = some .ram ∧
    (rmOperand .w4 lastWord low).admitted low ∧
    ∀ i ∈ [Instr.callJd 0, .callEd lastWord],
      ∃ t u : State, exec i low = .next t ∧ u.cfg = t.cfg ∧ u.regs.esp = t.regs.esp ∧
        ∀ a ∈ touched .w4 t.regs.esp, u.mem.byte a.toNat = t.mem.byte a.toNat := by
  refine ⟨by decide, by decide, admitted_lastWord, ?_⟩
  simp only [List.forall_mem_cons, List.not_mem_nil, false_implies, implies_true, and_true]
  exact ⟨⟨_, _, rfl, rfl, rfl, fun _ _ => rfl⟩, _, _, rfl, rfl, rfl, fun _ _ => rfl⟩

theorem witness_SetccNopResult :
    let s : State := { low with drawn := ⟨false, false, false, true⟩ }
    (rmOperand .w1 lastWord s).admitted s ∧ condDrawn .le s.drawn = true ∧ condDrawn .ns s.drawn = false :=
  ⟨admitted_lastWord_w1, rfl, rfl⟩

/-- A run from `low` with `iret` (30_encoding.md R154) after a `nop`: it halts in its second step, and its budget can be
used up before. -/
theorem witness_RunEnds :
    let s : State := { low with mem := low.mem.setBytes low.pc [0x90, 0xCF] }
    s.status = .running ∧ (runSteps 1 s).status = .running ∧ (runSteps 1 s).runEnd = .budgetUsed ∧
    (runSteps 2 s).runEnd = .halted ⟨.unimplemented .iret, 0x1001⟩ ∧
    (run { cfg := s.cfg, regs := s.regs, pc := s.pc, flags := s.flags, idtr := s.idtr, image := s.mem } 3).2 =
      .halted ⟨.unimplemented .iret, 0x1001⟩ := by decide

end Sys2Proof.Tests
end

section
/-! PROOFS of the statements of 10_state.md: the program counter and the register names. -/

namespace Sys2Proof.Machine

/-! ### The program counter (R41) -/

/-- What `exec` does with an instruction that is not a control transfer: it retires what the handler answers, or the
reason of a placeholder (60_exceptions.md R502) or of `pop` through ESP (30_encoding.md R138). -/
theorem exec_eq_retire {i : Instr} (h : i.isTransfer = false) (s : State) :
    ∃ result, exec i s = retire i s result := by
  cases i with
  | jccJb | jccJd | jmpJb | jmpJd | jmpEd | callJd | callEd | ret => cases h
  | pusha | popa => exact ⟨.error (.unimplemented _), rfl⟩
  | intIb | iret => exact ⟨.error (.unimplemented _), rfl⟩
  | movFromCr | movToCr => exact ⟨.error (.unimplemented .movCr), rfl⟩
  | popEv o rm =>
    dsimp only [exec, execPopEv]
    split
    · exact ⟨.error (.unsupportedForm .popMemEsp), rfl⟩
    · exact ⟨_, rfl⟩
  | _ =>
    dsimp only [exec]
    exact ⟨_, rfl⟩

/-- Retiring without a halt leaves pc at the next instruction. -/
theorem retire_pc {i : Instr} {s t : State} {result : Except Reason State} (h : retire i s result = .next t)
    (hrun : t.status = .running) : t.pc = nextPc i s := by
  cases result with
  | ok u =>
    rw [retire_ok] at h
    cases h
    rfl
  | error r =>
    rw [retire_error] at h
    cases h
    cases hrun

/-- Settles O20: an instruction that is no control transfer ends in `retire`, which halts or sets pc. -/
theorem pcAdvances : Obligations.PcAdvances := by
  unfold Obligations.PcAdvances
  intro i s t hi _ hexec hrun
  obtain ⟨result, hr⟩ := exec_eq_retire hi s
  exact retire_pc (hr ▸ hexec) hrun

/-! ### The register names (R31 to R33) -/

theorem Regs.bit_read (x : Regs) (w : Width) (i : Reg) {k : Nat} (h : k < w.bits) :
    (x.read w i).getLsbD k = (x.get (homeOf w i)).getLsbD (lowBit w i + k) := by
  cases w with
  | w1 =>
    have hk : k < 8 := h
    cases hi : isHighByte i <;> simp [Regs.read, homeOf, lowBit, hi, hk]
  | w2 =>
    have hk : k < 16 := h
    simp [Regs.read, homeOf, lowBit, hk]
  | w4 => simp [Regs.read, homeOf, lowBit]

theorem aliasBit_iff (w : Width) (i r : Reg) (k : Nat) :
    aliasBit w i r k = true ↔ r = homeOf w i ∧ lowBit w i ≤ k ∧ k < lowBit w i + w.bits := by
  simp [aliasBit, and_assoc]

/-- The bits of a written register that the name covers are the value's: they are what reading it back gives. -/
theorem Regs.bit_write_alias (x : Regs) (w : Width) (i : Reg) (v : BitVec w.bits) {r : Reg} {k : Nat}
    (h : aliasBit w i r k = true) : ((x.write w i v).get r).getLsbD k = v.getLsbD (k - lowBit w i) := by
  obtain ⟨rfl, hlow, hhigh⟩ := (aliasBit_iff w i r k).1 h
  have hread := (x.write w i v).bit_read w i (k := k - lowBit w i) (by omega)
  rw [Regs.read_write_same, Nat.add_sub_cancel' hlow] at hread
  exact hread.symm

theorem Regs.bit_write (x : Regs) (w : Width) (i : Reg) (v : BitVec w.bits) (r : Reg) (k : Nat) :
    ((x.write w i v).get r).getLsbD k =
      if aliasBit w i r k then v.getLsbD (k - lowBit w i) else (x.get r).getLsbD k := by
  split
  · next h => exact x.bit_write_alias w i v h
  · next h => exact x.bit_write_other w i v r k (Bool.eq_false_of_not_eq_true h)

/-- Settles O28: bit by bit from the rules of a read and a write; the table of R31 by evaluating each number. -/
theorem registerAliases : Obligations.RegisterAliases := by
  unfold Obligations.RegisterAliases
  refine ⟨fun x w i v k => ⟨x.bit_read w i, fun _ r => x.bit_write w i v r k⟩, ?_, ?_, ?_⟩
  · intro x
    simp only [List.forall_mem_cons, List.not_mem_nil, false_implies, implies_true, and_true]
    exact ⟨⟨rfl, rfl⟩, ⟨rfl, rfl⟩, ⟨rfl, rfl⟩, ⟨rfl, rfl⟩, ⟨rfl, rfl⟩, ⟨rfl, rfl⟩, ⟨rfl, rfl⟩, rfl, rfl⟩
  · intro x
    simp only [List.forall_mem_cons, List.not_mem_nil, false_implies, implies_true, and_true]
    exact ⟨rfl, rfl, rfl, rfl, rfl, rfl, rfl, rfl⟩
  · intro x v low high
    simp only [List.forall_mem_cons, List.not_mem_nil, false_implies, implies_true, and_true]
    exact ⟨rfl, rfl, rfl, rfl, rfl, rfl, rfl, rfl⟩

end Sys2Proof.Machine
end

section
/-! PROOFS of the statements of 30_encoding.md: fetch, and the placeholders. -/

namespace Sys2Proof.Machine

/-! ### The bytes at pc (R130) -/

theorem bytesAt_cons {s : State} {b : Byte} {bs : List Byte} (h : BytesAt s (b :: bs)) :
    isRam s.cfg s.pc = true ∧ s.mem.byte s.pc.toNat = b ∧ BytesAt (s.setPc (s.pc + 1)) bs := by
  have h0 : isRam s.cfg (s.pc + 0#32) = true ∧ s.mem.byte (s.pc + 0#32).toNat = b := h 0 (Nat.succ_pos _)
  rw [BitVec.add_zero] at h0
  refine ⟨h0.1, h0.2, fun k hk => ?_⟩
  have hnext : s.pc + 1 + BitVec.ofNat 32 k = s.pc + BitVec.ofNat 32 (k + 1) := by bv_omega
  simpa only [State.setPc_cfg, State.setPc_pc, State.setPc_mem, hnext, List.getElem_cons_succ] using
    h (k + 1) (Nat.succ_lt_succ hk)

/-- Fetch collects the RAM bytes at pc, whatever it finds after them. -/
theorem bytesAt_prefix_fetchBytes {s : State} {bs : List Byte} {n : Nat} (h : BytesAt s bs) (hn : bs.length ≤ n) :
    bs <+: fetchBytes s.cfg s.mem n s.pc := by
  induction bs generalizing s n with
  | nil => exact List.nil_prefix
  | cons b bs ih =>
    obtain ⟨hram, hbyte, htail⟩ := bytesAt_cons h
    cases n with
    | zero => cases hn
    | succ n =>
      rw [fetchBytes, if_pos hram, hbyte, List.cons_prefix_cons]
      exact ⟨rfl, ih htail (Nat.le_of_succ_le_succ hn)⟩

theorem fetchable_eq_append {s : State} {bs : List Byte} (h : BytesAt s bs) (hlen : bs.length ≤ maxLen) :
    ∃ rest, fetchable s = bs ++ rest := by
  obtain ⟨rest, hrest⟩ := bytesAt_prefix_fetchBytes h hlen
  exact ⟨rest, hrest.symm⟩

/-! ### The placeholders (R154) -/

/-- Decode's answer is the placeholder `m`: as an instruction, or, where no byte follows the opcode, as an error. -/
def IsPlaceholderAnswer (m : Placeholder) : Except DecodeError (Instr × List Byte) → Prop
  | .ok (i, _) => i.placeholder = some m
  | .error e => e = .unimplemented m

/-- A row of the placeholder `m`: neither EXT_GK nor 0x66 matters to it, and it has at most one byte after the
opcode. -/
inductive IsPlaceholderRow (m : Placeholder) : OpRow → Prop
  | bare {i : Instr} (h : i.placeholder = some m) : IsPlaceholderRow m { layout := .bare i }
  | stub {mk : Byte → Instr} (h : ∀ b, (mk b).placeholder = some m) : IsPlaceholderRow m { layout := .stub m mk }

theorem exec_placeholder {i : Instr} {m : Placeholder} (h : i.placeholder = some m) (s : State) :
    exec i s = .next (s.halt (.unimplemented m)) := by
  cases i with
  | movFromCr | movToCr | intIb | iret | pusha | popa => cases h; rfl
  | _ => cases h

theorem step_placeholder {s : State} {m : Placeholder} (hrun : s.status = .running)
    (h : IsPlaceholderAnswer m (decode s.cfg.extGk (fetchable s))) :
    step s = .next (s.halt (.unimplemented m)) := by
  cases hd : decode s.cfg.extGk (fetchable s) with
  | ok answer =>
    rw [hd] at h
    simp only [step, hrun, fetchDecode, hd]
    exact exec_placeholder h s
  | error e =>
    rw [hd] at h
    cases h
    simp only [step, hrun, fetchDecode, hd]
    rfl

theorem decodeRow_placeholder {m : Placeholder} {row : OpRow} (h : IsPlaceholderRow m row) (g p : Bool)
    (seen tl : List Byte) : IsPlaceholderAnswer m (decodeRow g p seen row tl) := by
  cases h with
  | bare h =>
    rw [decodeRow_bare tl rfl (by simp) rfl]
    exact h
  | stub h =>
    cases tl with
    | nil => rfl
    | cons b tl =>
      rw [decodeRow_stub b tl rfl (by simp) rfl]
      exact h b

/-- A placeholder with a one-byte opcode, wherever it stands in RAM. -/
theorem step_placeholder_oneByte {s : State} {p : Bool} {op : Byte} {m : Placeholder} (hrun : s.status = .running)
    (hpre : isPrefix op = false) (hesc : op ≠ 0x0F) (hrow : IsPlaceholderRow m (oneByte p op.toNat))
    (hat : BytesAt s (pfx p ++ [op])) : step s = .next (s.halt (.unimplemented m)) := by
  obtain ⟨rest, hrest⟩ := fetchable_eq_append hat (by cases p <;> simp [pfx, maxLen])
  apply step_placeholder hrun
  rw [hrest, List.append_assoc, List.singleton_append, decode_pfx rest hpre, decodeOpcode_one rest hesc]
  exact decodeRow_placeholder hrow ..

/-- A placeholder with a two-byte opcode, wherever it stands in RAM. -/
theorem step_placeholder_twoByte {s : State} {p : Bool} {op2 : Byte} {m : Placeholder} (hrun : s.status = .running)
    (hrow : IsPlaceholderRow m (twoByte p op2.toNat)) (hat : BytesAt s (pfx p ++ [0x0F, op2])) :
    step s = .next (s.halt (.unimplemented m)) := by
  obtain ⟨rest, hrest⟩ := fetchable_eq_append hat (by cases p <;> simp [pfx, maxLen])
  apply step_placeholder hrun
  rw [hrest, List.append_assoc, List.cons_append, List.singleton_append, decode_pfx _ (by decide), decodeOpcode_two]
  exact decodeRow_placeholder hrow ..

/-- Settles O9: each of the six opcodes has a placeholder's row, and no byte after the opcode is needed to decode it. -/
theorem placeholderAtOpcode : Obligations.PlaceholderAtOpcode := by
  unfold Obligations.PlaceholderAtOpcode
  intro s p hrun
  simp only [List.forall_mem_cons, List.not_mem_nil, false_implies, implies_true, and_true]
  exact ⟨step_placeholder_twoByte hrun (.stub fun _ => rfl), step_placeholder_twoByte hrun (.stub fun _ => rfl),
    step_placeholder_oneByte hrun (by decide) (by decide) (.stub fun _ => rfl),
    step_placeholder_oneByte hrun (by decide) (by decide) (.bare rfl),
    step_placeholder_oneByte hrun (by decide) (by decide) (.bare rfl),
    step_placeholder_oneByte hrun (by decide) (by decide) (.bare rfl)⟩

end Sys2Proof.Machine
end

section
/-! PROOFS of the statements of 42_datamove.md: the effective address, `lea`, and the sign of the accumulator. -/

namespace Sys2Proof.Machine

/-! ### The effective address as an integer modulo 2^32 (30_encoding.md R120 to R123) -/

/-- A register counts unsigned in an address. -/
theorem Regs.get_eq_ofInt (x : Regs) (i : Reg) : x.get i = BitVec.ofInt 32 ((x.get i).toNat : Int) := by
  rw [BitVec.ofInt_natCast, BitVec.ofNat_toNat, BitVec.setWidth_eq]

theorem scaleValue_eq_ofInt :
    ∀ q ∈ [(Scale.s1, (1 : Int)), (.s2, 2), (.s4, 4), (.s8, 8)], scaleValue q.1 = BitVec.ofInt 32 q.2 := by decide

theorem indexValue_of_ne_esp (x : Regs) {i : Reg} (h : i ≠ .esp) (scale : Scale) :
    indexValue x i scale = x.get i * scaleValue scale := by
  cases i with
  | esp => exact absurd rfl h
  | _ => rfl

theorem indexValue_eq_ofInt (x : Regs) (i : Reg) {scale : Scale} {k : Int} (hk : scaleValue scale = BitVec.ofInt 32 k) :
    indexValue x i scale = BitVec.ofInt 32 (if i = .esp then 0 else (x.get i).toNat * k) := by
  split
  · next h => rw [h]; rfl
  · next h => rw [indexValue_of_ne_esp x h, BitVec.ofInt_mul, ← x.get_eq_ofInt, hk]

theorem dispValue_none : dispValue .none = 0#32 := rfl

/-- The 1-byte displacement is sign-extended (R121). -/
theorem dispValue_d8 (d : Byte) : dispValue (.d8 d) = BitVec.ofInt 32 d.toInt := rfl

theorem dispValue_d32 (d : Word) : dispValue (.d32 d) = d := rfl

/-! ### The accumulator's sign (R311, R312) -/

/-- The sign bit of a register's low half is its bit 15. -/
theorem Regs.msb_read_w2 (x : Regs) (i : Reg) : (x.read .w2 i).msb = (x.get i).getLsbD 15 := by
  rw [BitVec.msb_eq_getLsbD_last]
  exact x.bit_read .w2 i (by decide)

theorem handleCltd_o32 (s : State) :
    handleCltd .o32 s = s.setReg .w4 .edx (if s.regs.eax.getLsbD 31 then 0xFFFFFFFF else 0) := by
  have hmsb : (s.regs.read .w4 .eax).msb = s.regs.eax.getLsbD 31 := BitVec.msb_eq_getLsbD_last _
  rw [← hmsb]
  rfl

theorem handleCltd_o16 (s : State) :
    handleCltd .o16 s = s.setReg .w2 .edx (if s.regs.eax.getLsbD 15 then 0xFFFF else 0) := by
  have hmsb : (s.regs.read .w2 .eax).msb = s.regs.eax.getLsbD 15 := s.regs.msb_read_w2 .eax
  rw [← hmsb]
  rfl

theorem Regs.read_w2_eq_setWidth (x : Regs) (i : Reg) : x.read .w2 i = (x.get i).setWidth 16 :=
  (BitVec.setWidth_eq_extractLsb' (by decide)).symm

theorem Regs.read_w1_eax (x : Regs) : x.read .w1 .eax = x.eax.setWidth 8 :=
  (BitVec.setWidth_eq_extractLsb' (by decide)).symm

theorem handleCwtl_o32 (s : State) :
    handleCwtl .o32 s = s.setReg .w4 .eax ((s.regs.eax.setWidth 16).signExtend 32) := by
  have hax : s.regs.read .w2 .eax = s.regs.eax.setWidth 16 := s.regs.read_w2_eq_setWidth .eax
  rw [handleCwtl, hax]

theorem handleCwtl_o16 (s : State) :
    handleCwtl .o16 s = s.setReg .w2 .eax ((s.regs.eax.setWidth 8).signExtend 16) := by
  rw [handleCwtl, Regs.read_w1_eax]

/-! ### The whole next state: each of them retires, in every state -/

theorem exec_leaGvM (o : OSize) (r : Reg) (m : MemOp) (s : State) :
    exec (.leaGvM o r m) s = .next ((handleLea o r m s).setPc (nextPc (.leaGvM o r m) s)) := rfl

theorem exec_cltd (o : OSize) (s : State) :
    exec (.cltd o) s = .next ((handleCltd o s).setPc (nextPc (.cltd o) s)) := rfl

theorem exec_cwtl (o : OSize) (s : State) :
    exec (.cwtl o) s = .next ((handleCwtl o s).setPc (nextPc (.cwtl o) s)) := rfl

/-- Settles O48: each part of an address is an integer modulo 2^32, and so is their sum; the other instructions retire
what their handlers answer. -/
theorem leaAccumulatorResult : Obligations.LeaAccumulatorResult := by
  unfold Obligations.LeaAccumulatorResult
  refine ⟨fun x b i d8 d32 q hq => ?_, fun o r m s => ⟨exec_leaGvM o r m s, ?_, ?_, ?_, ?_⟩⟩
  · have hindex := indexValue_eq_ofInt x i (scaleValue_eq_ofInt q hq)
    simp only [effAddr, dispValue_none, dispValue_d8, dispValue_d32, BitVec.ofInt_add, BitVec.ofInt_toInt,
      ← x.get_eq_ofInt, ← hindex, BitVec.add_zero, and_self]
  · rw [exec_cltd, handleCltd_o32]
    rfl
  · rw [exec_cltd, handleCltd_o16]
    rfl
  · rw [exec_cwtl, handleCwtl_o32]
    rfl
  · rw [exec_cwtl, handleCwtl_o16]
    rfl

end Sys2Proof.Machine
end

section
/-! PROOFS of the statements of 60_exceptions.md: when a core steps, that a fault or refusal is atomic, and the
placeholders. -/

namespace Sys2Proof.Machine

/-! ### How an instruction ends (R503, R504) -/

/-- The two ways an instruction started in `s` can end: the state before it, halted; or a state in which `status` is as
it was. -/
inductive EndsFrom (s : State) : Host.Outcome State Fault Refusal → Prop
  | halted (r : Reason) : EndsFrom s (.next (s.halt r))
  | completed {t : State} (h : t.status = s.status) : EndsFrom s (.next t)

namespace EndsFrom

variable {s : State} {result : Except Reason State}

theorem retire (i : Instr) (h : ∀ t, result = .ok t → t.status = s.status) : EndsFrom s (retire i s result) := by
  cases result with
  | ok t => exact .completed (h t rfl)
  | error r => exact .halted r

theorem transfer (h : ∀ t, result = .ok t → t.status = s.status) : EndsFrom s (transfer s result) := by
  cases result with
  | ok t => exact .completed (h t rfl)
  | error r => exact .halted r

theorem next {x : Host.Outcome State Fault Refusal} (h : EndsFrom s x) : ∃ t, x = .next t := by
  cases h <;> exact ⟨_, rfl⟩

end EndsFrom

namespace Answers

variable {s t : State} {x : Except Reason State} {acc : List Access} {p : Nat} {d : List (Width × Reg)} {f : Bool}
  {e : Option DivideCause}

/-- A handler that completes leaves `status` as it was: that is part of its effect. -/
theorem status_of_ok (h : Answers s x acc p d f e) (hx : x = .ok t) : t.status = s.status := by
  subst hx
  unfold Answers at h
  split at h
  · cases h
  · split at h
    · cases h
    · obtain ⟨u, hu, heffect⟩ := h
      cases hu
      exact heffect.status

theorem retire_ends (h : Answers s x acc p d f e) (i : Instr) : EndsFrom s (retire i s x) :=
  .retire i fun _ => h.status_of_ok

theorem transfer_ends (h : Answers s x acc p d f e) : EndsFrom s (transfer s x) :=
  .transfer fun _ => h.status_of_ok

end Answers

theorem handleLidt_status_of_ok {m : MemOp} {s t : State} (h : handleLidt m s = .ok t) : t.status = s.status := by
  obtain ⟨y, -, herror⟩ | ⟨-, u, limit, base, hok, heffect⟩ := handleLidt_answers m s
  · rw [herror] at h
    cases h
  · rw [hok] at h
    cases h
    exact heffect.status

theorem handleCwtl_status (o : OSize) (s : State) : (handleCwtl o s).status = s.status := by
  cases o <;> rfl

/-- Every instruction, in every state, raises or keeps `status`: one case for each handler, by what it answers. -/
theorem exec_ends (i : Instr) (s : State) : EndsFrom s (exec i s) := by
  cases i with dsimp only [exec]
  | addEbGb | addEvGv | addGbEb | addGvEv | addALIb | addEAXIv | addEbIb | addEvIv | addEvSIb =>
    exact (handleAdd_answers _ _ s (by simp)).retire_ends _
  | orEbGb | orEvGv | orGbEb | orGvEv | orALIb | orEAXIv | orEbIb | orEvIv | orEvSIb =>
    exact (handleOr_answers _ _ s (by simp)).retire_ends _
  | adcEbGb | adcEvGv | adcGbEb | adcGvEv | adcALIb | adcEAXIv | adcEbIb | adcEvIv | adcEvSIb =>
    exact (handleAdc_answers _ _ s (by simp)).retire_ends _
  | sbbEbGb | sbbEvGv | sbbGbEb | sbbGvEv | sbbALIb | sbbEAXIv | sbbEbIb | sbbEvIv | sbbEvSIb =>
    exact (handleSbb_answers _ _ s (by simp)).retire_ends _
  | andEbGb | andEvGv | andGbEb | andGvEv | andALIb | andEAXIv | andEbIb | andEvIv | andEvSIb =>
    exact (handleAnd_answers _ _ s (by simp)).retire_ends _
  | subEbGb | subEvGv | subGbEb | subGvEv | subALIb | subEAXIv | subEbIb | subEvIv | subEvSIb =>
    exact (handleSub_answers _ _ s (by simp)).retire_ends _
  | xorEbGb | xorEvGv | xorGbEb | xorGvEv | xorALIb | xorEAXIv | xorEbIb | xorEvIv | xorEvSIb =>
    exact (handleXor_answers _ _ s (by simp)).retire_ends _
  | cmpEbGb | cmpEvGv | cmpGbEb | cmpGvEv | cmpALIb | cmpEAXIv | cmpEbIb | cmpEvIv | cmpEvSIb =>
    exact (handleCmp_answers _ _ s).retire_ends _
  | testEbGb | testEvGv | testALIb | testEAXIv | testEbIb | testEvIv =>
    exact (handleTest_answers _ _ s).retire_ends _
  | incRv | incEb | incEv => exact (handleInc_answers _ s (by simp)).retire_ends _
  | decRv | decEb | decEv => exact (handleDec_answers _ s (by simp)).retire_ends _
  | negEb | negEv => exact (handleNeg_answers _ s (by simp)).retire_ends _
  | notEb | notEv => exact (handleNot_answers _ s (by simp)).retire_ends _
  | shlEbIb | shlEvIb | shlEb1 | shlEv1 | shlEbCL | shlEvCL =>
    exact (handleShl_answers _ s (by simp) _ (by simp) (by simp) _ rfl).retire_ends _
  | shrEbIb | shrEvIb | shrEb1 | shrEv1 | shrEbCL | shrEvCL =>
    exact (handleShr_answers _ s (by simp) _ (by simp) (by simp) _ rfl).retire_ends _
  | sarEbIb | sarEvIb | sarEb1 | sarEv1 | sarEbCL | sarEvCL =>
    exact (handleSar_answers _ s (by simp) _ (by simp) (by simp) _ rfl).retire_ends _
  | mulEb | mulEv => exact (handleMul_answers _ s).retire_ends _
  | imulEb | imulEv => exact (handleImul1_answers _ s).retire_ends _
  | imulGvEv => exact (handleImul2_answers _ s _ (by simp) true (.inl rfl)).retire_ends _
  | imulGvEvIv | imulGvEvSIb => exact (handleImul3_answers _ s _ _ true (.inl rfl)).retire_ends _
  | divEb | divEv => exact (handleDiv_answers _ s).retire_ends _
  | idivEb | idivEv => exact (handleIdiv_answers _ s).retire_ends _
  | movEbGb | movEvGv | movGbEb | movGvEv | movALOb | movEAXOv | movObAL | movOvEAX | movRbIb | movRvIv | movEbIb
  | movEvIv => exact (handleMov_answers _ _ s (by simp)).retire_ends _
  | leaGvM | cltd => exact .completed rfl
  | cwtl => exact .completed (handleCwtl_status _ s)
  | movsxGvEb | movsxGvEw => exact (handleMovsx_answers _ s _ _).retire_ends _
  | movzxGvEb | movzxGvEw => exact (handleMovzx_answers _ s _ _).retire_ends _
  | pushRv | pushIv | pushSIb | pushEv => exact (handlePush_answers _ _ s).retire_ends _
  | popRv => exact (handlePop_answers _ _ s (by simp)).retire_ends _
  | popEv o rm =>
    unfold execPopEv
    split
    · exact .halted _
    · exact (handlePop_answers _ _ s (by simp)).retire_ends _
  | leave => exact (handleLeave_answers s).retire_ends _
  | inALIb | inEAXIb | inALDX | inEAXDX => exact (handleIn_answers _ _ s).retire_ends _
  | outIbAL | outIbEAX | outDXAL | outDXEAX => exact (handleOut_answers _ _ s).retire_ends _
  | lidtM => exact .retire _ fun _ => handleLidt_status_of_ok
  | pusha | popa | intIb | iret | movFromCr | movToCr => exact .halted _
  | jccJb | jccJd => exact (handleJcc_answers _ _ _ s).transfer_ends
  | jmpJb | jmpJd => exact .completed rfl
  | jmpEd => exact (handleJmp_answers _ s).transfer_ends
  | callJd | callEd => exact (handleCall_answers _ _ s).transfer_ends
  | ret => exact (handleRet_answers s).transfer_ends
  | setccEb => exact (handleSetcc_answers s _ _ (by simp)).retire_ends _
  | nop => exact .completed rfl

/-! ### How a step ends (R503 to R505) -/

theorem step_ends {s : State} (h : s.status = .running) : EndsFrom s (step s) := by
  simp only [step, h]
  split
  · exact exec_ends _ s
  · exact .halted _

/-- A halted core takes no step. -/
theorem step_of_halted {s : State} {record : FaultRecord} (h : s.status = .halted record) (t : State) :
    step s ≠ .next t := by
  simp only [step, h, haltedStep]
  cases record.reason.category <;> nofun

/-- Settles O13: a halted core answers its record, and from a running one decode and every instruction answer a next
state. -/
theorem stepsIffRunning : Obligations.StepsIffRunning := by
  unfold Obligations.StepsIffRunning
  intro s
  cases hs : s.status with
  | running => exact iff_of_true (step_ends hs).next rfl
  | halted record => exact iff_of_false (fun ⟨t, ht⟩ => step_of_halted hs t ht) nofun

/-- Settles O17: a step starts running, so it ends halted by the one operation that changes `status`. -/
theorem faultsPrecise : Obligations.FaultsPrecise := by
  unfold Obligations.FaultsPrecise
  intro s t r hstep hr
  have hrun : s.status = .running := (stepsIffRunning s).1 ⟨t, hstep⟩
  have hends := step_ends hrun
  rw [hstep] at hends
  cases hends with
  | halted reason =>
    cases hr
    exact ⟨rfl, rfl⟩
  | completed hkept =>
    rw [hkept, hrun] at hr
    cases hr

/-! ### The placeholders (R502) -/

/-- Settles O26: each of the six constructors raises its mnemonic, and raising changes `status` alone. -/
theorem placeholdersFault : Obligations.PlaceholdersFault := by
  unfold Obligations.PlaceholdersFault
  intro i s m hm
  exact exec_placeholder hm s

end Sys2Proof.Machine
end

section
/-! PROOF of the statement of 70_reset_and_hazards.md: the state after reset. -/

namespace Sys2Proof.Machine

/-- Settles O16: `State.resetWith` sets each field the rule names to its launch parameter or its constant, and no
parameter is computed with on the way. -/
theorem resetValues : Obligations.ResetValues := by
  unfold Obligations.ResetValues
  intro l
  exact ⟨rfl, rfl, rfl, rfl, rfl, rfl, rfl⟩

end Sys2Proof.Machine
end

section
/-! PROOFS of the statements of 30_encoding.md: decode and encode undo each other. -/

namespace Sys2Proof

/-! ### The opcode of a row (R133, R140, R141) -/

/-- `ops` are the opcode bytes of `row`: one byte of the one-byte map, or the escape and a byte of the two-byte map. -/
inductive Opcode (p : Bool) : List Byte → OpRow → Prop
  | one {op : Byte} (hpre : isPrefix op = false) (hesc : op ≠ 0x0F) : Opcode p [op] (oneByte p op.toNat)
  | two (op : Byte) : Opcode p [0x0F, op] (twoByte p op.toNat)

/-- With 0x66 before it or not, decode goes by the row of the opcode. -/
theorem Opcode.decode_eq {p : Bool} {ops : List Byte} {row : OpRow} (h : Opcode p ops row) (g : Bool)
    (tl : List Byte) : decode g (pfx p ++ (ops ++ tl)) = decodeRow g p (pfx p ++ ops) row tl := by
  cases h with
  | one hpre hesc => exact (decode_pfx tl hpre).trans (decodeOpcode_one tl hesc)
  | two op => exact (decode_pfx (op :: tl) (by decide)).trans (decodeOpcode_two op tl)

/-- `bs` are the bytes of `i` by a row of the opcode map that EXT_GK = `g` admits. -/
def HasRow (g : Bool) (i : Instr) (bs : List Byte) : Prop :=
  ∃ (p : Bool) (ops used : List Byte) (row : OpRow), Opcode p ops row ∧ bs = pfx p ++ (ops ++ used) ∧
    (row.ext = true → g = true) ∧ (row.ref && p) = false ∧ row.layout.Reads g p i used

/-- What decode answers was read by a row. -/
theorem hasRow_of_decode {g : Bool} {bs rest : List Byte} {i : Instr} (h : decode g bs = .ok (i, rest)) :
    ∃ used, HasRow g i used ∧ bs = used ++ rest := by
  obtain ⟨p, used, ⟨op, hpre, hesc, hbs, hext, href, hreads⟩ | ⟨op, hbs, hext, href, hreads⟩⟩ := decode_inv h
  · exact ⟨_, ⟨p, [op], used, _, .one hpre hesc, rfl, hext, href, hreads⟩, by simp [hbs]⟩
  · exact ⟨_, ⟨p, [0x0F, op], used, _, .two op, rfl, hext, href, hreads⟩, by simp [hbs]⟩

/-! ### A row decodes what it reads -/

section

variable {g p : Bool} {seen used : List Byte} {i : Instr}

theorem prefix_of_osz {imm : ImmV} (h : imm.osz = OSize.ofPrefix p) : p = (imm.osz == .o16) := by
  rw [h]
  cases p <;> rfl

theorem takeImmV_of_osz {imm : ImmV} (h : imm.osz = OSize.ofPrefix p) (bs : List Byte) :
    takeImmV p (imm.bytes ++ bs) = .ok (imm, bs) := by
  rw [prefix_of_osz h]
  exact takeImmV_bytes imm bs

/-- The ModR/M byte selects the row that reads it; then the row's layout reads its operands back. -/
theorem decodeModRM_of_reads {rows : Reg → Option ModRow} (h : (Layout.modrm rows).Reads g p i used)
    (rest : List Byte) : decodeModRM g p seen rows (used ++ rest) = .ok (i, rest) := by
  obtain ⟨r, ⟨ext, ref, layout⟩, hrow, hext, href, hreads⟩ := h
  have hadm : ¬ (ext = true ∧ ¬ g = true) := fun h => h.2 (hext h.1)
  have hpfx : ¬ (ref = true ∧ p = true) := by simpa [← Bool.and_eq_true] using href
  cases layout with
  | plain mk =>
    obtain ⟨rm, hw, rfl, rfl⟩ := hreads
    exact decodeModRM_plain r hw rest hrow hext href
  | imm8 mk =>
    obtain ⟨rm, imm, hw, rfl, rfl⟩ := hreads
    obtain ⟨b, tl, hbytes, hmid, hrm⟩ := takeRM_bytes hw (noEsp := false) (by simp) r.num_lt ([imm] ++ rest)
    rw [List.append_assoc, hbytes]
    simp only [decodeModRM, takeByte, ok_bind, hmid, Reg.ofNum_num, hrow, if_neg hadm, if_neg hpfx, hrm]
    rfl
  | immV mk =>
    obtain ⟨rm, imm, hw, hosz, rfl, rfl⟩ := hreads
    obtain ⟨b, tl, hbytes, hmid, hrm⟩ := takeRM_bytes hw (noEsp := false) (by simp) r.num_lt (imm.bytes ++ rest)
    rw [List.append_assoc, hbytes]
    simp only [decodeModRM, takeByte, ok_bind, hmid, Reg.ofNum_num, hrow, if_neg hadm, if_neg hpfx, hrm,
      takeImmV_of_osz hosz]
    rfl
  | memOnly mk =>
    obtain ⟨m, hw, rfl, rfl⟩ := hreads
    obtain ⟨b, tl, hbytes, hmid, hmod, hm⟩ := takeMem_bytes hw (noEsp := false) (by simp) r.num_lt rest
    have hmem : highField b ≠ 3 := by omega
    rw [hbytes]
    simp only [decodeModRM, takeByte, ok_bind, hmid, Reg.ofNum_num, hrow, if_neg hadm, if_neg hpfx, if_neg hmem, hm]
    rfl
  | noEsp mk =>
    obtain ⟨rm, hw, hesp, rfl, rfl⟩ := hreads
    obtain ⟨b, tl, hbytes, hmid, hrm⟩ := takeRM_bytes hw (noEsp := true) (fun _ => hesp) r.num_lt rest
    rw [hbytes]
    simp only [decodeModRM, takeByte, ok_bind, hmid, Reg.ofNum_num, hrow, if_neg hadm, if_neg hpfx, hrm]
    rfl

theorem decodeRow_of_reads {row : OpRow} (hext : row.ext = true → g = true) (href : (row.ref && p) = false)
    (h : row.layout.Reads g p i used) (rest : List Byte) :
    decodeRow g p seen row (used ++ rest) = .ok (i, rest) := by
  cases hl : row.layout with
  | noRow | parity =>
    rw [hl] at h
    exact h.elim
  | bare j =>
    rw [hl] at h
    obtain ⟨rfl, rfl⟩ := h
    exact decodeRow_bare rest hl hext href
  | imm8 mk =>
    rw [hl] at h
    obtain ⟨imm, rfl, rfl⟩ := h
    exact decodeRow_imm8 imm rest hl hext href
  | imm32 mk =>
    rw [hl] at h
    obtain ⟨imm, rfl, rfl⟩ := h
    exact decodeRow_imm32 imm rest hl hext href
  | immV mk =>
    rw [hl] at h
    obtain ⟨imm, hosz, rfl, rfl⟩ := h
    exact decodeRow_immV imm rest (prefix_of_osz hosz) hl hext href
  | modrm rows =>
    rw [hl] at h
    exact (decodeRow_modrm _ hl hext href).trans (decodeModRM_of_reads h rest)
  | stub m mk =>
    rw [hl] at h
    obtain ⟨b, rfl, rfl⟩ := h
    exact decodeRow_stub b rest hl hext href

theorem HasRow.decode_eq (h : HasRow g i used) (rest : List Byte) : decode g (used ++ rest) = .ok (i, rest) := by
  obtain ⟨p, ops, used, row, hop, rfl, hext, href, hreads⟩ := h
  rw [List.append_assoc, List.append_assoc, hop.decode_eq]
  exact decodeRow_of_reads hext href hreads rest

end

end Sys2Proof
end

section
/-! PROOFS of the statements of 30_encoding.md: every instruction has a row. -/

namespace Sys2Proof

theorem OSize.exists_prefix (o : OSize) : ∃ p, o = OSize.ofPrefix p ∧ o.pfx = Sys2Proof.pfx p := by
  cases o
  exacts [⟨true, rfl, rfl⟩, ⟨false, rfl, rfl⟩]

theorem ImmV.osz_pfx (imm : ImmV) : imm.osz.pfx = pfx (imm.osz == .o16) := by cases imm <;> rfl

theorem ImmV.osz_eq (imm : ImmV) : imm.osz = OSize.ofPrefix (imm.osz == .o16) := by cases imm <;> rfl

section

variable {g p : Bool} {i : Instr} {pre ops used : List Byte}

/-- A row without a ModR/M byte has the instruction. -/
theorem hasRow_direct {row : OpRow} (hpre : pre = pfx p) (hg : i.isExt = true → g = true)
    (henc : encode i = pre ++ (ops ++ used)) (hop : Opcode p ops row) (hx : i.isExt = row.ext)
    (href : (row.ref && p) = false) (h : row.layout.Reads g p i used) : HasRow g i (encode i) :=
  ⟨p, ops, used, row, hop, by rw [henc, hpre], hx ▸ hg, href, h⟩

/-- A row of an opcode with a ModR/M byte, whose `reg` field is `r`, has the instruction. -/
theorem hasRow_modrm {rows : Reg → Option ModRow} {ext ref ext' ref' : Bool} {layout : ModLayout} (r : Reg)
    (hpre : pre = pfx p) (hg : i.isExt = true → g = true) (henc : encode i = pre ++ (ops ++ used))
    (hop : Opcode p ops ⟨ext, ref, .modrm rows⟩) (hrow : rows r = some ⟨ext', ref', layout⟩)
    (hx : i.isExt = (ext || ext')) (href : ((ref || ref') && p) = false) (h : layout.Reads p r i used) :
    HasRow g i (encode i) := by
  rw [hx, Bool.or_eq_true] at hg
  rw [Bool.and_or_distrib_right, Bool.or_eq_false_iff] at href
  exact ⟨p, ops, used, _, hop, by rw [henc, hpre], fun h => hg (.inl h), href.1,
    ⟨r, _, hrow, fun h => hg (.inr h), href.2, h⟩⟩

/-- Each instruction's row: its opcode, its `reg` field and what its layout reads. -/
theorem hasRow_encode (hw : i.wellFormed = true) (hg : i.isExt = true → g = true) : HasRow g i (encode i) := by
  cases i with
  | addEbGb p rm r | orEbGb p rm r | adcEbGb p rm r | sbbEbGb p rm r | andEbGb p rm r | subEbGb p rm r
    | xorEbGb p rm r | cmpEbGb p rm r | testEbGb p rm r | movEbGb p rm r =>
    exact hasRow_modrm (ops := [_]) r rfl hg rfl (.one rfl (by decide)) rfl rfl rfl ⟨rm, hw, rfl, rfl⟩
  | addEvGv o rm r | orEvGv o rm r | adcEvGv o rm r | sbbEvGv o rm r | andEvGv o rm r | subEvGv o rm r
    | xorEvGv o rm r | cmpEvGv o rm r | testEvGv o rm r | movEvGv o rm r =>
    obtain ⟨p, rfl, hpre⟩ := o.exists_prefix
    exact hasRow_modrm (ops := [_]) r hpre hg rfl (.one rfl (by decide)) rfl rfl rfl ⟨rm, hw, rfl, rfl⟩
  | addGbEb p r rm | orGbEb p r rm | adcGbEb p r rm | sbbGbEb p r rm | andGbEb p r rm | subGbEb p r rm
    | xorGbEb p r rm | cmpGbEb p r rm | movGbEb p r rm =>
    exact hasRow_modrm (ops := [_]) r rfl hg rfl (.one rfl (by decide)) rfl rfl rfl ⟨rm, hw, rfl, rfl⟩
  | addGvEv o r rm | orGvEv o r rm | adcGvEv o r rm | sbbGvEv o r rm | andGvEv o r rm | subGvEv o r rm
    | xorGvEv o r rm | cmpGvEv o r rm | movGvEv o r rm =>
    obtain ⟨p, rfl, hpre⟩ := o.exists_prefix
    exact hasRow_modrm (ops := [_]) r hpre hg rfl (.one rfl (by decide)) rfl rfl rfl ⟨rm, hw, rfl, rfl⟩
  | addALIb p imm | orALIb p imm | adcALIb p imm | sbbALIb p imm | andALIb p imm | subALIb p imm | xorALIb p imm
    | cmpALIb p imm | testALIb p imm | intIb p imm | inALIb p imm | outIbAL p imm =>
    exact hasRow_direct (ops := [_]) rfl hg rfl (.one rfl (by decide)) rfl rfl ⟨imm, rfl, rfl⟩
  | addEAXIv imm | orEAXIv imm | adcEAXIv imm | sbbEAXIv imm | andEAXIv imm | subEAXIv imm | xorEAXIv imm
    | cmpEAXIv imm | testEAXIv imm | pushIv imm =>
    exact hasRow_direct (ops := [_]) imm.osz_pfx hg rfl (.one rfl (by decide)) rfl rfl ⟨imm, imm.osz_eq, rfl, rfl⟩
  | addEbIb p rm imm | testEbIb p rm imm | movEbIb p rm imm =>
    exact hasRow_modrm (ops := [_]) .eax rfl hg (List.append_assoc ..) (.one rfl (by decide)) rfl rfl rfl
      ⟨rm, imm, hw, rfl, rfl⟩
  | orEbIb p rm imm =>
    exact hasRow_modrm (ops := [_]) .ecx rfl hg (List.append_assoc ..) (.one rfl (by decide)) rfl rfl rfl
      ⟨rm, imm, hw, rfl, rfl⟩
  | adcEbIb p rm imm =>
    exact hasRow_modrm (ops := [_]) .edx rfl hg (List.append_assoc ..) (.one rfl (by decide)) rfl rfl rfl
      ⟨rm, imm, hw, rfl, rfl⟩
  | sbbEbIb p rm imm =>
    exact hasRow_modrm (ops := [_]) .ebx rfl hg (List.append_assoc ..) (.one rfl (by decide)) rfl rfl rfl
      ⟨rm, imm, hw, rfl, rfl⟩
  | andEbIb p rm imm | shlEbIb p rm imm =>
    exact hasRow_modrm (ops := [_]) .esp rfl hg (List.append_assoc ..) (.one rfl (by decide)) rfl rfl rfl
      ⟨rm, imm, hw, rfl, rfl⟩
  | subEbIb p rm imm | shrEbIb p rm imm =>
    exact hasRow_modrm (ops := [_]) .ebp rfl hg (List.append_assoc ..) (.one rfl (by decide)) rfl rfl rfl
      ⟨rm, imm, hw, rfl, rfl⟩
  | xorEbIb p rm imm =>
    exact hasRow_modrm (ops := [_]) .esi rfl hg (List.append_assoc ..) (.one rfl (by decide)) rfl rfl rfl
      ⟨rm, imm, hw, rfl, rfl⟩
  | cmpEbIb p rm imm | sarEbIb p rm imm =>
    exact hasRow_modrm (ops := [_]) .edi rfl hg (List.append_assoc ..) (.one rfl (by decide)) rfl rfl rfl
      ⟨rm, imm, hw, rfl, rfl⟩
  | addEvSIb o rm imm =>
    obtain ⟨p, rfl, hpre⟩ := o.exists_prefix
    exact hasRow_modrm (ops := [_]) .eax hpre hg (List.append_assoc ..) (.one rfl (by decide)) rfl rfl rfl
      ⟨rm, imm, hw, rfl, rfl⟩
  | orEvSIb o rm imm =>
    obtain ⟨p, rfl, hpre⟩ := o.exists_prefix
    exact hasRow_modrm (ops := [_]) .ecx hpre hg (List.append_assoc ..) (.one rfl (by decide)) rfl rfl rfl
      ⟨rm, imm, hw, rfl, rfl⟩
  | adcEvSIb o rm imm =>
    obtain ⟨p, rfl, hpre⟩ := o.exists_prefix
    exact hasRow_modrm (ops := [_]) .edx hpre hg (List.append_assoc ..) (.one rfl (by decide)) rfl rfl rfl
      ⟨rm, imm, hw, rfl, rfl⟩
  | sbbEvSIb o rm imm =>
    obtain ⟨p, rfl, hpre⟩ := o.exists_prefix
    exact hasRow_modrm (ops := [_]) .ebx hpre hg (List.append_assoc ..) (.one rfl (by decide)) rfl rfl rfl
      ⟨rm, imm, hw, rfl, rfl⟩
  | andEvSIb o rm imm | shlEvIb o rm imm =>
    obtain ⟨p, rfl, hpre⟩ := o.exists_prefix
    exact hasRow_modrm (ops := [_]) .esp hpre hg (List.append_assoc ..) (.one rfl (by decide)) rfl rfl rfl
      ⟨rm, imm, hw, rfl, rfl⟩
  | subEvSIb o rm imm | shrEvIb o rm imm =>
    obtain ⟨p, rfl, hpre⟩ := o.exists_prefix
    exact hasRow_modrm (ops := [_]) .ebp hpre hg (List.append_assoc ..) (.one rfl (by decide)) rfl rfl rfl
      ⟨rm, imm, hw, rfl, rfl⟩
  | xorEvSIb o rm imm =>
    obtain ⟨p, rfl, hpre⟩ := o.exists_prefix
    exact hasRow_modrm (ops := [_]) .esi hpre hg (List.append_assoc ..) (.one rfl (by decide)) rfl rfl rfl
      ⟨rm, imm, hw, rfl, rfl⟩
  | cmpEvSIb o rm imm | sarEvIb o rm imm =>
    obtain ⟨p, rfl, hpre⟩ := o.exists_prefix
    exact hasRow_modrm (ops := [_]) .edi hpre hg (List.append_assoc ..) (.one rfl (by decide)) rfl rfl rfl
      ⟨rm, imm, hw, rfl, rfl⟩
  | addEvIv rm imm | testEvIv rm imm | movEvIv rm imm =>
    exact hasRow_modrm (ops := [_]) .eax imm.osz_pfx hg (List.append_assoc ..) (.one rfl (by decide)) rfl rfl rfl
      ⟨rm, imm, hw, imm.osz_eq, rfl, rfl⟩
  | orEvIv rm imm =>
    exact hasRow_modrm (ops := [_]) .ecx imm.osz_pfx hg (List.append_assoc ..) (.one rfl (by decide)) rfl rfl rfl
      ⟨rm, imm, hw, imm.osz_eq, rfl, rfl⟩
  | adcEvIv rm imm =>
    exact hasRow_modrm (ops := [_]) .edx imm.osz_pfx hg (List.append_assoc ..) (.one rfl (by decide)) rfl rfl rfl
      ⟨rm, imm, hw, imm.osz_eq, rfl, rfl⟩
  | sbbEvIv rm imm =>
    exact hasRow_modrm (ops := [_]) .ebx imm.osz_pfx hg (List.append_assoc ..) (.one rfl (by decide)) rfl rfl rfl
      ⟨rm, imm, hw, imm.osz_eq, rfl, rfl⟩
  | andEvIv rm imm =>
    exact hasRow_modrm (ops := [_]) .esp imm.osz_pfx hg (List.append_assoc ..) (.one rfl (by decide)) rfl rfl rfl
      ⟨rm, imm, hw, imm.osz_eq, rfl, rfl⟩
  | subEvIv rm imm =>
    exact hasRow_modrm (ops := [_]) .ebp imm.osz_pfx hg (List.append_assoc ..) (.one rfl (by decide)) rfl rfl rfl
      ⟨rm, imm, hw, imm.osz_eq, rfl, rfl⟩
  | xorEvIv rm imm =>
    exact hasRow_modrm (ops := [_]) .esi imm.osz_pfx hg (List.append_assoc ..) (.one rfl (by decide)) rfl rfl rfl
      ⟨rm, imm, hw, imm.osz_eq, rfl, rfl⟩
  | cmpEvIv rm imm =>
    exact hasRow_modrm (ops := [_]) .edi imm.osz_pfx hg (List.append_assoc ..) (.one rfl (by decide)) rfl rfl rfl
      ⟨rm, imm, hw, imm.osz_eq, rfl, rfl⟩
  | incEb p rm =>
    exact hasRow_modrm (ops := [_]) .eax rfl hg rfl (.one rfl (by decide)) rfl rfl rfl ⟨rm, hw, rfl, rfl⟩
  | decEb p rm =>
    exact hasRow_modrm (ops := [_]) .ecx rfl hg rfl (.one rfl (by decide)) rfl rfl rfl ⟨rm, hw, rfl, rfl⟩
  | notEb p rm =>
    exact hasRow_modrm (ops := [_]) .edx rfl hg rfl (.one rfl (by decide)) rfl rfl rfl ⟨rm, hw, rfl, rfl⟩
  | negEb p rm =>
    exact hasRow_modrm (ops := [_]) .ebx rfl hg rfl (.one rfl (by decide)) rfl rfl rfl ⟨rm, hw, rfl, rfl⟩
  | shlEb1 p rm | shlEbCL p rm | mulEb p rm =>
    exact hasRow_modrm (ops := [_]) .esp rfl hg rfl (.one rfl (by decide)) rfl rfl rfl ⟨rm, hw, rfl, rfl⟩
  | shrEb1 p rm | shrEbCL p rm | imulEb p rm =>
    exact hasRow_modrm (ops := [_]) .ebp rfl hg rfl (.one rfl (by decide)) rfl rfl rfl ⟨rm, hw, rfl, rfl⟩
  | divEb p rm =>
    exact hasRow_modrm (ops := [_]) .esi rfl hg rfl (.one rfl (by decide)) rfl rfl rfl ⟨rm, hw, rfl, rfl⟩
  | sarEb1 p rm | sarEbCL p rm | idivEb p rm =>
    exact hasRow_modrm (ops := [_]) .edi rfl hg rfl (.one rfl (by decide)) rfl rfl rfl ⟨rm, hw, rfl, rfl⟩
  | incEv o rm =>
    obtain ⟨p, rfl, hpre⟩ := o.exists_prefix
    exact hasRow_modrm (ops := [_]) .eax hpre hg rfl (.one rfl (by decide)) rfl rfl rfl ⟨rm, hw, rfl, rfl⟩
  | decEv o rm =>
    obtain ⟨p, rfl, hpre⟩ := o.exists_prefix
    exact hasRow_modrm (ops := [_]) .ecx hpre hg rfl (.one rfl (by decide)) rfl rfl rfl ⟨rm, hw, rfl, rfl⟩
  | notEv o rm =>
    obtain ⟨p, rfl, hpre⟩ := o.exists_prefix
    exact hasRow_modrm (ops := [_]) .edx hpre hg rfl (.one rfl (by decide)) rfl rfl rfl ⟨rm, hw, rfl, rfl⟩
  | negEv o rm =>
    obtain ⟨p, rfl, hpre⟩ := o.exists_prefix
    exact hasRow_modrm (ops := [_]) .ebx hpre hg rfl (.one rfl (by decide)) rfl rfl rfl ⟨rm, hw, rfl, rfl⟩
  | shlEv1 o rm | shlEvCL o rm | mulEv o rm =>
    obtain ⟨p, rfl, hpre⟩ := o.exists_prefix
    exact hasRow_modrm (ops := [_]) .esp hpre hg rfl (.one rfl (by decide)) rfl rfl rfl ⟨rm, hw, rfl, rfl⟩
  | shrEv1 o rm | shrEvCL o rm | imulEv o rm =>
    obtain ⟨p, rfl, hpre⟩ := o.exists_prefix
    exact hasRow_modrm (ops := [_]) .ebp hpre hg rfl (.one rfl (by decide)) rfl rfl rfl ⟨rm, hw, rfl, rfl⟩
  | divEv o rm | pushEv o rm =>
    obtain ⟨p, rfl, hpre⟩ := o.exists_prefix
    exact hasRow_modrm (ops := [_]) .esi hpre hg rfl (.one rfl (by decide)) rfl rfl rfl ⟨rm, hw, rfl, rfl⟩
  | sarEv1 o rm | sarEvCL o rm | idivEv o rm =>
    obtain ⟨p, rfl, hpre⟩ := o.exists_prefix
    exact hasRow_modrm (ops := [_]) .edi hpre hg rfl (.one rfl (by decide)) rfl rfl rfl ⟨rm, hw, rfl, rfl⟩
  | callEd rm =>
    exact hasRow_modrm (ops := [_]) (pre := []) (p := false) .edx rfl hg rfl (.one rfl (by decide)) rfl rfl rfl
      ⟨rm, hw, rfl, rfl⟩
  | jmpEd rm =>
    exact hasRow_modrm (ops := [_]) (pre := []) (p := false) .esp rfl hg rfl (.one rfl (by decide)) rfl rfl rfl
      ⟨rm, hw, rfl, rfl⟩
  | popEv o rm =>
    obtain ⟨p, rfl, hpre⟩ := o.exists_prefix
    obtain ⟨hwf, hesp⟩ := Bool.and_eq_true_iff.1 hw
    exact hasRow_modrm (ops := [_]) .eax hpre hg rfl (.one rfl (by decide)) rfl rfl rfl
      ⟨rm, hwf, by simpa using hesp, rfl, rfl⟩
  | imulGvEvIv r rm imm =>
    exact hasRow_modrm (ops := [_]) r imm.osz_pfx hg (List.append_assoc ..) (.one rfl (by decide)) rfl rfl rfl
      ⟨rm, imm, hw, imm.osz_eq, rfl, rfl⟩
  | imulGvEvSIb o r rm imm =>
    obtain ⟨p, rfl, hpre⟩ := o.exists_prefix
    exact hasRow_modrm (ops := [_]) r hpre hg (List.append_assoc ..) (.one rfl (by decide)) rfl rfl rfl
      ⟨rm, imm, hw, rfl, rfl⟩
  | leaGvM o r m =>
    obtain ⟨p, rfl, hpre⟩ := o.exists_prefix
    exact hasRow_modrm (ops := [_]) r hpre hg rfl (.one rfl (by decide)) rfl rfl rfl ⟨m, hw, rfl, rfl⟩
  | lidtM p m =>
    exact hasRow_modrm (ops := [0x0F, _]) .ebx rfl hg rfl (.two _) rfl rfl rfl ⟨m, hw, rfl, rfl⟩
  | imulGvEv o r rm | movsxGvEb o r rm | movsxGvEw o r rm | movzxGvEb o r rm | movzxGvEw o r rm =>
    obtain ⟨p, rfl, hpre⟩ := o.exists_prefix
    exact hasRow_modrm (ops := [0x0F, _]) r hpre hg rfl (.two _) rfl rfl rfl ⟨rm, hw, rfl, rfl⟩
  | movFromCr p modrm | movToCr p modrm =>
    exact hasRow_direct (ops := [0x0F, _]) rfl hg rfl (.two _) rfl rfl ⟨modrm, rfl, rfl⟩
  | setccEb p cc reg rm =>
    cases cc <;> exact hasRow_modrm (ops := [0x0F, _]) reg rfl hg rfl (.two _) rfl rfl rfl ⟨rm, hw, rfl, rfl⟩
  | jccJd cc disp =>
    cases cc <;> exact hasRow_direct (ops := [0x0F, _]) (pre := []) (p := false) rfl hg rfl (.two _) rfl rfl
      ⟨disp, rfl, rfl⟩
  | jccJb cc disp =>
    cases cc <;> exact hasRow_direct (ops := [_]) (pre := []) (p := false) rfl hg rfl (.one rfl (by decide)) rfl rfl
      ⟨disp, rfl, rfl⟩
  | jmpJb disp =>
    exact hasRow_direct (ops := [_]) (pre := []) (p := false) rfl hg rfl (.one rfl (by decide)) rfl rfl ⟨disp, rfl, rfl⟩
  | jmpJd disp | callJd disp =>
    exact hasRow_direct (ops := [_]) (pre := []) (p := false) rfl hg rfl (.one rfl (by decide)) rfl rfl ⟨disp, rfl, rfl⟩
  | incRv o r | decRv o r | pushRv o r | popRv o r =>
    obtain ⟨p, rfl, hpre⟩ := o.exists_prefix
    cases r <;> exact hasRow_direct (ops := [_]) hpre hg rfl (.one rfl (by decide)) rfl rfl ⟨rfl, rfl⟩
  | movRbIb p r imm =>
    cases r <;> exact hasRow_direct (ops := [_]) rfl hg rfl (.one rfl (by decide)) rfl rfl ⟨imm, rfl, rfl⟩
  | movRvIv r imm =>
    cases r <;> exact hasRow_direct (ops := [_]) imm.osz_pfx hg rfl (.one rfl (by decide)) rfl rfl
      ⟨imm, imm.osz_eq, rfl, rfl⟩
  | movALOb p addr | movObAL p addr =>
    exact hasRow_direct (ops := [_]) rfl hg rfl (.one rfl (by decide)) rfl rfl ⟨addr, rfl, rfl⟩
  | movEAXOv o addr | movOvEAX o addr =>
    obtain ⟨p, rfl, hpre⟩ := o.exists_prefix
    exact hasRow_direct (ops := [_]) hpre hg rfl (.one rfl (by decide)) rfl rfl ⟨addr, rfl, rfl⟩
  | pushSIb o imm | inEAXIb o imm | outIbEAX o imm =>
    obtain ⟨p, rfl, hpre⟩ := o.exists_prefix
    exact hasRow_direct (ops := [_]) hpre hg rfl (.one rfl (by decide)) rfl rfl ⟨imm, rfl, rfl⟩
  | cwtl o | cltd o | inEAXDX o | outDXEAX o =>
    obtain ⟨p, rfl, hpre⟩ := o.exists_prefix
    exact hasRow_direct (ops := [_]) hpre hg rfl (.one rfl (by decide)) rfl rfl ⟨rfl, rfl⟩
  | inALDX p | outDXAL p | pusha p | popa p | iret p | nop p =>
    exact hasRow_direct (ops := [_]) rfl hg rfl (.one rfl (by decide)) rfl rfl ⟨rfl, rfl⟩
  | leave | ret =>
    exact hasRow_direct (ops := [_]) (pre := []) (p := false) rfl hg rfl (.one rfl (by decide)) rfl rfl ⟨rfl, rfl⟩

end

/-- Settles O2: the encoding of an instruction has the instruction's row, and a row decodes what it reads. -/
theorem decodeEncode : Obligations.DecodeEncode := by
  unfold Obligations.DecodeEncode
  intro g i rest hw hg
  exact (hasRow_encode hw hg).decode_eq rest

end Sys2Proof
end

section
/-! PROOFS of the statements of 30_encoding.md: a row has no instruction but those that encode to its bytes. -/

namespace Sys2Proof

/-! ### Rows that agree with encode -/

/-- What the layout makes of its operands, with `r` in the `reg` field of the ModR/M byte, is an instruction with these
opcode bytes: well-formed when its operands are, and an extension row or not by `ext`. -/
def ModLayout.Faithful (p : Bool) (ops : List Byte) (r : Reg) (ext : Bool) : ModLayout → Prop
  | .plain mk => ∀ rm, (mk rm).wellFormed = rm.wellFormed ∧ (mk rm).isExt = ext ∧
      encode (mk rm) = pfx p ++ (ops ++ rm.bytes r.num)
  | .imm8 mk => ∀ rm imm, (mk rm imm).wellFormed = rm.wellFormed ∧ (mk rm imm).isExt = ext ∧
      encode (mk rm imm) = pfx p ++ (ops ++ (rm.bytes r.num ++ [imm]))
  | .immV mk => ∀ rm imm, (mk rm imm).wellFormed = rm.wellFormed ∧ (mk rm imm).isExt = ext ∧
      encode (mk rm imm) = imm.osz.pfx ++ (ops ++ (rm.bytes r.num ++ imm.bytes))
  | .memOnly mk => ∀ m, (mk m).wellFormed = m.wellFormed ∧ (mk m).isExt = ext ∧
      encode (mk m) = pfx p ++ (ops ++ m.bytes r.num)
  | .noEsp mk => ∀ rm, (mk rm).wellFormed = (rm.wellFormed && !rm.usesEsp) ∧ (mk rm).isExt = ext ∧
      encode (mk rm) = pfx p ++ (ops ++ rm.bytes r.num)

/-- A row that a ModR/M byte selects; where there is none, nothing is claimed. -/
def ModRow.Faithful (p : Bool) (ops : List Byte) (r : Reg) (ext : Bool) : Option ModRow → Prop
  | none => True
  | some m => (m.ref && p) = false → m.layout.Faithful p ops r (ext || m.ext)

/-- The same of the layout of an opcode. -/
def Layout.Faithful (p : Bool) (ops : List Byte) (ext : Bool) : Layout → Prop
  | .noRow | .parity => True
  | .bare i => i.wellFormed = true ∧ i.isExt = ext ∧ encode i = pfx p ++ ops
  | .imm8 mk | .stub _ mk => ∀ imm, (mk imm).wellFormed = true ∧ (mk imm).isExt = ext ∧
      encode (mk imm) = pfx p ++ (ops ++ [imm])
  | .imm32 mk => ∀ imm, (mk imm).wellFormed = true ∧ (mk imm).isExt = ext ∧
      encode (mk imm) = pfx p ++ (ops ++ wordBytes imm)
  | .immV mk => ∀ imm, (mk imm).wellFormed = true ∧ (mk imm).isExt = ext ∧
      encode (mk imm) = imm.osz.pfx ++ (ops ++ imm.bytes)
  | .modrm rows => ∀ r, ModRow.Faithful p ops r ext (rows r)

def OpRow.Faithful (p : Bool) (ops : List Byte) (row : OpRow) : Prop :=
  (row.ref && p) = false → row.layout.Faithful p ops row.ext

section

variable {g p : Bool} {ops used : List Byte} {ext : Bool} {i : Instr}

theorem OSize.pfx_ofPrefix (p : Bool) : (OSize.ofPrefix p).pfx = Sys2Proof.pfx p := by cases p <;> rfl

theorem ModLayout.Faithful.of_reads {layout : ModLayout} {r : Reg} (h : layout.Faithful p ops r ext)
    (hreads : layout.Reads p r i used) :
    i.wellFormed = true ∧ i.isExt = ext ∧ encode i = pfx p ++ (ops ++ used) := by
  cases layout with
  | plain mk =>
    obtain ⟨rm, hw, rfl, rfl⟩ := hreads
    exact ⟨(h rm).1.trans hw, (h rm).2⟩
  | imm8 mk =>
    obtain ⟨rm, imm, hw, rfl, rfl⟩ := hreads
    exact ⟨(h rm imm).1.trans hw, (h rm imm).2⟩
  | immV mk =>
    obtain ⟨rm, imm, hw, hosz, rfl, rfl⟩ := hreads
    rw [← OSize.pfx_ofPrefix, ← hosz]
    exact ⟨(h rm imm).1.trans hw, (h rm imm).2⟩
  | memOnly mk =>
    obtain ⟨m, hw, rfl, rfl⟩ := hreads
    exact ⟨(h m).1.trans hw, (h m).2⟩
  | noEsp mk =>
    obtain ⟨rm, hw, hesp, rfl, rfl⟩ := hreads
    exact ⟨(h rm).1.trans (by simp [hw, hesp]), (h rm).2⟩

theorem Layout.Faithful.of_reads {layout : Layout} (h : layout.Faithful p ops ext) (hext : ext = true → g = true)
    (hreads : layout.Reads g p i used) :
    i.wellFormed = true ∧ (i.isExt = true → g = true) ∧ encode i = pfx p ++ (ops ++ used) := by
  cases layout with
  | noRow | parity => exact hreads.elim
  | bare j =>
    obtain ⟨rfl, rfl⟩ := hreads
    obtain ⟨hw, hx, henc⟩ := h
    exact ⟨hw, hx ▸ hext, by simpa using henc⟩
  | imm8 mk | imm32 mk | stub m mk =>
    obtain ⟨imm, rfl, rfl⟩ := hreads
    obtain ⟨hw, hx, henc⟩ := h imm
    exact ⟨hw, hx ▸ hext, henc⟩
  | immV mk =>
    obtain ⟨imm, hosz, rfl, rfl⟩ := hreads
    obtain ⟨hw, hx, henc⟩ := h imm
    rw [← OSize.pfx_ofPrefix, ← hosz]
    exact ⟨hw, hx ▸ hext, henc⟩
  | modrm rows =>
    obtain ⟨r, m, hrow, hmext, href, hreads⟩ := hreads
    have hm := h r
    rw [hrow] at hm
    obtain ⟨hw, hx, henc⟩ := (hm href).of_reads hreads
    refine ⟨hw, fun hi => ?_, henc⟩
    rw [hx, Bool.or_eq_true] at hi
    exact hi.elim hext hmext

/-! ### The opcode maps agree with encode (R140 to R142) -/

theorem opReg_ofNum {base n : Nat} (hbase : base % 8 = 0) (hlo : base ≤ n) (hhi : n < base + 8) :
    BitVec.ofNat 8 n = opReg base (Reg.ofNum (n % 8)) := by
  rw [opReg, Reg.num_ofNum (by omega)]
  congr 1
  omega

theorem Cond.num_of_ofNum {n : Nat} {cc : Cond} (h : Cond.ofNum n = some cc) : cc.num = n := by
  unfold Cond.ofNum at h
  split at h <;> cases h <;> rfl

theorem opCond_ofNum {base n : Nat} {cc : Cond} (hbase : base % 16 = 0) (hlo : base ≤ n) (hhi : n < base + 16)
    (hcc : Cond.ofNum (n % 16) = some cc) : BitVec.ofNat 8 n = opCond base cc := by
  rw [opCond, Cond.num_of_ofNum hcc]
  congr 1
  omega

theorem condRow_faithful {ref : Bool} {n base : Nat} {layout : Cond → Layout} {escape : List Byte}
    (hbase : base % 16 = 0) (hlo : base ≤ n) (hhi : n < base + 16)
    (h : ∀ cc, (ref && p) = false → (layout cc).Faithful p (escape ++ [opCond base cc]) true) :
    (condRow ref n layout).Faithful p (escape ++ [BitVec.ofNat 8 n]) := by
  unfold condRow
  split
  · next cc hcc =>
    rw [opCond_ofNum hbase hlo hhi hcc]
    exact h cc
  · exact fun _ => trivial

theorem slashR_faithful {mk : RM → Reg → Instr}
    (h : ∀ rm r, (mk rm r).wellFormed = rm.wellFormed ∧ (mk rm r).isExt = ext ∧
      encode (mk rm r) = pfx p ++ (ops ++ rm.bytes r.num)) : (slashR mk).Faithful p ops ext := by
  intro r _ rm
  rw [Bool.or_false]
  exact h rm r

/-- One opcode of 00 to 3F: the digit and the form of it. -/
theorem aluRow_faithful (p : Bool) (d : Reg) {form : Nat} (h : form < 8) :
    (aluRow p (8 * d.num + form)).Faithful p [BitVec.ofNat 8 (8 * d.num + form)] := by
  intro _
  match form, h with
  | 0, _ => cases d <;> exact slashR_faithful fun rm r => ⟨rfl, rfl, rfl⟩
  | 1, _ => cases d <;> exact slashR_faithful fun rm r => ⟨rfl, rfl, by cases p <;> rfl⟩
  | 2, _ => cases d <;> exact slashR_faithful fun rm r => ⟨rfl, rfl, rfl⟩
  | 3, _ => cases d <;> exact slashR_faithful fun rm r => ⟨rfl, rfl, by cases p <;> rfl⟩
  | 4, _ => cases d <;> exact fun imm => ⟨rfl, rfl, rfl⟩
  | 5, _ => cases d <;> exact fun imm => ⟨rfl, rfl, rfl⟩
  | 6, _ => cases d <;> trivial
  | 7, _ => cases d <;> trivial

theorem group2_faithful {shl shr sar : ModLayout} (hshl : shl.Faithful p ops .esp true)
    (hshr : shr.Faithful p ops .ebp true) (hsar : sar.Faithful p ops .edi true) :
    (group2 shl shr sar).Faithful p ops true := by
  intro r
  cases r with
  | esp => exact fun _ => hshl
  | ebp => exact fun _ => hshr
  | edi => exact fun _ => hsar
  | eax | ecx | edx | ebx | esi => trivial

theorem onlyZero_faithful {layout : ModLayout} (h : layout.Faithful p ops .eax false) :
    (onlyZero layout).Faithful p ops false := by
  intro r
  cases r with
  | eax => exact fun _ => h
  | ecx | edx | ebx | esp | ebp | esi | edi => trivial

theorem oneByte_faithful (p : Bool) (n : Nat) : (oneByte p n).Faithful p [BitVec.ofNat 8 n] := by
  rw [oneByte.eq_def]
  dsimp only
  by_cases halu : n < 0x40
  · rw [if_pos halu]
    have hn : n = 8 * (Reg.ofNum (n / 8)).num + n % 8 := by
      rw [Reg.num_ofNum (by omega)]
      omega
    rw [hn]
    exact aluRow_faithful p _ (Nat.mod_lt _ (by decide))
  rw [if_neg halu]
  by_cases hinc : n < 0x48
  · rw [if_pos hinc, opReg_ofNum (base := 0x40) rfl (by omega) hinc]
    exact fun _ => ⟨rfl, rfl, by cases p <;> rfl⟩
  rw [if_neg hinc]
  by_cases hdec : n < 0x50
  · rw [if_pos hdec, opReg_ofNum (base := 0x48) rfl (by omega) hdec]
    exact fun _ => ⟨rfl, rfl, by cases p <;> rfl⟩
  rw [if_neg hdec]
  by_cases hpush : n < 0x58
  · rw [if_pos hpush, opReg_ofNum (base := 0x50) rfl (by omega) hpush]
    exact fun _ => ⟨rfl, rfl, by cases p <;> rfl⟩
  rw [if_neg hpush]
  by_cases hpop : n < 0x60
  · rw [if_pos hpop, opReg_ofNum (base := 0x58) rfl (by omega) hpop]
    exact fun _ => ⟨rfl, rfl, by cases p <;> rfl⟩
  rw [if_neg hpop]
  by_cases hjcc : 0x70 ≤ n ∧ n < 0x80
  · rw [if_pos hjcc]
    exact condRow_faithful (escape := []) rfl hjcc.1 hjcc.2 fun cc hp imm => ⟨rfl, rfl, by cases p <;> trivial⟩
  rw [if_neg hjcc]
  by_cases hmovb : 0xB0 ≤ n ∧ n < 0xB8
  · rw [if_pos hmovb, opReg_ofNum rfl hmovb.1 hmovb.2]
    exact fun _ imm => ⟨rfl, rfl, rfl⟩
  rw [if_neg hmovb]
  by_cases hmovv : 0xB8 ≤ n ∧ n < 0xC0
  · rw [if_pos hmovv, opReg_ofNum rfl hmovv.1 hmovv.2]
    exact fun _ imm => ⟨rfl, rfl, rfl⟩
  rw [if_neg hmovv]
  split
  -- 60, 61, 90, 98, 99, CF, EC to EF: no operand bytes
  case h_1 | h_2 | h_18 | h_19 | h_20 | h_34 | h_46 | h_47 | h_48 | h_49 =>
    exact fun _ => ⟨rfl, rfl, by cases p <;> rfl⟩
  -- C3, C9: no 0x66
  case h_29 | h_32 => exact fun hp => ⟨rfl, rfl, by cases p <;> trivial⟩
  -- 6A, A0 to A3, A8, CD, E4 to E7: a byte or an address
  case h_5 | h_21 | h_22 | h_23 | h_24 | h_25 | h_33 | h_39 | h_40 | h_41 | h_42 =>
    exact fun _ imm => ⟨rfl, rfl, by cases p <;> rfl⟩
  -- 68, A9: an immediate of the operand size
  case h_3 | h_26 => exact fun _ imm => ⟨rfl, rfl, rfl⟩
  -- E8, E9, EB: a displacement, no 0x66
  case h_43 | h_44 | h_45 => exact fun hp imm => ⟨rfl, rfl, by cases p <;> trivial⟩
  -- 69, 6B: `imul` with three operands
  case h_4 => exact fun _ r _ rm imm => ⟨rfl, rfl, List.append_assoc ..⟩
  case h_6 => exact fun _ r _ rm imm => ⟨rfl, rfl, by cases p <;> rfl⟩
  -- 80, 81, 83: group 1
  case h_7 | h_9 => exact fun _ d => by cases d <;> exact fun _ rm imm => ⟨rfl, rfl, by cases p <;> rfl⟩
  case h_8 => exact fun _ d => by cases d <;> exact fun _ rm imm => ⟨rfl, rfl, List.append_assoc ..⟩
  -- 84, 85, 88 to 8B: `/r`
  case h_10 | h_11 | h_12 | h_13 | h_14 | h_15 =>
    exact fun _ => slashR_faithful fun rm r => ⟨rfl, rfl, by cases p <;> rfl⟩
  -- 8D: `lea`
  case h_16 => exact fun _ r _ m => ⟨rfl, rfl, by cases p <;> rfl⟩
  -- 8F, C6, C7: /0 alone
  case h_17 => exact fun _ => onlyZero_faithful fun rm => ⟨rfl, rfl, by cases p <;> rfl⟩
  case h_30 => exact fun _ => onlyZero_faithful fun rm imm => ⟨rfl, rfl, by cases p <;> rfl⟩
  case h_31 => exact fun _ => onlyZero_faithful fun rm imm => ⟨rfl, rfl, List.append_assoc ..⟩
  -- C0, C1: group 2 by an immediate count
  case h_27 | h_28 =>
    exact fun _ => group2_faithful (fun rm imm => ⟨rfl, rfl, by cases p <;> rfl⟩)
      (fun rm imm => ⟨rfl, rfl, by cases p <;> rfl⟩) fun rm imm => ⟨rfl, rfl, by cases p <;> rfl⟩
  -- D0 to D3: group 2 by 1 and by CL
  case h_35 | h_36 | h_37 | h_38 =>
    exact fun _ => group2_faithful (fun rm => ⟨rfl, rfl, by cases p <;> rfl⟩)
      (fun rm => ⟨rfl, rfl, by cases p <;> rfl⟩) fun rm => ⟨rfl, rfl, by cases p <;> rfl⟩
  -- F6, F7: group 3
  case h_50 =>
    intro _ d
    cases d with
    | eax => exact fun _ rm imm => ⟨rfl, rfl, by cases p <;> rfl⟩
    | ecx => trivial
    | edx | ebx | esp | ebp | esi | edi => exact fun _ rm => ⟨rfl, rfl, by cases p <;> rfl⟩
  case h_51 =>
    intro _ d
    cases d with
    | eax => exact fun _ rm imm => ⟨rfl, rfl, List.append_assoc ..⟩
    | ecx => trivial
    | edx | ebx | esp | ebp | esi | edi => exact fun _ rm => ⟨rfl, rfl, by cases p <;> rfl⟩
  -- FE, FF: groups 4 and 5
  case h_52 =>
    intro _ d
    cases d with
    | eax | ecx => exact fun _ rm => ⟨rfl, rfl, by cases p <;> rfl⟩
    | edx | ebx | esp | ebp | esi | edi => trivial
  case h_53 =>
    intro _ d
    cases d with
    | eax | ecx | esi => exact fun _ rm => ⟨rfl, rfl, by cases p <;> rfl⟩
    | edx | esp => exact fun hp rm => ⟨rfl, rfl, by cases p <;> trivial⟩
    | ebx | ebp | edi => trivial
  case h_54 => exact fun _ => trivial

theorem twoByte_faithful (p : Bool) (n : Nat) : (twoByte p n).Faithful p [0x0F, BitVec.ofNat 8 n] := by
  rw [twoByte.eq_def]
  dsimp only
  by_cases hjcc : 0x80 ≤ n ∧ n < 0x90
  · rw [if_pos hjcc]
    exact condRow_faithful (escape := [0x0F]) rfl hjcc.1 hjcc.2 fun cc hp imm => ⟨rfl, rfl, by cases p <;> trivial⟩
  rw [if_neg hjcc]
  by_cases hset : 0x90 ≤ n ∧ n < 0xA0
  · rw [if_pos hset]
    exact condRow_faithful (escape := [0x0F]) rfl hset.1 hset.2 fun cc _ =>
      slashR_faithful fun rm r => ⟨rfl, rfl, rfl⟩
  rw [if_neg hset]
  split
  -- 01: `lidt`
  case h_1 =>
    intro _ d
    cases d with
    | ebx => exact fun _ m => ⟨rfl, rfl, rfl⟩
    | eax | ecx | edx | esp | ebp | esi | edi => trivial
  -- 20, 22: control-register moves
  case h_2 | h_3 => exact fun _ imm => ⟨rfl, rfl, rfl⟩
  -- AF, B6, B7, BE, BF: `/r`
  case h_4 | h_5 | h_6 | h_7 | h_8 =>
    exact fun _ => slashR_faithful fun rm r => ⟨rfl, rfl, by cases p <;> rfl⟩
  case h_9 => exact fun _ => trivial

theorem Opcode.faithful {row : OpRow} (h : Opcode p ops row) : row.Faithful p ops := by
  cases h with
  | @one op _ _ => simpa using oneByte_faithful p op.toNat
  | two op => simpa using twoByte_faithful p op.toNat

/-- A row has no instruction but the well-formed ones that encode to the bytes it reads. -/
theorem HasRow.encode_eq {bs : List Byte} (h : HasRow g i bs) :
    i.wellFormed = true ∧ (i.isExt = true → g = true) ∧ bs = encode i := by
  obtain ⟨p, ops, used, row, hop, rfl, hext, href, hreads⟩ := h
  obtain ⟨hw, hg, henc⟩ := (hop.faithful href).of_reads hext hreads
  exact ⟨hw, hg, henc.symm⟩

end

/-- Settles O3: what decode answers was read by a row, and the row's instruction encodes to the bytes read. -/
theorem encodeDecode : Obligations.EncodeDecode := by
  unfold Obligations.EncodeDecode
  intro g bs rest i h
  obtain ⟨used, hrow, rfl⟩ := hasRow_of_decode h
  obtain ⟨hw, hg, rfl⟩ := hrow.encode_eq
  exact ⟨hw, hg, rfl⟩

end Sys2Proof
end

section
/-! PROOFS of the statements of 30_encoding.md: what decode refuses. -/

namespace Sys2Proof

/-! ### EXT_GK (00_scope.md R5) -/

section

variable {g p : Bool} {seen tl : List Byte}

theorem decodeModRM_extGk (rows : Reg → Option ModRow) :
    decodeModRM false p seen rows tl = decodeModRM true p seen rows tl ∨
      decodeModRM false p seen rows tl = .error (.unsupportedForm .extGkOff) := by
  cases tl with
  | nil => exact .inl rfl
  | cons b tl =>
    simp only [decodeModRM, takeByte, ok_bind]
    cases rows (Reg.ofNum (midField b)) with
    | none => exact .inl rfl
    | some m =>
      cases hm : m.ext with
      | true => exact .inr (by simp only [hm]; rfl)
      | false => exact .inl (by simp only [hm, Bool.false_eq_true, false_and])

theorem decodeRow_ext {row : OpRow} (hext : row.ext = true) (hl : row.layout ≠ .noRow) :
    decodeRow false p seen row tl = .error (.unsupportedForm .extGkOff) := by
  obtain ⟨ext, ref, layout⟩ := row
  cases hext
  cases layout with
  | noRow => exact absurd rfl hl
  | _ => rfl

theorem decodeRow_extGk (row : OpRow) :
    decodeRow false p seen row tl = decodeRow true p seen row tl ∨
      decodeRow false p seen row tl = .error (.unsupportedForm .extGkOff) := by
  obtain ⟨ext, ref, layout⟩ := row
  cases ext with
  | true =>
    cases layout with
    | noRow => exact .inl rfl
    | _ => exact .inr (decodeRow_ext rfl nofun)
  | false =>
    cases layout with
    | modrm rows =>
      simp only [decodeRow, Bool.false_eq_true, false_and, if_false]
      split
      · exact .inl rfl
      · exact decodeModRM_extGk rows
    | _ => exact .inl rfl

/-- EXT_GK false changes nothing but that a row may be refused. -/
theorem decode_extGk (bs : List Byte) :
    decode false bs = decode true bs ∨ decode false bs = .error (.unsupportedForm .extGkOff) := by
  have hopcode : ∀ (p : Bool) (seen : List Byte) (op : Byte) (tl : List Byte),
      decodeOpcode false p seen op tl = decodeOpcode true p seen op tl ∨
        decodeOpcode false p seen op tl = .error (.unsupportedForm .extGkOff) := by
    intro p seen op tl
    unfold decodeOpcode
    split
    · cases tl with
      | nil => exact .inl rfl
      | cons op2 tl => exact decodeRow_extGk _
    · exact decodeRow_extGk _
  cases bs with
  | nil => exact .inl rfl
  | cons b tl =>
    simp only [decode, takeByte, ok_bind]
    split
    · cases tl with
      | nil => exact .inl rfl
      | cons c tl =>
        simp only [ok_bind]
        split
        · exact .inl rfl
        · exact hopcode ..
    · split
      · exact .inl rfl
      · exact hopcode ..

end

/-- Settles O5: with EXT_GK false decode answers what it answers with EXT_GK true, or refuses; and what it answers is no
extension row. -/
theorem extensionRowsRefused : Obligations.ExtensionRowsRefused := by
  unfold Obligations.ExtensionRowsRefused
  intro i rest hw
  refine ⟨fun hext => (decode_extGk _).resolve_left fun hsame => ?_, fun hcore => ?_⟩
  · rw [decodeEncode true i rest hw fun _ => rfl] at hsame
    exact absurd ((encodeDecode _ _ _ _ hsame).2.1 hext) (by decide)
  · exact decodeEncode false i rest hw (by simp [hcore])

/-! ### Prefixes (R131, R135) -/

section

variable {g p : Bool} {seen tl : List Byte}

theorem decodeRow_osizePrefix {row : OpRow} (hext : row.ext = true → g = true) (href : row.ref = true)
    (hl : row.layout ≠ .noRow) : decodeRow g true seen row tl = .error (.unsupportedForm .osizePrefix) := by
  have hadm : ¬ (row.ext = true ∧ ¬ g = true) := fun h => h.2 (hext h.1)
  obtain ⟨ext, ref, layout⟩ := row
  cases href
  cases layout with
  | noRow => exact absurd rfl hl
  | _ =>
    simp only [decodeRow, if_neg hadm]
    rfl

theorem decodeModRM_osizePrefix {rows : Reg → Option ModRow} {m : ModRow} {rm : RM} (hw : rm.wellFormed = true)
    (r : Reg)
    (hrow : rows r = some m) (hext : m.ext = true → g = true) (href : m.ref = true) :
    decodeModRM g true seen rows (rm.bytes r.num ++ tl) = .error (.unsupportedForm .osizePrefix) := by
  obtain ⟨b, tl', hbytes, hmid, -⟩ := takeRM_bytes hw (noEsp := false) (by simp) r.num_lt tl
  have hadm : ¬ (m.ext = true ∧ ¬ g = true) := fun h => h.2 (hext h.1)
  rw [hbytes]
  simp only [decodeModRM, takeByte, ok_bind, hmid, Reg.ofNum_num, hrow, if_neg hadm, href, and_self, if_true]
  rfl

/-- The rows that refuse 0x66 do so when they stand after it. -/
theorem decode_osizePrefix {i : Instr} (hw : i.wellFormed = true) (href : i.refusesPrefix = true)
    (hg : i.isExt = true → g = true) (rest : List Byte) :
    decode g (0x66 :: (encode i ++ rest)) = .error (.unsupportedForm .osizePrefix) := by
  have direct : ∀ {ops : List Byte} {row : OpRow} (tl : List Byte), Opcode true ops row → row.ext = i.isExt →
      row.ref = true → row.layout ≠ .noRow →
      decode g (0x66 :: (ops ++ tl)) = .error (.unsupportedForm .osizePrefix) := fun tl hop hx href hl =>
    (hop.decode_eq g tl).trans (decodeRow_osizePrefix (hx ▸ hg) href hl)
  cases i with
  | leave | ret => exact direct (ops := [_]) rest (.one rfl (by decide)) rfl rfl nofun
  | jccJb cc disp =>
    cases cc <;> exact direct (ops := [_]) (disp :: rest) (.one rfl (by decide)) rfl rfl nofun
  | jccJd cc disp =>
    cases cc <;> exact direct (ops := [0x0F, _]) (wordBytes disp ++ rest) (.two _) rfl rfl nofun
  | jmpJb disp => exact direct (ops := [_]) (disp :: rest) (.one rfl (by decide)) rfl rfl nofun
  | jmpJd disp | callJd disp =>
    exact direct (ops := [_]) (wordBytes disp ++ rest) (.one rfl (by decide)) rfl rfl nofun
  | callEd rm =>
    exact (Opcode.decode_eq (p := true) (.one (op := 0xFF) rfl (by decide)) g (rm.bytes 2 ++ rest)).trans
      ((decodeRow_modrm _ rfl (fun _ => hg rfl) rfl).trans (decodeModRM_osizePrefix hw .edx rfl hg rfl))
  | jmpEd rm =>
    exact (Opcode.decode_eq (p := true) (.one (op := 0xFF) rfl (by decide)) g (rm.bytes 4 ++ rest)).trans
      ((decodeRow_modrm _ rfl (fun _ => hg rfl) rfl).trans (decodeModRM_osizePrefix hw .esp rfl hg rfl))
  | _ => cases href

end

/-- Settles O6: the bytes of R131 are refused before any opcode is read; the `ref` rows refuse 0x66. -/
theorem prefixesRefused : Obligations.PrefixesRefused := by
  unfold Obligations.PrefixesRefused
  intro g rest
  refine ⟨?_, ?_, fun i hw href hg => decode_osizePrefix hw href hg rest⟩
  · simp only [List.forall_mem_cons, List.not_mem_nil, false_implies, implies_true, and_true]
    exact ⟨rfl, rfl, rfl, rfl, rfl, rfl, rfl, rfl, rfl, rfl⟩
  · simp only [List.forall_mem_cons, List.not_mem_nil, false_implies, implies_true, and_true]
    exact ⟨rfl, rfl, rfl, rfl, rfl, rfl, rfl, rfl, rfl, rfl, rfl⟩

/-! ### Opcodes without a row (R150) -/

def Layout.isNoRow : Layout → Bool
  | .noRow => true
  | .parity | .bare _ | .imm8 _ | .imm32 _ | .immV _ | .modrm _ | .stub _ _ => false

theorem decodeRow_noRow {g p : Bool} {seen tl : List Byte} {row : OpRow} (h : row.layout.isNoRow = true) :
    decodeRow g p seen row tl = .error (.invalidOpcode seen) := by
  obtain ⟨ext, ref, layout⟩ := row
  cases layout with
  | noRow => rfl
  | _ => cases h

theorem byte_of_toNat {op : Byte} {n : Nat} (h : op.toNat = n) : op = BitVec.ofNat 8 n := by
  rw [← h, BitVec.ofNat_toNat, BitVec.setWidth_eq]

theorem twoByte_noRow {p : Bool} {op : Byte} (h : op ∉ [0x01#8, 0x20#8, 0x22#8, 0xAF#8, 0xB6#8, 0xB7#8, 0xBE#8, 0xBF#8])
    (h8 : op.toNat / 16 ≠ 8) (h9 : op.toNat / 16 ≠ 9) : (twoByte p op.toNat).layout.isNoRow = true := by
  rw [twoByte.eq_def]
  dsimp only
  rw [if_neg (by omega), if_neg (by omega)]
  split
  case h_9 => rfl
  all_goals
    next heq =>
      rw [byte_of_toNat heq] at h
      exact absurd (by decide) h

/-- The one-byte opcodes that are neither of R131 nor the escape and have no row, with 0x66 and without it. -/
theorem oneByte_noRow (p : Bool) : ∀ op ∈ [0x06#8, 0x07#8, 0x0E#8, 0x16#8, 0x17#8, 0x1E#8, 0x1F#8, 0x27#8, 0x2F#8,
    0x37#8,
        0x3F#8, 0x62#8, 0x63#8,
        0x6C#8, 0x6D#8, 0x6E#8, 0x6F#8, 0x82#8, 0x86#8, 0x87#8, 0x8C#8, 0x8E#8, 0x91#8, 0x92#8, 0x93#8, 0x94#8,
        0x95#8, 0x96#8, 0x97#8, 0x9A#8, 0x9B#8, 0x9C#8, 0x9D#8, 0x9E#8, 0x9F#8, 0xA4#8, 0xA5#8, 0xA6#8, 0xA7#8,
        0xAA#8, 0xAB#8, 0xAC#8, 0xAD#8, 0xAE#8, 0xAF#8] ++
        [0xC2#8, 0xC4#8, 0xC5#8, 0xC8#8, 0xCA#8, 0xCB#8, 0xCC#8, 0xCE#8, 0xD4#8, 0xD5#8, 0xD6#8, 0xD7#8, 0xD8#8,
        0xD9#8, 0xDA#8, 0xDB#8, 0xDC#8, 0xDD#8, 0xDE#8, 0xDF#8, 0xE0#8, 0xE1#8, 0xE2#8, 0xE3#8, 0xEA#8, 0xF1#8,
        0xF4#8, 0xF5#8, 0xF8#8, 0xF9#8, 0xFA#8, 0xFB#8, 0xFC#8, 0xFD#8],
    isPrefix op = false ∧ op ≠ 0x0F ∧ (oneByte p op.toNat).layout.isNoRow = true := by
  cases p <;> decide

/-- Settles O8: each opcode of the two lists has no row. -/
theorem opcodesWithoutRow : Obligations.OpcodesWithoutRow := by
  unfold Obligations.OpcodesWithoutRow
  intro g p op rest
  refine ⟨fun hop => ?_, fun hop h8 h9 => ?_⟩
  · obtain ⟨hpre, hesc, hrow⟩ := oneByte_noRow p op hop
    exact (Opcode.decode_eq (.one hpre hesc) g rest).trans (decodeRow_noRow hrow)
  · exact (Opcode.decode_eq (.two op) g rest).trans (decodeRow_noRow (twoByte_noRow hop h8 h9))

end Sys2Proof
end

section
/-! PROOFS of the statements of 30_encoding.md: the reserved values of an instruction's fields. -/

namespace Sys2Proof

/-! ### What a ModR/M byte has no row for (R138, R142) -/

section

variable {g p : Bool} {seen ops tl : List Byte} {b : Byte}

/-- A digit without a row is refused at the ModR/M byte. -/
theorem decodeModRM_none {rows : Reg → Option ModRow} (h : rows (Reg.ofNum (midField b)) = none) :
    decodeModRM g p seen rows (b :: tl) = .error (.invalidOpcode (seen ++ [b])) := by
  simp only [decodeModRM, takeByte, ok_bind, h]
  rfl

/-- mod = 11 on a row that needs memory is refused at the ModR/M byte (R138). -/
theorem decodeModRM_memOnly_reg {rows : Reg → Option ModRow} {mk : MemOp → Instr}
    (h : rows (Reg.ofNum (midField b)) = some { layout := .memOnly mk }) (hmod : highField b = 3) :
    decodeModRM g p seen rows (b :: tl) = .error (.invalidOpcode (seen ++ [b])) := by
  simp only [decodeModRM, takeByte, ok_bind, h, if_pos hmod]
  rfl

/-- `pop` to memory with SIB base ESP is refused when the SIB byte is read (R138). -/
theorem takeMem_noEsp {sib : Byte} (hrm : lowField b = 4) (hbase : lowField sib = 4) :
    takeMem true b (sib :: tl) = .error (.unsupportedForm .popMemEsp) := by
  have hesp : Reg.ofNum 4 = .esp := rfl
  simp only [takeMem, hrm, hesp, if_true, takeByte, ok_bind, hbase, and_self]
  rfl

theorem decodeModRM_noEsp_refused {rows : Reg → Option ModRow} {mk : RM → Instr} {sib : Byte}
    (h : rows (Reg.ofNum (midField b)) = some { layout := .noEsp mk }) (hmod : highField b ≠ 3) (hrm : lowField b = 4)
    (hbase : lowField sib = 4) :
    decodeModRM g p seen rows (b :: sib :: tl) = .error (.unsupportedForm .popMemEsp) := by
  simp only [decodeModRM, takeByte, ok_bind, h, takeRM, if_neg hmod, takeMem_noEsp hrm hbase]
  rfl

/-! ### The opcodes that have them -/

/-- A row with a ModR/M byte decodes by that byte, whatever its digit. -/
theorem Opcode.decode_modrm {rows : Reg → Option ModRow} {ext : Bool}
    (hop : Opcode p ops ⟨ext, false, .modrm rows⟩) (hext : ext = true → g = true) :
    decode g (pfx p ++ (ops ++ tl)) = decodeModRM g p (pfx p ++ ops) rows tl :=
  (hop.decode_eq g tl).trans (decodeRow_modrm _ rfl hext rfl)

/-- An opcode whose ModR/M digit has no row; `digits` are those that have one (R142). -/
theorem Opcode.decode_noDigit {rows : Reg → Option ModRow} {ext : Bool} (digits : List Nat)
    (hop : Opcode p ops ⟨ext, false, .modrm rows⟩) (hext : ext = true → g = true)
    (hrows : ∀ k, k < 8 → k ∉ digits → (rows (Reg.ofNum k)).isNone = true) (hb : midField b ∉ digits) :
    decode g (pfx p ++ (ops ++ b :: tl)) = .error (.invalidOpcode (pfx p ++ (ops ++ [b]))) := by
  rw [hop.decode_modrm hext, ← List.append_assoc]
  exact decodeModRM_none (Option.isNone_iff_eq_none.1 (hrows _ (midField_lt b) hb))

theorem Opcode.decode_memOnly_reg {rows : Reg → Option ModRow} {mk : MemOp → Instr}
    (hop : Opcode p ops ⟨false, false, .modrm rows⟩)
    (h : rows (Reg.ofNum (midField b)) = some { layout := .memOnly mk }) (hmod : highField b = 3) :
    decode g (pfx p ++ (ops ++ b :: tl)) = .error (.invalidOpcode (pfx p ++ (ops ++ [b]))) := by
  rw [hop.decode_modrm nofun, ← List.append_assoc]
  exact decodeModRM_memOnly_reg h hmod

/-- A group's opcode, with a digit outside the group. -/
theorem decode_group_noDigit :
    ∀ q ∈ [(0xF6#8, [0, 2, 3, 4, 5, 6, 7]), (0xF7#8, [0, 2, 3, 4, 5, 6, 7]), (0xFE#8, [0, 1]),
        (0xFF#8, [0, 1, 2, 4, 6]), (0x8F#8, [0]), (0xC6#8, [0]), (0xC7#8, [0])],
      midField b ∉ q.2 → decode g (pfx p ++ q.1 :: b :: tl) = .error (.invalidOpcode (pfx p ++ [q.1, b])) := by
  have group : ∀ {op : Byte} {rows : Reg → Option ModRow} (digits : List Nat),
      Opcode p [op] ⟨false, false, .modrm rows⟩ →
      (∀ k, k < 8 → k ∉ digits → (rows (Reg.ofNum k)).isNone = true) → midField b ∉ digits →
      decode g (pfx p ++ op :: b :: tl) = .error (.invalidOpcode (pfx p ++ [op, b])) :=
    fun digits hop hrows hb => hop.decode_noDigit digits nofun hrows hb
  simp only [List.forall_mem_cons, List.not_mem_nil, false_implies, implies_true, and_true]
  exact ⟨group _ (.one rfl (by decide)) (by cases p <;> decide), group _ (.one rfl (by decide)) (by cases p <;> decide),
    group _ (.one rfl (by decide)) (by cases p <;> decide), group _ (.one rfl (by decide)) (by cases p <;> decide),
    group _ (.one rfl (by decide)) (by cases p <;> decide), group _ (.one rfl (by decide)) (by cases p <;> decide),
    group _ (.one rfl (by decide)) (by cases p <;> decide)⟩

theorem group2_noDigit (shl shr sar : ModLayout) {rows : Reg → Option ModRow} (h : group2 shl shr sar = .modrm rows) :
    ∀ k, k < 8 → k ∉ [4, 5, 7] → (rows (Reg.ofNum k)).isNone = true := by
  cases h
  intro k hk hd
  match k, hk with
  | 0, _ | 1, _ | 2, _ | 3, _ | 6, _ => rfl
  | 4, _ | 5, _ | 7, _ => exact absurd (by decide) hd

/-- The shift opcodes are extension rows, with the digits 4, 5 and 7. -/
theorem decode_shift_refused : ∀ op ∈ [0xC0#8, 0xC1#8, 0xD0#8, 0xD1#8, 0xD2#8, 0xD3#8],
      decode false (pfx p ++ op :: tl) = .error (.unsupportedForm .extGkOff) ∧
      (midField b ∉ [4, 5, 7] →
        decode true (pfx p ++ op :: b :: tl) = .error (.invalidOpcode (pfx p ++ [op, b]))) := by
  have shift : ∀ {op : Byte} {shl shr sar : ModLayout}, Opcode p [op] ⟨true, false, group2 shl shr sar⟩ →
      decode false (pfx p ++ op :: tl) = .error (.unsupportedForm .extGkOff) ∧
      (midField b ∉ [4, 5, 7] →
        decode true (pfx p ++ op :: b :: tl) = .error (.invalidOpcode (pfx p ++ [op, b]))) :=
    fun hop => ⟨(hop.decode_eq false tl).trans (decodeRow_ext rfl nofun),
      fun hb => Opcode.decode_noDigit _ hop (fun _ => rfl) (group2_noDigit _ _ _ rfl) hb⟩
  simp only [List.forall_mem_cons, List.not_mem_nil, false_implies, implies_true, and_true]
  exact ⟨shift (.one rfl (by decide)), shift (.one rfl (by decide)), shift (.one rfl (by decide)),
    shift (.one rfl (by decide)), shift (.one rfl (by decide)), shift (.one rfl (by decide))⟩

/-- `0F 01` has /3 alone, which needs memory. -/
theorem decode_lidt_refused (h : midField b ≠ 3 ∨ highField b = 3) :
    decode g (pfx p ++ 0x0F :: 0x01 :: b :: tl) = .error (.invalidOpcode (pfx p ++ [0x0F, 0x01, b])) := by
  by_cases hmid : midField b = 3
  · exact Opcode.decode_memOnly_reg (ops := [0x0F, 0x01]) (.two _) (by rw [hmid]; rfl) (h.resolve_left (· hmid))
  · exact Opcode.decode_noDigit (ops := [0x0F, 0x01]) [3] (.two _) nofun (by cases p <;> decide) (by simpa using hmid)

theorem decode_lea_refused (h : highField b = 3) :
    decode g (pfx p ++ 0x8D :: b :: tl) = .error (.invalidOpcode (pfx p ++ [0x8D, b])) :=
  Opcode.decode_memOnly_reg (ops := [0x8D]) (.one rfl (by decide)) rfl h

theorem decode_pop_refused {sib : Byte} (hb : b ∈ [0x04#8, 0x44#8, 0x84#8]) (hbase : lowField sib = 4) :
    decode g (pfx p ++ 0x8F :: b :: sib :: tl) = .error (.unsupportedForm .popMemEsp) := by
  obtain ⟨hmid, hmod, hrm⟩ : midField b = 0 ∧ highField b ≠ 3 ∧ lowField b = 4 := by
    revert b
    decide
  exact (Opcode.decode_modrm (ops := [0x8F]) (.one rfl (by decide)) nofun).trans
    (decodeModRM_noEsp_refused (by rw [hmid]; rfl) hmod hrm hbase)

end

/-- Settles O7: each value is refused by a lemma above, or, for a parity condition, at its opcode. -/
theorem reservedOperandValues : Obligations.ReservedOperandValues := by
  unfold Obligations.ReservedOperandValues
  intro g p b sib rest
  refine ⟨decode_group_noDigit, decode_shift_refused, fun h => decode_lidt_refused (.inl h),
    fun h => ⟨decode_lea_refused h, decode_lidt_refused (.inr h)⟩, ?_, ?_, ?_, decode_pop_refused⟩
  · simp only [List.forall_mem_cons, List.not_mem_nil, false_implies, implies_true, and_true]
    cases g <;> cases p <;> exact ⟨rfl, rfl⟩
  · simp only [List.forall_mem_cons, List.not_mem_nil, false_implies, implies_true, and_true]
    cases g <;> cases p <;> exact ⟨rfl, rfl⟩
  · simp only [List.forall_mem_cons, List.not_mem_nil, false_implies, implies_true, and_true]
    cases g <;> cases p <;> exact ⟨rfl, rfl⟩

end Sys2Proof
end

section
/-! PROOFS of the statements of 30_encoding.md: the length of an instruction. -/

namespace Sys2Proof

theorem MemOp.length_bytes_le (m : MemOp) (k : Nat) : (m.bytes k).length ≤ 6 := by
  cases m with
  | abs a => exact Nat.le_of_ble_eq_true rfl
  | base b disp => cases disp <;> exact Nat.le_of_ble_eq_true rfl
  | sib scale index b disp => cases disp <;> exact Nat.le_of_ble_eq_true rfl
  | sibNoBase scale index disp => exact Nat.le_of_ble_eq_true rfl

theorem RM.length_bytes_le (rm : RM) (k : Nat) : (rm.bytes k).length ≤ 6 := by
  cases rm with
  | reg r => exact Nat.le_of_ble_eq_true rfl
  | mem m => exact m.length_bytes_le k

/-- The bytes of an instruction, by the length of what may follow the opcode. -/
inductive EncodeShape (bs : List Byte) : Prop
  /-- A one-byte opcode. -/
  | short {p : Bool} {op : Byte} {body : List Byte} (henc : bs = pfx p ++ op :: body) (hop : op ≠ 0x66 ∧ op ≠ 0x0F)
      (hlen : body.length ≤ 8)
  /-- ModR/M, displacement and a 4-byte immediate: no 0x66. -/
  | long {op : Byte} {body : List Byte} (henc : bs = op :: body) (hop : op ∈ [0x81#8, 0xC7#8, 0x69#8, 0xF7#8])
      (hlen : body.length ≤ 10)
  /-- A two-byte opcode. -/
  | twoByte {p : Bool} {op : Byte} {body : List Byte} (henc : bs = pfx p ++ 0x0F :: op :: body)
      (hlen : body.length ≤ 6)

section

variable {p : Bool} {op imm : Byte} {pre body : List Byte} {rm : RM} {k : Nat}

theorem EncodeShape.modrm (hpre : pre = pfx p) (hop : op ≠ 0x66 ∧ op ≠ 0x0F) : EncodeShape (pre ++ op :: rm.bytes k) :=
  .short (by rw [hpre]) hop (Nat.le_trans (rm.length_bytes_le k) (by decide))

theorem EncodeShape.modrmImm8 (hpre : pre = pfx p) (hop : op ≠ 0x66 ∧ op ≠ 0x0F) :
    EncodeShape (pre ++ op :: rm.bytes k ++ [imm]) := by
  refine .short (p := p) (op := op) (body := rm.bytes k ++ [imm]) (by simp [hpre]) hop ?_
  have := rm.length_bytes_le k
  simp only [List.length_append, List.length_singleton]
  omega

theorem EncodeShape.modrmImmV {v : ImmV} (hop : op ∈ [0x81#8, 0xC7#8, 0x69#8, 0xF7#8]) :
    EncodeShape (v.osz.pfx ++ op :: rm.bytes k ++ v.bytes) := by
  have hrm := rm.length_bytes_le k
  cases v with
  | i16 v =>
    refine .short (p := true) (op := op) (body := rm.bytes k ++ halfBytes v) rfl (by revert op; decide) ?_
    simp only [List.length_append, halfBytes, List.length_cons, List.length_nil]
    omega
  | i32 v =>
    refine .long (op := op) (body := rm.bytes k ++ wordBytes v) rfl hop ?_
    simp only [List.length_append, wordBytes, List.length_cons, List.length_nil]
    omega

/-- Without a ModR/M byte: at most four bytes after the opcode. -/
theorem EncodeShape.noModRM (hpre : pre = pfx p) (hop : op ≠ 0x66 ∧ op ≠ 0x0F) (hlen : body.length ≤ 4) :
    EncodeShape (pre ++ op :: body) :=
  .short (by rw [hpre]) hop (Nat.le_trans hlen (by decide))

theorem EncodeShape.noModRMImmV {v : ImmV} (hop : op ≠ 0x66 ∧ op ≠ 0x0F) : EncodeShape (v.osz.pfx ++ op :: v.bytes) :=
  .noModRM v.osz_pfx hop (by cases v <;> exact Nat.le_of_ble_eq_true rfl)

theorem EncodeShape.modrmTwoByte (hpre : pre = pfx p) : EncodeShape (pre ++ 0x0F :: op :: rm.bytes k) :=
  .twoByte (by rw [hpre]) (rm.length_bytes_le k)

end

theorem encodeShape (i : Instr) : EncodeShape (encode i) := by
  cases i with
  | addEbGb p rm r | orEbGb p rm r | adcEbGb p rm r | sbbEbGb p rm r | andEbGb p rm r | subEbGb p rm r
    | xorEbGb p rm r | cmpEbGb p rm r | testEbGb p rm r | movEbGb p rm r =>
    exact .modrm rfl (by decide)
  | addEvGv o rm r | orEvGv o rm r | adcEvGv o rm r | sbbEvGv o rm r | andEvGv o rm r | subEvGv o rm r
    | xorEvGv o rm r | cmpEvGv o rm r | testEvGv o rm r | movEvGv o rm r =>
    obtain ⟨p, rfl, hpre⟩ := o.exists_prefix
    exact .modrm hpre (by decide)
  | addGbEb p r rm | orGbEb p r rm | adcGbEb p r rm | sbbGbEb p r rm | andGbEb p r rm | subGbEb p r rm
    | xorGbEb p r rm | cmpGbEb p r rm | movGbEb p r rm =>
    exact .modrm rfl (by decide)
  | addGvEv o r rm | orGvEv o r rm | adcGvEv o r rm | sbbGvEv o r rm | andGvEv o r rm | subGvEv o r rm
    | xorGvEv o r rm | cmpGvEv o r rm | movGvEv o r rm =>
    obtain ⟨p, rfl, hpre⟩ := o.exists_prefix
    exact .modrm hpre (by decide)
  | incEb p rm | decEb p rm | notEb p rm | negEb p rm | shlEb1 p rm | shlEbCL p rm | mulEb p rm | shrEb1 p rm
    | shrEbCL p rm | imulEb p rm | divEb p rm | sarEb1 p rm | sarEbCL p rm | idivEb p rm =>
    exact .modrm rfl (by decide)
  | incEv o rm | decEv o rm | notEv o rm | negEv o rm | shlEv1 o rm | shlEvCL o rm | mulEv o rm | shrEv1 o rm
    | shrEvCL o rm | imulEv o rm | divEv o rm | sarEv1 o rm | sarEvCL o rm | idivEv o rm | pushEv o rm
    | popEv o rm =>
    obtain ⟨p, rfl, hpre⟩ := o.exists_prefix
    exact .modrm hpre (by decide)
  | callEd rm | jmpEd rm =>
    exact .modrm (pre := []) (p := false) rfl (by decide)
  | leaGvM o r m =>
    obtain ⟨p, rfl, hpre⟩ := o.exists_prefix
    exact .modrm (rm := .mem m) hpre (by decide)
  | addEbIb p rm imm | orEbIb p rm imm | adcEbIb p rm imm | sbbEbIb p rm imm | andEbIb p rm imm | subEbIb p rm imm
    | xorEbIb p rm imm | cmpEbIb p rm imm | testEbIb p rm imm | movEbIb p rm imm | shlEbIb p rm imm
    | shrEbIb p rm imm | sarEbIb p rm imm =>
    exact .modrmImm8 rfl (by decide)
  | addEvSIb o rm imm | orEvSIb o rm imm | adcEvSIb o rm imm | sbbEvSIb o rm imm | andEvSIb o rm imm
    | subEvSIb o rm imm | xorEvSIb o rm imm | cmpEvSIb o rm imm | shlEvIb o rm imm | shrEvIb o rm imm
    | sarEvIb o rm imm =>
    obtain ⟨p, rfl, hpre⟩ := o.exists_prefix
    exact .modrmImm8 hpre (by decide)
  | imulGvEvSIb o r rm imm =>
    obtain ⟨p, rfl, hpre⟩ := o.exists_prefix
    exact .modrmImm8 hpre (by decide)
  | addEvIv rm imm | orEvIv rm imm | adcEvIv rm imm | sbbEvIv rm imm | andEvIv rm imm | subEvIv rm imm
    | xorEvIv rm imm | cmpEvIv rm imm | testEvIv rm imm | movEvIv rm imm =>
    exact .modrmImmV (by decide)
  | imulGvEvIv r rm imm =>
    exact .modrmImmV (by decide)
  | addALIb p imm | orALIb p imm | adcALIb p imm | sbbALIb p imm | andALIb p imm | subALIb p imm | xorALIb p imm
    | cmpALIb p imm | testALIb p imm | intIb p imm | inALIb p imm | outIbAL p imm =>
    exact .noModRM rfl (by decide) (Nat.le_of_ble_eq_true rfl)
  | addEAXIv imm | orEAXIv imm | adcEAXIv imm | sbbEAXIv imm | andEAXIv imm | subEAXIv imm | xorEAXIv imm
    | cmpEAXIv imm | testEAXIv imm | pushIv imm =>
    exact .noModRMImmV (by decide)
  | incRv o r | decRv o r | pushRv o r | popRv o r =>
    obtain ⟨p, rfl, hpre⟩ := o.exists_prefix
    exact .noModRM hpre (by cases r <;> decide) (Nat.le_of_ble_eq_true rfl)
  | movRbIb p r imm =>
    exact .noModRM rfl (by cases r <;> decide) (Nat.le_of_ble_eq_true rfl)
  | movRvIv r imm =>
    exact .noModRMImmV (by cases r <;> decide)
  | movALOb p addr | movObAL p addr =>
    exact .noModRM rfl (by decide) (Nat.le_of_ble_eq_true rfl)
  | movEAXOv o addr | movOvEAX o addr =>
    obtain ⟨p, rfl, hpre⟩ := o.exists_prefix
    exact .noModRM hpre (by decide) (Nat.le_of_ble_eq_true rfl)
  | pushSIb o imm | inEAXIb o imm | outIbEAX o imm =>
    obtain ⟨p, rfl, hpre⟩ := o.exists_prefix
    exact .noModRM hpre (by decide) (Nat.le_of_ble_eq_true rfl)
  | cwtl o | cltd o | inEAXDX o | outDXEAX o =>
    obtain ⟨p, rfl, hpre⟩ := o.exists_prefix
    exact .noModRM hpre (by decide) (Nat.le_of_ble_eq_true rfl)
  | inALDX p | outDXAL p | pusha p | popa p | iret p | nop p =>
    exact .noModRM rfl (by decide) (Nat.le_of_ble_eq_true rfl)
  | leave | ret =>
    exact .noModRM (pre := []) (p := false) rfl (by decide) (Nat.le_of_ble_eq_true rfl)
  | jccJb cc disp =>
    exact .noModRM (pre := []) (p := false) rfl (by cases cc <;> decide) (Nat.le_of_ble_eq_true rfl)
  | jmpJb disp | jmpJd disp | callJd disp =>
    exact .noModRM (pre := []) (p := false) rfl (by decide) (Nat.le_of_ble_eq_true rfl)
  | imulGvEv o r rm | movsxGvEb o r rm | movsxGvEw o r rm | movzxGvEb o r rm | movzxGvEw o r rm =>
    obtain ⟨p, rfl, hpre⟩ := o.exists_prefix
    exact .modrmTwoByte hpre
  | setccEb p cc reg rm =>
    exact .modrmTwoByte rfl
  | lidtM p m =>
    exact .modrmTwoByte (rm := .mem m) rfl
  | movFromCr p modrm | movToCr p modrm =>
    exact .twoByte rfl (Nat.le_of_ble_eq_true rfl)
  | jccJd cc disp =>
    exact .twoByte (p := false) rfl (Nat.le_of_ble_eq_true rfl)

theorem length_pfx (p : Bool) : (pfx p).length = p.toNat := by cases p <;> rfl

section

variable {bs : List Byte}

theorem EncodeShape.length_bounds (h : EncodeShape bs) : 1 ≤ bs.length ∧ bs.length ≤ 11 := by
  cases h with
  | @short p op body henc _ hlen | @twoByte p op body henc hlen =>
    have := Bool.toNat_le p
    rw [henc, List.length_append, length_pfx]
    simp only [List.length_cons]
    omega
  | long henc _ hlen =>
    rw [henc, List.length_cons]
    omega

/-- Only the opcodes with a 4-byte immediate after ModR/M reach 11 bytes. -/
theorem EncodeShape.head_of_longest (h : EncodeShape bs) (hlen : bs.length = 11) :
    bs.head? = some 0x81 ∨ bs.head? = some 0xC7 ∨ bs.head? = some 0x69 ∨ bs.head? = some 0xF7 := by
  cases h with
  | @short p op body henc _ hbody | @twoByte p op body henc hbody =>
    have := Bool.toNat_le p
    rw [henc, List.length_append, length_pfx] at hlen
    simp only [List.length_cons] at hlen
    omega
  | long henc hop _ =>
    subst henc
    simpa using hop

theorem EncodeShape.length_of_prefix (h : EncodeShape bs) (hhead : bs.head? = some 0x66) : bs.length ≤ 10 := by
  cases h with
  | @short p op body henc _ hbody | @twoByte p op body henc hbody =>
    have := Bool.toNat_le p
    rw [henc, List.length_append, length_pfx]
    simp only [List.length_cons]
    omega
  | long henc hop _ =>
    subst henc
    cases hhead
    exact absurd hop (by decide)

theorem EncodeShape.length_of_escape (h : EncodeShape bs)
    (hescape : ∃ op tl, bs = 0x0F :: op :: tl ∨ bs = 0x66 :: 0x0F :: op :: tl) : bs.length ≤ 9 := by
  obtain ⟨op', tl, hbs⟩ := hescape
  cases h with
  | @short p op body henc hop _ =>
    rw [henc] at hbs
    cases p with
    | false => exact hbs.elim (fun h => absurd (List.cons.inj h).1 hop.2) fun h => absurd (List.cons.inj h).1 hop.1
    | true =>
      exact hbs.elim (fun h => absurd (List.cons.inj h).1 (by decide))
        fun h => absurd (List.cons.inj (List.cons.inj h).2).1 hop.2
  | long henc hop _ =>
    obtain rfl | rfl : _ = 0x0F#8 ∨ _ = 0x66#8 := by
      rw [henc] at hbs
      exact hbs.imp (fun h => (List.cons.inj h).1) fun h => (List.cons.inj h).1
    all_goals exact absurd hop (by decide)
  | @twoByte p op body henc hbody =>
    have := Bool.toNat_le p
    rw [henc, List.length_append, length_pfx]
    simp only [List.length_cons]
    omega

end

/-- Settles O4: the bounds follow from the shape of an encoding, and the longest ones are counted. -/
theorem instructionLength : Obligations.InstructionLength := by
  unfold Obligations.InstructionLength
  refine ⟨fun i => (encodeShape i).length_bounds, rfl, fun i => (encodeShape i).head_of_longest, ?_,
    fun i => (encodeShape i).length_of_prefix, fun i => (encodeShape i).length_of_escape⟩
  intro scale index b r d imm
  exact ⟨rfl, rfl, rfl, rfl, rfl⟩

/-- Settles O1: each word is decoded. -/
theorem wordsDecode : Obligations.WordsDecode := by
  unfold Obligations.WordsDecode
  exact ⟨rfl, rfl, rfl, rfl, rfl, rfl, rfl, rfl, rfl, rfl, rfl, rfl, rfl, rfl, rfl⟩

end Sys2Proof
end

section
/-! PROOFS of the statements of 30_encoding.md: a step runs what fetch and decode give it. -/

namespace Sys2Proof.Machine

/-- Settles O10: fetch and decode answer the instruction, and a step of a running core is its `exec`. -/
theorem stepRunsDecoded : Obligations.StepRunsDecoded := by
  unfold Obligations.StepRunsDecoded
  intro s i rest hrun hdec
  simp only [step, hrun, fetchDecode, hdec]

/-- Settles O11: what fetch collects begins with the encoding, and decode takes no byte after it. -/
theorem stepRunsBytesAtPc : Obligations.StepRunsBytesAtPc := by
  unfold Obligations.StepRunsBytesAtPc
  intro s i hrun hw hg hat
  obtain ⟨rest, hfetch⟩ := fetchable_eq_append hat (encodeShape i).length_bounds.2
  refine stepRunsDecoded s i rest hrun ?_
  rw [hfetch]
  exact decodeEncode _ i rest hw hg

/-- Fetch stops at the first byte that is not RAM. -/
theorem fetchBytes_eq_of_not_ram {s : State} {bs : List Byte} {n : Nat} (hat : BytesAt s bs) (hlen : bs.length < n)
    (hend : isRam s.cfg (s.pc + BitVec.ofNat 32 bs.length) = false) : fetchBytes s.cfg s.mem n s.pc = bs := by
  induction bs generalizing s n with
  | nil =>
    obtain ⟨n, rfl⟩ := Nat.exists_eq_succ_of_ne_zero (Nat.ne_of_gt hlen)
    have hpc : isRam s.cfg s.pc = false := by simpa using hend
    simp [fetchBytes, hpc]
  | cons b bs ih =>
    obtain ⟨n, rfl⟩ := Nat.exists_eq_succ_of_ne_zero (Nat.ne_of_gt (Nat.zero_lt_of_lt hlen))
    obtain ⟨hram, hbyte, htail⟩ := bytesAt_cons hat
    have hnext : s.pc + 1 + BitVec.ofNat 32 bs.length = s.pc + BitVec.ofNat 32 (b :: bs).length := by
      rw [List.length_cons]
      bv_omega
    rw [fetchBytes, if_pos hram, hbyte]
    exact congrArg (b :: ·) (ih htail (Nat.lt_of_succ_lt_succ hlen) (hnext ▸ hend))

/-- Settles O12: fetch collects exactly the bytes given, which decode finds too few. -/
theorem fetchOfUnreadableByte : Obligations.FetchOfUnreadableByte := by
  unfold Obligations.FetchOfUnreadableByte
  intro s bs hrun hlen hat hdec hend
  have hfetch : fetchable s = bs := fetchBytes_eq_of_not_ram hat hlen hend
  simp only [step, hrun, fetchDecode, hfetch, hdec]
  rfl

end Sys2Proof.Machine
end

section
/-! PROOFS of the statements about every instruction: how it ends, what it changes and what it logs (10_state.md,
20_memory.md, 60_exceptions.md). -/

namespace Sys2Proof.Machine

/-! ### How an instruction ends -/

/-- All the ways in which `i`, started in `s`, can end (60_exceptions.md R501, R508): the first access that is not
admitted is reported, else the divide error, else the placeholder; `pop` through ESP is no well-formed instruction; or
it completes, with the accesses, registers and flags that the spec's tables give it. IDTR, which `lidt` alone writes, is
said apart. -/
inductive ExecEnds (i : Instr) (s : State) : Host.Outcome State Fault Refusal → Prop
  | refused {y : Access} (hfind : (i.accesses s).find? (fun y => !y.admitted s) = some y) :
      ExecEnds i s (.next (s.halt (.memOutOfBounds y.addr y.width y.kind)))
  | divideError {c : DivideCause} (hfind : (i.accesses s).find? (fun y => !y.admitted s) = none)
      (hdiv : i.divideError s = some c) : ExecEnds i s (.next (s.halt (.divideError c)))
  | placeholder {m : Placeholder} (hm : i.placeholder = some m) (hacc : i.accesses s = []) :
      ExecEnds i s (.next (s.halt (.unimplemented m)))
  | illFormed (hw : i.wellFormed = false) : ExecEnds i s (.next (s.halt (.unsupportedForm .popMemEsp)))
  | completed {t : State} (hfind : (i.accesses s).find? (fun y => !y.admitted s) = none)
      (hdiv : i.divideError s = none)
      (heffect : Effect s { t with idtr := s.idtr } (i.accesses s) (if i.isPort then 1 else 0) i.destNames
        (i.writesFlags s))
      (hidtr : (∀ p m, i ≠ .lidtM p m) → t.idtr = s.idtr) : ExecEnds i s (.next t)

namespace ExecEnds

variable {i : Instr} {s t : State} {x : Except Reason State} {acc : List Access} {ports : Nat}
  {names : List (Width × Reg)} {flags : Bool} {err : Option DivideCause}

theorem of_effect (hfind : (i.accesses s).find? (fun y => !y.admitted s) = none) (hdiv : i.divideError s = none)
    (h : Effect s t (i.accesses s) (if i.isPort then 1 else 0) i.destNames (i.writesFlags s)) :
    ExecEnds i s (.next t) := by
  refine .completed hfind hdiv ?_ fun _ => h.idtr
  rw [← h.idtr]
  exact h

/-- An instruction ends as its handler answers, where the handler's accesses, registers and flags are those of the
tables. -/
theorem of_answers {finish : Except Reason State → Host.Outcome State Fault Refusal}
    (herror : ∀ r, finish (.error r) = .next (s.halt r)) (hok : ∀ t, ∃ a, finish (.ok t) = .next (t.setPc a))
    (h : Answers s x acc ports names flags err) (hacc : acc = i.accesses s)
    (hports : ports = if i.isPort then 1 else 0) (hnames : names = i.destNames) (hflags : flags = i.writesFlags s)
    (herr : err = i.divideError s) : ExecEnds i s (finish x) := by
  subst hacc hports hnames hflags
  unfold Answers at h
  split at h
  · next y hfind =>
    rw [h, herror]
    exact .refused hfind
  · next hfind =>
    split at h
    · next c =>
      rw [h, herror]
      exact .divideError hfind herr.symm
    · obtain ⟨t, rfl, heffect⟩ := h
      obtain ⟨a, ha⟩ := hok t
      rw [ha]
      exact of_effect hfind herr.symm ((heffect.trans (Effect.setPc t a)).cast (by simp) rfl (by simp) (by simp))

theorem retire (h : Answers s x acc ports names flags err) (hacc : acc = i.accesses s)
    (hports : ports = if i.isPort then 1 else 0) (hnames : names = i.destNames) (hflags : flags = i.writesFlags s)
    (herr : err = i.divideError s) : ExecEnds i s (retire i s x) :=
  of_answers (retire_error i s) (fun t => ⟨_, retire_ok i s t⟩) h hacc hports hnames hflags herr

theorem transfer (h : Answers s x acc ports names flags err) (hacc : acc = i.accesses s)
    (hports : ports = if i.isPort then 1 else 0) (hnames : names = i.destNames) (hflags : flags = i.writesFlags s)
    (herr : err = i.divideError s) : ExecEnds i s (transfer s x) :=
  of_answers (transfer_error s) (fun t => ⟨t.pc, rfl⟩) h hacc hports hnames hflags herr

end ExecEnds

@[simp] theorem Operand.accesses_rmOperand_read (w : Width) (rm : RM) (s : State) :
    (rmOperand w rm s).accesses .read = rmRead w rm s := accesses_rm_read w rm s

@[simp] theorem Operand.accesses_rmOperand_write (w : Width) (rm : RM) (s : State) :
    (rmOperand w rm s).accesses .write = rmWrite w rm s := accesses_rm_write w rm s

@[simp] theorem Operand.names_rmOperand (w : Width) (rm : RM) (s : State) :
    (rmOperand w rm s).names = rmName w rm := names_rm w rm s

/-- AL and AH are AX. -/
theorem bytePair_names (r : Reg) (k : Nat) (h : ∀ n ∈ [(Width.w2, Reg.eax)], aliasBit n.1 n.2 r k = false) :
    ∀ n ∈ [(Width.w1, Reg.eax), (.w1, pairHigh .w1)], aliasBit n.1 n.2 r k = false := by
  simp only [List.forall_mem_cons, List.not_mem_nil, false_implies, implies_true, and_true, ← Bool.not_eq_true,
    aliasBit_iff, homeOf, lowBit, byteHome, pairHigh, isHighByte, Width.bits] at h ⊢
  grind

theorem pairHigh_osz (o : OSize) : pairHigh o.width = .edx := by cases o <;> rfl

theorem imulTrunc_ia32_or_unchanged (s : State) :
    (s.cfg.imulTrunc == .ia32) = true ∨ s.cfg.imulTrunc = .unchanged := by
  cases s.cfg.imulTrunc
  exacts [.inr rfl, .inl rfl]

/-! ### Shifts, by form -/

/-- The count operand (44_logic_gk.md R406). -/
def ShiftForm.countOp : ShiftForm → Operand .w1
  | .ebIb _ _ imm | .evIb _ _ imm => .imm imm
  | .eb1 _ _ | .ev1 _ _ => .imm 1
  | .ebCL _ _ | .evCL _ _ => .reg .ecx

theorem ShiftForm.countOp_admitted (f : ShiftForm) (t : State) : f.countOp.admitted t := by cases f <;> exact trivial

@[simp] theorem ShiftForm.countOp_readDone (f : ShiftForm) (t : State) : f.countOp.readDone t = t := by cases f <;> rfl

theorem Regs.toNat_cl (x : Regs) : (x.read .w1 .ecx).toNat = x.ecx.toNat % 256 := by
  have hcl : x.read .w1 .ecx = x.ecx.extractLsb' 0 8 := rfl
  rw [hcl, BitVec.extractLsb'_toNat, Nat.shiftRight_zero]
  rfl

/-- The masked count is the same after the other operand is read. -/
theorem ShiftForm.maskedCount_eq (f : ShiftForm) {w : Width} (dst : Operand w) (s : State) :
    maskedCount (f.countOp.value (dst.readDone s)) = f.count s := by
  cases f with
  | ebIb | evIb | eb1 | ev1 => rfl
  | ebCL | evCL =>
    show ((dst.readDone s).regs.read .w1 .ecx).toNat % 32 = _
    rw [Regs.toNat_cl, Operand.readDone_regs]
    rfl

@[simp] theorem ShiftForm.dst_isPlace (f : ShiftForm) (s : State) : (f.dst s).isPlace = true := by
  cases f <;> exact rmOperand_isPlace ..

section

variable (f : ShiftForm) (s : State)

theorem exec_shl : exec f.shlInstr s = retire f.shlInstr s (handleShl (f.dst s) f.countOp s) := by cases f <;> rfl
theorem exec_shr : exec f.shrInstr s = retire f.shrInstr s (handleShr (f.dst s) f.countOp s) := by cases f <;> rfl
theorem exec_sar : exec f.sarInstr s = retire f.sarInstr s (handleSar (f.dst s) f.countOp s) := by cases f <;> rfl

/-- An instruction that the tables give what they give a shift of this form. -/
def ShiftForm.Describes (i : Instr) : Prop :=
  i.accesses s = (if f.count s = 0 then (f.dst s).accesses .read else
    (f.dst s).accesses .read ++ (f.dst s).accesses .write) ∧
  i.isPort = false ∧ i.destNames = (f.dst s).names ∧ i.writesFlags s = (f.count s != 0) ∧ i.divideError s = none

theorem ShiftForm.describes : f.Describes s f.shlInstr ∧ f.Describes s f.shrInstr ∧ f.Describes s f.sarInstr := by
  cases f with
  | ebIb _ rm | evIb _ rm | eb1 _ rm | ev1 _ rm | ebCL _ rm | evCL _ rm =>
    cases rm <;> exact ⟨⟨rfl, rfl, rfl, rfl, rfl⟩, ⟨rfl, rfl, rfl, rfl, rfl⟩, ⟨rfl, rfl, rfl, rfl, rfl⟩⟩

theorem ShiftForm.Describes.ends {f : ShiftForm} {s : State} {i : Instr} (hi : f.Describes s i)
    {x : Except Reason State}
    (h : Answers s x (if f.count s = 0 then (f.dst s).accesses .read else
      (f.dst s).accesses .read ++ (f.dst s).accesses .write) 0 (f.dst s).names (decide (f.count s ≠ 0)) none) :
    ExecEnds i s (retire i s x) := by
  obtain ⟨hacc, hport, hnames, hflags, hdiv⟩ := hi
  exact .retire h hacc.symm (by rw [hport]; rfl) hnames.symm (by rw [hflags]; cases f.count s <;> rfl) hdiv.symm

theorem exec_shl_ends : ExecEnds f.shlInstr s (exec f.shlInstr s) := by
  rw [exec_shl]
  exact (f.describes s).1.ends (handleShl_answers _ s (by simp) _ f.countOp_admitted f.countOp_readDone _
    (f.maskedCount_eq _ s))

theorem exec_shr_ends : ExecEnds f.shrInstr s (exec f.shrInstr s) := by
  rw [exec_shr]
  exact (f.describes s).2.1.ends (handleShr_answers _ s (by simp) _ f.countOp_admitted f.countOp_readDone _
    (f.maskedCount_eq _ s))

theorem exec_sar_ends : ExecEnds f.sarInstr s (exec f.sarInstr s) := by
  rw [exec_sar]
  exact (f.describes s).2.2.ends (handleSar_answers _ s (by simp) _ f.countOp_admitted f.countOp_readDone _
    (f.maskedCount_eq _ s))

end

/-! ### Every instruction -/

/-- `lidt` alone writes IDTR. -/
theorem execLidtM_ends (p : Bool) (m : MemOp) (s : State) : ExecEnds (.lidtM p m) s (execLidtM p m s) := by
  unfold execLidtM
  obtain ⟨y, hfind, herror⟩ | ⟨hfind, t, limit, base, hok, heffect⟩ := handleLidt_answers m s
  · rw [herror]
    exact .refused hfind
  · rw [hok]
    refine .completed hfind rfl ?_ fun h => absurd rfl (h p m)
    have hpc := heffect.trans (Effect.setPc t (nextPc (.lidtM p m) s))
    rw [← heffect.idtr]
    exact hpc.cast (by simp; rfl) rfl rfl rfl

/-- Every instruction, in every state, ends in one of these ways: one case for each handler, by what it answers. -/
theorem exec_execEnds (i : Instr) (s : State) : ExecEnds i s (exec i s) := by
  cases i with dsimp only [exec]
  | addEbGb | addEvGv | addGbEb | addGvEv | addALIb | addEAXIv | addEbIb | addEvIv | addEvSIb =>
    exact .retire (handleAdd_answers _ _ s (by simp)) (by simp [Instr.accesses, rmModify]) rfl
      (by simp [Instr.destNames]) rfl rfl
  | orEbGb | orEvGv | orGbEb | orGvEv | orALIb | orEAXIv | orEbIb | orEvIv | orEvSIb =>
    exact .retire (handleOr_answers _ _ s (by simp)) (by simp [Instr.accesses, rmModify]) rfl
      (by simp [Instr.destNames]) rfl rfl
  | adcEbGb | adcEvGv | adcGbEb | adcGvEv | adcALIb | adcEAXIv | adcEbIb | adcEvIv | adcEvSIb =>
    exact .retire (handleAdc_answers _ _ s (by simp)) (by simp [Instr.accesses, rmModify]) rfl
      (by simp [Instr.destNames]) rfl rfl
  | sbbEbGb | sbbEvGv | sbbGbEb | sbbGvEv | sbbALIb | sbbEAXIv | sbbEbIb | sbbEvIv | sbbEvSIb =>
    exact .retire (handleSbb_answers _ _ s (by simp)) (by simp [Instr.accesses, rmModify]) rfl
      (by simp [Instr.destNames]) rfl rfl
  | andEbGb | andEvGv | andGbEb | andGvEv | andALIb | andEAXIv | andEbIb | andEvIv | andEvSIb =>
    exact .retire (handleAnd_answers _ _ s (by simp)) (by simp [Instr.accesses, rmModify]) rfl
      (by simp [Instr.destNames]) rfl rfl
  | subEbGb | subEvGv | subGbEb | subGvEv | subALIb | subEAXIv | subEbIb | subEvIv | subEvSIb =>
    exact .retire (handleSub_answers _ _ s (by simp)) (by simp [Instr.accesses, rmModify]) rfl
      (by simp [Instr.destNames]) rfl rfl
  | xorEbGb | xorEvGv | xorGbEb | xorGvEv | xorALIb | xorEAXIv | xorEbIb | xorEvIv | xorEvSIb =>
    exact .retire (handleXor_answers _ _ s (by simp)) (by simp [Instr.accesses, rmModify]) rfl
      (by simp [Instr.destNames]) rfl rfl
  | cmpEbGb | cmpEvGv | cmpGbEb | cmpGvEv | cmpALIb | cmpEAXIv | cmpEbIb | cmpEvIv | cmpEvSIb =>
    exact .retire (handleCmp_answers _ _ s) (by simp [Instr.accesses]) rfl rfl rfl rfl
  | testEbGb | testEvGv | testALIb | testEAXIv | testEbIb | testEvIv =>
    exact .retire (handleTest_answers _ _ s) (by simp [Instr.accesses]) rfl rfl rfl rfl
  | incRv | incEb | incEv =>
    exact .retire (handleInc_answers _ s (by simp)) (by simp [Instr.accesses, rmModify]) rfl
      (by simp [Instr.destNames]) rfl rfl
  | decRv | decEb | decEv =>
    exact .retire (handleDec_answers _ s (by simp)) (by simp [Instr.accesses, rmModify]) rfl
      (by simp [Instr.destNames]) rfl rfl
  | negEb | negEv =>
    exact .retire (handleNeg_answers _ s (by simp)) (by simp [Instr.accesses, rmModify]) rfl
      (by simp [Instr.destNames]) rfl rfl
  | notEb | notEv =>
    exact .retire (handleNot_answers _ s (by simp)) (by simp [Instr.accesses, rmModify]) rfl
      (by simp [Instr.destNames]) rfl rfl
  | shlEbIb p rm imm => exact exec_shl_ends (.ebIb p rm imm) s
  | shlEvIb o rm imm => exact exec_shl_ends (.evIb o rm imm) s
  | shlEb1 p rm => exact exec_shl_ends (.eb1 p rm) s
  | shlEv1 o rm => exact exec_shl_ends (.ev1 o rm) s
  | shlEbCL p rm => exact exec_shl_ends (.ebCL p rm) s
  | shlEvCL o rm => exact exec_shl_ends (.evCL o rm) s
  | shrEbIb p rm imm => exact exec_shr_ends (.ebIb p rm imm) s
  | shrEvIb o rm imm => exact exec_shr_ends (.evIb o rm imm) s
  | shrEb1 p rm => exact exec_shr_ends (.eb1 p rm) s
  | shrEv1 o rm => exact exec_shr_ends (.ev1 o rm) s
  | shrEbCL p rm => exact exec_shr_ends (.ebCL p rm) s
  | shrEvCL o rm => exact exec_shr_ends (.evCL o rm) s
  | sarEbIb p rm imm => exact exec_sar_ends (.ebIb p rm imm) s
  | sarEvIb o rm imm => exact exec_sar_ends (.evIb o rm imm) s
  | sarEb1 p rm => exact exec_sar_ends (.eb1 p rm) s
  | sarEv1 o rm => exact exec_sar_ends (.ev1 o rm) s
  | sarEbCL p rm => exact exec_sar_ends (.ebCL p rm) s
  | sarEvCL o rm => exact exec_sar_ends (.evCL o rm) s
  | mulEb p rm =>
    exact .retire ((handleMul_answers _ s).moreNames bytePair_names) (by simp [Instr.accesses]) rfl rfl rfl rfl
  | imulEb p rm =>
    exact .retire ((handleImul1_answers _ s).moreNames bytePair_names) (by simp [Instr.accesses]) rfl rfl rfl rfl
  | divEb p rm =>
    exact .retire ((handleDiv_answers _ s).moreNames bytePair_names) (by simp [Instr.accesses]) rfl rfl rfl rfl
  | idivEb p rm =>
    exact .retire ((handleIdiv_answers _ s).moreNames bytePair_names) (by simp [Instr.accesses]) rfl rfl rfl rfl
  | mulEv o rm =>
    exact .retire (handleMul_answers _ s) (by simp [Instr.accesses]) rfl (by rw [pairHigh_osz]; rfl) rfl rfl
  | imulEv o rm =>
    exact .retire (handleImul1_answers _ s) (by simp [Instr.accesses]) rfl (by rw [pairHigh_osz]; rfl) rfl rfl
  | divEv o rm =>
    exact .retire (handleDiv_answers _ s) (by simp [Instr.accesses]) rfl (by rw [pairHigh_osz]; rfl) rfl rfl
  | idivEv o rm =>
    exact .retire (handleIdiv_answers _ s) (by simp [Instr.accesses]) rfl (by rw [pairHigh_osz]; rfl) rfl rfl
  | imulGvEv =>
    exact .retire (handleImul2_answers _ s _ (by simp) _ (imulTrunc_ia32_or_unchanged s)) (by simp [Instr.accesses])
      rfl rfl
      rfl rfl
  | imulGvEvIv | imulGvEvSIb =>
    exact .retire (handleImul3_answers _ s _ _ _ (imulTrunc_ia32_or_unchanged s)) (by simp [Instr.accesses]) rfl rfl
      rfl rfl
  | movEbGb | movEvGv | movGbEb | movGvEv | movALOb | movEAXOv | movObAL | movOvEAX | movRbIb | movRvIv | movEbIb
    | movEvIv =>
    exact .retire (handleMov_answers _ _ s (by simp)) (by simp [Instr.accesses]) rfl (by simp [Instr.destNames]) rfl rfl
  | leaGvM | cltd => exact .retire (.plain (Effect.setReg ..)) rfl rfl rfl rfl rfl
  | cwtl o => cases o <;> exact .retire (.plain (Effect.setReg ..)) rfl rfl rfl rfl rfl
  | movsxGvEb | movsxGvEw => exact .retire (handleMovsx_answers _ s _ _) (by simp [Instr.accesses]) rfl rfl rfl rfl
  | movzxGvEb | movzxGvEw => exact .retire (handleMovzx_answers _ s _ _) (by simp [Instr.accesses]) rfl rfl rfl rfl
  | pushRv | pushIv | pushSIb | pushEv =>
    exact .retire (handlePush_answers _ _ s) (by simp [Instr.accesses]) rfl rfl rfl rfl
  | popRv =>
    exact .retire (handlePop_answers _ _ s (by simp)) (by simp [Instr.accesses]) rfl (by simp [Instr.destNames]) rfl rfl
  | popEv o rm =>
    unfold execPopEv
    split
    · next hesp => exact .illFormed (by simp [Instr.wellFormed, hesp])
    · exact .retire (handlePop_answers _ _ s (by simp)) (by simp [Instr.accesses]) rfl (by simp [Instr.destNames])
        rfl rfl
  | leave => exact .retire (handleLeave_answers s) rfl rfl rfl rfl rfl
  | inALIb | inEAXIb | inALDX | inEAXDX => exact .retire (handleIn_answers _ _ s) rfl rfl rfl rfl rfl
  | outIbAL | outIbEAX | outDXAL | outDXEAX => exact .retire (handleOut_answers _ _ s) rfl rfl rfl rfl rfl
  | lidtM p m => exact execLidtM_ends p m s
  | pusha | popa | intIb | iret | movFromCr | movToCr => exact .placeholder rfl rfl
  | jccJb | jccJd => exact .transfer (handleJcc_answers _ _ _ s) rfl rfl rfl rfl rfl
  | jmpJb | jmpJd => exact .transfer (.plain (Effect.setPc ..)) rfl rfl rfl rfl rfl
  | jmpEd => exact .transfer (handleJmp_answers _ s) (by simp [Instr.accesses]) rfl rfl rfl rfl
  | callJd | callEd => exact .transfer (handleCall_answers _ _ s) (by simp [Instr.accesses]) rfl rfl rfl rfl
  | ret => exact .transfer (handleRet_answers s) rfl rfl rfl rfl rfl
  | setccEb =>
    exact .retire (handleSetcc_answers s _ _ (by simp)) (by simp [Instr.accesses]) rfl (by simp [Instr.destNames])
        rfl rfl
  | nop => exact .retire (.plain (Effect.refl s)) rfl rfl rfl rfl rfl

end Sys2Proof.Machine
end

section
/-! PROOFS of the statements about every instruction, from the ways it can end. -/

namespace Sys2Proof.Machine

/-! ### Completion and refusal (60_exceptions.md R501, R508) -/

/-- Settles O24: of the ways to end, admitted accesses, no divide error and no placeholder leave only completion. -/
theorem completes : Obligations.Completes := by
  unfold Obligations.Completes
  intro i s hw hplace hadm hdiv
  have hends := exec_execEnds i s
  generalize exec i s = x at hends
  cases hends with
  | @refused y hfind =>
    have hy : y.admitted s = false := by simpa using List.find?_some hfind
    rw [hadm y (List.mem_of_find?_eq_some hfind)] at hy
    cases hy
  | divideError _ hdiv' =>
    rw [hdiv] at hdiv'
    cases hdiv'
  | placeholder hm _ =>
    rw [hplace] at hm
    cases hm
  | illFormed hw' =>
    rw [hw] at hw'
    cases hw'
  | completed _ _ heffect _ => exact ⟨_, rfl, heffect.status⟩

/-- Settles O25: every other way to end has no refused access. -/
theorem firstRefusedAccess : Obligations.FirstRefusedAccess := by
  unfold Obligations.FirstRefusedAccess
  intro i s y hw hfind
  have hends := exec_execEnds i s
  generalize exec i s = x at hends
  cases hends with
  | refused hfind' =>
    rw [hfind] at hfind'
    cases hfind'
    rfl
  | divideError hnone _ | completed hnone _ _ _ =>
    rw [hfind] at hnone
    cases hnone
  | placeholder _ hacc =>
    rw [hacc] at hfind
    cases hfind
  | illFormed hw' =>
    rw [hw] at hw'
    cases hw'

/-- Settles O27: each way to end halted names its reason, and completion keeps the core running. -/
theorem reasonsOfExecution : Obligations.ReasonsOfExecution := by
  unfold Obligations.ReasonsOfExecution
  intro i s t r hw hrun hexec hhalt
  have hends := exec_execEnds i s
  rw [hexec] at hends
  cases hends with
  | refused hfind =>
    cases hhalt
    exact List.mem_of_find?_eq_some hfind
  | divideError _ hdiv =>
    cases hhalt
    exact hdiv
  | placeholder hm _ =>
    cases hhalt
    exact hm
  | illFormed hw' =>
    rw [hw] at hw'
    cases hw'
  | completed _ _ heffect _ =>
    have hstatus : t.status = s.status := heffect.status
    rw [hstatus, hrun] at hhalt
    cases hhalt

/-! ### Frames -/

namespace ExecEnds

variable {i : Instr} {s t : State}

/-- Halting changes `status` alone, completing is an effect: either way the frame of the effect holds. -/
theorem frame (h : ExecEnds i s (.next t)) :
    (∃ r, t = s.halt r) ∨ Effect s { t with idtr := s.idtr } (i.accesses s) (if i.isPort then 1 else 0) i.destNames
      (i.writesFlags s) := by
  cases h with
  | refused | divideError | placeholder | illFormed => exact .inl ⟨_, rfl⟩
  | completed _ _ heffect _ => exact .inr heffect

end ExecEnds

theorem exec_frame {i : Instr} {s t : State} (h : exec i s = .next t) :
    (∃ r, t = s.halt r) ∨ Effect s { t with idtr := s.idtr } (i.accesses s) (if i.isPort then 1 else 0) i.destNames
      (i.writesFlags s) :=
  (h ▸ exec_execEnds i s).frame

/-- Settles O21: the register part of the frame. -/
theorem registerFrame : Obligations.RegisterFrame := by
  unfold Obligations.RegisterFrame
  intro i s t h r k hnames
  obtain ⟨_, rfl⟩ | heffect := exec_frame h
  · rfl
  · exact heffect.regs r k hnames

/-- Settles O22: the memory part of the frame. -/
theorem memoryFrame : Obligations.MemoryFrame := by
  unfold Obligations.MemoryFrame
  intro i s t h a hwrites
  obtain ⟨_, rfl⟩ | heffect := exec_frame h
  · rfl
  · exact heffect.mem a hwrites

/-- Settles O23: the log's part of the frame; halting logs nothing. -/
theorem eventsAppended : Obligations.EventsAppended := by
  unfold Obligations.EventsAppended
  intro i s t hrun h
  obtain ⟨_, rfl⟩ | heffect := exec_frame h
  · exact ⟨[], by simp, by simp⟩
  · have hstatus : t.status = .running := heffect.status.trans hrun
    obtain ⟨new, hevents, hlen, -⟩ := heffect.events
    exact ⟨new, hevents, by rw [hlen, if_pos hstatus]⟩

/-! ### The CF of `inc` and `dec` (40_arith.md R217) -/

section

variable (f : IncForm) (s : State)

theorem exec_inc : exec f.incInstr s = retire f.incInstr s (handleInc (f.dst s) s) := by cases f <;> rfl
theorem exec_dec : exec f.decInstr s = retire f.decInstr s (handleDec (f.dst s) s) := by cases f <;> rfl

@[simp] theorem IncForm.dst_isPlace : (f.dst s).isPlace = true := by
  cases f with
  | rv => rfl
  | eb | ev => exact rmOperand_isPlace ..

end

/-- `inc` or `dec` that completes in mode `preserve` leaves CF, and whether it is a draw. -/
theorem cf_of_retire_inc_or_dec {i : Instr} {w : Width} {dst : Operand w} {s t : State} (hp : dst.isPlace = true)
    (hmode : s.cfg.incDecCf = .preserve)
    (h : retire i s (handleInc dst s) = .next t ∨ retire i s (handleDec dst s) = .next t) :
    t.flags.cf = s.flags.cf ∧ t.drawn.cf = s.drawn.cf := by
  by_cases hd : dst.admitted s
  · rw [handleInc_ok hp hd, handleDec_ok hp hd] at h
    obtain h | h := h <;>
    · cases h
      simp [resultFlags, incDecCf, incDecDrawn, hmode]
  · obtain ⟨a, rfl, hrefused⟩ := Operand.refused hd
    simp only [handleInc, handleDec, Operand.read_refused hrefused, error_bind, or_self] at h
    cases h
    exact ⟨rfl, rfl⟩

/-- Settles O19: the flags' part of the frame, and the CF of `inc` and `dec`. -/
theorem flagFrame : Obligations.FlagFrame := by
  unfold Obligations.FlagFrame
  intro i s t h
  refine ⟨fun hflags => ?_, fun f hf hmode => ?_⟩
  · obtain ⟨_, rfl⟩ | heffect := exec_frame h
    · exact ⟨rfl, rfl⟩
    · exact heffect.flags hflags
  · refine cf_of_retire_inc_or_dec (f.dst_isPlace s) hmode (hf.imp ?_ ?_) (i := i)
    · rintro rfl
      rwa [exec_inc] at h
    · rintro rfl
      rwa [exec_dec] at h

/-! ### The invariant -/

theorem Inv.halt {s : State} (h : Inv s) (r : Reason) : Inv (s.halt r) where
  memory := h.memory
  record := by
    rintro record hrecord
    cases hrecord
    rfl
  events := h.events

theorem exec_keepsInv {i : Instr} {s t : State} (hinv : Inv s) (hrun : s.status = .running) (h : exec i s = .next t) :
    Inv t := by
  obtain ⟨r, rfl⟩ | heffect := exec_frame h
  · exact hinv.halt r
  · have hstatus : t.status = .running := heffect.status.trans hrun
    obtain ⟨new, hevents, -, hfits⟩ := heffect.events
    have hevents : t.events = s.events ++ new := hevents
    refine ⟨heffect.wf hinv.memory, fun r hr => ?_, fun e he => ?_⟩
    · rw [hstatus] at hr
      cases hr
    · rw [hevents, List.mem_append] at he
      exact he.elim (hinv.events e) (hfits e)

/-- Settles O14: a step halts, which writes a record that names pc, or runs an instruction. -/
theorem stepKeepsInv : Obligations.StepKeepsInv := by
  unfold Obligations.StepKeepsInv
  intro s t hinv hstep
  have hrun : s.status = .running := (stepsIffRunning s).1 ⟨t, hstep⟩
  simp only [step, hrun] at hstep
  split at hstep
  · exact exec_keepsInv hinv hrun hstep
  · cases hstep
    exact hinv.halt _

/-- Settles O15: at reset memory is empty, no event is logged, and the core runs. -/
theorem resetInv : Obligations.ResetInv := by
  unfold Obligations.ResetInv
  exact ⟨reset_mem_wf, nofun, nofun⟩

end Sys2Proof.Machine
end

section
/-! PROOFS that IDTR is written by `lidt` alone and read by nothing (10_state.md R51). -/

namespace Sys2Proof.Machine

/-! ### Computations that neither read nor write IDTR -/

/-- Changing IDTR before the computation changes it after, and nothing else. -/
def Blind (f : State → Except Reason State) : Prop :=
  ∀ (s : State) (limit : Half) (base : Word),
    f (s.setIdtr limit base) = (f s).map fun t => t.setIdtr limit base

/-- The same of a computation that also gives a value. -/
def BlindRead {α : Type} (f : State → Except Reason (α × State)) : Prop :=
  ∀ (s : State) (limit : Half) (base : Word),
    f (s.setIdtr limit base) = (f s).map fun q => (q.1, q.2.setIdtr limit base)

namespace Blind

variable {f g : State → Except Reason State} {u : State → State}

theorem ok (h : ∀ s limit base, u (s.setIdtr limit base) = (u s).setIdtr limit base) : Blind fun s => .ok (u s) :=
  fun s limit base => congrArg Except.ok (h s limit base)

theorem error (r : Reason) : Blind fun _ => .error r := fun _ _ _ => rfl

theorem bind (hf : Blind f) (hg : Blind g) : Blind fun s => f s >>= g := by
  intro s limit base
  show f (s.setIdtr limit base) >>= g = (f s >>= g).map _
  rw [hf]
  cases f s with
  | error r => rfl
  | ok t => exact hg t limit base

theorem ite {c : State → Prop} [∀ s, Decidable (c s)] (hc : ∀ s limit base, c (s.setIdtr limit base) ↔ c s)
    (hf : Blind f) (hg : Blind g) : Blind fun s => if c s then f s else g s := by
  intro s limit base
  simp only [hc]
  split
  · exact hf s limit base
  · exact hg s limit base

/-- A field of the state that is not IDTR is read. -/
theorem field {α : Type} (u : State → α) {k : α → State → Except Reason State}
    (hu : ∀ s limit base, u (s.setIdtr limit base) = u s) (hk : ∀ a, Blind (k a)) : Blind fun s => k (u s) s := by
  intro s limit base
  show k (u (s.setIdtr limit base)) _ = _
  rw [hu]
  exact hk (u s) s limit base

variable {i : Instr} {s t : State} {limit : Half} {base : Word}

theorem retire (hf : Blind f) (h : retire i s (f s) = .next t) :
    retire i (s.setIdtr limit base) (f (s.setIdtr limit base)) = .next (t.setIdtr limit base) := by
  rw [hf]
  cases hs : f s <;> rw [hs] at h <;> cases h <;> rfl

theorem transfer (hf : Blind f) (h : transfer s (f s) = .next t) :
    transfer (s.setIdtr limit base) (f (s.setIdtr limit base)) = .next (t.setIdtr limit base) := by
  rw [hf]
  cases hs : f s <;> rw [hs] at h <;> cases h <;> rfl

end Blind

theorem BlindRead.bind {α : Type} {f : State → Except Reason (α × State)} {k : α × State → Except Reason State}
    (hf : BlindRead f) (hk : ∀ a, Blind fun s => k (a, s)) : Blind fun s => f s >>= k := by
  intro s limit base
  show f (s.setIdtr limit base) >>= k = (f s >>= k).map _
  rw [hf]
  cases f s with
  | error r => rfl
  | ok q => exact hk q.1 q.2 limit base

/-! ### Operations -/

theorem blind_memRead (w : Width) (a : Word) : BlindRead (memRead w a) := by
  intro s limit base
  simp only [memRead, State.setIdtr_cfg]
  cases admission s.cfg w a with
  | none => rfl
  | some space => cases space <;> rfl

theorem blind_memWrite (w : Width) (a : Word) (v : BitVec w.bits) : Blind (memWrite w a v) := by
  intro s limit base
  simp only [memWrite, State.setIdtr_cfg]
  cases admission s.cfg w a with
  | none => rfl
  | some space => cases space <;> rfl

theorem Operand.blind_read {w : Width} (op : Operand w) : BlindRead op.read := by
  cases op with
  | reg i => exact fun _ _ _ => rfl
  | mem a => exact blind_memRead w a
  | imm v => exact fun _ _ _ => rfl

theorem Operand.blind_write {w : Width} (op : Operand w) (v : BitVec w.bits) : Blind (op.write v) := by
  cases op with
  | reg i => exact fun _ _ _ => rfl
  | mem a => exact blind_memWrite w a v
  | imm v => exact .error _

theorem blind_push32 (v : Word) : Blind (push32 v) := by
  intro s limit base
  exact (blind_memWrite .w4 (s.regs.get .esp - 4) v).bind (Blind.ok fun _ _ _ => rfl) s limit base

theorem blind_pop32 : BlindRead pop32 := by
  intro s limit base
  simp only [pop32, State.setIdtr_regs]
  rw [blind_memRead]
  cases memRead .w4 (s.regs.get .esp) s <;> rfl

section

variable (s : State) (limit : Half) (base : Word)

theorem flagOrDraw_setIdtr (given : Option Bool) :
    flagOrDraw given (s.setIdtr limit base) =
      ((flagOrDraw given s).1, (flagOrDraw given s).2.setIdtr limit base) := by
  cases given <;> rfl

theorem shiftFlags_setIdtr {n : Nat} (r : BitVec n) (cf : Option Bool) (of : Bool → Option Bool) :
    shiftFlags r cf of (s.setIdtr limit base) = (shiftFlags r cf of s).setIdtr limit base := by
  simp only [shiftFlags, flagOrDraw_setIdtr]
  rfl

theorem mulFlags_setIdtr (b : Bool) : mulFlags b (s.setIdtr limit base) = (mulFlags b s).setIdtr limit base := by
  simp only [mulFlags, State.setIdtr_cfg]
  cases s.cfg.mulFlags <;> rfl

theorem imulTruncFlags_setIdtr (b : Bool) :
    imulTruncFlags b (s.setIdtr limit base) = (imulTruncFlags b s).setIdtr limit base := by
  simp only [imulTruncFlags, State.setIdtr_cfg]
  cases s.cfg.imulTrunc <;> rfl

theorem evalCond_setIdtr (cc : Cond) :
    evalCond cc (s.setIdtr limit base) = ((evalCond cc s).1, (evalCond cc s).2.setIdtr limit base) := by
  by_cases h : condDrawn cc s.drawn = true
  · rw [evalCond_drawn h, evalCond_drawn (by exact h)]
    rfl
  · rw [Bool.not_eq_true] at h
    rw [evalCond_given h, evalCond_given (by exact h)]
    rfl

theorem slotWord_setIdtr (o : OSize) (v : BitVec o.width.bits) :
    slotWord o v (s.setIdtr limit base) = ((slotWord o v s).1, (slotWord o v s).2.setIdtr limit base) := by
  cases o <;> rfl

theorem handleJcc_setIdtr (cc : Cond) (next target : Word) :
    handleJcc cc next target (s.setIdtr limit base) = (handleJcc cc next target s).setIdtr limit base := by
  simp only [handleJcc, evalCond_setIdtr]
  rfl

theorem handleOut_setIdtr (w : Width) (port : Half) :
    handleOut w port (s.setIdtr limit base) = (handleOut w port s).setIdtr limit base := by
  simp only [handleOut, State.setIdtr_cfg]
  cases s.cfg.outWidth <;> rfl

theorem handleCwtl_setIdtr (o : OSize) :
    handleCwtl o (s.setIdtr limit base) = (handleCwtl o s).setIdtr limit base := by
  cases o <;> rfl

end

/-! ### Handlers -/

section

variable {w : Width} (dst src : Operand w) (count : Operand .w1)


theorem blind_handleAdd : Blind (handleAdd dst src) :=
  dst.blind_read.bind fun d => src.blind_read.bind fun x => (dst.blind_write (d + x)).bind <| .ok fun _ _ _ => rfl

theorem blind_handleSub : Blind (handleSub dst src) :=
  dst.blind_read.bind fun d => src.blind_read.bind fun x => (dst.blind_write (d - x)).bind <| .ok fun _ _ _ => rfl

theorem blind_handleAnd : Blind (handleAnd dst src) :=
  dst.blind_read.bind fun d => src.blind_read.bind fun x => (dst.blind_write (d &&& x)).bind <| .ok fun _ _ _ => rfl

theorem blind_handleOr : Blind (handleOr dst src) :=
  dst.blind_read.bind fun d => src.blind_read.bind fun x => (dst.blind_write (d ||| x)).bind <| .ok fun _ _ _ => rfl

theorem blind_handleXor : Blind (handleXor dst src) :=
  dst.blind_read.bind fun d => src.blind_read.bind fun x => (dst.blind_write (d ^^^ x)).bind <| .ok fun _ _ _ => rfl

theorem blind_handleAdc : Blind (handleAdc dst src) :=
  dst.blind_read.bind fun d => src.blind_read.bind fun x =>
    .field (fun s => s.flags.cf) (k := fun c s => dst.write (d + x + carryValue w.bits c) s >>= fun t => .ok
      (t.setFlags (resultFlags (d + x + carryValue w.bits c) (carryAdd d x c)
        (overflowAdd (d + x + carryValue w.bits c) d x))))
      (fun _ _ _ => rfl) fun _ => (dst.blind_write _).bind <| .ok fun _ _ _ => rfl

theorem blind_handleSbb : Blind (handleSbb dst src) :=
  dst.blind_read.bind fun d => src.blind_read.bind fun x =>
    .field (fun s => s.flags.cf) (k := fun c s => dst.write (d - x - carryValue w.bits c) s >>= fun t => .ok
      (t.setFlags (resultFlags (d - x - carryValue w.bits c) (borrowSub d x c)
        (overflowSub (d - x - carryValue w.bits c) d x))))
      (fun _ _ _ => rfl) fun _ => (dst.blind_write _).bind <| .ok fun _ _ _ => rfl

theorem blind_handleCmp : Blind (handleCmp dst src) :=
  dst.blind_read.bind fun _ => src.blind_read.bind fun _ => .ok fun _ _ _ => rfl

theorem blind_handleTest : Blind (handleTest dst src) :=
  dst.blind_read.bind fun _ => src.blind_read.bind fun _ => .ok fun _ _ _ => rfl

theorem blind_handleInc : Blind (handleInc dst) :=
  dst.blind_read.bind fun d => (dst.blind_write (d + 1)).bind <| .ok fun _ _ _ => rfl

theorem blind_handleDec : Blind (handleDec dst) :=
  dst.blind_read.bind fun d => (dst.blind_write (d - 1)).bind <| .ok fun _ _ _ => rfl

theorem blind_handleNeg : Blind (handleNeg dst) :=
  dst.blind_read.bind fun d => (dst.blind_write (0 - d)).bind <| .ok fun _ _ _ => rfl

theorem blind_handleNot : Blind (handleNot dst) := dst.blind_read.bind fun d => dst.blind_write (~~~d)

theorem blind_handleShl : Blind (handleShl dst count) :=
  dst.blind_read.bind fun d => count.blind_read.bind fun k => .ite (fun _ _ _ => .rfl) (.ok fun _ _ _ => rfl) <|
    (dst.blind_write (d <<< maskedCount k)).bind <| .ok fun s limit base => shiftFlags_setIdtr s limit base ..

theorem blind_handleShr : Blind (handleShr dst count) :=
  dst.blind_read.bind fun d => count.blind_read.bind fun k => .ite (fun _ _ _ => .rfl) (.ok fun _ _ _ => rfl) <|
    (dst.blind_write (d >>> maskedCount k)).bind <| .ok fun s limit base => shiftFlags_setIdtr s limit base ..

theorem blind_handleSar : Blind (handleSar dst count) :=
  dst.blind_read.bind fun d => count.blind_read.bind fun k => .ite (fun _ _ _ => .rfl) (.ok fun _ _ _ => rfl) <|
    (dst.blind_write (d.sshiftRight (maskedCount k))).bind <| .ok fun s limit base => shiftFlags_setIdtr s limit base ..

theorem blind_handleMul : Blind (handleMul src) :=
  src.blind_read.bind fun _ => .ok fun s limit base => mulFlags_setIdtr (s.setPair w _ _) limit base _

theorem blind_handleImul1 : Blind (handleImul1 src) :=
  src.blind_read.bind fun _ => .ok fun s limit base => mulFlags_setIdtr (s.setPair w _ _) limit base _

theorem blind_handleImul2 : Blind (handleImul2 dst src) :=
  dst.blind_read.bind fun d => src.blind_read.bind fun x =>
    (dst.blind_write (BitVec.ofInt w.bits (d.toInt * x.toInt))).bind <| .ok fun _ _ _ => imulTruncFlags_setIdtr ..

theorem blind_handleImul3 (src2 : Operand w) : Blind (handleImul3 dst src src2) :=
  src.blind_read.bind fun x => src2.blind_read.bind fun k =>
    (dst.blind_write (BitVec.ofInt w.bits (x.toInt * k.toInt))).bind <| .ok fun _ _ _ => imulTruncFlags_setIdtr ..

theorem blind_handleDiv : Blind (handleDiv src) :=
  src.blind_read.bind fun _ => .ite (fun _ _ _ => .rfl) (.error _) <| .ite (fun _ _ _ => .rfl) (.error _) <|
    .ok fun _ _ _ => rfl

theorem blind_handleIdiv : Blind (handleIdiv src) :=
  src.blind_read.bind fun _ => .ite (fun _ _ _ => .rfl) (.error _) <| .ite (fun _ _ _ => .rfl) (.error _) <|
    .ok fun _ _ _ => rfl

theorem blind_handleMov : Blind (handleMov dst src) := src.blind_read.bind fun v => dst.blind_write v

theorem blind_handleMovsx {v : Width} (dst : Operand v) : Blind (handleMovsx dst src) :=
  src.blind_read.bind fun x => dst.blind_write (x.signExtend v.bits)

theorem blind_handleMovzx {v : Width} (dst : Operand v) : Blind (handleMovzx dst src) :=
  src.blind_read.bind fun x => dst.blind_write (x.zeroExtend v.bits)

theorem blind_handlePush (o : OSize) (src : Operand o.width) : Blind (handlePush o src) :=
  src.blind_read.bind fun v s limit base => by
    dsimp only
    rw [slotWord_setIdtr]
    exact blind_push32 _ _ limit base

theorem blind_handlePop (o : OSize) (dst : Operand o.width) : Blind (handlePop o dst) :=
  blind_pop32.bind fun word => dst.blind_write (word.setWidth o.width.bits)

theorem blind_handleLeave : Blind handleLeave :=
  .field (fun s => s.regs.get .ebp) (k := fun a s => memRead .w4 a s >>= fun q => .ok
    ((q.2.setReg .w4 .esp (a + 4)).setReg .w4 .ebp q.1)) (fun _ _ _ => rfl) fun a =>
    (blind_memRead .w4 a).bind fun _ => .ok fun _ _ _ => rfl

theorem blind_handleJmp (src : Operand .w4) : Blind (handleJmp src) :=
  src.blind_read.bind fun _ => .ok fun _ _ _ => rfl

theorem blind_handleCall (next : Word) (target : Operand .w4) : Blind (handleCall next target) :=
  target.blind_read.bind fun _ => (blind_push32 next).bind <| .ok fun _ _ _ => rfl

theorem blind_handleRet : Blind handleRet := blind_pop32.bind fun _ => .ok fun _ _ _ => rfl

theorem blind_handleSetcc (cc : Cond) (dst : Operand .w1) : Blind (handleSetcc cc dst) := by
  intro s limit base
  simp only [handleSetcc, evalCond_setIdtr]
  exact dst.blind_write _ _ limit base

end

/-! ### Every instruction but `lidt` -/

theorem exec_setIdtr {i : Instr} {s t : State} (hlidt : ∀ p m, i ≠ .lidtM p m) (h : exec i s = .next t) (limit : Half)
    (base : Word) : exec i (s.setIdtr limit base) = .next (t.setIdtr limit base) := by
  cases i with dsimp only [exec] at h ⊢
  | addEbGb | addEvGv | addGbEb | addGvEv | addALIb | addEAXIv | addEbIb | addEvIv | addEvSIb =>
    exact (blind_handleAdd _ _).retire h
  | orEbGb | orEvGv | orGbEb | orGvEv | orALIb | orEAXIv | orEbIb | orEvIv | orEvSIb =>
    exact (blind_handleOr _ _).retire h
  | adcEbGb | adcEvGv | adcGbEb | adcGvEv | adcALIb | adcEAXIv | adcEbIb | adcEvIv | adcEvSIb =>
    exact (blind_handleAdc _ _).retire h
  | sbbEbGb | sbbEvGv | sbbGbEb | sbbGvEv | sbbALIb | sbbEAXIv | sbbEbIb | sbbEvIv | sbbEvSIb =>
    exact (blind_handleSbb _ _).retire h
  | andEbGb | andEvGv | andGbEb | andGvEv | andALIb | andEAXIv | andEbIb | andEvIv | andEvSIb =>
    exact (blind_handleAnd _ _).retire h
  | subEbGb | subEvGv | subGbEb | subGvEv | subALIb | subEAXIv | subEbIb | subEvIv | subEvSIb =>
    exact (blind_handleSub _ _).retire h
  | xorEbGb | xorEvGv | xorGbEb | xorGvEv | xorALIb | xorEAXIv | xorEbIb | xorEvIv | xorEvSIb =>
    exact (blind_handleXor _ _).retire h
  | cmpEbGb | cmpEvGv | cmpGbEb | cmpGvEv | cmpALIb | cmpEAXIv | cmpEbIb | cmpEvIv | cmpEvSIb =>
    exact (blind_handleCmp _ _).retire h
  | testEbGb | testEvGv | testALIb | testEAXIv | testEbIb | testEvIv => exact (blind_handleTest _ _).retire h
  | incRv | incEb | incEv => exact (blind_handleInc _).retire h
  | decRv | decEb | decEv => exact (blind_handleDec _).retire h
  | negEb | negEv => exact (blind_handleNeg _).retire h
  | notEb | notEv => exact (blind_handleNot _).retire h
  | shlEbIb | shlEvIb | shlEb1 | shlEv1 | shlEbCL | shlEvCL => exact (blind_handleShl _ _).retire h
  | shrEbIb | shrEvIb | shrEb1 | shrEv1 | shrEbCL | shrEvCL => exact (blind_handleShr _ _).retire h
  | sarEbIb | sarEvIb | sarEb1 | sarEv1 | sarEbCL | sarEvCL => exact (blind_handleSar _ _).retire h
  | mulEb | mulEv => exact (blind_handleMul _).retire h
  | imulEb | imulEv => exact (blind_handleImul1 _).retire h
  | divEb | divEv => exact (blind_handleDiv _).retire h
  | idivEb | idivEv => exact (blind_handleIdiv _).retire h
  | imulGvEv => exact (blind_handleImul2 _ _).retire h
  | imulGvEvIv | imulGvEvSIb => exact (blind_handleImul3 _ _ _).retire h
  | movEbGb | movEvGv | movGbEb | movGvEv | movALOb | movEAXOv | movObAL | movOvEAX | movRbIb | movRvIv | movEbIb
    | movEvIv => exact (blind_handleMov _ _).retire h
  | leaGvM | cltd => exact (Blind.ok fun _ _ _ => rfl).retire h
  | cwtl => exact (Blind.ok fun s limit base => handleCwtl_setIdtr s limit base _).retire h
  | movsxGvEb | movsxGvEw => exact (blind_handleMovsx _ _).retire h
  | movzxGvEb | movzxGvEw => exact (blind_handleMovzx _ _).retire h
  | pushRv | pushIv | pushSIb | pushEv => exact (blind_handlePush _ _).retire h
  | popRv => exact (blind_handlePop _ _).retire h
  | popEv o rm =>
    unfold execPopEv at h ⊢
    by_cases hesp : rm.usesEsp = true
    · rw [if_pos hesp] at h ⊢
      cases h
      rfl
    · rw [if_neg hesp] at h ⊢
      exact (blind_handlePop _ _).retire h
  | leave => exact blind_handleLeave.retire h
  | inALIb | inEAXIb | inALDX | inEAXDX => exact (Blind.ok fun _ _ _ => rfl).retire h
  | outIbAL | outIbEAX | outDXAL | outDXEAX =>
    exact (Blind.ok fun s limit base => handleOut_setIdtr s limit base ..).retire h
  | lidtM p m => exact absurd rfl (hlidt p m)
  | nop | jmpJb | jmpJd | pusha | popa | intIb | iret | movFromCr | movToCr =>
    cases h
    rfl
  | jccJb | jccJd => exact (Blind.ok fun s limit base => handleJcc_setIdtr s limit base ..).transfer h
  | jmpEd => exact (blind_handleJmp _).transfer h
  | callJd | callEd => exact (blind_handleCall _ _).transfer h
  | ret => exact blind_handleRet.transfer h
  | setccEb => exact (blind_handleSetcc _ _).retire h

/-- Settles O18: the effect of an instruction keeps the parameters, and IDTR where it is not `lidt`; blindness gives
the second run. -/
theorem idtrIsolated : Obligations.IdtrIsolated := by
  unfold Obligations.IdtrIsolated
  intro i s t h
  have hends := exec_execEnds i s
  rw [h] at hends
  refine ⟨?_, fun hlidt => ⟨?_, fun limit base => exec_setIdtr hlidt h limit base⟩⟩
  · obtain ⟨r, rfl⟩ | heffect := hends.frame
    · rfl
    · exact heffect.cfg
  · cases hends with
    | refused | divideError | placeholder | illFormed => rfl
    | completed _ _ _ hidtr => exact hidtr hlidt

end Sys2Proof.Machine
end

section
/-! PROOFS of the results of integer arithmetic and logic (40_arith.md, 44_logic_gk.md sections 1 and 2). -/

namespace Sys2Proof.Machine

/-! ### The rows of an operand form run one handler -/

section

variable (f : AluForm) (s : State)

theorem exec_add : exec f.addInstr s = retire f.addInstr s (handleAdd (f.dst s) (f.src s) s) := by cases f <;> rfl
theorem exec_or : exec f.orInstr s = retire f.orInstr s (handleOr (f.dst s) (f.src s) s) := by cases f <;> rfl
theorem exec_adc : exec f.adcInstr s = retire f.adcInstr s (handleAdc (f.dst s) (f.src s) s) := by cases f <;> rfl
theorem exec_sbb : exec f.sbbInstr s = retire f.sbbInstr s (handleSbb (f.dst s) (f.src s) s) := by cases f <;> rfl
theorem exec_and : exec f.andInstr s = retire f.andInstr s (handleAnd (f.dst s) (f.src s) s) := by cases f <;> rfl
theorem exec_sub : exec f.subInstr s = retire f.subInstr s (handleSub (f.dst s) (f.src s) s) := by cases f <;> rfl
theorem exec_xor : exec f.xorInstr s = retire f.xorInstr s (handleXor (f.dst s) (f.src s) s) := by cases f <;> rfl
theorem exec_cmp : exec f.cmpInstr s = retire f.cmpInstr s (handleCmp (f.dst s) (f.src s) s) := by cases f <;> rfl

@[simp] theorem AluForm.dst_isPlace : (f.dst s).isPlace = true := by
  cases f with
  | gbEb | gvEv | alIb | eaxIv => rfl
  | ebGb | evGv | ebIb | evIv | evSIb => exact rmOperand_isPlace ..

end

section

variable (f : TestForm) (s : State)

theorem exec_test : exec f.instr s = retire f.instr s (handleTest (f.dst s) f.src s) := by cases f <;> rfl

theorem TestForm.src_admitted : f.src.admitted s := by cases f <;> exact trivial

@[simp] theorem TestForm.src_readDone : f.src.readDone s = s := by cases f <;> rfl

/-- The source is a register or an immediate, which a read of the destination leaves. -/
theorem TestForm.src_value_readDone : f.src.value ((f.dst s).readDone s) = f.src.value s := by
  cases f with
  | ebGb | evGv => simp only [TestForm.src, Operand.value_reg, Operand.readDone_regs]
  | alIb | eaxIv | ebIb | evIv => rfl

end

section

variable (f : EForm) (s : State)

theorem exec_neg : exec f.negInstr s = retire f.negInstr s (handleNeg (f.op s) s) := by cases f <;> rfl
theorem exec_not : exec f.notInstr s = retire f.notInstr s (handleNot (f.op s) s) := by cases f <;> rfl
theorem exec_mul : exec f.mulInstr s = retire f.mulInstr s (handleMul (f.op s) s) := by cases f <;> rfl
theorem exec_imul : exec f.imulInstr s = retire f.imulInstr s (handleImul1 (f.op s) s) := by cases f <;> rfl
theorem exec_div : exec f.divInstr s = retire f.divInstr s (handleDiv (f.op s) s) := by cases f <;> rfl
theorem exec_idiv : exec f.idivInstr s = retire f.idivInstr s (handleIdiv (f.op s) s) := by cases f <;> rfl

@[simp] theorem EForm.op_isPlace : (f.op s).isPlace = true := by cases f <;> exact rmOperand_isPlace ..

end

/-! ### Carry and overflow -/

theorem toNat_one (w : Width) : (1 : BitVec w.bits).toNat = 1 := by cases w <;> rfl

theorem toNat_zero (w : Width) : (0 : BitVec w.bits).toNat = 0 := by cases w <;> rfl

/-- `OverflowAdd` in numbers. -/
theorem overflowAdd_iff {w : Width} (r d x : BitVec w.bits) : overflowAdd r d x = true ↔
    (2 ^ (w.bits - 1) ≤ d.toNat ↔ 2 ^ (w.bits - 1) ≤ x.toNat) ∧
      ¬(2 ^ (w.bits - 1) ≤ r.toNat ↔ 2 ^ (w.bits - 1) ≤ d.toNat) := by
  simp only [overflowAdd, BitVec.msb_eq_decide, Bool.and_eq_true, beq_iff_eq, bne_iff_ne, decide_eq_decide, ne_eq]

/-- `OverflowSub` in numbers. -/
theorem overflowSub_iff {w : Width} (r d x : BitVec w.bits) : overflowSub r d x = true ↔
    ¬(2 ^ (w.bits - 1) ≤ d.toNat ↔ 2 ^ (w.bits - 1) ≤ x.toNat) ∧
      ¬(2 ^ (w.bits - 1) ≤ r.toNat ↔ 2 ^ (w.bits - 1) ≤ d.toNat) := by
  simp only [overflowSub, BitVec.msb_eq_decide, Bool.and_eq_true, bne_iff_ne, decide_eq_decide, ne_eq]

theorem toNat_carry (w : Width) (c : Bool) : (BitVec.ofNat w.bits c.toNat).toNat = c.toNat := by
  cases w <;> cases c <;> rfl

/-- Settles O42: each side of each equivalence is linear arithmetic in the operands as numbers. -/
theorem carryAndOverflow : Obligations.CarryAndOverflow := by
  unfold Obligations.CarryAndOverflow
  intro w d x c cin
  have hc : cin.toNat = c.toNat := toNat_carry w c
  have hc1 := Bool.toNat_le c
  refine ⟨?_, ?_, ?_, ?_⟩
  · rw [carryAdd, decide_eq_true_eq, BitVec.toNat_add, BitVec.toNat_add, hc]
    cases w <;> simp only [Width.bits] at d x ⊢ <;> omega
  · rw [borrowSub, decide_eq_true_eq, BitVec.toNat_sub, BitVec.toNat_sub, hc]
    cases w <;> simp only [Width.bits] at d x ⊢ <;> omega
  · rw [overflowAdd_iff, BitVec.toNat_add, BitVec.toNat_add, hc, overflows, BitVec.toInt_eq_toNat_cond,
      BitVec.toInt_eq_toNat_cond]
    cases w <;> simp only [Width.bits] at d x ⊢ <;> omega
  · rw [overflowSub_iff, BitVec.toNat_sub, BitVec.toNat_sub, hc, overflows, BitVec.toInt_eq_toNat_cond,
      BitVec.toInt_eq_toNat_cond]
    cases w <;> simp only [Width.bits] at d x ⊢ <;> omega
/-! ### Two operands -/

/-- Settles O32: the carry without a carry in is the unsigned carry. -/
theorem addResult : Obligations.AddResult := by
  unfold Obligations.AddResult
  intro f s hd hs
  rw [exec_add, handleAdd_ok (f.dst_isPlace s) hd hs]
  rfl

/-- Settles O33, by what the handlers answer. -/
theorem adcResult : Obligations.AdcResult := by
  unfold Obligations.AdcResult
  intro f s hd hs
  rw [exec_adc, handleAdc_ok (f.dst_isPlace s) hd hs]
  rfl

/-- Settles O34, by what the handlers answer. -/
theorem subCmpResult : Obligations.SubCmpResult := by
  unfold Obligations.SubCmpResult
  intro f s hd hs
  rw [exec_sub, exec_cmp, handleSub_ok (f.dst_isPlace s) hd hs, handleCmp_ok hd hs]
  exact ⟨rfl, rfl⟩

/-- Settles O35, by what the handlers answer. -/
theorem sbbResult : Obligations.SbbResult := by
  unfold Obligations.SbbResult
  intro f s hd hs
  rw [exec_sbb, handleSbb_ok (f.dst_isPlace s) hd hs]
  rfl

/-- Settles O36, by what the handlers answer. -/
theorem logicResult : Obligations.LogicResult := by
  unfold Obligations.LogicResult
  intro f s hd hs
  have hp := f.dst_isPlace s
  rw [exec_and, exec_or, exec_xor, handleAnd_ok hp hd hs, handleOr_ok hp hd hs, handleXor_ok hp hd hs]
  exact ⟨rfl, rfl, rfl⟩

/-- Settles O37: the source is unchanged by the read of the destination. -/
theorem testResult : Obligations.TestResult := by
  unfold Obligations.TestResult
  intro f s hd
  rw [exec_test, handleTest_ok hd (f.src_admitted s), f.src_value_readDone, f.src_readDone]
  rfl

/-! ### One operand -/

/-- `inc` overflows at the greatest signed number alone. -/
theorem overflowAdd_one (w : Width) (d : BitVec w.bits) :
    overflowAdd (d + 1) d 1 = (d == BitVec.ofNat w.bits (2 ^ (w.bits - 1) - 1)) := by
  rw [Bool.eq_iff_iff, overflowAdd_iff, beq_iff_eq, ← BitVec.toNat_inj, BitVec.toNat_add, toNat_one,
    BitVec.toNat_ofNat]
  cases w <;> simp only [Width.bits] at d ⊢ <;> omega

/-- `dec` overflows at the least signed number alone. -/
theorem overflowSub_one (w : Width) (d : BitVec w.bits) :
    overflowSub (d - 1) d 1 = (d == BitVec.ofNat w.bits (2 ^ (w.bits - 1))) := by
  rw [Bool.eq_iff_iff, overflowSub_iff, beq_iff_eq, ← BitVec.toNat_inj, BitVec.toNat_sub, toNat_one,
    BitVec.toNat_ofNat]
  cases w <;> simp only [Width.bits] at d ⊢ <;> omega

/-- `neg` overflows at the least signed number alone. -/
theorem overflowSub_zero (w : Width) (d : BitVec w.bits) :
    overflowSub (0 - d) 0 d = (d == BitVec.ofNat w.bits (2 ^ (w.bits - 1))) := by
  rw [Bool.eq_iff_iff, overflowSub_iff, beq_iff_eq, ← BitVec.toNat_inj, BitVec.toNat_sub, toNat_zero,
    BitVec.toNat_ofNat]
  cases w <;> simp only [Width.bits] at d ⊢ <;> omega

theorem incDecCf_eq_ite (mode : IncDecCfMode) (wrapped old : Bool) :
    incDecCf mode wrapped old = if mode = .wraparound then wrapped else old := by cases mode <;> rfl

/-- Settles O38, by what the handlers answer. -/
theorem incDecResult : Obligations.IncDecResult := by
  unfold Obligations.IncDecResult
  intro f s hd
  have hp := f.dst_isPlace s
  rw [exec_inc, exec_dec, handleInc_ok hp hd, handleDec_ok hp hd]
  simp only [incDecDrawn, incDecCf_eq_ite, overflowAdd_one, overflowSub_one]
  exact ⟨rfl, rfl⟩

/-- Settles O39, by what the handlers answer. -/
theorem negNotResult : Obligations.NegNotResult := by
  unfold Obligations.NegNotResult
  intro f s hd
  have hp := f.op_isPlace s
  rw [exec_neg, exec_not, handleNeg_ok hp hd, handleNot_ok hp hd]
  simp only [overflowSub_zero]
  exact ⟨rfl, rfl⟩

end Sys2Proof.Machine
end

section
/-! PROOFS of the results of the shifts (44_logic_gk.md section 3). -/

namespace Sys2Proof.Machine

/-- Settles O40: with a masked count of 0 the handler answers the state after the read. -/
theorem shiftByZero : Obligations.ShiftByZero := by
  unfold Obligations.ShiftByZero
  intro f s hd hcount i hi
  have hc := f.countOp_admitted s
  have hzero : maskedCount (f.countOp.value ((f.dst s).readDone s)) = 0 := (f.maskedCount_eq _ s).trans hcount
  simp only [List.mem_cons, List.not_mem_nil, or_false] at hi
  obtain rfl | rfl | rfl := hi
  · rw [exec_shl, handleShl_zero hd hc hzero, f.countOp_readDone]
    rfl
  · rw [exec_shr, handleShr_zero hd hc hzero, f.countOp_readDone]
    rfl
  · rw [exec_sar, handleSar_zero hd hc hzero, f.countOp_readDone]
    rfl

/-! ### Shifts as arithmetic -/

theorem shiftLeft_eq_ofNat {n : Nat} (d : BitVec n) (c : Nat) : d <<< c = BitVec.ofNat n (d.toNat * 2 ^ c) := by
  rw [← BitVec.toNat_inj, BitVec.toNat_shiftLeft, BitVec.toNat_ofNat, Nat.shiftLeft_eq]

theorem ushiftRight_eq_ofNat {n : Nat} (d : BitVec n) (c : Nat) : d >>> c = BitVec.ofNat n (d.toNat / 2 ^ c) := by
  rw [← BitVec.toNat_inj, BitVec.toNat_ushiftRight, BitVec.toNat_ofNat, Nat.shiftRight_eq_div_pow,
    Nat.mod_eq_of_lt (Nat.lt_of_le_of_lt (Nat.div_le_self _ _) d.isLt)]

theorem sshiftRight_eq_ofInt {n : Nat} (d : BitVec n) (c : Nat) : d.sshiftRight c =
    BitVec.ofInt n (d.toInt / 2 ^ c) := by
  rw [BitVec.sshiftRight, Int.shiftRight_eq_div_pow]
  norm_cast

/-- Settles O41: the handlers' results as arithmetic; a value that the rule gives a flag is the one the handler
gives. -/
theorem shiftResult : Obligations.ShiftResult := by
  unfold Obligations.ShiftResult
  intro f s hd hcount n d c done
  have hp := f.dst_isPlace s
  have hc := f.countOp_admitted s
  have hmask := f.maskedCount_eq (f.dst s) s
  have hnonzero : maskedCount (f.countOp.value ((f.dst s).readDone s)) ≠ 0 := by rwa [hmask]
  refine ⟨?_, ?_, ?_⟩
  · have hok := handleShl_ok hp hd hc hnonzero
    simp only [hmask, f.countOp_readDone, shiftLeft_eq_ofNat] at hok
    obtain ⟨cf, of, k, hok, hcf, hof⟩ := hok
    refine ⟨cf, of, k, ?_, hcf, hof⟩
    rw [exec_shl, hok]
    rfl
  · have hok := handleShr_ok hp hd hc hnonzero
    simp only [hmask, f.countOp_readDone, ushiftRight_eq_ofNat] at hok
    obtain ⟨cf, of, k, hok, hcf, hof⟩ := hok
    refine ⟨cf, of, k, ?_, hcf, hof⟩
    rw [exec_shr, hok]
    rfl
  · have hok := handleSar_ok hp hd hc hnonzero
    simp only [hmask, f.countOp_readDone, sshiftRight_eq_ofInt] at hok
    obtain ⟨cf, of, k, hok, hcf, hof⟩ := hok
    refine ⟨cf, of, k, ?_, hcf, hof⟩
    rw [exec_sar, hok]
    rfl

end Sys2Proof.Machine
end

section
/-! PROOFS of the results of multiply and divide (41_muldiv.md). -/

namespace Sys2Proof.Machine

/-! ### The register pair -/

/-- AH and AL are the halves of AX. -/
theorem Regs.write_al_ah (x : Regs) (low high : Byte) :
    (x.write .w1 .eax low).write .w1 .esp high = x.write .w2 .eax (high ++ low) := by
  show x.set .eax ((x.eax.extractLsb' 8 24 ++ low).extractLsb' 16 16 ++ high ++
    (x.eax.extractLsb' 8 24 ++ low).extractLsb' 0 8) = x.set .eax (x.eax.extractLsb' 16 16 ++ (high ++ low))
  have hupper : (x.eax.extractLsb' 8 24 ++ low).extractLsb' 16 16 = x.eax.extractLsb' 16 16 := by
    rw [extract_above (x.eax.extractLsb' 8 24) low 8 16]
    ext k hk
    have hk24 : 8 + k < 24 := by omega
    simp [hk24, ← Nat.add_assoc]
  rw [extract_low, hupper]
  refine congrArg (x.set .eax) (BitVec.eq_of_toNat_eq ?_)
  simp only [toNat_concat]
  omega

theorem ofInt_concat_byte (p : Int) : BitVec.ofInt 8 (p / 2 ^ 8) ++ BitVec.ofInt 8 p = BitVec.ofInt 16 p := by
  apply BitVec.eq_of_toNat_eq
  simp only [toNat_concat, BitVec.toNat_ofInt]
  omega

/-- The halves of a product go to the halves of the pair. -/
theorem Regs.write_pair_eq_setProduct (x : Regs) (w : Width) (p : Int) :
    (x.write w .eax (BitVec.ofInt w.bits p)).write w (pairHigh w) (BitVec.ofInt w.bits (p / 2 ^ w.bits)) =
      x.setProduct w p := by
  cases w with
  | w1 => exact (x.write_al_ah _ _).trans (congrArg (x.write .w2 .eax) (ofInt_concat_byte p))
  | w2 => rfl
  | w4 => rfl

theorem Regs.write_pair_eq_setQuotient (x : Regs) (w : Width) (q r : BitVec w.bits) :
    (x.write w .eax q).write w (pairHigh w) r = x.setQuotient w q r := by cases w <;> rfl

/-- The high half is no part of the accumulator. -/
theorem Regs.read_eax_write_pairHigh (x : Regs) (w : Width) (v : BitVec w.bits) :
    (x.write w (pairHigh w) v).read w .eax = x.read w .eax := by
  apply BitVec.eq_of_getLsbD_eq
  intro k hk
  rw [Regs.bit_read _ _ _ hk, Regs.bit_read _ _ _ hk, Regs.bit_write_other]
  rw [← Bool.not_eq_true, aliasBit_iff]
  rintro ⟨hhome, hlow, -⟩
  cases w with
  | w1 =>
    have hhigh : 8 ≤ 0 + k := hlow
    have hk8 : k < 8 := hk
    omega
  | w2 | w4 => cases hhome

/-! ### Products -/

/-- A product fits its low half iff the half's signed value is the product. -/
theorem ne_toInt_ofInt_iff_overflows (w : Width) (p : Int) :
    p ≠ (BitVec.ofInt w.bits p).toInt ↔ overflows w.bits p := by
  rw [BitVec.toInt_ofInt, overflows, Int.bmod]
  cases w <;> simp only [Width.bits] <;> omega

theorem ofNat_div_ne_zero_iff (w : Width) {p : Nat} (hp : p < 2 ^ w.bits * 2 ^ w.bits) :
    (BitVec.ofNat w.bits (p / 2 ^ w.bits) != 0) = decide (2 ^ w.bits ≤ p) := by
  rw [Bool.eq_iff_iff, bne_iff_ne, ne_eq, ← BitVec.toNat_inj, toNat_zero, BitVec.toNat_ofNat, decide_eq_true_eq]
  cases w <;> simp only [Width.bits] at hp ⊢ <;> omega

/-- Settles O43, by what the handlers answer. -/
theorem mulResult : Obligations.MulResult := by
  unfold Obligations.MulResult
  intro f s hs a x done
  refine ⟨?_, ?_⟩
  · obtain ⟨fl, k, hok, hfl⟩ := handleMul_ok hs
    refine ⟨fl, k, ?_, fun hmode => ?_⟩
    · rw [exec_mul, hok]
      simp only [← BitVec.ofInt_natCast]
      push_cast
      simp only [retire_ok, State.setPair, State.setReg, Operand.readDone_regs, Regs.write_pair_eq_setProduct]
      rfl
    · rw [← ofNat_div_ne_zero_iff _ (Nat.mul_lt_mul'' a.isLt x.isLt)]
      exact hfl hmode
  · obtain ⟨fl, k, hok, hfl⟩ := handleImul1_ok hs
    refine ⟨fl, k, ?_, fun hmode => ?_⟩
    · rw [exec_imul, hok]
      simp only [retire_ok, State.setPair, State.setReg, Operand.readDone_regs, Regs.write_pair_eq_setProduct]
      rfl
    · obtain ⟨hcf, hof⟩ := hfl hmode
      refine ⟨?_, hof⟩
      rw [hcf, decide_eq_true_eq]
      exact ne_toInt_ofInt_iff_overflows ..

/-- Two- or three-operand `imul` completes with the signed product `p` (41_muldiv.md R251, R254, R255). -/
def ImulTruncEnds (i : Instr) {w : Width} (r : Reg) (src : Operand w) (p : Int) (s : State) : Prop :=
  ∃ (fl : Flags) (k : Nat),
    exec i s = .next { src.readDone s with
      regs := s.regs.write w r (BitVec.ofInt w.bits p)
      flags := fl
      drawn := imulTruncDrawn s.cfg.imulTrunc s.drawn
      pc := s.pc + BitVec.ofNat 32 i.len
      draws := k } ∧
    (s.cfg.imulTrunc = .unchanged → fl = s.flags) ∧
    (s.cfg.imulTrunc = .ia32 → (fl.cf = true ↔ overflows w.bits p) ∧ fl.of = fl.cf)

theorem ImulTruncEnds.of_handler {i : Instr} {w : Width} {r : Reg} {src : Operand w} {p : Int} {s : State}
    {x : Except Reason State} (hexec : exec i s = retire i s x)
    (hx : ∃ (fl : Flags) (k : Nat), x = .ok { (Operand.reg r).put (BitVec.ofInt w.bits p) (src.readDone s) with
        flags := fl, drawn := imulTruncDrawn s.cfg.imulTrunc s.drawn, draws := k } ∧
      (s.cfg.imulTrunc = .unchanged → fl = s.flags) ∧
      (s.cfg.imulTrunc = .ia32 → fl.cf = decide (p ≠ (BitVec.ofInt w.bits p).toInt) ∧ fl.of = fl.cf)) :
    ImulTruncEnds i r src p s := by
  obtain ⟨fl, k, rfl, hkeep, hia32⟩ := hx
  refine ⟨fl, k, ?_, hkeep, fun hmode => ?_⟩
  · rw [hexec]
    simp only [retire_ok, Operand.put_reg, State.setReg, Operand.readDone_regs]
    rfl
  · obtain ⟨hcf, hof⟩ := hia32 hmode
    refine ⟨?_, hof⟩
    rw [hcf, decide_eq_true_eq]
    exact ne_toInt_ofInt_iff_overflows ..

/-- Settles O44: two-operand `imul` multiplies the destination register by the operand, the others the operand by an
immediate. -/
theorem imulTruncResult : Obligations.ImulTruncResult := by
  unfold Obligations.ImulTruncResult
  intro i o r rm a s hform hs
  show ImulTruncEnds i r (rmOperand o.width rm s) _ s
  obtain ⟨rfl, rfl⟩ | hform := hform
  · exact .of_handler rfl (handleImul2_ok (dst := .reg r) rfl trivial hs)
  · have himm := handleImul3_ok (dst := .reg r) rfl trivial hs (src2 := .imm a) trivial
    rw [Int.mul_comm]
    obtain ⟨imm, rfl, rfl⟩ | ⟨v, rfl, rfl, rfl⟩ | ⟨v, rfl, rfl, rfl⟩ := hform <;> exact .of_handler rfl himm

/-! ### Quotients -/

/-- A divide whose operand is read ends with the divide error `err`, or with quotient `q` and remainder `r` in the pair
(41_muldiv.md R257, R258). -/
def DivideEnds (i : Instr) {w : Width} (src : Operand w) (err : Option DivideCause) (q r : BitVec w.bits) (s : State) :
    Prop :=
  match err with
  | some c => exec i s = .next { s with status := .halted ⟨.divideError c, s.pc⟩ }
  | none => ∃ (fl : Flags) (k : Nat), exec i s = .next { src.readDone s with
      regs := s.regs.setQuotient w q r
      flags := fl
      drawn := { cf := true, zf := true, sf := true, of := true }
      pc := s.pc + BitVec.ofNat 32 i.len
      draws := k }

namespace DivideEnds

variable {i : Instr} {w : Width} {src : Operand w} {q r : BitVec w.bits} {s : State}

theorem of_error {c : DivideCause} (h : exec i s = retire i s (.error (.divideError c))) :
    DivideEnds i src (some c) q r s := h

theorem of_ok {fl : Flags} {k : Nat} (h : exec i s = retire i s (.ok { (src.readDone s).setPair w r q with
    flags := fl, drawn := ⟨true, true, true, true⟩, draws := k })) : DivideEnds i src none q r s := by
  refine ⟨fl, k, ?_⟩
  rw [h]
  simp only [retire_ok, State.setPair, State.setReg, Operand.readDone_regs, Regs.write_pair_eq_setQuotient]
  rfl

end DivideEnds

theorem exec_div_divideEnds (f : EForm) {s : State} (hs : (f.op s).admitted s) {x : BitVec f.width.bits}
    (hx : (f.op s).value s = x) :
    DivideEnds f.divInstr (f.op s) (divError x s) (BitVec.ofNat _ (dividend f.width s / x.toNat))
      (BitVec.ofNat _ (dividend f.width s % x.toNat)) s := by
  subst hx
  have hexec := exec_div f s
  have hcases := handleDiv_cases hs
  simp only [pair_toNat] at hcases
  obtain ⟨hzero, hoverflow, hnone⟩ := divError_cases ((f.op s).value s) s
  obtain ⟨hx, hok⟩ | ⟨hx, hq, hok⟩ | ⟨hx, hq, fl, k, hok⟩ := hcases <;> rw [hok] at hexec
  · rw [hzero hx]
    exact .of_error hexec
  · rw [hoverflow hx hq]
    exact .of_error hexec
  · rw [hnone hx hq]
    exact .of_ok hexec

theorem exec_idiv_divideEnds (f : EForm) {s : State} (hs : (f.op s).admitted s) {x : BitVec f.width.bits}
    (hx : (f.op s).value s = x) :
    DivideEnds f.idivInstr (f.op s) (idivError x s) (BitVec.ofInt _ ((signedDividend f.width s).tdiv x.toInt))
      (BitVec.ofInt _ ((signedDividend f.width s).tmod x.toInt)) s := by
  subst hx
  have hexec := exec_idiv f s
  have hcases := handleIdiv_cases hs
  simp only [pair_toInt, ← Int.tmod_def] at hcases
  obtain ⟨hzero, hoverflow, hnone⟩ := idivError_cases ((f.op s).value s) s
  obtain ⟨hx, hok⟩ | ⟨hx, hq, hok⟩ | ⟨hx, hq, fl, k, hok⟩ := hcases <;> rw [hok] at hexec
  · rw [hzero hx]
    exact .of_error hexec
  · rw [hoverflow hx hq]
    exact .of_error hexec
  · rw [hnone hx hq]
    exact .of_ok hexec

/-- Settles O45: each statement is one case of the ways a divide ends. -/
theorem divideResult : Obligations.DivideResult := by
  unfold Obligations.DivideResult
  intro f s hs n x N M done
  have hdiv := exec_div_divideEnds f hs (x := x) rfl
  have hidiv := exec_idiv_divideEnds f hs (x := x) rfl
  refine ⟨fun c hc => ?_, fun c hc => ?_, fun hc => ?_, fun hc => ?_⟩
  · rw [hc] at hdiv
    exact hdiv
  · rw [hc] at hidiv
    exact hidiv
  · rw [hc] at hdiv
    exact hdiv
  · rw [hc] at hidiv
    exact hidiv

/-! ### The divide identity -/

theorem divError_eq_none_iff {w : Width} (x : BitVec w.bits) (s : State) :
    divError x s = none ↔ x.toNat ≠ 0 ∧ dividend w s / x.toNat < 2 ^ w.bits := by
  obtain ⟨hzero, hoverflow, hnone⟩ := divError_cases x s
  grind

theorem idivError_eq_none_iff {w : Width} (x : BitVec w.bits) (s : State) :
    idivError x s = none ↔ x.toInt ≠ 0 ∧ ¬ overflows w.bits ((signedDividend w s).tdiv x.toInt) := by
  obtain ⟨hzero, hoverflow, hnone⟩ := idivError_cases x s
  grind

/-- The high half's register in the words of the statement. -/
theorem pairHigh_eq_ite (w : Width) : pairHigh w = if w = .w1 then .esp else .edx := by cases w <;> rfl

/-- A divide that completes leaves quotient and remainder in the pair, and has no divide error. -/
theorem DivideEnds.of_running {i : Instr} {w : Width} {src : Operand w} {err : Option DivideCause} {q r : BitVec w.bits}
    {s t : State} (h : DivideEnds i src err q r s) (hexec : exec i s = .next t) (hrun : t.status = .running) :
    err = none ∧ t.regs.read w .eax = q ∧ t.regs.read w (if w = .w1 then .esp else .edx) = r := by
  unfold DivideEnds at h
  split at h
  · rw [hexec] at h
    cases h
    cases hrun
  · obtain ⟨fl, k, h⟩ := h
    rw [hexec] at h
    cases h
    rw [← pairHigh_eq_ite, ← Regs.write_pair_eq_setQuotient, Regs.read_eax_write_pairHigh, Regs.read_write_same,
      Regs.read_write_same]
    exact ⟨rfl, rfl, rfl⟩

/-- A divide that completes has read its operand. -/
theorem admitted_of_divide {i : Instr} {w : Width} {src : Operand w} {s t : State} (hexec : exec i s = .next t)
    (hrun : t.status = .running)
    (hanswers : exec i s = retire i s (handleDiv src s) ∨ exec i s = retire i s (handleIdiv src s)) :
    src.admitted s := by
  by_contra hs
  obtain ⟨a, rfl, hrefused⟩ := Operand.refused hs
  simp only [handleDiv, handleIdiv, Operand.read_refused hrefused, error_bind, or_self, hexec] at hanswers
  cases hanswers
  cases hrun

theorem toInt_ofInt_of_not_overflows {w : Width} {p : Int} (h : ¬ overflows w.bits p) :
    (BitVec.ofInt w.bits p).toInt = p :=
  (not_ne_iff.1 (mt (ne_toInt_ofInt_iff_overflows w p).1 h)).symm

/-- A remainder fits, being smaller than the divisor. -/
theorem not_overflows_of_natAbs_lt {w : Width} {x : BitVec w.bits} {p : Int} (h : p.natAbs < x.toInt.natAbs) :
    ¬ overflows w.bits p := by
  have hlow := x.le_toInt
  have hhigh := x.toInt_lt
  rw [overflows]
  cases w <;> simp only [Width.bits] at x h hlow hhigh ⊢ <;> omega

/-- The remainder of a division that rounds toward zero is zero or has the dividend's sign. -/
theorem tmod_eq_zero_or_neg_iff (a b : Int) : a.tmod b = 0 ∨ (a.tmod b < 0 ↔ a < 0) := by
  have hsign := Int.sign_tmod a b
  split at hsign
  · exact .inl (Int.sign_eq_zero_iff_zero.1 hsign)
  · right
    rw [← Int.sign_eq_neg_one_iff_neg, hsign, Int.sign_eq_neg_one_iff_neg]

/-- Settles O46: the quotient and the remainder fit their registers, so they read back as the exact ones. -/
theorem divideIdentity : Obligations.DivideIdentity := by
  unfold Obligations.DivideIdentity
  intro f s t _ hrun w q r
  refine ⟨fun hexec => ?_, fun hexec => ?_⟩
  · intro x
    have hs := admitted_of_divide hexec hrun (.inl (exec_div f s))
    obtain ⟨herr, hq, hr⟩ := (exec_div_divideEnds f hs rfl).of_running hexec hrun
    obtain ⟨hx, hlt⟩ := (divError_eq_none_iff ..).1 herr
    have hmod := Nat.mod_lt (dividend w s) (Nat.pos_of_ne_zero hx)
    have hqn : q.toNat = dividend w s / x :=
      (congrArg BitVec.toNat hq).trans ((BitVec.toNat_ofNat ..).trans (Nat.mod_eq_of_lt hlt))
    have hrn : r.toNat = dividend w s % x :=
      (congrArg BitVec.toNat hr).trans
        ((BitVec.toNat_ofNat ..).trans (Nat.mod_eq_of_lt (hmod.trans (BitVec.isLt _))))
    rw [hqn, hrn]
    exact ⟨(Nat.div_add_mod' _ _).symm, hmod⟩
  · intro x
    have hs := admitted_of_divide hexec hrun (.inr (exec_idiv f s))
    obtain ⟨herr, hq, hr⟩ := (exec_idiv_divideEnds f hs rfl).of_running hexec hrun
    obtain ⟨hx, hfits⟩ := (idivError_eq_none_iff ..).1 herr
    have hmod : ((signedDividend w s).tmod x).natAbs < x.natAbs := by
      rw [Int.natAbs_tmod]
      exact Nat.mod_lt _ (Int.natAbs_pos.2 hx)
    have hqn : q.toInt = (signedDividend w s).tdiv x :=
      (congrArg BitVec.toInt hq).trans (toInt_ofInt_of_not_overflows hfits)
    have hrn : r.toInt = (signedDividend w s).tmod x :=
      (congrArg BitVec.toInt hr).trans (toInt_ofInt_of_not_overflows (not_overflows_of_natAbs_lt hmod))
    rw [hqn, hrn]
    exact ⟨(Int.tdiv_mul_add_tmod _ _).symm, hmod, tmod_eq_zero_or_neg_iff _ _⟩

end Sys2Proof.Machine
end

section
/-! PROOFS of the results of data movement, the system instructions and control transfer (42_datamove.md, 43_system.md,
45_control_gk.md). -/

namespace Sys2Proof.Machine

/-! ### Data movement -/

theorem exec_mov (f : MovForm) (s : State) :
    exec f.instr s = retire f.instr s (handleMov (f.dst s) (f.src s) s) := by cases f <;> rfl

@[simp] theorem MovForm.dst_isPlace (f : MovForm) (s : State) : (f.dst s).isPlace = true := by
  cases f with
  | gbEb | gvEv | alOb | eaxOv | obAL | ovEAX | rbIb | rvIv => rfl
  | ebGb | evGv | ebIb | evIv => exact rmOperand_isPlace ..

/-- Settles O47, by what the handler answers. -/
theorem movResult : Obligations.MovResult := by
  unfold Obligations.MovResult
  intro f s hd hs
  rw [exec_mov, handleMov_ok (f.dst_isPlace s) hd hs]
  rfl

section

variable {i : Instr} {o : OSize} {r : Reg} {w : Width} {src : Operand w} {s : State}

theorem movsx_of_handler (hs : src.admitted s)
    (hexec : exec i s = retire i s (handleMovsx (v := o.width) (.reg r) src s)) :
    exec i s = .next { src.readDone s with
      regs := s.regs.write o.width r (BitVec.ofInt o.width.bits (src.value s).toInt)
      pc := s.pc + BitVec.ofNat 32 i.len } := by
  rw [hexec, handleMovsx_ok rfl (Operand.admitted_reg ..) hs]
  simp only [retire_ok, Operand.put_reg, State.setReg, Operand.readDone_regs]
  rfl

theorem movzx_of_handler (hs : src.admitted s)
    (hexec : exec i s = retire i s (handleMovzx (v := o.width) (.reg r) src s)) :
    exec i s = .next { src.readDone s with
      regs := s.regs.write o.width r (BitVec.ofNat o.width.bits (src.value s).toNat)
      pc := s.pc + BitVec.ofNat 32 i.len } := by
  rw [hexec, handleMovzx_ok rfl (Operand.admitted_reg ..) hs, BitVec.ofNat_toNat]
  simp only [retire_ok, Operand.put_reg, State.setReg, Operand.readDone_regs]
  rfl

end

/-- Settles O49: extension is the signed or unsigned value at the new width. -/
theorem extendResult : Obligations.ExtendResult := by
  unfold Obligations.ExtendResult
  intro o r rm s
  exact ⟨fun hs => ⟨movsx_of_handler hs rfl, movzx_of_handler hs rfl⟩,
    fun hs => ⟨movsx_of_handler hs rfl, movzx_of_handler hs rfl⟩⟩

/-! ### The stack -/

theorem exec_push (f : PushForm) (s : State) :
    exec f.instr s = retire f.instr s (handlePush f.osz (f.src s) s) := by cases f <;> rfl

/-- Settles O50, by what the handler answers. -/
theorem pushResult : Obligations.PushResult := by
  unfold Obligations.PushResult
  intro f s hs hslot
  obtain ⟨word, k, hok, hword⟩ := handlePush_ok hs hslot
  refine ⟨word, k, ?_, hword⟩
  rw [exec_push, hok]
  rfl

theorem exec_pop (f : PopForm) (s : State) (hw : f.instr.wellFormed = true) :
    exec f.instr s = retire f.instr s (handlePop f.osz (f.dst s) s) := by
  cases f with
  | rv => rfl
  | ev o rm =>
    obtain ⟨-, hesp⟩ : rm.wellFormed = true ∧ rm.usesEsp = false := by
      simpa [PopForm.instr, Instr.wellFormed] using hw
    show execPopEv o rm s = _
    rw [execPopEv, hesp]
    rfl

@[simp] theorem PopForm.dst_isPlace (f : PopForm) (s : State) : (f.dst s).isPlace = true := by
  cases f with
  | rv => rfl
  | ev => exact rmOperand_isPlace ..

/-- Settles O51, by what the handlers answer. -/
theorem popLeaveResult : Obligations.PopLeaveResult := by
  unfold Obligations.PopLeaveResult
  intro f s
  refine ⟨fun hw hslot hd => ?_, fun hslot => ?_⟩
  · rw [exec_pop f s hw, handlePop_ok (f.dst_isPlace s) hslot hd]
    rfl
  · show retire .leave s (handleLeave s) = _
    rw [handleLeave_ok hslot]
    rfl

/-! ### System and ports -/

/-- Settles O53, by what the handler answers. -/
theorem lidtResult : Obligations.LidtResult := by
  unfold Obligations.LidtResult
  intro p m s a s1 hlimit hbase
  show retire (.lidtM p m) s (handleLidt m s) = _
  rw [handleLidt_ok hlimit hbase]
  rfl

section

variable (f : PortForm) (s : State)

theorem exec_in : exec f.inInstr s = retire f.inInstr s (.ok (handleIn f.width (f.port s) s)) := by cases f <;> rfl
theorem exec_out : exec f.outInstr s = retire f.outInstr s (.ok (handleOut f.width (f.port s) s)) := by cases f <;> rfl

end

theorem setWidth_byte_eq_and (x : Word) : (x.setWidth 8).setWidth 32 = x &&& 0xFF := by
  have hand : (x &&& 0xFF).toNat = x.toNat % 2 ^ 8 :=
    (BitVec.toNat_and ..).trans (Nat.and_two_pow_sub_one_eq_mod x.toNat 8)
  apply BitVec.eq_of_toNat_eq
  rw [hand, BitVec.toNat_setWidth, BitVec.toNat_setWidth]
  omega

/-- The low byte of the accumulator, whatever the width. -/
theorem Regs.setWidth_byte_read_eax (x : Regs) (w : Width) : (x.read w .eax).setWidth 8 = x.eax.setWidth 8 := by
  cases w with
  | w1 => rw [Regs.read_w1_eax]; exact BitVec.setWidth_eq _
  | w2 => rw [Regs.read_w2_eq_setWidth]; exact BitVec.setWidth_setWidth_of_le _ (by decide)
  | w4 => rfl

/-- Settles O54: every port access answers, in each mode. -/
theorem portResult : Obligations.PortResult := by
  unfold Obligations.PortResult
  intro f s
  refine ⟨⟨_, by rw [exec_in]; rfl⟩, fun hmode => ?_, fun hmode => ?_⟩
  · rw [exec_out, handleOut, hmode]
    rfl
  · rw [exec_out, handleOut, hmode, ← setWidth_byte_eq_and, ← s.regs.setWidth_byte_read_eax f.width]
    rfl

/-! ### Conditions -/

section

variable (f : Flags)

theorem condHolds_a : condHolds .a f = !(f.cf || f.zf) := (Bool.not_or f.cf f.zf).symm

theorem condHolds_l : condHolds .l f = (f.sf ^^ f.of) := rfl

theorem condHolds_ge : condHolds .ge f = !(f.sf ^^ f.of) := by
  simp only [condHolds]
  cases f.sf <;> cases f.of <;> rfl

theorem condHolds_le : condHolds .le f = (f.zf || (f.sf ^^ f.of)) := congrArg (f.zf || ·) (condHolds_l f)

theorem condHolds_g : condHolds .g f = !(f.zf || (f.sf ^^ f.of)) := by
  rw [Bool.not_or, ← condHolds_ge]
  rfl

end

/-- Settles O55: each number is one row of the table, written there with the sign flags' exclusive or. -/
theorem conditionCodes : Obligations.ConditionCodes := by
  unfold Obligations.ConditionCodes
  intro f d cond
  have row (b b' drawn : Bool) (h : b = b') : some (b, drawn) = some (b', drawn) := congrArg _ (congrArg (·, drawn) h)
  exact ⟨rfl, rfl, rfl, rfl, rfl, rfl, rfl, row _ _ _ (condHolds_a f), rfl, rfl, rfl, rfl, row _ _ _ (condHolds_l f),
    row _ _ _ (condHolds_ge f), row _ _ _ (condHolds_le f), row _ _ _ (condHolds_g f)⟩

/-- Settles O59: the condition is given or drawn; `nop` moves pc by its length. -/
theorem setccNopResult : Obligations.SetccNopResult := by
  unfold Obligations.SetccNopResult
  intro p cc reg rm s
  refine ⟨fun hd => ⟨fun hcond => ?_, fun hcond => ?_⟩, ?_⟩
  · show retire _ s (handleSetcc cc (rmOperand .w1 rm s) s) = _
    rw [handleSetcc_ok (rmOperand_isPlace ..) hd, evalCond_given hcond]
    rfl
  · show retire _ s (handleSetcc cc (rmOperand .w1 rm s) s) = _
    rw [handleSetcc_ok (rmOperand_isPlace ..) hd, evalCond_drawn hcond]
    rfl
  · cases p <;> rfl

/-! ### Control transfer -/

theorem exec_jccJb (cc : Cond) (disp : Byte) (s : State) :
    exec (.jccJb cc disp) s = .next (handleJcc cc (s.pc + 2) (s.pc + 2 + disp.signExtend 32) s) := rfl

theorem exec_jccJd (cc : Cond) (disp : Word) (s : State) :
    exec (.jccJd cc disp) s = .next (handleJcc cc (s.pc + 6) (s.pc + 6 + disp) s) := rfl

/-- Settles O56: the condition is given or drawn; an indirect jump reads its operand. -/
theorem jumpResult : Obligations.JumpResult := by
  unfold Obligations.JumpResult
  intro cc d8 d32 rm s target8 target32
  refine ⟨fun hcond => ⟨?_, ?_⟩, fun hcond => ⟨?_, ?_⟩, ?_, ?_, fun hs => ?_⟩
  · rw [exec_jccJb, handleJcc, evalCond_given hcond]
    rfl
  · rw [exec_jccJd, handleJcc, evalCond_given hcond]
    rfl
  · rw [exec_jccJb, handleJcc, evalCond_drawn hcond]
    rfl
  · rw [exec_jccJd, handleJcc, evalCond_drawn hcond]
    rfl
  · rfl
  · rfl
  · show transfer s (handleJmp (rmOperand .w4 rm s) s) = _
    rw [handleJmp_ok hs]
    rfl

/-- Settles O57, by what the handlers answer. -/
theorem callRetResult : Obligations.CallRetResult := by
  unfold Obligations.CallRetResult
  intro disp rm s
  refine ⟨fun hslot => ⟨?_, fun hs => ?_⟩, fun hslot => ?_⟩
  · show transfer s (handleCall _ (.imm _) s) = _
    rw [handleCall_ok (Operand.admitted_imm ..) hslot]
    rfl
  · show transfer s (handleCall _ (rmOperand .w4 rm s) s) = _
    rw [handleCall_ok hs hslot]
    rfl
  · show transfer s (handleRet s) = _
    rw [handleRet_ok hslot]
    rfl

end Sys2Proof.Machine
end

section
/-! PROOFS of the statements about memory accesses (20_memory.md). -/

namespace Sys2Proof.Machine

/-! ### The bytes of an access -/

theorem touched_eq_map (w : Width) (a : Word) :
    touched w a = (List.range w.bytes).map fun k => a + BitVec.ofNat 32 k := by
  cases w <;> exact congrArg (· :: _) (BitVec.add_zero a).symm

theorem mem_touched_iff {w : Width} {a c : Word} :
    c ∈ touched w a ↔ ∃ k, k < w.bytes ∧ a + BitVec.ofNat 32 k = c := by
  rw [touched_eq_map, List.mem_map]
  simp only [List.mem_range]

theorem all_touched_iff {w : Width} {a : Word} {p : Word → Bool} :
    (touched w a).all p = true ↔ ∀ k, k < w.bytes → p (a + BitVec.ofNat 32 k) = true := by
  simp only [touched_eq_map, List.all_map, List.all_eq_true, List.mem_range, Function.comp_apply]

theorem extract_readRam (m : Memory) (w : Width) (a : Word) {k : Nat} (hk : k < w.bytes) :
    (readRam m w a).extractLsb' (8 * k) 8 = m.byte (a + BitVec.ofNat 32 k).toNat := by
  have hzero : a + BitVec.ofNat 32 0 = a := BitVec.add_zero a
  cases w with
  | w1 =>
    obtain rfl : k = 0 := Nat.lt_one_iff.1 hk
    rw [hzero]
    exact BitVec.extractLsb'_eq_self
  | w2 =>
    obtain ⟨h0, h1⟩ := half_bytes (m.byte a.toNat) (m.byte (a + 1).toNat)
    match k, hk with
    | 0, _ => rwa [hzero]
    | 1, _ => exact h1
  | w4 =>
    obtain ⟨h0, h1, h2, h3⟩ :=
      word_bytes (m.byte a.toNat) (m.byte (a + 1).toNat) (m.byte (a + 2).toNat) (m.byte (a + 3).toNat)
    match k, hk with
    | 0, _ => rwa [hzero]
    | 1, _ => exact h1
    | 2, _ => exact h2
    | 3, _ => exact h3

/-- Settles O29: the bytes of a word written are those that reading it back gives. -/
theorem memoryBytes : Obligations.MemoryBytes := by
  unfold Obligations.MemoryBytes
  intro m w a v b hwf
  refine ⟨fun k hk => ⟨extract_readRam m w a hk, ?_⟩, fun hb => byte_writeRam_other m w a v ?_⟩
  · rw [← extract_readRam _ w a hk, readRam_writeRam_same w a v hwf]
  · rw [mem_touched_iff]
    rintro ⟨k, hk, rfl⟩
    have hk32 : k < 2 ^ 32 := by cases w <;> simp only [Width.bytes] at hk <;> omega
    have hsub : (a + BitVec.ofNat 32 k - a).toNat = k := by
      rw [BitVec.add_comm, BitVec.add_sub_cancel, BitVec.toNat_ofNat, Nat.mod_eq_of_lt hk32]
    omega

/-! ### Admission -/

theorem isMmio_iff (c : Config) (a : Word) :
    isMmio c a = true ↔ ∃ r ∈ c.mmio, r.base ≤ a.toNat ∧ a.toNat < r.base + r.size := by
  simp only [isMmio, List.any_eq_true, Bool.and_eq_true, decide_eq_true_eq]

theorem isRam_iff (c : Config) (a : Word) :
    isRam c a = true ↔ c.pmemBase ≤ a.toNat ∧ a.toNat < c.pmemBase + c.pmemSize ∧ isMmio c a = false := by
  simp only [isRam, inPmem, Bool.and_eq_true, decide_eq_true_eq, Bool.not_eq_true', and_assoc]

theorem admission_eq_ram_iff (c : Config) (w : Width) (a : Word) :
    admission c w a = some .ram ↔ ∀ k, k < w.bytes → isRam c (a + BitVec.ofNat 32 k) = true := by
  rw [← all_touched_iff, admission]
  split
  · simp [*]
  · split <;> simp [*]

/-- No byte is RAM and MMIO, so an access to RAM does not go to MMIO. -/
theorem admission_eq_mmio_iff (c : Config) (w : Width) (a : Word) :
    admission c w a = some .mmio ↔ ∀ k, k < w.bytes → isMmio c (a + BitVec.ofNat 32 k) = true := by
  rw [← all_touched_iff, admission]
  split
  · next hram =>
    have hbytes : 0 < w.bytes := by cases w <;> decide
    obtain ⟨-, -, hnot⟩ := (isRam_iff c _).1 (all_touched_iff.1 hram 0 hbytes)
    refine ⟨nofun, fun hmmio => ?_⟩
    rw [all_touched_iff.1 hmmio 0 hbytes] at hnot
    cases hnot
  · split <;> simp [*]

/-- Settles O30: the admission of an access byte by byte, and what the memory operations answer. -/
theorem accessAdmission : Obligations.AccessAdmission := by
  unfold Obligations.AccessAdmission
  intro s w a v
  have hram := admission_eq_ram_iff s.cfg w a
  have hmmio := admission_eq_mmio_iff s.cfg w a
  refine ⟨isMmio_iff s.cfg a, isRam_iff s.cfg a, hram, hmmio, ?_, fun h => ⟨memRead_refused h, memWrite_refused h⟩,
    fun h => ⟨memRead_ok h, memWrite_ok h⟩⟩
  rw [← hram, ← hmmio]
  generalize admission s.cfg w a = x
  obtain _ | _ | _ := x <;> simp

/-- Settles O31: the memory operations where the access goes to MMIO. -/
theorem mmioAccess : Obligations.MmioAccess := by
  unfold Obligations.MmioAccess
  intro s w a v h
  simp only [memRead, memWrite, h]
  exact ⟨⟨_, rfl⟩, rfl⟩

end Sys2Proof.Machine
end

section
/-! PROOFS that the stack gives back what was put on it (42_datamove.md R314, 45_control_gk.md R442), and of the runs of
the machine (70_reset_and_hazards.md R612). -/

namespace Sys2Proof.Machine

/-! ### A slot in RAM -/

theorem loadValue_ram {w : Width} {a : Word} {s : State} (h : admission s.cfg w a = some .ram) :
    loadValue w a s = readRam s.mem w a := by simp [loadValue, h]

theorem readRam_storeDone {w : Width} {a : Word} {s : State} (h : admission s.cfg w a = some .ram)
    (hwf : s.mem.wf = true) (v : BitVec w.bits) : readRam (storeDone w a v s).mem w a = v := by
  simp only [storeDone, h]
  exact readRam_writeRam_same w a v hwf

/-- `word` stands in the slot that a push from `s` has made in RAM (42_datamove.md R304). -/
structure Pushed (s t : State) (word : Word) : Prop where
  admitted : admission t.cfg .w4 t.regs.esp = some .ram
  regs : t.regs = { s.regs with esp := s.regs.esp - 4 }
  slot : readRam t.mem .w4 t.regs.esp = word
  cfg : t.cfg = s.cfg
  status : t.status = s.status

namespace Pushed

variable {s t : State} {word : Word}

theorem esp (h : Pushed s t word) : t.regs.esp = s.regs.esp - 4 := by rw [h.regs]

theorem setPc (h : Pushed s t word) (a : Word) : Pushed s (t.setPc a) word := ⟨h.1, h.2, h.3, h.4, h.5⟩

/-- Popping the slot moves ESP back. -/
theorem popped_regs (h : Pushed s t word) : { t.regs with esp := t.regs.esp + 4 } = s.regs := by
  rw [h.regs, BitVec.sub_add_cancel]

/-- A store to the slot, with ESP moved to it and pc, flags and draws of any value. -/
theorem of_store {s' : State} (hslot : admission s.cfg .w4 (s.regs.esp - 4) = some .ram) (hwf : s.mem.wf = true)
    (hcfg : s'.cfg = s.cfg) (hmem : s'.mem = s.mem) (hstatus : s'.status = s.status) (pc : Word) (k : Nat) :
    Pushed s { storeDone .w4 (s.regs.esp - 4) word s' with
      regs := { s.regs with esp := s.regs.esp - 4 }, pc := pc, draws := k } word where
  admitted := by simpa [hcfg] using hslot
  regs := rfl
  slot := readRam_storeDone (hcfg ▸ hslot) (hmem ▸ hwf) word
  cfg := by simpa using hcfg
  status := by simpa using hstatus

end Pushed

/-! ### push, then pop -/

theorem Regs.ext_get {x y : Regs} (h : ∀ r, x.get r = y.get r) : x = y := by
  obtain ⟨_, _, _, _, _, _, _, _⟩ := x
  obtain ⟨_, _, _, _, _, _, _, _⟩ := y
  simp only [Regs.mk.injEq]
  exact ⟨h .eax, h .ecx, h .edx, h .ebx, h .esp, h .ebp, h .esi, h .edi⟩

/-- Writing a register the value it holds changes nothing. -/
theorem Regs.write_read_self (x : Regs) (w : Width) (i : Reg) : x.write w i (x.read w i) = x := by
  refine Regs.ext_get fun r => BitVec.eq_of_getLsbD_eq fun k _ => ?_
  rw [Regs.bit_write]
  split
  · next h =>
    obtain ⟨rfl, hlow, hhigh⟩ := (aliasBit_iff w i r k).1 h
    rw [Regs.bit_read _ _ _ (by omega), Nat.add_sub_cancel' hlow]
  · rfl

theorem Regs.get_setEsp (x : Regs) {r : Reg} (h : (r == .esp) = false) (v : Word) :
    Regs.get { x with esp := v } r = x.get r := x.get_set_other v (beq_eq_false_iff_ne.1 h)

/-- As an index, the number of ESP means none. -/
theorem indexValue_setEsp (x : Regs) (index : Reg) (scale : Scale) (v : Word) :
    indexValue { x with esp := v } index scale = indexValue x index scale := by cases index <;> rfl

theorem effAddr_setEsp (x : Regs) {m : MemOp} (h : m.usesEsp = false) (v : Word) :
    effAddr { x with esp := v } m = effAddr x m := by
  cases m with
  | abs => rfl
  | base b disp => simp only [effAddr, x.get_setEsp h]
  | sib scale index b disp => simp only [effAddr, x.get_setEsp h, indexValue_setEsp]
  | sibNoBase scale index disp => simp only [effAddr, indexValue_setEsp]

theorem rmOperand_setEsp {w : Width} {rm : RM} {s t : State} {v : Word} (h : rm.usesEsp = false)
    (hregs : t.regs = { s.regs with esp := v }) : rmOperand w rm t = rmOperand w rm s := by
  cases rm with
  | reg => rfl
  | mem m => exact congrArg Operand.mem (by rw [hregs, effAddr_setEsp _ h])

/-- Putting back the value of a register or memory operand leaves every register. -/
theorem Operand.put_value_regs {w : Width} (op : Operand w) {s t : State} (hregs : t.regs = s.regs) :
    (op.put (op.value s) t).regs = s.regs := by
  cases op with
  | reg i =>
    rw [Operand.put_reg, State.setReg_regs, hregs]
    exact s.regs.write_read_self w i
  | mem a => simp [Operand.put, hregs]
  | imm v => exact hregs

section

variable {o : OSize} {op : Operand o.width} {s t : State} {word : Word}

theorem handlePush_pushed (hwf : s.mem.wf = true) (hslot : admission s.cfg .w4 (s.regs.esp - 4) = some .ram)
    (hop : op.admitted s) :
    ∃ t word, handlePush o op s = .ok t ∧ Pushed s t word ∧ word.setWidth o.width.bits = op.value s := by
  obtain ⟨word, k, hpush, hword⟩ := handlePush_ok hop (by rw [hslot]; nofun)
  exact ⟨_, word, hpush, .of_store hslot hwf (by simp) (by simp) (by simp) _ k, hword⟩

theorem handlePop_pushed (h : Pushed s t word) (hword : word.setWidth o.width.bits = op.value s)
    (hp : op.isPlace = true) (hop : op.admitted s) :
    ∃ u, handlePop o op t = .ok u ∧ u.status = s.status ∧ u.regs = s.regs := by
  have hslot : admission t.cfg .w4 t.regs.esp ≠ none := by rw [h.admitted]; nofun
  refine ⟨_, handlePop_ok hp hslot ((op.admitted_congr h.cfg).2 hop), ?_, ?_⟩
  · simpa using h.status
  · rw [loadValue_ram h.admitted, h.slot, hword]
    exact op.put_value_regs h.popped_regs

end

/-- Settles O52: `pop` finds the word that `push` stored, in a state where its operand is the same one. -/
theorem pushPopRestores : Obligations.PushPopRestores := by
  unfold Obligations.PushPopRestores
  intro o r rm s hwf hslot
  refine ⟨?_, fun hesp hrm => ?_⟩
  · obtain ⟨t, word, hpush, hpushed, hword⟩ := handlePush_pushed (op := .reg r) hwf hslot trivial
    have hpushed := hpushed.setPc (nextPc (.pushRv o r) s)
    obtain ⟨u, hpop, hstatus, hregs⟩ := handlePop_pushed (op := .reg r) hpushed hword rfl trivial
    exact ⟨_, _, congrArg (retire _ s) hpush, hpushed.status, hpushed.esp, congrArg (retire _ _) hpop, hstatus, hregs⟩
  · obtain ⟨t, word, hpush, hpushed, hword⟩ := handlePush_pushed hwf hslot hrm
    have hpushed := hpushed.setPc (nextPc (.pushEv o rm) s)
    obtain ⟨u, hpop, hstatus, hregs⟩ := handlePop_pushed hpushed hword (rmOperand_isPlace ..) hrm
    have hexec : exec (.popEv o rm) (t.setPc (nextPc (.pushEv o rm) s)) =
        retire (.popEv o rm) (t.setPc (nextPc (.pushEv o rm) s)) (.ok u) := by
      show execPopEv o rm _ = _
      rw [execPopEv, hesp, rmOperand_setEsp hesp hpushed.regs, hpop]
      rfl
    exact ⟨_, _, congrArg (retire _ s) hpush, hpushed.status, hpushed.esp, hexec, hstatus, hregs⟩

/-! ### call, then ret -/

theorem call_pushed {i : Instr} {s t : State} (hwf : s.mem.wf = true)
    (hslot : admission s.cfg .w4 (s.regs.esp - 4) = some .ram)
    (hi : (∃ disp, i = .callJd disp) ∨ ∃ rm, i = .callEd rm ∧ (rmOperand .w4 rm s).admitted s)
    (h : exec i s = .next t) : Pushed s t (s.pc + BitVec.ofNat 32 i.len) := by
  have hadmitted : admission s.cfg .w4 (s.regs.esp - 4) ≠ none := by rw [hslot]; nofun
  obtain ⟨disp, rfl⟩ | ⟨rm, rfl, hrm⟩ := hi
  · rw [((callRetResult disp (.reg .eax) s).1 hadmitted).1] at h
    cases h
    exact .of_store hslot hwf rfl rfl rfl _ _
  · rw [((callRetResult 0 rm s).1 hadmitted).2 hrm] at h
    cases h
    exact .of_store hslot hwf (by simp) (by simp) (by simp) _ _

/-- Settles O58: the slot still holds the address after the call when `ret` reads it. -/
theorem callThenRet : Obligations.CallThenRet := by
  unfold Obligations.CallThenRet
  intro i s t u hwf hslot hi hcall hcfg hesp hkept
  have hpushed := call_pushed hwf hslot hi hcall
  have hram : admission u.cfg .w4 u.regs.esp = some .ram := by rw [hcfg, hesp, hpushed.admitted]
  have hword : loadValue .w4 u.regs.esp u = s.pc + BitVec.ofNat 32 i.len := by
    rw [loadValue_ram hram, hesp, readRam_congr hkept, hpushed.slot]
  refine ⟨_, (callRetResult 0 (.reg .eax) u).2 (by rw [hram]; nofun), hword, ?_⟩
  show u.regs.esp + 4 = s.regs.esp
  rw [hesp, hpushed.esp, BitVec.sub_add_cancel]

/-! ### Runs -/

theorem step_runSteps {k : Nat} {s : State} (h : (runSteps k s).status = .running) :
    step (runSteps k s) = .next (runSteps (k + 1) s) := by
  induction k generalizing s with
  | zero =>
    obtain ⟨t, ht⟩ := (stepsIffRunning s).2 h
    rw [runSteps_of_next ht]
    exact ht
  | succ k ih =>
    cases hs : s.status with
    | halted r =>
      rw [runSteps_of_halted hs, hs] at h
      cases h
    | running =>
      obtain ⟨t, ht⟩ := (stepsIffRunning s).2 hs
      rw [runSteps_of_next ht] at h ⊢
      rw [runSteps_of_next ht]
      exact ih h

/-- A halted core stays as it is, however many more steps are asked for. -/
theorem runSteps_eq_of_halted {n m : Nat} {s : State} {r : FaultRecord} (h : (runSteps n s).status = .halted r)
    (hm : n ≤ m) : runSteps m s = runSteps n s := by
  induction n generalizing s m with
  | zero => exact runSteps_of_halted h m
  | succ n ih =>
    obtain ⟨m, rfl⟩ := Nat.exists_eq_succ_of_ne_zero (Nat.ne_of_gt (Nat.lt_of_lt_of_le n.succ_pos hm))
    cases hs : s.status with
    | halted r' => rw [runSteps_of_halted hs, runSteps_of_halted hs]
    | running =>
      obtain ⟨t, ht⟩ := (stepsIffRunning s).2 hs
      rw [runSteps_of_next ht] at h ⊢
      rw [runSteps_of_next ht]
      exact ih h (Nat.le_of_succ_le_succ hm)

/-- A run that halted did so in one of its steps. -/
theorem exists_last_step {n : Nat} {s : State} {r : FaultRecord} (hs : s.status = .running)
    (h : (runSteps n s).status = .halted r) :
    ∃ k, k < n ∧ (runSteps k s).status = .running ∧ step (runSteps k s) = .next (runSteps n s) := by
  induction n with
  | zero =>
    rw [runSteps_zero, hs] at h
    cases h
  | succ n ih =>
    cases hn : (runSteps n s).status with
    | running => exact ⟨n, n.lt_succ_self, hn, step_runSteps hn⟩
    | halted r' =>
      have hsame := runSteps_eq_of_halted hn n.le_succ
      rw [hsame] at h
      obtain ⟨k, hk, hrun, hstep⟩ := ih h
      exact ⟨k, hk.trans n.lt_succ_self, hrun, hsame ▸ hstep⟩

/-- Settles O60: while the core runs the run takes another step, and a halted core stays as it is. -/
theorem runEnds : Obligations.RunEnds := by
  unfold Obligations.RunEnds
  refine ⟨fun s n hs => ⟨fun k => step_runSteps, ?_, fun r hr => ?_⟩, fun _ _ => rfl⟩
  · rw [State.runEnd_eq_budgetUsed]
    refine ⟨fun hn k hk => ?_, fun h => h n le_rfl⟩
    cases hstatus : (runSteps k s).status with
    | running => rfl
    | halted r =>
      rw [runSteps_eq_of_halted hstatus hk, hstatus] at hn
      cases hn
  · rw [State.runEnd_eq_halted] at hr
    obtain ⟨k, hk, hrun, hstep⟩ := exists_last_step hs hr
    exact ⟨⟨k, hk, hrun, hstep, hr⟩, fun m => runSteps_eq_of_halted hr⟩

end Sys2Proof.Machine
end
